-- ==== Sys2Proof/Word.lean ====
section
/-! DEFINITION. Word.lean: the bit-vector types of the decode block (00_scope.md rule R8 names the widths). -/

namespace Sys2Proof

/-- A byte of data memory, of a continuation buffer, or an Uncomp sample. -/
abbrev Byte := BitVec 8

/-- A u16: a table entry, a shift or depth element, a 16-bit calibration register. -/
abbrev Half := BitVec 16

/-- A u32: every register of the window and every operand word (rules R32, R114). -/
abbrev Word := BitVec 32

/-- The 64 bits of a binary64 encoding (rule R44). -/
abbrev Bits64 := BitVec 64

/-- A command descriptor: the eight words CMD0..CMD7 (rules R40, R110). -/
abbrev Descriptor := Vector Word 8

end Sys2Proof
end

