-- ==== Sys2Proof/Syntax.lean ====
section
/-! DEFINITION. Syntax.lean: the commands of the block, one constructor per row of spec/opcode_table.json, with
the operand words of 30_encoding.md rule R116 in descriptor order. A row's opcode, FLAGS and ARG16 are the
constructor itself; only `mirrorCode` carries its ARG16, because its row leaves it open. -/

namespace Sys2Proof

/-- A decoded command. Operands are the words CMD1, CMD2, … the command uses (rule R116); `c` is CMD0[11:8]. -/
inductive Instr where
  -- 46_system.md
  | nop
  -- 40_s2d_engine.md: table lifecycle
  | s2dInit
  | s2dUpdate
  | s2dFree
  -- 40_s2d_engine.md: S2D_SETCFG, one row per field id of rule R42; vlo = CMD1, vhi = CMD2 (f64 fields only)
  | setcfgZeroPlaneDistance (vlo vhi : Word)
  | setcfgZeroPlanePixelSize (vlo vhi : Word)
  | setcfgEmitterDistance (vlo vhi : Word)
  | setcfgMaxShift (vlo : Word)
  | setcfgMaxDepth (vlo : Word)
  | setcfgConstShift (vlo : Word)
  | setcfgPixelSizeFactor (vlo : Word)
  | setcfgParamCoeff (vlo : Word)
  | setcfgShiftScale (vlo : Word)
  | setcfgMinCutoff (vlo : Word)
  | setcfgMaxCutoff (vlo : Word)
  | setcfgOutputFormat (vlo : Word)
  -- 40_s2d_engine.md: convert and read-out
  | s2dConvert (src count dst : Word)
  | s2dRdtabS2d (dst cap : Word)
  | s2dRdtabD2s (dst cap : Word)
  -- 43_unpack12.md
  | unpack12 (src srclen dst dstcap : Word)
  -- 42_uncomp.md
  | uncompPs (src srclen dst dstcap line : Word)
  | uncompPsLast (src srclen dst dstcap line : Word)
  | uncompNew (src srclen dst dstcap line : Word)
  | uncompNewLast (src srclen dst dstcap line : Word)
  -- 41_mirror.md
  | mirrorGray8 (buf len width : Word)
  | mirrorGray16 (buf len width : Word)
  | mirrorDepth1mm (buf len width : Word)
  | mirrorDepth100um (buf len width : Word)
  | mirrorShift92 (buf len width : Word)
  | mirrorRgb888 (buf len width : Word)
  | mirrorYuv422 (buf len width : Word)
  | mirrorYuyv (buf len width : Word)
  | mirrorCode (fmt : Half) (buf len width : Word)
  -- 44_frame.md; `line` of frameSofPacked12 is an operand the command ignores (rule R279)
  | frameSofPacked12 (c : BitVec 4) (wbase wcap line : Word)
  | frameSofPs (c : BitVec 4) (wbase wcap line : Word)
  | frameSofNew (c : BitVec 4) (wbase wcap line : Word)
  | frameChunk (c : BitVec 4) (src offset len bufsize : Word)
  | frameEof (c : BitVec 4)
  -- 45_calib_math.md
  | lu3 (a b x : Word)
  | planefit (pts n out : Word)
deriving DecidableEq, Repr

end Sys2Proof
end

