-- ==== Sys2Proof/WellFormed.lean ====
section
/-! DEFINITION. WellFormed.lean: which terms of `Instr` a legal descriptor can stand for. Two checks: a frame
command's context number is below NUM_CTX (30_encoding.md rule R113), and `mirrorCode` carries only a format that
none of the eight `mirror.*` rows of the opcode table takes (30_encoding.md rule R118, opcode_table.json). -/

namespace Sys2Proof

/-- The pixel-format codes MIRROR recognises (30_encoding.md rule R121, 41_mirror.md rule R200). -/
def mirrorFormats : List Half := [100, 101, 102, 200, 201, 202, 203, 205]

/-- The context number of a frame command (CMD0[11:8], rule R111). -/
def Instr.ctx? : Instr → Option (BitVec 4)
  | .frameSofPacked12 c _ _ _ => some c
  | .frameSofPs c _ _ _ => some c
  | .frameSofNew c _ _ _ => some c
  | .frameChunk c _ _ _ _ => some c
  | .frameEof c => some c
  | .nop | .s2dInit | .s2dUpdate | .s2dFree
  | .setcfgZeroPlaneDistance .. | .setcfgZeroPlanePixelSize .. | .setcfgEmitterDistance ..
  | .setcfgMaxShift _ | .setcfgMaxDepth _ | .setcfgConstShift _ | .setcfgPixelSizeFactor _
  | .setcfgParamCoeff _ | .setcfgShiftScale _ | .setcfgMinCutoff _ | .setcfgMaxCutoff _
  | .setcfgOutputFormat _ | .s2dConvert .. | .s2dRdtabS2d .. | .s2dRdtabD2s .. | .unpack12 ..
  | .uncompPs .. | .uncompPsLast .. | .uncompNew .. | .uncompNewLast ..
  | .mirrorGray8 .. | .mirrorGray16 .. | .mirrorDepth1mm .. | .mirrorDepth100um ..
  | .mirrorShift92 .. | .mirrorRgb888 .. | .mirrorYuv422 .. | .mirrorYuyv .. | .mirrorCode ..
  | .lu3 .. | .planefit .. => none

/-- The check of `mirrorCode`: its format is one the eight `mirror.*` rows leave over. -/
def Instr.formatOk : Instr → Bool
  | .mirrorCode fmt _ _ _ => !mirrorFormats.contains fmt
  | .nop | .s2dInit | .s2dUpdate | .s2dFree
  | .setcfgZeroPlaneDistance .. | .setcfgZeroPlanePixelSize .. | .setcfgEmitterDistance ..
  | .setcfgMaxShift _ | .setcfgMaxDepth _ | .setcfgConstShift _ | .setcfgPixelSizeFactor _
  | .setcfgParamCoeff _ | .setcfgShiftScale _ | .setcfgMinCutoff _ | .setcfgMaxCutoff _
  | .setcfgOutputFormat _ | .s2dConvert .. | .s2dRdtabS2d .. | .s2dRdtabD2s .. | .unpack12 ..
  | .uncompPs .. | .uncompPsLast .. | .uncompNew .. | .uncompNewLast ..
  | .mirrorGray8 .. | .mirrorGray16 .. | .mirrorDepth1mm .. | .mirrorDepth100um ..
  | .mirrorShift92 .. | .mirrorRgb888 .. | .mirrorYuv422 .. | .mirrorYuyv ..
  | .frameSofPacked12 .. | .frameSofPs .. | .frameSofNew .. | .frameChunk .. | .frameEof _
  | .lu3 .. | .planefit .. => true

/-- The context check of rule R113 on a machine with `numCtx` contexts. -/
def Instr.ctxOk (numCtx : Nat) (i : Instr) : Bool :=
  match i.ctx? with
  | some c => decide (c.toNat < numCtx)
  | none => true

/-- The term stands for a legal descriptor on a machine with `numCtx` frame contexts. -/
def Instr.wellFormed (numCtx : Nat) (i : Instr) : Bool := i.ctxOk numCtx && i.formatOk

end Sys2Proof
end

