-- ==== Sys2Proof/Decode.lean ====
section
/-! DEFINITION. Decode.lean: the decoder of a command descriptor (30_encoding.md rules R110-R120), total, rejecting
by name; and after it the encoder, written from the same tables. The one field check that needs a parameter, CTX
below NUM_CTX (rule R113), is `Instr.wellFormed`, which the engine asks after decoding (Machine/Engine.lean). -/

namespace Sys2Proof

/-- Why a descriptor is no command: each completes with ILLEGAL_COMMAND (rules R113, R117). -/
inductive DecodeError where
  /-- OPC is not in the opcode map (rule R117). -/
  | reservedOpcode
  /-- A CMD0 field the command does not use is not 0 (rule R113). -/
  | unusedField
  /-- FLAGS holds a value rule R119 does not list (a KIND of 3 among them). -/
  | badFlags
  /-- ARG16 of S2D_SETCFG is not a field id 0..11 (rule R120). -/
  | badFieldId
deriving DecidableEq, Repr

/-- OPC = CMD0[7:0] (rule R111). -/
def opcOf (d : Descriptor) : BitVec 8 := d[0].extractLsb' 0 8
/-- CTX = CMD0[11:8] (rule R111). -/
def ctxOf (d : Descriptor) : BitVec 4 := d[0].extractLsb' 8 4
/-- FLAGS = CMD0[15:12] (rule R111). -/
def flagsOf (d : Descriptor) : BitVec 4 := d[0].extractLsb' 12 4
/-- ARG16 = CMD0[31:16] (rule R111). -/
def arg16Of (d : Descriptor) : BitVec 16 := d[0].extractLsb' 16 16

/-- A command that uses no CMD0 field but OPC: CTX, FLAGS and ARG16 must be 0 (rules R113, R116). -/
def plainCommand (d : Descriptor) (i : Instr) : Except DecodeError Instr :=
  if ctxOf d = 0 ∧ flagsOf d = 0 ∧ arg16Of d = 0 then .ok i else .error .unusedField

/-- A command whose FLAGS bit 0 selects one of two rows: CTX and ARG16 must be 0, FLAGS bits 3:1 too (rules R116,
R119). -/
def flagCommand (d : Descriptor) (clear set : Instr) : Except DecodeError Instr :=
  if ctxOf d ≠ 0 ∨ arg16Of d ≠ 0 then .error .unusedField
  else if flagsOf d = 0 then .ok clear
  else if flagsOf d = 1 then .ok set
  else .error .badFlags

/-- S2D_SETCFG: ARG16 is FIELD, a field id of rule R42 (rules R116, R120). -/
def decodeSetcfg (d : Descriptor) : Except DecodeError Instr :=
  if ctxOf d ≠ 0 ∨ flagsOf d ≠ 0 then .error .unusedField
  else if arg16Of d = 0 then .ok (.setcfgZeroPlaneDistance d[1] d[2])
  else if arg16Of d = 1 then .ok (.setcfgZeroPlanePixelSize d[1] d[2])
  else if arg16Of d = 2 then .ok (.setcfgEmitterDistance d[1] d[2])
  else if arg16Of d = 3 then .ok (.setcfgMaxShift d[1])
  else if arg16Of d = 4 then .ok (.setcfgMaxDepth d[1])
  else if arg16Of d = 5 then .ok (.setcfgConstShift d[1])
  else if arg16Of d = 6 then .ok (.setcfgPixelSizeFactor d[1])
  else if arg16Of d = 7 then .ok (.setcfgParamCoeff d[1])
  else if arg16Of d = 8 then .ok (.setcfgShiftScale d[1])
  else if arg16Of d = 9 then .ok (.setcfgMinCutoff d[1])
  else if arg16Of d = 10 then .ok (.setcfgMaxCutoff d[1])
  else if arg16Of d = 11 then .ok (.setcfgOutputFormat d[1])
  else .error .badFieldId

/-- MIRROR: ARG16 is FMT, and every value decodes (rules R118, R120, R121). -/
def decodeMirror (d : Descriptor) : Except DecodeError Instr :=
  if ctxOf d ≠ 0 ∨ flagsOf d ≠ 0 then .error .unusedField
  else if arg16Of d = 202 then .ok (.mirrorGray8 d[1] d[2] d[3])
  else if arg16Of d = 203 then .ok (.mirrorGray16 d[1] d[2] d[3])
  else if arg16Of d = 100 then .ok (.mirrorDepth1mm d[1] d[2] d[3])
  else if arg16Of d = 101 then .ok (.mirrorDepth100um d[1] d[2] d[3])
  else if arg16Of d = 102 then .ok (.mirrorShift92 d[1] d[2] d[3])
  else if arg16Of d = 200 then .ok (.mirrorRgb888 d[1] d[2] d[3])
  else if arg16Of d = 201 then .ok (.mirrorYuv422 d[1] d[2] d[3])
  else if arg16Of d = 205 then .ok (.mirrorYuyv d[1] d[2] d[3])
  else .ok (.mirrorCode (arg16Of d) d[1] d[2] d[3])

/-- FRAME_SOF: FLAGS bits 1:0 are KIND, 3 is illegal, bits 3:2 and ARG16 must be 0 (rules R116, R119). -/
def decodeSof (d : Descriptor) : Except DecodeError Instr :=
  if arg16Of d ≠ 0 then .error .unusedField
  else if flagsOf d = 0 then .ok (.frameSofPacked12 (ctxOf d) d[1] d[2] d[3])
  else if flagsOf d = 1 then .ok (.frameSofPs (ctxOf d) d[1] d[2] d[3])
  else if flagsOf d = 2 then .ok (.frameSofNew (ctxOf d) d[1] d[2] d[3])
  else .error .badFlags

/-- FRAME_CHUNK and FRAME_EOF: CTX is used, FLAGS and ARG16 must be 0 (rule R116). -/
def frameCommand (d : Descriptor) (i : Instr) : Except DecodeError Instr :=
  if flagsOf d = 0 ∧ arg16Of d = 0 then .ok i else .error .unusedField

/-- The decoder, in the order of rule R118: OPC (rule R115), then the CMD0 fields (rule R116), then the row. -/
def decode (d : Descriptor) : Except DecodeError Instr :=
  if opcOf d = 0x00 then plainCommand d .nop
  else if opcOf d = 0x01 then plainCommand d .s2dInit
  else if opcOf d = 0x02 then plainCommand d .s2dUpdate
  else if opcOf d = 0x03 then plainCommand d .s2dFree
  else if opcOf d = 0x04 then decodeSetcfg d
  else if opcOf d = 0x05 then plainCommand d (.s2dConvert d[1] d[2] d[3])
  else if opcOf d = 0x06 then flagCommand d (.s2dRdtabS2d d[1] d[2]) (.s2dRdtabD2s d[1] d[2])
  else if opcOf d = 0x10 then plainCommand d (.unpack12 d[1] d[2] d[3] d[4])
  else if opcOf d = 0x11 then
    flagCommand d (.uncompPs d[1] d[2] d[3] d[4] d[5]) (.uncompPsLast d[1] d[2] d[3] d[4] d[5])
  else if opcOf d = 0x12 then
    flagCommand d (.uncompNew d[1] d[2] d[3] d[4] d[5]) (.uncompNewLast d[1] d[2] d[3] d[4] d[5])
  else if opcOf d = 0x20 then decodeMirror d
  else if opcOf d = 0x30 then decodeSof d
  else if opcOf d = 0x31 then frameCommand d (.frameChunk (ctxOf d) d[1] d[2] d[3] d[4])
  else if opcOf d = 0x32 then frameCommand d (.frameEof (ctxOf d))
  else if opcOf d = 0x40 then plainCommand d (.lu3 d[1] d[2] d[3])
  else if opcOf d = 0x41 then plainCommand d (.planefit d[1] d[2] d[3])
  else .error .reservedOpcode

/-- The opcode of each command (rule R115). -/
def Instr.opcode : Instr → BitVec 8
  | .nop => 0x00
  | .s2dInit => 0x01
  | .s2dUpdate => 0x02
  | .s2dFree => 0x03
  | .setcfgZeroPlaneDistance .. => 0x04
  | .setcfgZeroPlanePixelSize .. => 0x04
  | .setcfgEmitterDistance .. => 0x04
  | .setcfgMaxShift _ => 0x04
  | .setcfgMaxDepth _ => 0x04
  | .setcfgConstShift _ => 0x04
  | .setcfgPixelSizeFactor _ => 0x04
  | .setcfgParamCoeff _ => 0x04
  | .setcfgShiftScale _ => 0x04
  | .setcfgMinCutoff _ => 0x04
  | .setcfgMaxCutoff _ => 0x04
  | .setcfgOutputFormat _ => 0x04
  | .s2dConvert .. => 0x05
  | .s2dRdtabS2d .. => 0x06
  | .s2dRdtabD2s .. => 0x06
  | .unpack12 .. => 0x10
  | .uncompPs .. => 0x11
  | .uncompPsLast .. => 0x11
  | .uncompNew .. => 0x12
  | .uncompNewLast .. => 0x12
  | .mirrorGray8 .. => 0x20
  | .mirrorGray16 .. => 0x20
  | .mirrorDepth1mm .. => 0x20
  | .mirrorDepth100um .. => 0x20
  | .mirrorShift92 .. => 0x20
  | .mirrorRgb888 .. => 0x20
  | .mirrorYuv422 .. => 0x20
  | .mirrorYuyv .. => 0x20
  | .mirrorCode .. => 0x20
  | .frameSofPacked12 .. => 0x30
  | .frameSofPs .. => 0x30
  | .frameSofNew .. => 0x30
  | .frameChunk .. => 0x31
  | .frameEof _ => 0x32
  | .lu3 .. => 0x40
  | .planefit .. => 0x41

/-- CMD0 = {ARG16, FLAGS, CTX, OPC} (rule R111). -/
def cmd0 (arg16 : BitVec 16) (flags ctx : BitVec 4) (opc : BitVec 8) : Word := arg16 ++ flags ++ ctx ++ opc

/-- A descriptor of CMD0 and up to five operand words; the words a command does not use are written 0 (they are
ignored, rule R112). -/
def descriptor (w0 : Word) (w1 w2 w3 w4 w5 : Word := 0) : Descriptor := #v[w0, w1, w2, w3, w4, w5, 0, 0]

/-- The descriptor of a command (rules R111, R115, R116, R119, R120, R121). -/
def encode : Instr → Descriptor
  | .nop => descriptor (cmd0 0 0 0 0x00)
  | .s2dInit => descriptor (cmd0 0 0 0 0x01)
  | .s2dUpdate => descriptor (cmd0 0 0 0 0x02)
  | .s2dFree => descriptor (cmd0 0 0 0 0x03)
  | .setcfgZeroPlaneDistance vlo vhi => descriptor (cmd0 0 0 0 0x04) vlo vhi
  | .setcfgZeroPlanePixelSize vlo vhi => descriptor (cmd0 1 0 0 0x04) vlo vhi
  | .setcfgEmitterDistance vlo vhi => descriptor (cmd0 2 0 0 0x04) vlo vhi
  | .setcfgMaxShift vlo => descriptor (cmd0 3 0 0 0x04) vlo
  | .setcfgMaxDepth vlo => descriptor (cmd0 4 0 0 0x04) vlo
  | .setcfgConstShift vlo => descriptor (cmd0 5 0 0 0x04) vlo
  | .setcfgPixelSizeFactor vlo => descriptor (cmd0 6 0 0 0x04) vlo
  | .setcfgParamCoeff vlo => descriptor (cmd0 7 0 0 0x04) vlo
  | .setcfgShiftScale vlo => descriptor (cmd0 8 0 0 0x04) vlo
  | .setcfgMinCutoff vlo => descriptor (cmd0 9 0 0 0x04) vlo
  | .setcfgMaxCutoff vlo => descriptor (cmd0 10 0 0 0x04) vlo
  | .setcfgOutputFormat vlo => descriptor (cmd0 11 0 0 0x04) vlo
  | .s2dConvert src count dst => descriptor (cmd0 0 0 0 0x05) src count dst
  | .s2dRdtabS2d dst cap => descriptor (cmd0 0 0 0 0x06) dst cap
  | .s2dRdtabD2s dst cap => descriptor (cmd0 0 1 0 0x06) dst cap
  | .unpack12 src srclen dst dstcap => descriptor (cmd0 0 0 0 0x10) src srclen dst dstcap
  | .uncompPs src srclen dst dstcap line => descriptor (cmd0 0 0 0 0x11) src srclen dst dstcap line
  | .uncompPsLast src srclen dst dstcap line => descriptor (cmd0 0 1 0 0x11) src srclen dst dstcap line
  | .uncompNew src srclen dst dstcap line => descriptor (cmd0 0 0 0 0x12) src srclen dst dstcap line
  | .uncompNewLast src srclen dst dstcap line => descriptor (cmd0 0 1 0 0x12) src srclen dst dstcap line
  | .mirrorGray8 buf len width => descriptor (cmd0 202 0 0 0x20) buf len width
  | .mirrorGray16 buf len width => descriptor (cmd0 203 0 0 0x20) buf len width
  | .mirrorDepth1mm buf len width => descriptor (cmd0 100 0 0 0x20) buf len width
  | .mirrorDepth100um buf len width => descriptor (cmd0 101 0 0 0x20) buf len width
  | .mirrorShift92 buf len width => descriptor (cmd0 102 0 0 0x20) buf len width
  | .mirrorRgb888 buf len width => descriptor (cmd0 200 0 0 0x20) buf len width
  | .mirrorYuv422 buf len width => descriptor (cmd0 201 0 0 0x20) buf len width
  | .mirrorYuyv buf len width => descriptor (cmd0 205 0 0 0x20) buf len width
  | .mirrorCode fmt buf len width => descriptor (cmd0 fmt 0 0 0x20) buf len width
  | .frameSofPacked12 c wbase wcap line => descriptor (cmd0 0 0 c 0x30) wbase wcap line
  | .frameSofPs c wbase wcap line => descriptor (cmd0 0 1 c 0x30) wbase wcap line
  | .frameSofNew c wbase wcap line => descriptor (cmd0 0 2 c 0x30) wbase wcap line
  | .frameChunk c src offset len bufsize => descriptor (cmd0 0 0 c 0x31) src offset len bufsize
  | .frameEof c => descriptor (cmd0 0 0 c 0x32)
  | .lu3 a b x => descriptor (cmd0 0 0 0 0x40) a b x
  | .planefit pts n out => descriptor (cmd0 0 0 0 0x41) pts n out

/-- The descriptor whose bits are `w`, bit 0 the least significant bit of CMD0 and a later word's bits counting on
from it (rules R110, R111); every bit above `nbits` is 0. -/
def descriptorOfBits (nbits w : Nat) : Descriptor :=
  let v := w % 2 ^ nbits
  #v[BitVec.ofNat 32 v, BitVec.ofNat 32 (v >>> 32), BitVec.ofNat 32 (v >>> 64), BitVec.ofNat 32 (v >>> 96),
    BitVec.ofNat 32 (v >>> 128), BitVec.ofNat 32 (v >>> 160), BitVec.ofNat 32 (v >>> 192),
    BitVec.ofNat 32 (v >>> 224)]

/-- What the decoder reads from an instruction given as the opcode table gives it. -/
def decodeTableWord (nbits w : Nat) : Option Instr := (decode (descriptorOfBits nbits w)).toOption

end Sys2Proof
end

