-- ==== Sys2Proof/Config.lean ====
section
/-! DEFINITION. Config.lean: the parameters 00_scope.md rule R7 leaves OPEN, and the free values: the values the
spec leaves unspecified. Every constant here is opaque: it has no body, so nothing in Lean can evaluate it and a
theorem about the model holds whatever it is. -/

namespace Sys2Proof

/-- The implementation parameters of 00_scope.md rule R7. The bounds the rule states are kept by the types:
each parameter with a lower bound is stored as its excess over that bound. -/
structure Params where
  /-- `NUM_CTX - 1`, so that `NUM_CTX` lies in 1..16 (decision D35). -/
  numCtxPred : Fin 16
  /-- `MIRROR_MAX_LINE_PIXELS - 1`, so that the limit is at least 1 (decision D33). -/
  mirrorMaxPred : Nat
  /-- `CONT_CAP - 23`, so that the capacity is at least 23 (decision D39). It stays below 2^32 because a 32-bit
  register CTXc_CONT_LEN holds every length up to it (rule R46). DEDUCED, notes/assumptions/3.md. -/
  contCapOver : Fin 4294967273
  /-- `FINE_SCALE_MULT` (decision D16): a u32, so that `f64(mult)` is exact (rule R9). DEDUCED,
  notes/assumptions/4.md. -/
  fineScaleMult : Word
  /-- `BLOCK_ID`, the value of the ID register (rule R34, decision D51). -/
  blockId : Word
  /-- `ADMITTED` as a list of ranges (base, length): the byte addresses the platform's bus answers (rule R85,
  decision D6). Every set of addresses below 2^32 is such a list. -/
  admittedRanges : List (Nat × Nat)
deriving DecidableEq, Repr, Inhabited

namespace Params

/-- `NUM_CTX`, 1..16 (rule R7). -/
def numCtx (p : Params) : Nat := p.numCtxPred.val + 1

/-- `MIRROR_MAX_LINE_PIXELS`, at least 1 (rule R7). -/
def mirrorMaxLinePixels (p : Params) : Nat := p.mirrorMaxPred + 1

/-- `CONT_CAP`, at least 23 (rule R7). -/
def contCap (p : Params) : Nat := p.contCapOver.val + 23

/-- `a ∈ ADMITTED` (rule R85). The address space ends at 2^32 (rule R80). -/
def admits (p : Params) (a : Nat) : Bool :=
  decide (a < 2 ^ 32) && p.admittedRanges.any fun r => decide (r.1 ≤ a) && decide (a < r.1 + r.2)

end Params

/-- The parameters of the implementation at hand, which the spec leaves OPEN (rule R7): any values. They stand in
the state from reset on, as plain data (notes/assumptions/1.md). -/
opaque Config.params : Params

/-- FREE VALUE (notes/assumptions/5.md): the `n`-th unspecified byte the machine produces. Used for memory bytes after a
fault (rule R96, U8), after SOFT_RESET abandons a command (rule R382, U11), under an overlap (rule R87, U3), in a
race (rule R92, U4), and for CONT bytes of a context lost to a fault (rule R345, U9). -/
opaque Config.freeByte : Nat → Byte

/-- FREE VALUE (notes/assumptions/5.md): the `n`-th unspecified 32-bit word: a register read while BUSY (rule R53, U2) and
the register fields of a context lost to a fault (rule R345, U9). -/
opaque Config.freeWord : Nat → Word

/-- FREE VALUE (notes/assumptions/5.md): the sign (bit 51) and payload (bits 50:0) of the `n`-th NaN the block stores (rule
R310, U5). -/
opaque Config.freeNaN : Nat → BitVec 52

/-- FREE VALUE (notes/assumptions/5.md): TABLES_VALID after a fault inside Build (rule R345, U9). -/
opaque Config.freeBit : Nat → Bool

/-- FREE VALUE (notes/assumptions/5.md): the contents of a table after a fault inside Build (rule R345, U9). -/
opaque Config.freeTable : Nat → List Half

end Sys2Proof
end

