-- ==== Sys2Proof/Machine/State.lean ====
section
/-! DEFINITION. State.lean: everything the spec gives the machine (10_state.md, 20_memory.md rule R80), as plain
data, with the state after reset (70_reset_and_hazards.md rule R380); and the closed types of reasons a step of the
model can stop. The block's own faults (rule R345) are states, not stops. -/

namespace Sys2Proof.Machine

/-- Why the model stops with a fault. No command stops: only a host access can. -/
inductive Fault where
  /-- Raised by the host's access to a byte of data memory outside ADMITTED, where there is no memory (20_memory.md
  rules R80, R85). Safe: the spec gives such an access no outcome. -/
  | hostAddressNotAdmitted
deriving DecidableEq, Repr

/-- Why the model refuses. -/
inductive Refusal where
  /-- Raised by an arm of `exec` whose instruction has no meaning yet (no arm is left). Safe. -/
  | notModelled (mnemonic : String)
  /-- Raised by a host access to the register window that is not a naturally aligned 32-bit one: "any other access
  width or alignment has unspecified effect (a model refuses it" (10_state.md rule R33, U1). Safe. -/
  | windowAccessForm
deriving DecidableEq, Repr

/-- The calibration registers (10_state.md rule R42). An f64 register is the 64 bits last committed (rule R44). -/
structure Calib where
  zeroPlaneDistance : Bits64
  zeroPlanePixelSize : Bits64
  emitterDistance : Bits64
  maxShift : Half
  maxDepth : Half
  constShift : Word
  pixelSizeFactor : Word
  paramCoeff : Word
  shiftScale : Word
  minCutoff : Half
  maxCutoff : Half
  outputFormat : Half
deriving DecidableEq, Repr

/-- The names of the calibration registers, in field-id order (10_state.md rule R42). -/
inductive CalibField where
  | zeroPlaneDistance | zeroPlanePixelSize | emitterDistance | maxShift | maxDepth | constShift
  | pixelSizeFactor | paramCoeff | shiftScale | minCutoff | maxCutoff | outputFormat
deriving DecidableEq, Repr

/-- STATE of a frame context (10_state.md rule R48). -/
inductive FrameState where
  | idle | accumulating | complete
deriving DecidableEq, Repr

/-- KIND of a frame context (10_state.md rule R49). -/
inductive FrameKind where
  | packed12 | uncompPs | uncompNew
deriving DecidableEq, Repr

/-- One frame context (10_state.md rules R46, R47). CONT_LEN is the length of `cont`: the bytes beyond it are
unspecified and never read, and are not held. -/
structure Context where
  state : FrameState
  kind : FrameKind
  corrupted : Bool
  frameId : Word
  wbufBase : Word
  wbufCap : Word
  wbufSize : Word
  lineBytes : Word
  cont : List Byte
deriving DecidableEq, Repr

/-- The width of a host access to the register window (10_state.md rule R33). -/
inductive AccessSize where
  | bits8 | bits16 | bits32
deriving DecidableEq, Repr

/-- What happens at the block's boundary: one access of the host (R3, R33, R80), the platform's reset input (R381),
or the engine reaching the end of the command it runs (R332). -/
inductive Event where
  /-- The host reads the register window at a byte offset below 0x400. -/
  | regRead (offset : BitVec 10) (size : AccessSize)
  /-- The host writes the register window. -/
  | regWrite (offset : BitVec 10) (size : AccessSize) (value : Word)
  /-- The host reads a byte of data memory. -/
  | memRead (addr : Word)
  /-- The host writes a byte of data memory. -/
  | memWrite (addr : Word) (value : Byte)
  /-- The platform asserts the reset input. -/
  | resetInput
  /-- The running command, if there is one, reaches its end. -/
  | engine
deriving DecidableEq, Repr

/-- Data memory: (address, byte) pairs in canonical form (Machine/Memory.lean). -/
abbrev Memory := List Host.Cell

/-- The machine. -/
structure State where
  /-- The parameters of 00_scope.md rule R7; no step changes them. -/
  params : Params
  /-- The descriptor the engine latched (46_system.md rule R331); STATUS.BUSY = 1 exactly while there is one. -/
  running : Option Descriptor
  /-- STATUS.FAULT (rule R35). -/
  fault : Bool
  /-- STATUS.TABLES_VALID (rule R35). -/
  tablesValid : Bool
  /-- STATUS.LAST_STATUS (rule R35). -/
  lastStatus : BitVec 8
  /-- STATUS.LAST_OPCODE (rule R35). -/
  lastOpcode : BitVec 8
  /-- FAULT_CAUSE[7:0] (rule R37). -/
  faultCause : BitVec 8
  /-- FAULT_INFO (rule R37). -/
  faultInfo : Word
  /-- FAULT_VALUE (rule R37). -/
  faultValue : Word
  /-- CFG_EPOCH (rule R38). -/
  cfgEpoch : Word
  /-- TBL_NSHIFT[16:0] (rule R39). -/
  tblNShift : BitVec 17
  /-- TBL_NDEPTH[16:0] (rule R39). -/
  tblNDepth : BitVec 17
  /-- CMD0..CMD7 (rule R40). -/
  cmd : Descriptor
  /-- RESULT0..RESULT3 (rule R41). -/
  result : Vector Word 4
  /-- The calibration registers (rule R42). -/
  calib : Calib
  /-- S2D of the table RAM (rule R45). -/
  s2d : List Half
  /-- D2S of the table RAM (rule R45). -/
  d2s : List Half
  /-- The frame contexts; those from NUM_CTX on do not exist and stay as reset leaves them (rule R46). -/
  contexts : Vector Context 16
  /-- Data memory (20_memory.md rule R80). -/
  mem : Memory
  /-- The MODEL's own: what happens next at the block's boundary, oldest first (notes/assumptions/2.md). -/
  events : List Event
  /-- The MODEL's own: what the last host read returned (notes/assumptions/2.md). -/
  readData : Word
  /-- The MODEL's own: the bytes of data memory the host wrote while the command ran (rule R92,
  notes/assumptions/12.md). -/
  raced : List Word
  /-- The MODEL's own: how many free values have been drawn (notes/assumptions/5.md). -/
  nonce : Nat
deriving DecidableEq, Repr

/-- STATUS.BUSY (rule R35). -/
def State.busy (s : State) : Bool := s.running.isSome

/-- The calibration registers after reset (rules R42, R380). -/
def Calib.reset : Calib where
  zeroPlaneDistance := 0
  zeroPlanePixelSize := 0
  emitterDistance := 0
  maxShift := 0
  maxDepth := 0
  constShift := 0
  pixelSizeFactor := 0
  paramCoeff := 0
  shiftScale := 0
  minCutoff := 0
  maxCutoff := 0
  outputFormat := 100

/-- A frame context after reset (rules R46, R380). -/
def Context.reset : Context where
  state := .idle
  kind := .packed12
  corrupted := false
  frameId := 0
  wbufBase := 0
  wbufCap := 0
  wbufSize := 0
  lineBytes := 0
  cont := []

/-- The machine right after power-on with given parameters: the table of rule R380. -/
def State.resetWith (p : Params) : State where
  params := p
  running := none
  fault := false
  tablesValid := false
  lastStatus := 0
  lastOpcode := 0
  faultCause := 0
  faultInfo := 0
  faultValue := 0
  cfgEpoch := 0
  tblNShift := 0
  tblNDepth := 0
  cmd := Vector.replicate 8 0
  result := Vector.replicate 4 0
  calib := Calib.reset
  s2d := []
  d2s := []
  contexts := Vector.replicate 16 Context.reset
  mem := []
  events := []
  readData := 0
  raced := []
  nonce := 0

/-- The machine right after power-on, whatever its parameters are (rules R7, R380, R381). -/
def State.reset : State := State.resetWith Config.params

end Sys2Proof.Machine
end

