-- ==== Sys2Proof/Machine/Flags.lean ====
section
/-! DEFINITION. Machine/Flags.lean: the codes and packed words software sees: status codes (60_exceptions.md rule
R340), fault causes (rule R341), STATUS (10_state.md rule R35) and CTXc_STATE (rules R46, R48, R49). The block has
no condition codes or arithmetic flags (rule R50). -/

namespace Sys2Proof.Machine

/-- The status codes a command can finish with (rule R340); 0xFF is written by a fault (rule R345). -/
inductive Status where
  | ok | bufferTooSmall | outputBufferOverflow | configRejected | badFormat | illegalState | singular
  | illegalCommand
deriving DecidableEq, Repr

/-- The code of a status (rule R340). -/
def statusCode : Status → BitVec 8
  | .ok => 0x00
  | .bufferTooSmall => 0x01
  | .outputBufferOverflow => 0x02
  | .configRejected => 0x03
  | .badFormat => 0x04
  | .illegalState => 0x05
  | .singular => 0x06
  | .illegalCommand => 0x07

/-- LAST_STATUS after a fault (rules R340, R345). -/
def faultStatusCode : BitVec 8 := 0xFF

/-- The fault causes (rule R341). -/
inductive Cause where
  | tablesNotValid | shiftIndexRange | depthIndexRange | geometry | busError | addressWrap
deriving DecidableEq, Repr

/-- The code of a cause (rule R341). -/
def causeCode : Cause → BitVec 8
  | .tablesNotValid => 1
  | .shiftIndexRange => 2
  | .depthIndexRange => 3
  | .geometry => 4
  | .busError => 5
  | .addressWrap => 6

/-- A cause met while the command runs over memory, so that its write ranges are unspecified afterwards (rules R96,
R345); the others are met before any write and leave memory unchanged (rules R342, R346). -/
def causeLosesMemory : Cause → Bool
  | .busError => true
  | .shiftIndexRange => true
  | .tablesNotValid => false
  | .depthIndexRange => false
  | .geometry => false
  | .addressWrap => false

/-- STATE[1:0] (rule R48). -/
def frameStateCode : FrameState → BitVec 2
  | .idle => 0
  | .accumulating => 1
  | .complete => 2

/-- KIND[1:0] (rule R49). -/
def frameKindCode : FrameKind → BitVec 2
  | .packed12 => 0
  | .uncompPs => 1
  | .uncompNew => 2

/-- The STATUS register (rule R35). -/
def statusWord (s : State) : Word :=
  0#8 ++ s.lastOpcode ++ s.lastStatus ++ 0#5 ++ BitVec.ofBool s.tablesValid ++ BitVec.ofBool s.fault
    ++ BitVec.ofBool s.busy

/-- The CTXc_STATE register (rule R46). -/
def ctxStateWord (x : Context) : Word :=
  0#27 ++ BitVec.ofBool x.corrupted ++ frameKindCode x.kind ++ frameStateCode x.state

/-- A Bool as a result word (rules R158, R281, R288). -/
def boolWord (b : Bool) : Word := if b then 1 else 0

end Sys2Proof.Machine
end

