-- ==== Sys2Proof/Machine/Memory.lean ====
section
/-! DEFINITION. Machine/Memory.lean: data memory (20_memory.md rules R80-R86) as a sorted list of (address, byte)
pairs, with the reads and writes the commands use. -/

namespace Sys2Proof.Machine

/-- What an address nothing has written reads as: the spec states no contents at power-on (rule R380 says only that
reset leaves data memory unchanged). DESIGN CHOICE, unsafe: notes/assumptions/6.md. -/
def Memory.unlisted : Byte := 0

/-- The byte at `a`. -/
def Memory.read : Memory → Nat → Byte
  | [], _ => Memory.unlisted
  | c :: m, a => if c.1 = a then c.2 else Memory.read m a

/-- Put a listed pair in its place, in front of the higher addresses. -/
def Memory.insert (a : Nat) (b : Byte) : Memory → Memory
  | [] => [(a, b)]
  | c :: m => if a < c.1 then (a, b) :: c :: m else if a = c.1 then (a, b) :: m else c :: Memory.insert a b m

/-- Remove an address from the list. -/
def Memory.erase (a : Nat) : Memory → Memory
  | [] => []
  | c :: m => if c.1 = a then m else c :: Memory.erase a m

/-- Store `b` at `a`, keeping the canonical form: the value an unlisted address reads as is not listed. -/
def Memory.write (m : Memory) (a : Nat) (b : Byte) : Memory :=
  if b = Memory.unlisted then Memory.erase a m else Memory.insert a b m

/-- The addresses strictly rise from `lo` on, lie in the address space (rule R80), and no entry equals what an
unlisted address reads as. -/
def Memory.wfFrom (lo : Nat) : Memory → Bool
  | [] => true
  | c :: m => decide (lo ≤ c.1) && decide (c.1 < 2 ^ 32) && decide (c.2 ≠ Memory.unlisted) && Memory.wfFrom (c.1 + 1) m

/-- The canonical form: equal memories are equal lists. -/
def Memory.wf (m : Memory) : Bool := Memory.wfFrom 0 m

/-- The `n` bytes from `a` on, lowest address first. -/
def Memory.readList (m : Memory) (a : Nat) : Nat → List Byte
  | 0 => []
  | n + 1 => m.read a :: Memory.readList m (a + 1) n

/-- Store the bytes from `a` on, lowest address first. -/
def Memory.writeList (m : Memory) (a : Nat) : List Byte → Memory
  | [] => m
  | b :: bs => Memory.writeList (m.write a b) (a + 1) bs

/-- The first of the `n` addresses from `a` on that the bus does not answer (rule R85). -/
def firstRefused (p : Params) (a : Nat) : Nat → Option Nat
  | 0 => none
  | n + 1 => if p.admits a then firstRefused p (a + 1) n else some a

/-- Every byte of `[a, a + n)` that exists becomes a free value, the `k`-th of those from `nonce` on. -/
def Memory.havoc (p : Params) (m : Memory) (a : Nat) : Nat → Nat → Memory
  | 0, _ => m
  | n + 1, nonce =>
    Memory.havoc p (if p.admits a then m.write a (Config.freeByte nonce) else m) (a + 1) n (nonce + 1)

/-- The little-endian number of a byte list (rule R81). -/
def leNat : List Byte → Nat
  | [] => 0
  | b :: bs => b.toNat + 256 * leNat bs

/-- A u16 as its two bytes in memory, least significant first (rule R81). -/
def halfBytes (h : Half) : List Byte := [h.extractLsb' 0 8, h.extractLsb' 8 8]

/-- A u16 read from its two bytes (rule R81). -/
def halfOfBytes (bs : List Byte) : Half := BitVec.ofNat 16 (leNat (bs.take 2))

/-- An f64 as its eight bytes in memory, least significant first (rules R81, R311). -/
def bits64Bytes (v : Bits64) : List Byte :=
  [v.extractLsb' 0 8, v.extractLsb' 8 8, v.extractLsb' 16 8, v.extractLsb' 24 8,
    v.extractLsb' 32 8, v.extractLsb' 40 8, v.extractLsb' 48 8, v.extractLsb' 56 8]

/-- The `i`-th f64 of an array given as bytes (rules R81, R89, R311). -/
def bits64At (bs : List Byte) (i : Nat) : Bits64 := BitVec.ofNat 64 (leNat ((bs.drop (8 * i)).take 8))

end Sys2Proof.Machine
end

