-- ==== Sys2Proof/Machine/Ops.lean ====
section
/-! DEFINITION. Machine/Ops.lean: the operations every command shares: checked memory access, finish (rule R343),
raising a fault (rule R345) with what it leaves unspecified, and reset (rule R380), the one way out of the fault
state (rule R348). -/

namespace Sys2Proof.Machine

/-- `raise Fault(cause, info, value)` (rules R9, R341). -/
structure Raise where
  cause : Cause
  info : Word
  value : Word
deriving DecidableEq, Repr

/-- BUS_ERROR at a byte address (rules R85, R341). -/
def busError (a : Nat) : Raise := ⟨.busError, BitVec.ofNat 32 a, 0⟩

/-- MemRead of `n` bytes at `a`, lowest address first (rules R9, R85): the bytes, or BUS_ERROR at the first address
outside ADMITTED. -/
def readChecked (p : Params) (m : Memory) (a n : Nat) : Except Raise (List Byte) :=
  match firstRefused p a n with
  | some b => .error (busError b)
  | none => .ok (m.readList a n)

/-- MemWrite of bytes at `a`, lowest address first (rules R9, R85): the memory after, or BUS_ERROR at the first
address outside ADMITTED. What a faulting write leaves in memory is unspecified (rule R96). -/
def writeChecked (p : Params) (m : Memory) (a : Nat) (bs : List Byte) : Except Raise Memory :=
  match firstRefused p a bs.length with
  | some b => .error (busError b)
  | none => .ok (m.writeList a bs)

/-- "check ranges" (rule R84): the first named range (base, length) with base + length > 2^32 raises ADDRESS_WRAP;
an empty range passes at any base. -/
def checkRanges : List (Nat × Nat) → Except Raise Unit
  | [] => .ok ()
  | r :: rs =>
    if r.2 ≠ 0 ∧ 2 ^ 32 < r.1 + r.2 then .error ⟨.addressWrap, BitVec.ofNat 32 r.1, BitVec.ofNat 32 r.2⟩
    else checkRanges rs

/-- Two ranges (base, length) share an address (rule R87). -/
def rangesOverlap (r q : Nat × Nat) : Bool :=
  decide (r.1 < q.1 + q.2) && decide (q.1 < r.1 + r.2) && decide (r.2 ≠ 0) && decide (q.2 ≠ 0)

/-- The address lies in the range (base, length). -/
def inRange (a : Nat) (r : Nat × Nat) : Bool := decide (r.1 ≤ a) && decide (a < r.1 + r.2)

/-- The address lies in one of the ranges. -/
def inRanges (a : Nat) (rs : List (Nat × Nat)) : Bool := rs.any (inRange a)

/-- `finish(status, r0, r1, r2, r3)` (rule R343): omitted results are 0, and all four are 0 unless the status is OK. -/
def finish (opc : BitVec 8) (st : Status) (s : State) (r0 r1 r2 r3 : Word := 0) : State :=
  { s with
    result := if st = .ok then #v[r0, r1, r2, r3] else #v[0, 0, 0, 0]
    lastStatus := statusCode st
    lastOpcode := opc
    running := none }

/-- `raise Fault(cause, info, value)` (rule R345), the register part. -/
def enterFault (opc : BitVec 8) (f : Raise) (s : State) : State :=
  { s with
    faultCause := causeCode f.cause
    faultInfo := f.info
    faultValue := f.value
    result := #v[0, 0, 0, 0]
    fault := true
    lastStatus := faultStatusCode
    lastOpcode := opc
    running := none }

/-- Every byte of a range becomes a free value (rules R87, R96, R382). -/
def havocRange (s : State) (r : Nat × Nat) : State :=
  { s with mem := Memory.havoc s.params s.mem r.1 r.2 s.nonce, nonce := s.nonce + r.2 }

/-- Every byte of each range becomes a free value. -/
def havocRanges (s : State) (rs : List (Nat × Nat)) : State := rs.foldl havocRange s

/-- Context `c` (rule R46). -/
def getContext (s : State) (c : BitVec 4) : Context := s.contexts[c.toNat]'c.isLt

/-- Replace context `c` (rule R46). -/
def setContext (s : State) (c : BitVec 4) (x : Context) : State :=
  { s with contexts := s.contexts.set c.toNat x c.isLt }

/-- `n` free bytes from the counter on. -/
def freeBytes (nonce : Nat) : Nat → List Byte
  | 0 => []
  | n + 1 => Config.freeByte nonce :: freeBytes (nonce + 1) n

/-- A free STATE, one of the legal values (rules R48, U9). -/
def freeFrameState (nonce : Nat) : FrameState :=
  match (Config.freeWord nonce).toNat % 3 with
  | 0 => .idle
  | 1 => .accumulating
  | _ => .complete

/-- A free KIND, one of the legal values (rules R49, U9). -/
def freeFrameKind (nonce : Nat) : FrameKind :=
  match (Config.freeWord nonce).toNat % 3 with
  | 0 => .packed12
  | 1 => .uncompPs
  | _ => .uncompNew

/-- A context after a fault of the frame command that named it: any legal field values (rule R345, U9), WBUF_SIZE at
most WBUF_CAP (rule R47) and at most CONT_CAP bytes in CONT (rule R46). -/
def freeContext (p : Params) (nonce : Nat) : Context where
  state := freeFrameState nonce
  kind := freeFrameKind (nonce + 1)
  corrupted := Config.freeBit (nonce + 2)
  frameId := Config.freeWord (nonce + 3)
  wbufBase := Config.freeWord (nonce + 4)
  wbufCap := Config.freeWord (nonce + 5)
  wbufSize := BitVec.ofNat 32 ((Config.freeWord (nonce + 6)).toNat % ((Config.freeWord (nonce + 5)).toNat + 1))
  lineBytes := Config.freeWord (nonce + 7)
  cont := freeBytes (nonce + 9) ((Config.freeWord (nonce + 8)).toNat % (p.contCap + 1))

/-- Context `c` becomes any legal context (rule R345, U9). -/
def havocContext (s : State) (c : BitVec 4) : State :=
  { setContext s c (freeContext s.params s.nonce) with nonce := s.nonce + 9 + s.params.contCap }

/-- TABLES_VALID and the tables become anything (rule R345, U9: after DEPTH_INDEX_RANGE). -/
def havocTables (s : State) : State :=
  { s with
    tablesValid := Config.freeBit s.nonce
    s2d := Config.freeTable (s.nonce + 1)
    d2s := Config.freeTable (s.nonce + 2)
    nonce := s.nonce + 3 }

/-- A command that writes `ranges` ends in the fault state (rules R96, R345, R346). -/
def raiseFault (opc : BitVec 8) (ranges : List (Nat × Nat)) (f : Raise) (s : State) : State :=
  enterFault opc f (if causeLosesMemory f.cause then havocRanges s ranges else s)

/-- A command ends with what its body computes, or in the fault state (rule R332). -/
def endCommand (opc : BitVec 8) (ranges : List (Nat × Nat)) (s : State) (body : Except Raise State) : State :=
  match body with
  | .ok t => t
  | .error f => raiseFault opc ranges f s

/-- Reset (rule R380): every register, table and context at its reset value; ID's value and data memory unchanged. -/
def resetBlock (s : State) : State :=
  { State.resetWith s.params with mem := s.mem, events := s.events, readData := s.readData, nonce := s.nonce }

end Sys2Proof.Machine
end

