-- ==== Sys2Proof/Machine/Operands.lean ====
section
/-! DEFINITION. Machine/Operands.lean: how the operand words become values: S2D_SETCFG's typed value (30_encoding.md
rule R114, 40_s2d_engine.md rule R158) and the MIRROR layouts (41_mirror.md rule R200). Address, length and count
operands are the u32 words as they stand (rules R89, R114), used as numbers that never wrap (rule R84). -/

namespace Sys2Proof.Machine

/-- The f64 value of S2D_SETCFG: `{VHI, VLO}` (rules R114, R158). -/
def f64Operand (vlo vhi : Word) : Bits64 := vhi ++ vlo

/-- VLO[31:16] = 0: the value of a u16 field fits (rule R159). -/
def fitsHalf (vlo : Word) : Bool := vlo.extractLsb' 16 16 == 0

/-- The u16 value of a word that fits. -/
def halfOperand (vlo : Word) : Half := vlo.extractLsb' 0 16

/-- CONST_SHIFT, PIXEL_SIZE_FACTOR, PARAM_COEFF, SHIFT_SCALE: the register holds VLO itself (rule R158; CONST_SHIFT
is read as two's complement where it is used). -/
def wordOperand (vlo : Word) : Word := vlo

/-- `CFG[FIELD] <- v` of rule R160, the value assembled by the field's type (rule R158). -/
def commitField (f : CalibField) (vlo vhi : Word) (c : Calib) : Calib :=
  match f with
  | .zeroPlaneDistance => { c with zeroPlaneDistance := f64Operand vlo vhi }
  | .zeroPlanePixelSize => { c with zeroPlanePixelSize := f64Operand vlo vhi }
  | .emitterDistance => { c with emitterDistance := f64Operand vlo vhi }
  | .maxShift => { c with maxShift := halfOperand vlo }
  | .maxDepth => { c with maxDepth := halfOperand vlo }
  | .constShift => { c with constShift := wordOperand vlo }
  | .pixelSizeFactor => { c with pixelSizeFactor := wordOperand vlo }
  | .paramCoeff => { c with paramCoeff := wordOperand vlo }
  | .shiftScale => { c with shiftScale := wordOperand vlo }
  | .minCutoff => { c with minCutoff := halfOperand vlo }
  | .maxCutoff => { c with maxCutoff := halfOperand vlo }
  | .outputFormat => { c with outputFormat := halfOperand vlo }

/-- The validation of rule R159: true when every test passes. -/
def acceptsField (f : CalibField) (vlo : Word) (c : Calib) : Bool :=
  match f with
  | .maxShift => fitsHalf vlo
  | .maxDepth =>
    fitsHalf vlo && !(decide (halfOperand vlo < c.minCutoff) || decide (halfOperand vlo < c.maxCutoff))
  | .minCutoff => fitsHalf vlo && !decide (c.maxDepth < halfOperand vlo)
  | .maxCutoff => fitsHalf vlo && !decide (c.maxDepth < halfOperand vlo)
  | .outputFormat => fitsHalf vlo && [100, 101, 102].contains (halfOperand vlo)
  | .zeroPlaneDistance => true
  | .zeroPlanePixelSize => true
  | .emitterDistance => true
  | .constShift => true
  | .pixelSizeFactor => true
  | .paramCoeff => true
  | .shiftScale => true

/-- The size-affecting fields: MAX_SHIFT, MAX_DEPTH, OUTPUT_FORMAT (rules R42, R160). -/
def sizeAffecting : CalibField → Bool
  | .maxShift => true
  | .maxDepth => true
  | .outputFormat => true
  | .zeroPlaneDistance => false
  | .zeroPlanePixelSize => false
  | .emitterDistance => false
  | .constShift => false
  | .pixelSizeFactor => false
  | .paramCoeff => false
  | .shiftScale => false
  | .minCutoff => false
  | .maxCutoff => false

/-- OUTPUT_FORMAT is one of the depth formats DEPTH_1_MM and DEPTH_100_UM (rules R121, R253, R254). -/
def depthFormat (c : Calib) : Bool := c.outputFormat == 100 || c.outputFormat == 101

end Sys2Proof.Machine
end

