-- ==== Sys2Proof/Machine/Unpack.lean ====
section
/-! DEFINITION. Machine/Unpack.lean: the packed-12 depth unpacker (43_unpack12.md). -/

namespace Sys2Proof.Machine

/-- value[2g] of a 3-byte group: `{b0[7:0], b1[7:4]}` (rule R251). -/
def firstShift (b0 b1 : Byte) : BitVec 12 := b0 ++ b1.extractLsb' 4 4

/-- value[2g+1] of a 3-byte group: `{b1[3:0], b2[7:0]}` (rule R251). -/
def secondShift (b1 b2 : Byte) : BitVec 12 := b1.extractLsb' 0 4 ++ b2

/-- The clamp of rule R252, on integers. -/
def clampShift (c : Calib) (v : BitVec 12) : Nat := if (c.maxShift.toNat : Int) - 1 ≤ v.toNat then 0 else v.toNat

/-- GetOutput of the clamped shift (rules R252, R253). -/
def packedOutput (c : Calib) (s2d : List Half) (v : BitVec 12) : Half :=
  if depthFormat c then s2d.getD (clampShift c v) 0 else BitVec.ofNat 16 (clampShift c v)

/-- The four output bytes of one 3-byte group: two u16 values (rules R250, R251). -/
def groupOut (out : BitVec 12 → Half) (b0 b1 b2 : Byte) : List Byte :=
  halfBytes (out (firstShift b0 b1)) ++ halfBytes (out (secondShift b1 b2))

/-- The output bytes of a run of whole 3-byte groups; 8 groups are an element (rules R250, R251). -/
def unpackBytes (out : BitVec 12 → Half) : List Byte → List Byte
  | b0 :: b1 :: b2 :: bs => groupOut out b0 b1 b2 ++ unpackBytes out bs
  | _ => []

/-- The loop of rule R254 over `n` groups: group g of element e is at `src = SRC + 24e + 3g`, its two values at
`dst = DST + 32e + 4g`. -/
def unpackLoop (p : Params) (out : BitVec 12 → Half) : (n src dst : Nat) → Memory → Except Raise Memory
  | 0, _, _, m => .ok m
  | n + 1, src, dst, m =>
    match readChecked p m src 3 with
    | .error f => .error f
    | .ok bs =>
      match writeChecked p m dst (unpackBytes out bs) with
      | .error f => .error f
      | .ok m' => unpackLoop p out n (src + 3) (dst + 4) m'

/-- The range UNPACK12 writes (rules R84, R254). -/
def unpackWrites (dst dstcap : Word) : List (Nat × Nat) := [(dst.toNat, dstcap.toNat)]

/-- When a command that wrote something has its write range overlapped by its read range, the bytes it writes are
unspecified: the whole range becomes free (rule R87, U3). -/
def scrambleIf (overlap : Bool) (range : Nat × Nat) (s : State) : State := if overlap then havocRange s range else s

/-- UNPACK12 (rule R254). -/
def execUnpack12 (src srclen dst dstcap : Word) (s : State) : Host.Outcome State Fault Refusal :=
  let nElem := srclen.toNat / 24
  let need := 32 * nElem
  .next (endCommand 0x10 (unpackWrites dst dstcap) s
    (match checkRanges [(src.toNat, srclen.toNat), (dst.toNat, dstcap.toNat)] with
    | .error f => .error f
    | .ok _ =>
      if depthFormat s.calib && decide (0 < nElem) && !s.tablesValid then .error ⟨.tablesNotValid, 0, 0⟩
      else if dstcap.toNat < need then .ok (finish 0x10 .outputBufferOverflow s)
      else
        match unpackLoop s.params (packedOutput s.calib s.s2d) (8 * nElem) src.toNat dst.toNat s.mem with
        | .error f => .error f
        | .ok m =>
          .ok (finish 0x10 .ok
            (scrambleIf (decide (0 < nElem) &&
                rangesOverlap (src.toNat, srclen.toNat) (dst.toNat, dstcap.toNat))
              (dst.toNat, dstcap.toNat) { s with mem := m })
            (BitVec.ofNat 32 (24 * nElem)) (BitVec.ofNat 32 need) (BitVec.ofNat 32 (srclen.toNat - 24 * nElem)))))

end Sys2Proof.Machine
end

