-- ==== Sys2Proof/Machine/Uncomp.lean ====
section
/-! DEFINITION. Machine/Uncomp.lean: the Uncomp 4-bit-diff decompressor (42_uncomp.md). -/

namespace Sys2Proof.Machine

/-- The transient decoder state of rule R222; `out` holds the produced bytes, latest first. -/
structure DecodeState where
  k : Nat
  o : Nat
  run : Vector Byte 3
  slot : Nat
  bIn : Nat
  bOut : Nat
  out : List Byte
deriving DecidableEq, Repr

/-- The decoder state at the start of a command (rule R222). -/
def DecodeState.start : DecodeState where
  k := 0
  o := 0
  run := Vector.replicate 3 0
  slot := 0
  bIn := 0
  bOut := 0
  out := []

/-- The channel map of UNCOMP_PS (rule R224). -/
def mapPs : List (Fin 3) := [0, 1, 2, 1]

/-- The channel map of UNCOMP_NEW (rule R224). -/
def mapNew : List (Fin 3) := [0, 1]

/-- The nibble `j` of a byte: the high half when `j` is even (rule R221). -/
def nibbleOf (j : Nat) (b : Byte) : BitVec 4 := if j % 2 = 0 then b.extractLsb' 4 4 else b.extractLsb' 0 4

/-- `nib(j)` read from memory (rule R221). -/
def memNibble (p : Params) (m : Memory) (src j : Nat) : Except Raise (BitVec 4) :=
  match readChecked p m (src + j / 2) 1 with
  | .error f => .error f
  | .ok bs => .ok (nibbleOf j (bs.getD 0 0))

/-- `nib(j)` taken from a buffer (44_frame.md rule R284). -/
def bufNibble (buf : List Byte) (j : Nat) : Except Raise (BitVec 4) := .ok (nibbleOf j (buf.getD (j / 2) 0))

/-- One unit of the input (rule R223). -/
inductive DecodeUnit where
  /-- 0xD: no output; the next nibble is at `k`. -/
  | filler (k : Nat)
  /-- A delta or a literal: the sample `v`; the next nibble is at `k`. -/
  | sample (v : Byte) (k : Nat)
  /-- A literal the end of the input cuts off. -/
  | cut
deriving DecidableEq, Repr

/-- The channel of the next sample (rule R223). -/
def channelOf (map : List (Fin 3)) (st : DecodeState) : Fin 3 := map.getD st.slot 0

/-- The unit at `st.k`, with `M` nibbles of input (rules R223, R226). -/
def decodeUnit (nib : Nat → Except Raise (BitVec 4)) (map : List (Fin 3)) (M : Nat) (st : DecodeState) :
    Except Raise DecodeUnit :=
  match nib st.k with
  | .error f => .error f
  | .ok u =>
    if u = 0xD then .ok (.filler (st.k + 1))
    else if u ≤ 0xC then .ok (.sample (st.run[channelOf map st] + u.setWidth 8 - 6) (st.k + 1))
    else if M ≤ st.k + 2 then .ok .cut
    else
      match nib (st.k + 1) with
      | .error f => .error f
      | .ok hi =>
        match nib (st.k + 2) with
        | .error f => .error f
        | .ok lo => .ok (.sample (hi ++ lo) (st.k + 3))

/-- A sample is output, and a completed scanline resets the decoder at a byte boundary (rules R223, R225, R226). -/
def acceptSample (map : List (Fin 3)) (line : Nat) (v : Byte) (k : Nat) (st : DecodeState) : DecodeState :=
  if (st.o + 1) % line = 0 then
    { k := k + k % 2, o := st.o + 1, run := Vector.replicate 3 0, slot := 0, bIn := (k + k % 2) / 2,
      bOut := st.o + 1, out := v :: st.out }
  else
    { k := k, o := st.o + 1, run := st.run.set (channelOf map st) v, slot := (st.slot + 1) % map.length,
      bIn := st.bIn, bOut := st.bOut, out := v :: st.out }

/-- How the loop of rule R226 ends. -/
inductive LoopEnd where
  | consumed (st : DecodeState)
  | truncated (st : DecodeState)
  | overflow
deriving DecidableEq, Repr

/-- The loop of rule R226. Each turn takes at least one nibble, so `M` turns reach `k ≥ M`. -/
def decodeLoop (nib : Nat → Except Raise (BitVec 4)) (map : List (Fin 3)) (M cap line : Nat) :
    Nat → DecodeState → Except Raise LoopEnd
  | 0, st => .ok (.consumed st)
  | turns + 1, st =>
    if st.k < M then
      match decodeUnit nib map M st with
      | .error f => .error f
      | .ok (.filler k) => decodeLoop nib map M cap line turns { st with k := k }
      | .ok .cut => .ok (.truncated st)
      | .ok (.sample v k) =>
        if cap ≤ st.o then .ok .overflow
        else decodeLoop nib map M cap line turns (acceptSample map line v k st)
    else .ok (.consumed st)

/-- The outcome of `Decode` before anything is written (rules R226, R227). -/
inductive DecodeResult where
  /-- OK with actualRead, and the output bytes that count. -/
  | done (rd : Nat) (bytes : List Byte)
  | outputOverflow
  | inputTooSmall
deriving DecidableEq, Repr

/-- The counted part of the output (rule R226): all of it when LAST = 1, up to the last complete scanline when
LAST = 0. -/
def decodeFinish (n : Nat) (last : Bool) : LoopEnd → DecodeResult
  | .overflow => .outputOverflow
  | .consumed st => if last then .done n st.out.reverse else .done st.bIn (st.out.reverse.take st.bOut)
  | .truncated st => if last then .inputTooSmall else .done st.bIn (st.out.reverse.take st.bOut)

/-- `Decode(map, N, CAP, LINE, LAST)` up to its writes (rule R226). -/
def decodeStream (nib : Nat → Except Raise (BitVec 4)) (map : List (Fin 3)) (n cap line : Nat) (last : Bool) :
    Except Raise DecodeResult :=
  match decodeLoop nib map (2 * n) cap line (2 * n) DecodeState.start with
  | .error f => .error f
  | .ok e => .ok (decodeFinish n last e)

/-- The range an Uncomp command writes (rules R84, R226). -/
def uncompWrites (dst dstcap : Word) : List (Nat × Nat) := [(dst.toNat, dstcap.toNat)]

/-- The Uncomp commands (rules R226-R229). -/
def uncomp (opc : BitVec 8) (map : List (Fin 3)) (last : Bool) (src srclen dst dstcap line : Word) (s : State) :
    State :=
  endCommand opc (uncompWrites dst dstcap) s
    (match checkRanges [(src.toNat, srclen.toNat), (dst.toNat, dstcap.toNat)] with
    | .error f => .error f
    | .ok _ =>
      if line = 0 then .error ⟨.geometry, 0, srclen⟩
      else
        match decodeStream (memNibble s.params s.mem src.toNat) map srclen.toNat dstcap.toNat line.toNat last with
        | .error f => .error f
        | .ok .outputOverflow => .ok (finish opc .outputBufferOverflow s)
        | .ok .inputTooSmall => .ok (finish opc .bufferTooSmall s)
        | .ok (.done rd bytes) =>
          match writeChecked s.params s.mem dst.toNat bytes with
          | .error f => .error f
          | .ok m =>
            .ok (finish opc .ok
              (scrambleIf (decide (0 < bytes.length) &&
                  rangesOverlap (src.toNat, srclen.toNat) (dst.toNat, dstcap.toNat))
                (dst.toNat, dstcap.toNat) { s with mem := m })
              (BitVec.ofNat 32 rd) (BitVec.ofNat 32 bytes.length)))

/-- UNCOMP_PS, LAST = 0 (rule R228). -/
def execUncompPs (src srclen dst dstcap line : Word) (s : State) : Host.Outcome State Fault Refusal :=
  .next (uncomp 0x11 mapPs false src srclen dst dstcap line s)

/-- UNCOMP_PS, LAST = 1 (rule R228). -/
def execUncompPsLast (src srclen dst dstcap line : Word) (s : State) : Host.Outcome State Fault Refusal :=
  .next (uncomp 0x11 mapPs true src srclen dst dstcap line s)

/-- UNCOMP_NEW, LAST = 0 (rule R229). -/
def execUncompNew (src srclen dst dstcap line : Word) (s : State) : Host.Outcome State Fault Refusal :=
  .next (uncomp 0x12 mapNew false src srclen dst dstcap line s)

/-- UNCOMP_NEW, LAST = 1 (rule R229). -/
def execUncompNewLast (src srclen dst dstcap line : Word) (s : State) : Host.Outcome State Fault Refusal :=
  .next (uncomp 0x12 mapNew true src srclen dst dstcap line s)

end Sys2Proof.Machine
end

