-- ==== Sys2Proof/Machine/Frame.lean ====
section
/-! DEFINITION. Machine/Frame.lean: frame contexts and write buffers (44_frame.md). -/

namespace Sys2Proof.Machine

/-- The Uncomp kinds, which need LINE (rules R49, R279). -/
def isUncompKind : FrameKind → Bool
  | .packed12 => false
  | .uncompPs => true
  | .uncompNew => true

/-- The channel map of a KIND (rules R278, R224); PACKED12 has none and is never asked. -/
def kindMap : FrameKind → List (Fin 3)
  | .packed12 => []
  | .uncompPs => mapPs
  | .uncompNew => mapNew

/-- The write-buffer range of a context (rules R84, R270). -/
def wbufRange (x : Context) : Nat × Nat := (x.wbufBase.toNat, x.wbufCap.toNat)

/-- Free space of the write buffer (rule R271). -/
def wbufFree (x : Context) : Nat := x.wbufCap.toNat - x.wbufSize.toNat

/-- A frame command ends: after a fault the named context is unspecified (rule R345, U9). -/
def endFrameCommand (opc : BitVec 8) (c : BitVec 4) (ranges : List (Nat × Nat)) (s : State)
    (body : Except Raise State) : State :=
  match body with
  | .ok t => t
  | .error f => havocContext (raiseFault opc ranges f s) c

/-- The context FRAME_SOF leaves (rules R272, R279, R280). -/
def sofContext (k : FrameKind) (wbase wcap line : Word) (x : Context) : Context where
  state := .accumulating
  kind := k
  corrupted := false
  frameId := x.frameId + 1
  wbufBase := wbase
  wbufCap := wcap
  wbufSize := 0
  lineBytes := if isUncompKind k then line else 0
  cont := []

/-- FRAME_SOF (rule R279). -/
def frameSof (k : FrameKind) (c : BitVec 4) (wbase wcap line : Word) (s : State) : State :=
  endFrameCommand 0x30 c [] s
    (match checkRanges [(wbase.toNat, wcap.toNat)] with
    | .error f => .error f
    | .ok _ =>
      if isUncompKind k && decide (line = 0) then .error ⟨.geometry, 0, 0⟩
      else
        let x := sofContext k wbase wcap line (getContext s c)
        .ok (finish 0x30 .ok (setContext s c x) x.frameId))

/-- FRAME_SOF, KIND = PACKED12 (rule R279). -/
def execFrameSofPacked12 (c : BitVec 4) (wbase wcap line : Word) (s : State) : Host.Outcome State Fault Refusal :=
  .next (frameSof .packed12 c wbase wcap line s)

/-- FRAME_SOF, KIND = UNCOMP_PS (rule R279). -/
def execFrameSofPs (c : BitVec 4) (wbase wcap line : Word) (s : State) : Host.Outcome State Fault Refusal :=
  .next (frameSof .uncompPs c wbase wcap line s)

/-- FRAME_SOF, KIND = UNCOMP_NEW (rule R279). -/
def execFrameSofNew (c : BitVec 4) (wbase wcap line : Word) (s : State) : Host.Outcome State Fault Refusal :=
  .next (frameSof .uncompNew c wbase wcap line s)

/-- BufWrite of bytes that fit (rule R271): append them and advance WBUF_SIZE. -/
def bufAppend (p : Params) (m : Memory) (x : Context) (bs : List Byte) : Except Raise (Memory × Context) :=
  match writeChecked p m (x.wbufBase.toNat + x.wbufSize.toNat) bs with
  | .error f => .error f
  | .ok m' => .ok (m', { x with wbufSize := x.wbufSize + BitVec.ofNat 32 bs.length })

/-- ChunkPacked12 (rule R283): the elements of `buf` that fit are appended, or dropped with CORRUPTED set; the bytes
left over become CONT. -/
def chunkPacked12 (s : State) (x : Context) (buf : List Byte) : Except Raise (Memory × Context) :=
  let nElem := buf.length / 24
  if depthFormat s.calib && decide (0 < nElem) && !s.tablesValid then .error ⟨.tablesNotValid, 0, 0⟩
  else if wbufFree x < 32 * nElem then .ok (s.mem, { x with corrupted := true, cont := buf.drop (24 * nElem) })
  else
    match bufAppend s.params s.mem x (unpackBytes (packedOutput s.calib s.s2d) (buf.take (24 * nElem))) with
    | .error f => .error f
    | .ok r => .ok (r.1, { r.2 with cont := buf.drop (24 * nElem) })

/-- The remainder of an Uncomp decode becomes CONT, or overflows it (rules R285, R287). -/
def keepRemainder (p : Params) (rest : List Byte) (x : Context) : Context :=
  if rest.length ≤ p.contCap then { x with cont := rest } else { x with corrupted := true, cont := [] }

/-- ChunkUncomp (rules R284-R287). -/
def chunkUncomp (s : State) (x : Context) (buf : List Byte) (isLast : Bool) : Except Raise (Memory × Context) :=
  if buf.length = 0 then .ok (s.mem, x)
  else
    match decodeStream (bufNibble buf) (kindMap x.kind) buf.length (wbufFree x) x.lineBytes.toNat isLast with
    | .error f => .error f
    | .ok .outputOverflow => .ok (s.mem, { x with corrupted := true, cont := [] })
    | .ok .inputTooSmall => .ok (s.mem, { x with corrupted := true, cont := [] })
    | .ok (.done rd bytes) =>
      match bufAppend s.params s.mem x bytes with
      | .error f => .error f
      | .ok r => .ok (r.1, keepRemainder s.params (buf.drop rd) r.2)

/-- The chunk procedure of the context's KIND (rule R278). -/
def chunkStep (s : State) (x : Context) (buf : List Byte) (isLast : Bool) : Except Raise (Memory × Context) :=
  if isUncompKind x.kind then chunkUncomp s x buf isLast else chunkPacked12 s x buf

/-- The final-chunk signal (rule R282), on unbounded integers. -/
def isFinalChunk (offset len bufsize : Word) : Bool := decide (offset.toNat + len.toNat = bufsize.toNat)

/-- The range FRAME_CHUNK writes: the context's write buffer (rules R87, R96, R270). -/
def chunkWrites (s : State) (c : BitVec 4) : List (Nat × Nat) := [wbufRange (getContext s c)]

/-- FRAME_CHUNK (rule R281). -/
def execFrameChunk (c : BitVec 4) (src offset len bufsize : Word) (s : State) : Host.Outcome State Fault Refusal :=
  let x := getContext s c
  let isLast := isFinalChunk offset len bufsize
  .next (if x.state ≠ .accumulating then finish 0x31 .illegalState s
    else endFrameCommand 0x31 c (chunkWrites s c) s
      (match checkRanges [(src.toNat, len.toNat)] with
      | .error f => .error f
      | .ok _ =>
        match readChecked s.params s.mem src.toNat len.toNat with
        | .error f => .error f
        | .ok bs =>
          match chunkStep s x (x.cont ++ bs) isLast with
          | .error f => .error f
          | .ok r =>
            .ok (finish 0x31 .ok
              (scrambleIf (decide (x.wbufSize ≠ r.2.wbufSize) &&
                  rangesOverlap (src.toNat, len.toNat) (wbufRange x))
                (wbufRange x) (setContext { s with mem := r.1 } c r.2))
              r.2.wbufSize (boolWord r.2.corrupted) (boolWord isLast) (BitVec.ofNat 32 r.2.cont.length))))

/-- FRAME_EOF (rule R288). -/
def execFrameEof (c : BitVec 4) (s : State) : Host.Outcome State Fault Refusal :=
  let x := getContext s c
  .next (if x.state ≠ .accumulating then finish 0x32 .illegalState s
    else finish 0x32 .ok (setContext s c { x with state := .complete, cont := [] })
      x.wbufSize (boolWord x.corrupted) x.frameId)

end Sys2Proof.Machine
end

