-- ==== Sys2Proof/Machine/F64.lean ====
section
/-! DEFINITION. Machine/F64.lean: IEEE 754 binary64 arithmetic (00_scope.md rule R9, 45_calib_math.md rule R310):
each operation exact on integers and then rounded once, to nearest, ties to even; subnormals as they are; no flags.
A NaN is one value here: no operation of the block looks at its sign or payload, and where one is stored both are
free (rule R310). -/

namespace Sys2Proof.Machine

/-- A binary64 value: a finite one is `(-1)^neg * m * 2^e`. -/
inductive F64 where
  | nan
  | inf (neg : Bool)
  | fin (neg : Bool) (m : Nat) (e : Int)
deriving DecidableEq, Repr

/-- +0.0. -/
def F64.zero : F64 := .fin false 0 (-1074)

/-- `f64(x)` of an integer (rule R9): exact. -/
def F64.ofInt (z : Int) : F64 := .fin (decide (z < 0)) z.natAbs 0

/-- `f64(x)` of an unsigned register or count (rule R9): exact. -/
def F64.ofNat (n : Nat) : F64 := .fin false n 0

/-- The value of an encoding. -/
def F64.ofBits (b : Bits64) : F64 :=
  let neg := b.msb
  let ex := (b.extractLsb' 52 11).toNat
  let fr := (b.extractLsb' 0 52).toNat
  if ex = 2047 then if fr = 0 then .inf neg else .nan
  else if ex = 0 then .fin neg fr (-1074)
  else .fin neg (2 ^ 52 + fr) (ex - 1075)

/-- `n / 2^k` rounded to nearest, ties to even (a shift to the left when `k ≤ 0`). -/
def shiftNearest (n : Nat) (k : Int) : Nat :=
  if k ≤ 0 then n * 2 ^ (-k).toNat
  else
    let q := n / 2 ^ k.toNat
    let r := n % 2 ^ k.toNat
    let half := 2 ^ (k.toNat - 1)
    if half < r ∨ (r = half ∧ q % 2 = 1) then q + 1 else q

/-- A finite value whose significand fits 53 bits, or the infinity past the largest exponent. -/
def F64.pack (neg : Bool) (m : Nat) (e : Int) : F64 := if 971 < e then .inf neg else .fin neg m e

/-- The binary64 nearest to `(-1)^neg * n * 2^e`, ties to even (rule R310). -/
def F64.round (neg : Bool) (n : Nat) (e : Int) : F64 :=
  if n = 0 then .fin neg 0 (-1074)
  else
    let e' := max (e + (n.log2 + 1) - 53) (-1074)
    let q := shiftNearest n (e' - e)
    if q = 2 ^ 53 then F64.pack neg (2 ^ 52) (e' + 1) else F64.pack neg q e'

/-- `(-1)^neg * m * 2^k` as an integer. -/
def signedShift (neg : Bool) (m k : Nat) : Int := if neg then -((m * 2 ^ k : Nat) : Int) else ((m * 2 ^ k : Nat) : Int)

/-- Change the sign. -/
def F64.neg : F64 → F64
  | .nan => .nan
  | .inf s => .inf (!s)
  | .fin s m e => .fin (!s) m e

/-- `+.` (rule R9). -/
def F64.add : F64 → F64 → F64
  | .nan, _ => .nan
  | _, .nan => .nan
  | .inf s, .inf t => if s = t then .inf s else .nan
  | .inf s, .fin _ _ _ => .inf s
  | .fin _ _ _, .inf t => .inf t
  | .fin s m e, .fin t n f =>
    let g := min e f
    let z := signedShift s m (e - g).toNat + signedShift t n (f - g).toNat
    if z = 0 then .fin (s && t) 0 (-1074) else F64.round (decide (z < 0)) z.natAbs g

/-- `-.` (rule R9). -/
def F64.sub (x y : F64) : F64 := x.add y.neg

/-- `*.` (rule R9). -/
def F64.mul : F64 → F64 → F64
  | .nan, _ => .nan
  | _, .nan => .nan
  | .inf s, .inf t => .inf (s ^^ t)
  | .inf s, .fin t n _ => if n = 0 then .nan else .inf (s ^^ t)
  | .fin s m _, .inf t => if m = 0 then .nan else .inf (s ^^ t)
  | .fin s m e, .fin t n f => F64.round (s ^^ t) (m * n) (e + f)

/-- `/.` (rule R9). The quotient is cut to an odd last bit when it is not exact, with more bits than any rounding
looks at. -/
def F64.div : F64 → F64 → F64
  | .nan, _ => .nan
  | _, .nan => .nan
  | .inf _, .inf _ => .nan
  | .inf s, .fin t _ _ => .inf (s ^^ t)
  | .fin s _ _, .inf t => .fin (s ^^ t) 0 (-1074)
  | .fin s m e, .fin t n f =>
    if n = 0 then if m = 0 then .nan else .inf (s ^^ t)
    else
      let k := n.log2 + 64
      let q := m * 2 ^ k / n
      let sticky := if m * 2 ^ k % n = 0 then 0 else 1
      F64.round (s ^^ t) (2 * q + sticky) (e - f - k - 1)

/-- `<.` (rule R9): false when an operand is NaN. -/
def F64.lt : F64 → F64 → Bool
  | .nan, _ => false
  | _, .nan => false
  | .inf s, .inf t => s && !t
  | .inf s, .fin _ _ _ => s
  | .fin _ _ _, .inf t => !t
  | .fin s m e, .fin t n f =>
    decide (signedShift s m (e - min e f).toNat < signedShift t n (f - min e f).toNat)

/-- `x ==. 0.0` (rule R9): true of +0.0 and -0.0, false of NaN. -/
def F64.isZero : F64 → Bool
  | .fin _ m _ => m == 0
  | .inf _ => false
  | .nan => false

/-- `|x|`: the sign bit cleared (rule R310). -/
def F64.abs : F64 → F64
  | .nan => .nan
  | .inf _ => .inf false
  | .fin _ m e => .fin false m e

/-- The integer part of a non-negative finite value: `trunc_u16(d)` before its u16 width is taken (rule R9). -/
def F64.truncNat : F64 → Nat
  | .fin _ m e => if 0 ≤ e then m * 2 ^ e.toNat else m / 2 ^ (-e).toNat
  | .inf _ => 0
  | .nan => 0

/-- `trunc_u16(d)` (rule R9). -/
def F64.truncHalf (x : F64) : Half := BitVec.ofNat 16 x.truncNat

/-- The encoding of a value an operation returned; a NaN is quiet, with the sign and payload `nanBits` gives (rule
R310). -/
def F64.toBits (nanBits : BitVec 52) : F64 → Bits64
  | .nan => nanBits.extractLsb' 51 1 ++ 0x7FF#11 ++ 1#1 ++ nanBits.extractLsb' 0 51
  | .inf neg => BitVec.ofBool neg ++ 0x7FF#11 ++ 0#52
  | .fin neg m e =>
    if m < 2 ^ 52 then BitVec.ofBool neg ++ 0#11 ++ BitVec.ofNat 52 m
    else BitVec.ofBool neg ++ BitVec.ofNat 11 (e + 1075).toNat ++ BitVec.ofNat 52 m

end Sys2Proof.Machine
end

