-- ==== Sys2Proof/Machine/Math.lean ====
section
/-! DEFINITION. Machine/Math.lean: the calibration math (45_calib_math.md): LU_SOLVE3 and PLANE_FIT. -/

namespace Sys2Proof.Machine

/-- A row of the working matrix with its right-hand side: a[i][0..2] and b[i] (rule R311). -/
structure Row where
  a0 : F64
  a1 : F64
  a2 : F64
  b : F64
deriving DecidableEq, Repr

/-- The working matrix and vector (rule R311). -/
structure Mat3 where
  r0 : Row
  r1 : Row
  r2 : Row
deriving DecidableEq, Repr

/-- A solution vector (rule R313). -/
structure Vec3 where
  x0 : F64
  x1 : F64
  x2 : F64
deriving DecidableEq, Repr

/-- `|x| >. |y|` (rule R313): false when one is NaN. -/
def absGreater (x y : F64) : Bool := y.abs.lt x.abs

/-- Pivoting at k = 0: the first row with the largest |a[i][0]| is swapped into row 0 (rule R313). -/
def pivot0 (m : Mat3) : Mat3 :=
  let up := absGreater m.r1.a0 m.r0.a0
  if absGreater m.r2.a0 (if up then m.r1.a0 else m.r0.a0) then { r0 := m.r2, r1 := m.r1, r2 := m.r0 }
  else if up then { r0 := m.r1, r1 := m.r0, r2 := m.r2 }
  else m

/-- Pivoting at k = 1 (rule R313). -/
def pivot1 (m : Mat3) : Mat3 :=
  if absGreater m.r2.a1 m.r1.a1 then { r0 := m.r0, r1 := m.r2, r2 := m.r1 } else m

/-- Elimination at k = 0 of row `r` by the pivot row `q`, with l = r.a0 / q.a0 (rule R313). -/
def eliminate0 (q r : Row) : Row :=
  let l := r.a0.div q.a0
  { a0 := F64.zero, a1 := r.a1.sub (l.mul q.a1), a2 := r.a2.sub (l.mul q.a2), b := r.b.sub (l.mul q.b) }

/-- Elimination at k = 1 of row `r` by the pivot row `q`, with l = r.a1 / q.a1 (rule R313). -/
def eliminate1 (q r : Row) : Row :=
  let l := r.a1.div q.a1
  { a0 := r.a0, a1 := F64.zero, a2 := r.a2.sub (l.mul q.a2), b := r.b.sub (l.mul q.b) }

/-- Back substitution (rule R313): x[2], then x[1], then x[0], each sum left to right. -/
def backSubstitute (m : Mat3) : Vec3 :=
  let x2 := m.r2.b.div m.r2.a2
  let x1 := (m.r1.b.sub (m.r1.a2.mul x2)).div m.r1.a1
  let x0 := ((m.r0.b.sub (m.r0.a1.mul x1)).sub (m.r0.a2.mul x2)).div m.r0.a0
  { x0 := x0, x1 := x1, x2 := x2 }

/-- `Solve3(a, b)` (rule R313): none is SINGULAR. -/
def solve3 (m : Mat3) : Option Vec3 :=
  let m0 := pivot0 m
  if m0.r0.a0.isZero then none
  else
    let m1 := pivot1 { r0 := m0.r0, r1 := eliminate0 m0.r0 m0.r1, r2 := eliminate0 m0.r0 m0.r2 }
    if m1.r1.a1.isZero then none
    else
      let m2 : Mat3 := { r0 := m1.r0, r1 := m1.r1, r2 := eliminate1 m1.r1 m1.r2 }
      if m2.r2.a2.isZero then none else some (backSubstitute m2)

/-- The 24 bytes of a solution; the sign and payload of a NaN in it are free (rule R310, U5). -/
def vecBytes (nonce : Nat) (x : Vec3) : List Byte :=
  bits64Bytes (x.x0.toBits (Config.freeNaN nonce)) ++ bits64Bytes (x.x1.toBits (Config.freeNaN (nonce + 1)))
    ++ bits64Bytes (x.x2.toBits (Config.freeNaN (nonce + 2)))

/-- The `i`-th f64 of an array given as bytes, as a value (rule R311). -/
def f64At (bs : List Byte) (i : Nat) : F64 := F64.ofBits (bits64At bs i)

/-- The working matrix of 72 matrix bytes, row-major, and 24 right-hand-side bytes (rules R311, R312). -/
def matOfBytes (a b : List Byte) : Mat3 where
  r0 := { a0 := f64At a 0, a1 := f64At a 1, a2 := f64At a 2, b := f64At b 0 }
  r1 := { a0 := f64At a 3, a1 := f64At a 4, a2 := f64At a 5, b := f64At b 1 }
  r2 := { a0 := f64At a 6, a1 := f64At a 7, a2 := f64At a 8, b := f64At b 2 }

/-- Solve, then write the solution at `dst` (rules R312, R314). -/
def solveAndStore (opc : BitVec 8) (m : Mat3) (dst : Nat) (r0 : Word) (s : State) : Except Raise State :=
  match solve3 m with
  | none => .ok (finish opc .singular s)
  | some x =>
    match writeChecked s.params s.mem dst (vecBytes s.nonce x) with
    | .error f => .error f
    | .ok mem => .ok (finish opc .ok { s with mem := mem, nonce := s.nonce + 3 } r0)

/-- The range LU_SOLVE3 and PLANE_FIT write (rules R312, R314). -/
def vecWrites (dst : Word) : List (Nat × Nat) := [(dst.toNat, 24)]

/-- LU_SOLVE3 (rule R312). -/
def execLu3 (a b x : Word) (s : State) : Host.Outcome State Fault Refusal :=
  .next (endCommand 0x40 (vecWrites x) s
    (match checkRanges [(a.toNat, 72), (b.toNat, 24), (x.toNat, 24)] with
    | .error f => .error f
    | .ok _ =>
      match readChecked s.params s.mem a.toNat 72 with
      | .error f => .error f
      | .ok as =>
        match readChecked s.params s.mem b.toNat 24 with
        | .error f => .error f
        | .ok bs => solveAndStore 0x40 (matOfBytes as bs) x.toNat 0 s))

/-- The eight sums of rule R314. -/
structure Sums where
  sxx : F64
  sxy : F64
  syy : F64
  sx : F64
  sy : F64
  sxz : F64
  syz : F64
  sz : F64
deriving DecidableEq, Repr

/-- All sums +0.0 (rule R314). -/
def Sums.zero : Sums where
  sxx := F64.zero
  sxy := F64.zero
  syy := F64.zero
  sx := F64.zero
  sy := F64.zero
  sxz := F64.zero
  syz := F64.zero
  sz := F64.zero

/-- One point added to the sums (rule R314). -/
def addPoint (t : Sums) (x y z : F64) : Sums where
  sxx := t.sxx.add (x.mul x)
  sxy := t.sxy.add (x.mul y)
  syy := t.syy.add (y.mul y)
  sx := t.sx.add x
  sy := t.sy.add y
  sxz := t.sxz.add (x.mul z)
  syz := t.syz.add (y.mul z)
  sz := t.sz.add z

/-- The loop of rule R314 over `n` points from `pts` on. -/
def sumPoints (p : Params) (m : Memory) : (n pts : Nat) → Sums → Except Raise Sums
  | 0, _, t => .ok t
  | n + 1, pts, t =>
    match readChecked p m pts 24 with
    | .error f => .error f
    | .ok bs => sumPoints p m n (pts + 24) (addPoint t (f64At bs 0) (f64At bs 1) (f64At bs 2))

/-- The normal equations m and v of rules R314 and R315. -/
def normalEquations (t : Sums) (n : Nat) : Mat3 where
  r0 := { a0 := t.sxx, a1 := t.sxy, a2 := t.sx, b := t.sxz }
  r1 := { a0 := t.sxy, a1 := t.syy, a2 := t.sy, b := t.syz }
  r2 := { a0 := t.sx, a1 := t.sy, a2 := F64.ofNat n, b := t.sz }

/-- PLANE_FIT (rule R314). -/
def execPlanefit (pts n out : Word) (s : State) : Host.Outcome State Fault Refusal :=
  .next (endCommand 0x41 (vecWrites out) s
    (match checkRanges [(pts.toNat, 24 * n.toNat), (out.toNat, 24)] with
    | .error f => .error f
    | .ok _ =>
      match sumPoints s.params s.mem n.toNat pts.toNat Sums.zero with
      | .error f => .error f
      | .ok t => solveAndStore 0x41 (normalEquations t n.toNat) out.toNat n s))

end Sys2Proof.Machine
end

