-- ==== Sys2Proof/Machine/Mirror.lean ====
section
/-! DEFINITION. Machine/Mirror.lean: the pixel mirror converter (41_mirror.md). -/

namespace Sys2Proof.Machine

/-- The five layouts (rule R200). -/
inductive Layout where
  | bytes1 | bytes2 | bytes3 | yuv422 | yuyv
deriving DecidableEq, Repr

/-- Bytes per pixel (rules R12, R200). -/
def layoutBpp : Layout → Nat
  | .bytes1 => 1
  | .bytes2 => 2
  | .bytes3 => 3
  | .yuv422 => 2
  | .yuyv => 2

/-- A line of the layout is whole 2-pixel groups (rule R205). -/
def layoutPairs : Layout → Bool
  | .yuv422 => true
  | .yuyv => true
  | .bytes1 => false
  | .bytes2 => false
  | .bytes3 => false

/-- Where byte `j` of a mirrored line of `width` pixels of `bpp` bytes comes from (rule R206). -/
def pixelSource (bpp width j : Nat) : Nat := (width - 1 - j / bpp) * bpp + j % bpp

/-- The 4-byte group that byte `j` of a mirrored line comes from: h = G-1-g (rules R207, R208). -/
def groupSource (width j : Nat) : Nat := 4 * (width / 2 - 1 - j / 4)

/-- The source position in a YUV422 group U, Y0, V, Y1 (rule R207). -/
def yuv422Source : Nat → Nat
  | 0 => 0
  | 1 => 3
  | 2 => 2
  | _ => 1

/-- The source position in a YUYV group Y0, U, Y1, V (rule R208). -/
def yuyvSource : Nat → Nat
  | 0 => 2
  | 1 => 1
  | 2 => 0
  | _ => 3

/-- The index of the input byte that becomes output byte `j` of a line (rules R206-R208). -/
def mirrorSource (layout : Layout) (width j : Nat) : Nat :=
  match layout with
  | .bytes1 => pixelSource 1 width j
  | .bytes2 => pixelSource 2 width j
  | .bytes3 => pixelSource 3 width j
  | .yuv422 => groupSource width j + yuv422Source (j % 4)
  | .yuyv => groupSource width j + yuyvSource (j % 4)

/-- The transform of one line (rules R206-R208). -/
def mirrorLine (layout : Layout) (width : Nat) (line : List Byte) : List Byte :=
  (List.range line.length).map fun j => line.getD (mirrorSource layout width j) 0

/-- The loop of rule R209 over `n` lines of `lineBytes` bytes from `base` on. -/
def mirrorLoop (p : Params) (layout : Layout) (width lineBytes : Nat) : (n base : Nat) → Memory → Except Raise Memory
  | 0, _, m => .ok m
  | n + 1, base, m =>
    match readChecked p m base lineBytes with
    | .error f => .error f
    | .ok bs =>
      match writeChecked p m base (mirrorLine layout width bs) with
      | .error f => .error f
      | .ok m' => mirrorLoop p layout width lineBytes n (base + lineBytes) m'

/-- The range MIRROR writes (rule R201). -/
def mirrorWrites (buf len : Word) : List (Nat × Nat) := [(buf.toNat, len.toNat)]

/-- The geometry a line must have (rule R205); `len % 0` is `len`, so WIDTH = 0 is asked first. -/
def badGeometry (layout : Layout) (len width : Nat) : Bool :=
  decide (width = 0) || decide (len % (width * layoutBpp layout) ≠ 0) || (layoutPairs layout && decide (width % 2 ≠ 0))

/-- MIRROR with a recognised format (rule R209). -/
def mirror (layout : Layout) (buf len width : Word) (s : State) : State :=
  let lineBytes := width.toNat * layoutBpp layout
  endCommand 0x20 (mirrorWrites buf len) s
    (match checkRanges [(buf.toNat, len.toNat)] with
    | .error f => .error f
    | .ok _ =>
      if s.params.mirrorMaxLinePixels < width.toNat then .ok (finish 0x20 .bufferTooSmall s)
      else if badGeometry layout len.toNat width.toNat then .error ⟨.geometry, width, len⟩
      else
        match mirrorLoop s.params layout width.toNat lineBytes (len.toNat / lineBytes) buf.toNat s.mem with
        | .error f => .error f
        | .ok m => .ok (finish 0x20 .ok { s with mem := m } (BitVec.ofNat 32 (len.toNat / lineBytes))))

/-- MIRROR of GRAY8 (rules R200, R209). -/
def execMirrorGray8 (buf len width : Word) (s : State) : Host.Outcome State Fault Refusal :=
  .next (mirror .bytes1 buf len width s)

/-- MIRROR of GRAY16 (rules R200, R209). -/
def execMirrorGray16 (buf len width : Word) (s : State) : Host.Outcome State Fault Refusal :=
  .next (mirror .bytes2 buf len width s)

/-- MIRROR of DEPTH_1_MM (rules R200, R209). -/
def execMirrorDepth1mm (buf len width : Word) (s : State) : Host.Outcome State Fault Refusal :=
  .next (mirror .bytes2 buf len width s)

/-- MIRROR of DEPTH_100_UM (rules R200, R209). -/
def execMirrorDepth100um (buf len width : Word) (s : State) : Host.Outcome State Fault Refusal :=
  .next (mirror .bytes2 buf len width s)

/-- MIRROR of SHIFT_9_2 (rules R200, R209). -/
def execMirrorShift92 (buf len width : Word) (s : State) : Host.Outcome State Fault Refusal :=
  .next (mirror .bytes2 buf len width s)

/-- MIRROR of RGB888 (rules R200, R209). -/
def execMirrorRgb888 (buf len width : Word) (s : State) : Host.Outcome State Fault Refusal :=
  .next (mirror .bytes3 buf len width s)

/-- MIRROR of YUV422 (rules R200, R209). -/
def execMirrorYuv422 (buf len width : Word) (s : State) : Host.Outcome State Fault Refusal :=
  .next (mirror .yuv422 buf len width s)

/-- MIRROR of YUYV (rules R200, R209). -/
def execMirrorYuyv (buf len width : Word) (s : State) : Host.Outcome State Fault Refusal :=
  .next (mirror .yuyv buf len width s)

/-- MIRROR of a format code no layout takes: BAD_FORMAT before any other check (rule R200). -/
def execMirrorCode (_fmt : Half) (_buf _len _width : Word) (s : State) : Host.Outcome State Fault Refusal :=
  .next (finish 0x20 .badFormat s)

end Sys2Proof.Machine
end

