-- ==== Sys2Proof/Machine/System.lean ====
section
/-! DEFINITION. Machine/System.lean: NOP (46_system.md rule R330). -/

namespace Sys2Proof.Machine

/-- NOP (rule R330). -/
def execNop (s : State) : Host.Outcome State Fault Refusal := .next (finish 0x00 .ok s)

end Sys2Proof.Machine
end

