-- ==== Sys2Proof/Machine/Build.lean ====
section
/-! DEFINITION. Machine/Build.lean: the build procedure of the shift-to-depth tables (40_s2d_engine.md rules
R154-R157). -/

namespace Sys2Proof.Machine

/-- The values `Build` computes once, before its scan (rule R154). -/
structure BuildConsts where
  scale : F64
  cs : F64
  pps : F64
  z : F64
  e : F64
  coeff : F64
  lo : F64
  hi : F64
deriving DecidableEq, Repr

/-- `mult` of rule R154: FINE_SCALE_MULT when OUTPUT_FORMAT = DEPTH_100_UM (rule R157). -/
def scaleMult (p : Params) (c : Calib) : Nat := if c.outputFormat = 101 then p.fineScaleMult.toNat else 1

/-- The head of `Build` (rule R154): `scale`, `cs`, `pps`, Z, E and the cutoffs. -/
def buildConsts (p : Params) (c : Calib) : BuildConsts where
  scale := (F64.ofNat c.shiftScale.toNat).mul (F64.ofNat (scaleMult p c))
  cs := ((F64.ofInt c.constShift.toInt).mul (F64.ofNat c.paramCoeff.toNat)).div (F64.ofNat c.pixelSizeFactor.toNat)
  pps := (F64.ofBits c.zeroPlanePixelSize).mul (F64.ofNat c.pixelSizeFactor.toNat)
  z := F64.ofBits c.zeroPlaneDistance
  e := F64.ofBits c.emitterDistance
  coeff := F64.ofNat c.paramCoeff.toNat
  lo := F64.ofNat c.minCutoff.toNat
  hi := F64.ofNat c.maxCutoff.toNat

/-- 0.375, exact in binary64. -/
def threeEighths : F64 := .fin false 3 (-3)

/-- `depth` of shift index `s` (rule R154). -/
def shiftDepth (k : BuildConsts) (s : Nat) : F64 :=
  let fixedRefX := (((F64.ofNat s).sub k.cs).div k.coeff).sub threeEighths
  let metric := fixedRefX.mul k.pps
  k.scale.mul (((metric.mul k.z).div (k.e.sub metric)).add k.z)

/-- The keep test (rule R154, conflict C1): strictly between the cutoffs, on the unrounded depth. -/
def keptDepth (k : BuildConsts) (depth : F64) : Bool := k.lo.lt depth && depth.lt k.hi

/-- The tables under construction, with `lastDepth` and `lastIndex` (rule R154). -/
structure BuildState where
  s2d : List Half
  d2s : List Half
  lastDepth : Nat
  lastIndex : Nat
deriving DecidableEq, Repr

/-- The inner loop of rule R154 for shift index `s`: `room` is what is left of D2S from `i` on, so that at 0 the
index is past ND. -/
def fillDepths (depth : F64) (s lastIndex : Nat) : (room i : Nat) → List Half → Except Raise (List Half)
  | 0, i, d2s =>
    if (F64.ofNat i).lt depth then .error ⟨.depthIndexRange, BitVec.ofNat 32 s, BitVec.ofNat 32 i⟩ else .ok d2s
  | room + 1, i, d2s =>
    if (F64.ofNat i).lt depth then fillDepths depth s lastIndex room (i + 1) (d2s.set i (BitVec.ofNat 16 lastIndex))
    else .ok d2s

/-- One shift index of the scan (rule R154). -/
def buildStep (k : BuildConsts) (nd s : Nat) (b : BuildState) : Except Raise BuildState :=
  let depth := shiftDepth k s
  if keptDepth k depth then
    match fillDepths depth s b.lastIndex (nd - b.lastDepth) b.lastDepth b.d2s with
    | .error f => .error f
    | .ok d2s =>
      .ok { s2d := b.s2d.set s depth.truncHalf, d2s := d2s, lastDepth := depth.truncHalf.toNat, lastIndex := s }
  else .ok b

/-- The scan over `n` shift indices from `s` on (rule R154). -/
def buildScan (k : BuildConsts) (nd : Nat) : (n s : Nat) → BuildState → Except Raise BuildState
  | 0, _, b => .ok b
  | n + 1, s, b =>
    match buildStep k nd s b with
    | .error f => .error f
    | .ok b' => buildScan k nd n (s + 1) b'

/-- The tail of rule R154: `n` depth indices from `i` on map to the last kept shift index. -/
def fillTail (lastIndex : Nat) : (n i : Nat) → List Half → List Half
  | 0, _, d2s => d2s
  | n + 1, i, d2s => fillTail lastIndex n (i + 1) (d2s.set i (BitVec.ofNat 16 lastIndex))

/-- `Build(NS, ND)` (rules R154, R155): the two tables, zero-filled first; the scan is 1..MAX_SHIFT-1 and the tail
runs from the last kept depth through MAX_DEPTH. -/
def buildTables (p : Params) (c : Calib) (ns nd : Nat) : Except Raise (List Half × List Half) :=
  match buildScan (buildConsts p c) nd (c.maxShift.toNat - 1) 1
      { s2d := List.replicate ns 0, d2s := List.replicate nd 0, lastDepth := 0, lastIndex := 0 } with
  | .error f => .error f
  | .ok b => .ok (b.s2d, fillTail b.lastIndex (c.maxDepth.toNat + 1 - b.lastDepth) b.lastDepth b.d2s)

end Sys2Proof.Machine
end

