-- ==== Sys2Proof/Machine/Tables.lean ====
section
/-! DEFINITION. Machine/Tables.lean: the shift-to-depth table engine (40_s2d_engine.md): S2D_INIT, S2D_UPDATE,
S2D_FREE, S2D_SETCFG, S2D_CONVERT, S2D_READ_TABLE. -/

namespace Sys2Proof.Machine

/-- NS of the calibration registers: MAX_SHIFT + 1 (rule R150). -/
def calibNS (c : Calib) : Nat := c.maxShift.toNat + 1

/-- ND of the calibration registers: MAX_DEPTH + 1 (rule R150). -/
def calibND (c : Calib) : Nat := c.maxDepth.toNat + 1

/-- Run `Build(ns, nd)`; on success the tables are built, with TABLES_VALID = 1 and the sizes latched (rules R150,
R160); on DEPTH_INDEX_RANGE TABLES_VALID and the tables are unspecified (rule R345). `r0` and `r1` are the results. -/
def rebuild (opc : BitVec 8) (ns nd : Nat) (r0 r1 : Word) (s : State) : State :=
  match buildTables s.params s.calib ns nd with
  | .error f => raiseFault opc [] f (havocTables s)
  | .ok t =>
    finish opc .ok
      { s with
        s2d := t.1, d2s := t.2, tablesValid := true, tblNShift := BitVec.ofNat 17 ns
        tblNDepth := BitVec.ofNat 17 nd } r0 r1

/-- S2D_INIT (rule R150). -/
def execS2dInit (s : State) : Host.Outcome State Fault Refusal :=
  .next (rebuild 0x01 (calibNS s.calib) (calibND s.calib) (BitVec.ofNat 32 (calibNS s.calib))
    (BitVec.ofNat 32 (calibND s.calib)) s)

/-- S2D_UPDATE (rule R151). -/
def execS2dUpdate (s : State) : Host.Outcome State Fault Refusal :=
  .next (if s.tablesValid then
      rebuild 0x02 s.tblNShift.toNat s.tblNDepth.toNat (s.tblNShift.setWidth 32) (s.tblNDepth.setWidth 32) s
    else raiseFault 0x02 [] ⟨.tablesNotValid, 0, 0⟩ s)

/-- S2D_FREE (rule R152). The contents, unspecified from here on and never read, are not held. -/
def execS2dFree (s : State) : Host.Outcome State Fault Refusal :=
  .next (finish 0x03 .ok { s with tablesValid := false, tblNShift := 0, tblNDepth := 0, s2d := [], d2s := [] })

/-- S2D_SETCFG (rules R158-R160): validation, commit, CFG_EPOCH, then the cascade when tables are built. -/
def setcfg (f : CalibField) (vlo vhi : Word) (s : State) : State :=
  if acceptsField f vlo s.calib then
    let t := { s with calib := commitField f vlo vhi s.calib, cfgEpoch := s.cfgEpoch + 1 }
    if t.tablesValid then
      if sizeAffecting f then rebuild 0x04 (calibNS t.calib) (calibND t.calib) t.cfgEpoch 1 t
      else rebuild 0x04 t.tblNShift.toNat t.tblNDepth.toNat t.cfgEpoch 1 t
    else finish 0x04 .ok t t.cfgEpoch 0
  else finish 0x04 .configRejected s

/-- S2D_SETCFG of field 0 (rules R42, R158). -/
def execSetcfgZeroPlaneDistance (vlo vhi : Word) (s : State) : Host.Outcome State Fault Refusal :=
  .next (setcfg .zeroPlaneDistance vlo vhi s)

/-- S2D_SETCFG of field 1 (rules R42, R158). -/
def execSetcfgZeroPlanePixelSize (vlo vhi : Word) (s : State) : Host.Outcome State Fault Refusal :=
  .next (setcfg .zeroPlanePixelSize vlo vhi s)

/-- S2D_SETCFG of field 2 (rules R42, R158). -/
def execSetcfgEmitterDistance (vlo vhi : Word) (s : State) : Host.Outcome State Fault Refusal :=
  .next (setcfg .emitterDistance vlo vhi s)

/-- S2D_SETCFG of field 3 (rules R42, R158). -/
def execSetcfgMaxShift (vlo : Word) (s : State) : Host.Outcome State Fault Refusal :=
  .next (setcfg .maxShift vlo 0 s)

/-- S2D_SETCFG of field 4 (rules R42, R158). -/
def execSetcfgMaxDepth (vlo : Word) (s : State) : Host.Outcome State Fault Refusal :=
  .next (setcfg .maxDepth vlo 0 s)

/-- S2D_SETCFG of field 5 (rules R42, R158). -/
def execSetcfgConstShift (vlo : Word) (s : State) : Host.Outcome State Fault Refusal :=
  .next (setcfg .constShift vlo 0 s)

/-- S2D_SETCFG of field 6 (rules R42, R158). -/
def execSetcfgPixelSizeFactor (vlo : Word) (s : State) : Host.Outcome State Fault Refusal :=
  .next (setcfg .pixelSizeFactor vlo 0 s)

/-- S2D_SETCFG of field 7 (rules R42, R158). -/
def execSetcfgParamCoeff (vlo : Word) (s : State) : Host.Outcome State Fault Refusal :=
  .next (setcfg .paramCoeff vlo 0 s)

/-- S2D_SETCFG of field 8 (rules R42, R158). -/
def execSetcfgShiftScale (vlo : Word) (s : State) : Host.Outcome State Fault Refusal :=
  .next (setcfg .shiftScale vlo 0 s)

/-- S2D_SETCFG of field 9 (rules R42, R158). -/
def execSetcfgMinCutoff (vlo : Word) (s : State) : Host.Outcome State Fault Refusal :=
  .next (setcfg .minCutoff vlo 0 s)

/-- S2D_SETCFG of field 10 (rules R42, R158). -/
def execSetcfgMaxCutoff (vlo : Word) (s : State) : Host.Outcome State Fault Refusal :=
  .next (setcfg .maxCutoff vlo 0 s)

/-- S2D_SETCFG of field 11 (rules R42, R158). -/
def execSetcfgOutputFormat (vlo : Word) (s : State) : Host.Outcome State Fault Refusal :=
  .next (setcfg .outputFormat vlo 0 s)

/-- What S2D_CONVERT stores for element `i`: the depth, or two free bytes where the ranges overlap out of place
(rules R87, R162, R163). -/
def convertOut (scramble : Option Nat) (i : Nat) (depth : Half) : List Byte :=
  match scramble with
  | none => halfBytes depth
  | some nonce => freeBytes (nonce + 2 * i) 2

/-- The loop of rule R162 over `n` elements from element `i` on, at `src` and `dst`. -/
def convertLoop (p : Params) (s2d : List Half) (ns : Nat) (scramble : Option Nat) :
    (n i src dst : Nat) → Memory → Except Raise Memory
  | 0, _, _, _, m => .ok m
  | n + 1, i, src, dst, m =>
    match readChecked p m src 2 with
    | .error f => .error f
    | .ok bs =>
      if ns ≤ leNat bs then .error ⟨.shiftIndexRange, BitVec.ofNat 32 i, BitVec.ofNat 32 (leNat bs)⟩
      else
        match writeChecked p m dst (convertOut scramble i (s2d.getD (leNat bs) 0)) with
        | .error f => .error f
        | .ok m' => convertLoop p s2d ns scramble n (i + 1) (src + 2) (dst + 2) m'

/-- The range S2D_CONVERT writes (rules R84, R162). -/
def convertWrites (count dst : Word) : List (Nat × Nat) := [(dst.toNat, 2 * count.toNat)]

/-- The ranges of S2D_CONVERT overlap out of place (rules R87, R163). -/
def convertOverlaps (src count dst : Word) : Bool :=
  decide (src ≠ dst) && rangesOverlap (src.toNat, 2 * count.toNat) (dst.toNat, 2 * count.toNat)

/-- S2D_CONVERT (rule R162). -/
def execS2dConvert (src count dst : Word) (s : State) : Host.Outcome State Fault Refusal :=
  let overlap := convertOverlaps src count dst
  let t := if overlap then { s with nonce := s.nonce + 2 * count.toNat } else s
  .next (endCommand 0x05 (convertWrites count dst) t
    (match checkRanges [(src.toNat, 2 * count.toNat), (dst.toNat, 2 * count.toNat)] with
    | .error f => .error f
    | .ok _ =>
      if s.tablesValid then
        match convertLoop s.params s.s2d s.tblNShift.toNat (if overlap then some s.nonce else none) count.toNat 0
            src.toNat dst.toNat s.mem with
        | .error f => .error f
        | .ok m => .ok (finish 0x05 .ok { t with mem := m } count)
      else .error ⟨.tablesNotValid, 0, 0⟩))

/-- The range S2D_READ_TABLE writes (rules R84, R164). -/
def readTableWrites (dst cap : Word) : List (Nat × Nat) := [(dst.toNat, cap.toNat)]

/-- S2D_READ_TABLE (rule R164) of a table with `n` entries. -/
def readTable (table : List Half) (n : Nat) (dst cap : Word) (s : State) : State :=
  endCommand 0x06 (readTableWrites dst cap) s
    (match checkRanges [(dst.toNat, cap.toNat)] with
    | .error f => .error f
    | .ok _ =>
      if s.tablesValid then
        if cap.toNat < 2 * n then .ok (finish 0x06 .outputBufferOverflow s)
        else
          match writeChecked s.params s.mem dst.toNat ((table.takeD n 0).flatMap halfBytes) with
          | .error f => .error f
          | .ok m => .ok (finish 0x06 .ok { s with mem := m } (BitVec.ofNat 32 (2 * n)))
      else .error ⟨.tablesNotValid, 0, 0⟩)

/-- S2D_READ_TABLE, WHICH = 0: the shift-to-depth table (rule R164). -/
def execS2dRdtabS2d (dst cap : Word) (s : State) : Host.Outcome State Fault Refusal :=
  .next (readTable s.s2d s.tblNShift.toNat dst cap s)

/-- S2D_READ_TABLE, WHICH = 1: the depth-to-shift table (rule R164). -/
def execS2dRdtabD2s (dst cap : Word) (s : State) : Host.Outcome State Fault Refusal :=
  .next (readTable s.d2s s.tblNDepth.toNat dst cap s)

end Sys2Proof.Machine
end

