-- ==== Sys2Proof/Machine/Dispatch.lean ====
section
/-! DEFINITION. Machine/Dispatch.lean: the command rule of each row of the opcode table (46_system.md rule R332). -/

namespace Sys2Proof.Machine

def exec (i : Instr) (s : State) : Host.Outcome State Fault Refusal :=
  match i with
  | .nop => Sys2Proof.Machine.execNop s
  | .s2dInit => Sys2Proof.Machine.execS2dInit s
  | .s2dUpdate => Sys2Proof.Machine.execS2dUpdate s
  | .s2dFree => Sys2Proof.Machine.execS2dFree s
  | .setcfgZeroPlaneDistance vlo vhi => Sys2Proof.Machine.execSetcfgZeroPlaneDistance vlo vhi s
  | .setcfgZeroPlanePixelSize vlo vhi => Sys2Proof.Machine.execSetcfgZeroPlanePixelSize vlo vhi s
  | .setcfgEmitterDistance vlo vhi => Sys2Proof.Machine.execSetcfgEmitterDistance vlo vhi s
  | .setcfgMaxShift vlo => Sys2Proof.Machine.execSetcfgMaxShift vlo s
  | .setcfgMaxDepth vlo => Sys2Proof.Machine.execSetcfgMaxDepth vlo s
  | .setcfgConstShift vlo => Sys2Proof.Machine.execSetcfgConstShift vlo s
  | .setcfgPixelSizeFactor vlo => Sys2Proof.Machine.execSetcfgPixelSizeFactor vlo s
  | .setcfgParamCoeff vlo => Sys2Proof.Machine.execSetcfgParamCoeff vlo s
  | .setcfgShiftScale vlo => Sys2Proof.Machine.execSetcfgShiftScale vlo s
  | .setcfgMinCutoff vlo => Sys2Proof.Machine.execSetcfgMinCutoff vlo s
  | .setcfgMaxCutoff vlo => Sys2Proof.Machine.execSetcfgMaxCutoff vlo s
  | .setcfgOutputFormat vlo => Sys2Proof.Machine.execSetcfgOutputFormat vlo s
  | .s2dConvert src count dst => Sys2Proof.Machine.execS2dConvert src count dst s
  | .s2dRdtabS2d dst cap => Sys2Proof.Machine.execS2dRdtabS2d dst cap s
  | .s2dRdtabD2s dst cap => Sys2Proof.Machine.execS2dRdtabD2s dst cap s
  | .unpack12 src srclen dst dstcap => Sys2Proof.Machine.execUnpack12 src srclen dst dstcap s
  | .uncompPs src srclen dst dstcap line => Sys2Proof.Machine.execUncompPs src srclen dst dstcap line s
  | .uncompPsLast src srclen dst dstcap line => Sys2Proof.Machine.execUncompPsLast src srclen dst dstcap line s
  | .uncompNew src srclen dst dstcap line => Sys2Proof.Machine.execUncompNew src srclen dst dstcap line s
  | .uncompNewLast src srclen dst dstcap line => Sys2Proof.Machine.execUncompNewLast src srclen dst dstcap line s
  | .mirrorGray8 buf len width => Sys2Proof.Machine.execMirrorGray8 buf len width s
  | .mirrorGray16 buf len width => Sys2Proof.Machine.execMirrorGray16 buf len width s
  | .mirrorDepth1mm buf len width => Sys2Proof.Machine.execMirrorDepth1mm buf len width s
  | .mirrorDepth100um buf len width => Sys2Proof.Machine.execMirrorDepth100um buf len width s
  | .mirrorShift92 buf len width => Sys2Proof.Machine.execMirrorShift92 buf len width s
  | .mirrorRgb888 buf len width => Sys2Proof.Machine.execMirrorRgb888 buf len width s
  | .mirrorYuv422 buf len width => Sys2Proof.Machine.execMirrorYuv422 buf len width s
  | .mirrorYuyv buf len width => Sys2Proof.Machine.execMirrorYuyv buf len width s
  | .mirrorCode fmt buf len width => Sys2Proof.Machine.execMirrorCode fmt buf len width s
  | .frameSofPacked12 c wbase wcap line => Sys2Proof.Machine.execFrameSofPacked12 c wbase wcap line s
  | .frameSofPs c wbase wcap line => Sys2Proof.Machine.execFrameSofPs c wbase wcap line s
  | .frameSofNew c wbase wcap line => Sys2Proof.Machine.execFrameSofNew c wbase wcap line s
  | .frameChunk c src offset len bufsize => Sys2Proof.Machine.execFrameChunk c src offset len bufsize s
  | .frameEof c => Sys2Proof.Machine.execFrameEof c s
  | .lu3 a b x => Sys2Proof.Machine.execLu3 a b x s
  | .planefit pts n out => Sys2Proof.Machine.execPlanefit pts n out s

end Sys2Proof.Machine
end

