-- ==== Sys2Proof/Machine/Registers.lean ====
section
/-! DEFINITION. Machine/Registers.lean: the register window (10_state.md rules R32-R46): which register stands at an
offset, and what a read of it returns while the block is idle. -/

namespace Sys2Proof.Machine

/-- The registers of one frame context (rule R46). -/
inductive CtxReg where
  | state | frameId | wbufBase | wbufCap | wbufSize | contLen | lineBytes
deriving DecidableEq, Repr

/-- The registers of the window (rule R32). -/
inductive Reg where
  | id | status | control | faultCause | faultInfo | faultValue | cfgEpoch | tblNShift | tblNDepth
  | cmd (k : Fin 8)
  | result (k : Fin 4)
  /-- A calibration register; `hi` selects the HI word of an f64 one (rule R44). -/
  | calib (f : CalibField) (hi : Bool)
  | ctx (c : Fin 16) (r : CtxReg)
deriving DecidableEq, Repr

/-- The calibration registers' offsets (rule R42). -/
def calibRegAt (off : Nat) : Option Reg :=
  if off = 0x080 then some (.calib .zeroPlaneDistance false)
  else if off = 0x084 then some (.calib .zeroPlaneDistance true)
  else if off = 0x088 then some (.calib .zeroPlanePixelSize false)
  else if off = 0x08C then some (.calib .zeroPlanePixelSize true)
  else if off = 0x090 then some (.calib .emitterDistance false)
  else if off = 0x094 then some (.calib .emitterDistance true)
  else if off = 0x098 then some (.calib .maxShift false)
  else if off = 0x09C then some (.calib .maxDepth false)
  else if off = 0x0A0 then some (.calib .constShift false)
  else if off = 0x0A4 then some (.calib .pixelSizeFactor false)
  else if off = 0x0A8 then some (.calib .paramCoeff false)
  else if off = 0x0AC then some (.calib .shiftScale false)
  else if off = 0x0B0 then some (.calib .minCutoff false)
  else if off = 0x0B4 then some (.calib .maxCutoff false)
  else if off = 0x0B8 then some (.calib .outputFormat false)
  else none

/-- The register at offset `j` of a context's block (rule R46); +0x1C is reserved. -/
def ctxRegAt (j : Nat) : Option CtxReg :=
  if j = 0x00 then some .state
  else if j = 0x04 then some .frameId
  else if j = 0x08 then some .wbufBase
  else if j = 0x0C then some .wbufCap
  else if j = 0x10 then some .wbufSize
  else if j = 0x14 then some .contLen
  else if j = 0x18 then some .lineBytes
  else none

/-- The register at an offset of the window (rule R32); none where the offset is reserved. -/
def regAt (off : Nat) : Option Reg :=
  if off = 0x000 then some .id
  else if off = 0x004 then some .status
  else if off = 0x008 then some .control
  else if off = 0x00C then some .faultCause
  else if off = 0x010 then some .faultInfo
  else if off = 0x014 then some .faultValue
  else if off = 0x018 then some .cfgEpoch
  else if off = 0x01C then some .tblNShift
  else if off = 0x020 then some .tblNDepth
  else if 0x040 ≤ off ∧ off < 0x060 ∧ off % 4 = 0 then some (.cmd (Fin.ofNat 8 ((off - 0x040) / 4)))
  else if 0x060 ≤ off ∧ off < 0x070 ∧ off % 4 = 0 then some (.result (Fin.ofNat 4 ((off - 0x060) / 4)))
  else if 0x100 ≤ off ∧ off < 0x300 then
    (ctxRegAt ((off - 0x100) % 0x20)).map (.ctx (Fin.ofNat 16 ((off - 0x100) / 0x20)))
  else calibRegAt off

/-- A calibration register's word (rules R42, R44). -/
def calibWord (c : Calib) (f : CalibField) (hi : Bool) : Word :=
  match f with
  | .zeroPlaneDistance => if hi then c.zeroPlaneDistance.extractLsb' 32 32 else c.zeroPlaneDistance.extractLsb' 0 32
  | .zeroPlanePixelSize =>
    if hi then c.zeroPlanePixelSize.extractLsb' 32 32 else c.zeroPlanePixelSize.extractLsb' 0 32
  | .emitterDistance => if hi then c.emitterDistance.extractLsb' 32 32 else c.emitterDistance.extractLsb' 0 32
  | .maxShift => c.maxShift.setWidth 32
  | .maxDepth => c.maxDepth.setWidth 32
  | .constShift => c.constShift
  | .pixelSizeFactor => c.pixelSizeFactor
  | .paramCoeff => c.paramCoeff
  | .shiftScale => c.shiftScale
  | .minCutoff => c.minCutoff.setWidth 32
  | .maxCutoff => c.maxCutoff.setWidth 32
  | .outputFormat => c.outputFormat.setWidth 32

/-- A context register's word (rule R46). -/
def ctxWord (x : Context) : CtxReg → Word
  | .state => ctxStateWord x
  | .frameId => x.frameId
  | .wbufBase => x.wbufBase
  | .wbufCap => x.wbufCap
  | .wbufSize => x.wbufSize
  | .contLen => BitVec.ofNat 32 x.cont.length
  | .lineBytes => x.lineBytes

/-- What a register reads as while BUSY = 0 (rules R34-R46); the registers of a context that does not exist read 0
(rule R46), CONTROL reads 0 (rule R36), TBL_NSHIFT and TBL_NDEPTH read 0 while TABLES_VALID = 0 (rule R39). -/
def readReg (s : State) : Reg → Word
  | .id => s.params.blockId
  | .status => statusWord s
  | .control => 0
  | .faultCause => s.faultCause.setWidth 32
  | .faultInfo => s.faultInfo
  | .faultValue => s.faultValue
  | .cfgEpoch => s.cfgEpoch
  | .tblNShift => if s.tablesValid then s.tblNShift.setWidth 32 else 0
  | .tblNDepth => if s.tablesValid then s.tblNDepth.setWidth 32 else 0
  | .cmd k => s.cmd[k]
  | .result k => s.result[k]
  | .calib f hi => calibWord s.calib f hi
  | .ctx c r => if c.val < s.params.numCtx then ctxWord s.contexts[c] r else 0

end Sys2Proof.Machine
end

