-- ==== Sys2Proof/Machine/Engine.lean ====
section
/-! DEFINITION. Machine/Engine.lean: how a command is started, run, abandoned and reset (46_system.md rules
R331-R332, 70_reset_and_hazards.md rules R380-R382), and what each access of the host does (10_state.md rules R32-R36,
R40, R53; 20_memory.md rules R80, R88, R92). -/

namespace Sys2Proof.Machine

/-- The ranges a command writes, by the ranges it names (20_memory.md rules R84, R96). -/
def writeRanges (s : State) : Instr → List (Nat × Nat)
  | .s2dConvert _ count dst => convertWrites count dst
  | .s2dRdtabS2d dst cap => readTableWrites dst cap
  | .s2dRdtabD2s dst cap => readTableWrites dst cap
  | .unpack12 _ _ dst dstcap => unpackWrites dst dstcap
  | .uncompPs _ _ dst dstcap _ => uncompWrites dst dstcap
  | .uncompPsLast _ _ dst dstcap _ => uncompWrites dst dstcap
  | .uncompNew _ _ dst dstcap _ => uncompWrites dst dstcap
  | .uncompNewLast _ _ dst dstcap _ => uncompWrites dst dstcap
  | .mirrorGray8 buf len _ => mirrorWrites buf len
  | .mirrorGray16 buf len _ => mirrorWrites buf len
  | .mirrorDepth1mm buf len _ => mirrorWrites buf len
  | .mirrorDepth100um buf len _ => mirrorWrites buf len
  | .mirrorShift92 buf len _ => mirrorWrites buf len
  | .mirrorRgb888 buf len _ => mirrorWrites buf len
  | .mirrorYuv422 buf len _ => mirrorWrites buf len
  | .mirrorYuyv buf len _ => mirrorWrites buf len
  | .frameChunk c _ _ _ _ => chunkWrites s c
  | .lu3 _ _ x => vecWrites x
  | .planefit _ _ out => vecWrites out
  | .nop => []
  | .s2dInit => []
  | .s2dUpdate => []
  | .s2dFree => []
  | .setcfgZeroPlaneDistance _ _ => []
  | .setcfgZeroPlanePixelSize _ _ => []
  | .setcfgEmitterDistance _ _ => []
  | .setcfgMaxShift _ => []
  | .setcfgMaxDepth _ => []
  | .setcfgConstShift _ => []
  | .setcfgPixelSizeFactor _ => []
  | .setcfgParamCoeff _ => []
  | .setcfgShiftScale _ => []
  | .setcfgMinCutoff _ => []
  | .setcfgMaxCutoff _ => []
  | .setcfgOutputFormat _ => []
  | .mirrorCode _ _ _ _ => []
  | .frameSofPacked12 _ _ _ _ => []
  | .frameSofPs _ _ _ _ => []
  | .frameSofNew _ _ _ _ => []
  | .frameEof _ => []

/-- The command a descriptor stands for on this machine; none is ILLEGAL_COMMAND (rules R113, R117, R332). -/
def legalCommand (s : State) (d : Descriptor) : Option Instr :=
  match decode d with
  | .error _ => none
  | .ok i => if i.wellFormed s.params.numCtx then some i else none

/-- ILLEGAL_COMMAND: STATUS and RESULT0..3, nothing else (rules R113, R117). -/
def illegalCommand (d : Descriptor) (s : State) : State := finish (opcOf d) .illegalCommand s

/-- The ranges the running descriptor writes; an illegal one writes nothing. -/
def runningWrites (s : State) (d : Descriptor) : List (Nat × Nat) :=
  match legalCommand s d with
  | none => []
  | some i => writeRanges s i

/-- Execution of a latched descriptor (rule R332). -/
def runDescriptor (d : Descriptor) (s : State) : Host.Outcome State Fault Refusal :=
  match legalCommand s d with
  | none => .next (illegalCommand d s)
  | some i => exec i s

/-- Store a free value at each address, the `k`-th from `nonce` on. -/
def freeAt (m : Memory) (nonce : Nat) : List Word → Memory
  | [] => m
  | a :: as => freeAt (m.write a.toNat (Config.freeByte nonce)) (nonce + 1) as

/-- What the command reads of the bytes the host wrote while it ran is any value (rule R92, U4). -/
def enterRace (s : State) : State :=
  { s with mem := freeAt s.mem s.nonce s.raced, nonce := s.nonce + s.raced.length }

/-- After the command: a raced byte in a range the command writes is any value (rule R92); any other raced byte holds
what the host wrote, which `before` still has. -/
def settleRace (before : Memory) (writes : List (Nat × Nat)) (m : Memory) (nonce : Nat) : List Word → Memory
  | [] => m
  | a :: as =>
    settleRace before writes
      (m.write a.toNat (if inRanges a.toNat writes then Config.freeByte nonce else before.read a.toNat)) (nonce + 1) as

/-- The end of a raced command. -/
def leaveRace (s : State) (writes : List (Nat × Nat)) (t : State) : State :=
  { t with
    mem := settleRace s.mem writes t.mem t.nonce s.raced
    nonce := t.nonce + s.raced.length
    raced := [] }

/-- The engine runs the latched descriptor to its end (rules R10, R332); with nothing running it does nothing. -/
def engineRun (s : State) : Host.Outcome State Fault Refusal :=
  match s.running with
  | none => .next s
  | some d =>
    if s.raced.isEmpty then runDescriptor d s
    else
      match runDescriptor d (enterRace s) with
      | .next t => .next (leaveRace s (runningWrites s d) t)
      | .fault f => .fault f
      | .refused r => .refused r

/-- Start (rule R331): ignored while BUSY = 1 or FAULT = 1; else the descriptor is latched and BUSY set. -/
def startCommand (s : State) : State := if s.busy || s.fault then s else { s with running := some s.cmd, raced := [] }

/-- Reset from outside (rules R381, R382): a running command is abandoned and the bytes of its write ranges are
unspecified. -/
def resetNow (s : State) : State :=
  match s.running with
  | none => resetBlock s
  | some d => resetBlock (havocRanges s (runningWrites s d))

/-- A write to CONTROL (rule R36): SOFT_RESET (bit 1) wins over GO (bit 0); the other bits are ignored. -/
def writeControl (v : Word) (s : State) : State :=
  if v.getLsbD 1 then resetNow s else if v.getLsbD 0 then startCommand s else s

/-- A 32-bit aligned write to the window (rules R33, R36, R40, R43): CONTROL acts, CMD0..CMD7 store unless BUSY = 1,
every other write is ignored. -/
def writeWindow (off : Nat) (v : Word) (s : State) : State :=
  match regAt off with
  | some .control => writeControl v s
  | some (.cmd k) => if s.busy then s else { s with cmd := s.cmd.set k v }
  | _ => s

/-- The host sees a value. -/
def returnData (v : Word) (s : State) : State := { s with readData := v }

/-- The host sees an unspecified value (rules R53, R92). -/
def returnFree (s : State) : State := { s with readData := Config.freeWord s.nonce, nonce := s.nonce + 1 }

/-- A 32-bit aligned read of the window (rules R33, R53): a reserved offset reads 0; while BUSY = 1 every register but
STATUS and ID reads as any value. -/
def readWindow (off : Nat) (s : State) : State :=
  match regAt off with
  | none => returnData 0 s
  | some .id => returnData (readReg s .id) s
  | some .status => returnData (readReg s .status) s
  | some r => if s.busy then returnFree s else returnData (readReg s r) s

/-- The access is a naturally aligned 32-bit one (rule R33). -/
def alignedAccess (off : BitVec 10) (size : AccessSize) : Bool := decide (size = .bits32) && decide (off.toNat % 4 = 0)

/-- The host reads a byte of data memory by its own path (rules R80, R88): while a command runs, a byte in a range it
writes is any value (rule R92). -/
def hostMemRead (a : Word) (s : State) : State :=
  match s.running with
  | none => returnData ((s.mem.read a.toNat).setWidth 32) s
  | some d =>
    if inRanges a.toNat (runningWrites s d) then
      { s with readData := (Config.freeByte s.nonce).setWidth 32, nonce := s.nonce + 1 }
    else returnData ((s.mem.read a.toNat).setWidth 32) s

/-- The host writes a byte of data memory (rules R80, R88); while a command runs, the byte is raced (rule R92). -/
def hostMemWrite (a : Word) (b : Byte) (s : State) : State :=
  { s with mem := s.mem.write a.toNat b, raced := if s.busy then a :: s.raced else s.raced }

/-- What happens at the block's boundary. -/
def handleEvent (e : Event) (s : State) : Host.Outcome State Fault Refusal :=
  match e with
  | .regRead off size => if alignedAccess off size then .next (readWindow off.toNat s) else .refused .windowAccessForm
  | .regWrite off size v =>
    if alignedAccess off size then .next (writeWindow off.toNat v s) else .refused .windowAccessForm
  | .memRead a => if s.params.admits a.toNat then .next (hostMemRead a s) else .fault .hostAddressNotAdmitted
  | .memWrite a b => if s.params.admits a.toNat then .next (hostMemWrite a b s) else .fault .hostAddressNotAdmitted
  | .resetInput => .next (resetNow s)
  | .engine => engineRun s

/-- One step: the next event, or, with none left, the running command runs to its end; an idle block stays idle (rules
R331, R332, R356). -/
def stepBlock (s : State) : Host.Outcome State Fault Refusal :=
  match s.events with
  | [] => engineRun s
  | e :: es => handleEvent e { s with events := es }

/-- `s` with the descriptor of the given bits in CMD0..CMD7, latched by the engine, and nothing before its run. -/
def placeCommand (d : Descriptor) (s : State) : State :=
  { s with cmd := d, running := some d, events := [], raced := [] }

end Sys2Proof.Machine
end

