-- ==== Sys2Proof/Machine/Step.lean ====
section
/-! DEFINITION. Machine/Step.lean: the step of the machine, and the placing of one command where the next step runs
it. -/

namespace Sys2Proof.Machine

/-- One step of the block with its host and platform (Machine/Engine.lean). -/
def step (s : State) : Host.Outcome State Fault Refusal := stepBlock s

/-- `s` with the command whose descriptor bits are `w` (bit 0 the least significant bit of CMD0, every bit above
`nbits` 0) written to CMD0..CMD7 and started (46_system.md rule R331), so that the next step runs it. -/
def State.withFetchWord (s : State) (nbits w : Nat) : State := placeCommand (descriptorOfBits nbits w) s

end Sys2Proof.Machine
end

