-- ==== Sys2Proof/Machine/Protocol.lean ====
section
/-! DEFINITION. Machine/Protocol.lean: the host's side of a command (46_system.md rule R334) and the command lines and
pseudo-commands of 30_encoding.md rules R122 and R123, as sequences of events. -/

namespace Sys2Proof.Machine

/-- Writing one CMD register (rule R40). -/
def writeCmdEvent (d : Descriptor) (k : Fin 8) : Event := .regWrite (BitVec.ofNat 10 (0x040 + 4 * k.val)) .bits32 d[k]

/-- `wait` (rule R123): the host polls STATUS until BUSY = 0, so the running command reaches its end. -/
def waitEvent : Event := .engine

/-- `issue X` (rules R123, R334): write the descriptor to CMD0..CMD7, write CONTROL = 1, wait. -/
def issueEvents (d : Descriptor) : List Event :=
  [writeCmdEvent d 0, writeCmdEvent d 1, writeCmdEvent d 2, writeCmdEvent d 3, writeCmdEvent d 4, writeCmdEvent d 5,
    writeCmdEvent d 6, writeCmdEvent d 7, .regWrite 0x008 .bits32 1, waitEvent]

/-- A program: its lines issued in order (rules R122, R334). -/
def programEvents (is : List Instr) : List Event := is.flatMap fun i => issueEvents (encode i)

/-- The binary64 nearest to the decimal literal `(-1)^neg * digits * 10^exp10` (rule R122). -/
def f64Literal (neg : Bool) (digits : Nat) (exp10 : Int) : F64 :=
  if 0 ≤ exp10 then F64.round neg (digits * 10 ^ exp10.toNat) 0
  else (F64.fin neg digits 0).div (F64.ofNat (10 ^ (-exp10).toNat))

/-- The operands of `s2d.config` (rule R123), each already a number. -/
structure ConfigLine where
  zpd : Bits64
  zpps : Bits64
  emit : Bits64
  maxShift : Half
  maxDepth : Half
  constShift : Word
  psf : Word
  coeff : Word
  scale : Word
  minCut : Half
  maxCut : Half
  fmt : Half
deriving DecidableEq, Repr

/-- The low word of an f64 operand: VLO (rule R114). -/
def loWord (v : Bits64) : Word := v.extractLsb' 0 32

/-- The high word of an f64 operand: VHI (rule R114). -/
def hiWord (v : Bits64) : Word := v.extractLsb' 32 32

/-- The expansion of `s2d.config` (rule R123): `s2d.free`, fourteen `s2d.setcfg` lines, `s2d.init`. -/
def s2dConfig (c : ConfigLine) : List Instr :=
  [.s2dFree,
    .setcfgMinCutoff 0,
    .setcfgMaxCutoff 0,
    .setcfgMaxDepth (c.maxDepth.setWidth 32),
    .setcfgMaxShift (c.maxShift.setWidth 32),
    .setcfgZeroPlaneDistance (loWord c.zpd) (hiWord c.zpd),
    .setcfgZeroPlanePixelSize (loWord c.zpps) (hiWord c.zpps),
    .setcfgEmitterDistance (loWord c.emit) (hiWord c.emit),
    .setcfgConstShift c.constShift,
    .setcfgPixelSizeFactor c.psf,
    .setcfgParamCoeff c.coeff,
    .setcfgShiftScale c.scale,
    .setcfgOutputFormat (c.fmt.setWidth 32),
    .setcfgMaxCutoff (c.maxCut.setWidth 32),
    .setcfgMinCutoff (c.minCut.setWidth 32),
    .s2dInit]

/-- The name a command line starts with (rule R122). -/
def lineName : Instr → String
  | .nop => "nop"
  | .s2dInit => "s2d.init"
  | .s2dUpdate => "s2d.update"
  | .s2dFree => "s2d.free"
  | .setcfgZeroPlaneDistance _ _ => "s2d.setcfg ZERO_PLANE_DISTANCE"
  | .setcfgZeroPlanePixelSize _ _ => "s2d.setcfg ZERO_PLANE_PIXEL_SIZE"
  | .setcfgEmitterDistance _ _ => "s2d.setcfg EMITTER_DISTANCE"
  | .setcfgMaxShift _ => "s2d.setcfg MAX_SHIFT"
  | .setcfgMaxDepth _ => "s2d.setcfg MAX_DEPTH"
  | .setcfgConstShift _ => "s2d.setcfg CONST_SHIFT"
  | .setcfgPixelSizeFactor _ => "s2d.setcfg PIXEL_SIZE_FACTOR"
  | .setcfgParamCoeff _ => "s2d.setcfg PARAM_COEFF"
  | .setcfgShiftScale _ => "s2d.setcfg SHIFT_SCALE"
  | .setcfgMinCutoff _ => "s2d.setcfg MIN_CUTOFF"
  | .setcfgMaxCutoff _ => "s2d.setcfg MAX_CUTOFF"
  | .setcfgOutputFormat _ => "s2d.setcfg OUTPUT_FORMAT"
  | .s2dConvert _ _ _ => "s2d.convert"
  | .s2dRdtabS2d _ _ => "s2d.rdtab.s2d"
  | .s2dRdtabD2s _ _ => "s2d.rdtab.d2s"
  | .unpack12 _ _ _ _ => "unpack12"
  | .uncompPs _ _ _ _ _ => "uncomp.ps"
  | .uncompPsLast _ _ _ _ _ => "uncomp.ps.last"
  | .uncompNew _ _ _ _ _ => "uncomp.new"
  | .uncompNewLast _ _ _ _ _ => "uncomp.new.last"
  | .mirrorGray8 _ _ _ => "mirror.gray8"
  | .mirrorGray16 _ _ _ => "mirror.gray16"
  | .mirrorDepth1mm _ _ _ => "mirror.depth1mm"
  | .mirrorDepth100um _ _ _ => "mirror.depth100um"
  | .mirrorShift92 _ _ _ => "mirror.shift92"
  | .mirrorRgb888 _ _ _ => "mirror.rgb888"
  | .mirrorYuv422 _ _ _ => "mirror.yuv422"
  | .mirrorYuyv _ _ _ => "mirror.yuyv"
  | .mirrorCode _ _ _ _ => "mirror"
  | .frameSofPacked12 _ _ _ _ => "frame.sof"
  | .frameSofPs _ _ _ _ => "frame.sof"
  | .frameSofNew _ _ _ _ => "frame.sof"
  | .frameChunk _ _ _ _ _ => "frame.chunk"
  | .frameEof _ => "frame.eof"
  | .lu3 _ _ _ => "lu3"
  | .planefit _ _ _ => "planefit"

/-- An integer operand of a line, in decimal (rule R122). -/
def lineNumber (w : Word) : String := Nat.repr w.toNat

/-- A context operand `cN` (rule R122). -/
def lineCtx (c : BitVec 4) : String := "c" ++ Nat.repr c.toNat

/-- The operands of a line, in order (rule R122), for a command whose operands are all integers; an f64 value is
shown by its two words, VLO then VHI, because a decimal literal is an input notation (`f64Literal`). -/
def lineOperands : Instr → List String
  | .nop => []
  | .s2dInit => []
  | .s2dUpdate => []
  | .s2dFree => []
  | .setcfgZeroPlaneDistance vlo vhi => [lineNumber vlo, lineNumber vhi]
  | .setcfgZeroPlanePixelSize vlo vhi => [lineNumber vlo, lineNumber vhi]
  | .setcfgEmitterDistance vlo vhi => [lineNumber vlo, lineNumber vhi]
  | .setcfgMaxShift v => [lineNumber v]
  | .setcfgMaxDepth v => [lineNumber v]
  | .setcfgConstShift v => [Int.repr v.toInt]
  | .setcfgPixelSizeFactor v => [lineNumber v]
  | .setcfgParamCoeff v => [lineNumber v]
  | .setcfgShiftScale v => [lineNumber v]
  | .setcfgMinCutoff v => [lineNumber v]
  | .setcfgMaxCutoff v => [lineNumber v]
  | .setcfgOutputFormat v => [lineNumber v]
  | .s2dConvert src count dst => [lineNumber src, lineNumber count, lineNumber dst]
  | .s2dRdtabS2d dst cap => [lineNumber dst, lineNumber cap]
  | .s2dRdtabD2s dst cap => [lineNumber dst, lineNumber cap]
  | .unpack12 src len dst cap => [lineNumber src, lineNumber len, lineNumber dst, lineNumber cap]
  | .uncompPs src len dst cap line => [src, len, dst, cap, line].map lineNumber
  | .uncompPsLast src len dst cap line => [src, len, dst, cap, line].map lineNumber
  | .uncompNew src len dst cap line => [src, len, dst, cap, line].map lineNumber
  | .uncompNewLast src len dst cap line => [src, len, dst, cap, line].map lineNumber
  | .mirrorGray8 buf len width => [buf, len, width].map lineNumber
  | .mirrorGray16 buf len width => [buf, len, width].map lineNumber
  | .mirrorDepth1mm buf len width => [buf, len, width].map lineNumber
  | .mirrorDepth100um buf len width => [buf, len, width].map lineNumber
  | .mirrorShift92 buf len width => [buf, len, width].map lineNumber
  | .mirrorRgb888 buf len width => [buf, len, width].map lineNumber
  | .mirrorYuv422 buf len width => [buf, len, width].map lineNumber
  | .mirrorYuyv buf len width => [buf, len, width].map lineNumber
  | .mirrorCode fmt buf len width => ("#" ++ Nat.repr fmt.toNat) :: [buf, len, width].map lineNumber
  | .frameSofPacked12 c wbase wcap line => lineCtx c :: "packed12" :: [wbase, wcap, line].map lineNumber
  | .frameSofPs c wbase wcap line => lineCtx c :: "ps" :: [wbase, wcap, line].map lineNumber
  | .frameSofNew c wbase wcap line => lineCtx c :: "new" :: [wbase, wcap, line].map lineNumber
  | .frameChunk c src offset len bufsize => lineCtx c :: [src, offset, len, bufsize].map lineNumber
  | .frameEof c => [lineCtx c]
  | .lu3 a b x => [a, b, x].map lineNumber
  | .planefit pts n out => [pts, n, out].map lineNumber

end Sys2Proof.Machine
end

