-- ==== Sys2Proof/Safety.lean ====
section
/-! DEFINITION. Safety.lean: what a good state of the block is, in the terms the statements use: the invariants the
spec states of its registers, tables and contexts, and the conditions under which a command meets no fault. -/

namespace Sys2Proof.Machine

/-- Every byte of `[a, a + n)` is in ADMITTED (20_memory.md rule R85). -/
abbrev Admitted (p : Params) (a n : Nat) : Prop := ∀ k, k < n → p.admits (a + k) = true

/-- The range passes the check of 20_memory.md rule R84. -/
abbrev InSpace (a n : Nat) : Prop := n = 0 ∨ a + n ≤ 2 ^ 32

/-- The ranges share no byte (20_memory.md rule R87); an empty range shares none. -/
abbrev Apart (a n b m : Nat) : Prop := n = 0 ∨ m = 0 ∨ a + n ≤ b ∨ b + m ≤ a

/-- The u16 at `a` as a number (20_memory.md rule R81). -/
abbrev halfAt (m : Memory) (a : Nat) : Nat := (m.read a).toNat + 256 * (m.read (a + 1)).toNat

/-- The state a command that completes OK leaves when it changes nothing else (60_exceptions.md rule R343, written
out). -/
abbrev okState (s : State) (opc : BitVec 8) (r0 r1 r2 r3 : Word) : State :=
  { s with result := #v[r0, r1, r2, r3], lastStatus := 0x00, lastOpcode := opc, running := none }

/-- The state a command that completes with another status leaves (60_exceptions.md rules R343, R344, written out). -/
abbrev statusState (s : State) (opc code : BitVec 8) : State :=
  { s with result := #v[0, 0, 0, 0], lastStatus := code, lastOpcode := opc, running := none }

/-- The state a fault leaves when it makes nothing unspecified (60_exceptions.md rules R345, R346, written out). -/
abbrev faultState (s : State) (opc cause : BitVec 8) (info value : Word) : State :=
  { s with
    faultCause := cause, faultInfo := info, faultValue := value, result := #v[0, 0, 0, 0], fault := true
    lastStatus := 0xFF, lastOpcode := opc, running := none }

/-- The registers of a fault: what 60_exceptions.md rule R345 writes, wherever else the state may be unspecified. -/
abbrev Faulted (t : State) (opc cause : BitVec 8) (info value : Word) : Prop :=
  t.fault = true ∧ t.faultCause = cause ∧ t.faultInfo = info ∧ t.faultValue = value ∧ t.result = #v[0, 0, 0, 0] ∧
    t.lastStatus = 0xFF ∧ t.lastOpcode = opc ∧ t.running = none

/-- What a register reads as right after reset (10_state.md rules R32, R42; 70_reset_and_hazards.md rule R380). -/
def resetWord (p : Params) : Reg → Word
  | .id => p.blockId
  | .calib .outputFormat _ => 100
  | _ => 0

/-- Every piece of state has its value after reset (70_reset_and_hazards.md rule R380): each register as the host
reads it, no command running, no valid table, and each context idle with no continuation byte. -/
abbrev ResetValues (t : State) : Prop :=
  t.running = none ∧ t.fault = false ∧ t.tablesValid = false ∧ (∀ r : Reg, readReg t r = resetWord t.params r) ∧
    t.calib.zeroPlaneDistance = 0 ∧ t.calib.zeroPlanePixelSize = 0 ∧ t.calib.emitterDistance = 0 ∧
    (∀ c : Fin 16, t.contexts[c] = Context.reset)

/-- OPC is in no row of the opcode map (30_encoding.md rule R117). -/
abbrev ReservedOpcode (o : Nat) : Prop :=
  (0x07 ≤ o ∧ o ≤ 0x0F) ∨ (0x13 ≤ o ∧ o ≤ 0x1F) ∨ (0x21 ≤ o ∧ o ≤ 0x2F) ∨ (0x33 ≤ o ∧ o ≤ 0x3F) ∨
    (0x42 ≤ o ∧ o ≤ 0xFF)

/-- A CMD0 field breaks 30_encoding.md rule R113, by the table of rule R116 and the values of rules R119 and R120. -/
def FieldViolation (numCtx : Nat) (d : Descriptor) : Prop :=
  let o := (opcOf d).toNat
  let ctx := (ctxOf d).toNat
  let flags := (flagsOf d).toNat
  let arg := (arg16Of d).toNat
  (o ∈ [0x00, 0x01, 0x02, 0x03, 0x05, 0x10, 0x40, 0x41] ∧ (ctx ≠ 0 ∨ flags ≠ 0 ∨ arg ≠ 0)) ∨
  (o = 0x04 ∧ (ctx ≠ 0 ∨ flags ≠ 0 ∨ 12 ≤ arg)) ∨
  (o ∈ [0x06, 0x11, 0x12] ∧ (ctx ≠ 0 ∨ 2 ≤ flags ∨ arg ≠ 0)) ∨
  (o = 0x20 ∧ (ctx ≠ 0 ∨ flags ≠ 0)) ∨
  (o = 0x30 ∧ (numCtx ≤ ctx ∨ 3 ≤ flags ∨ arg ≠ 0)) ∨
  (o ∈ [0x31, 0x32] ∧ (numCtx ≤ ctx ∨ flags ≠ 0 ∨ arg ≠ 0))

/-- How many operand words a command uses: CMD1 to CMDn (30_encoding.md rule R116). -/
def usedWords (i : Instr) : Nat :=
  match i with
  | .nop | .s2dInit | .s2dUpdate | .s2dFree | .frameEof _ => 0
  | .setcfgMaxShift _ | .setcfgMaxDepth _ | .setcfgConstShift _ | .setcfgPixelSizeFactor _ | .setcfgParamCoeff _
  | .setcfgShiftScale _ | .setcfgMinCutoff _ | .setcfgMaxCutoff _ | .setcfgOutputFormat _ => 1
  | .setcfgZeroPlaneDistance _ _ | .setcfgZeroPlanePixelSize _ _ | .setcfgEmitterDistance _ _
  | .s2dRdtabS2d _ _ | .s2dRdtabD2s _ _ => 2
  | .s2dConvert _ _ _ | .mirrorGray8 _ _ _ | .mirrorGray16 _ _ _ | .mirrorDepth1mm _ _ _ | .mirrorDepth100um _ _ _
  | .mirrorShift92 _ _ _ | .mirrorRgb888 _ _ _ | .mirrorYuv422 _ _ _ | .mirrorYuyv _ _ _ | .mirrorCode _ _ _ _
  | .frameSofPacked12 _ _ _ _ | .frameSofPs _ _ _ _ | .frameSofNew _ _ _ _ | .lu3 _ _ _ | .planefit _ _ _ => 3
  | .unpack12 _ _ _ _ | .frameChunk _ _ _ _ _ => 4
  | .uncompPs _ _ _ _ _ | .uncompPsLast _ _ _ _ _ | .uncompNew _ _ _ _ _ | .uncompNewLast _ _ _ _ _ => 5

/-- The ranges a command names, in the order its rule lists them (20_memory.md rule R84). -/
def namedRanges (i : Instr) : List (Nat × Nat) :=
  match i with
  | .s2dConvert src count dst => [(src.toNat, 2 * count.toNat), (dst.toNat, 2 * count.toNat)]
  | .s2dRdtabS2d dst cap | .s2dRdtabD2s dst cap => [(dst.toNat, cap.toNat)]
  | .unpack12 src len dst cap | .uncompPs src len dst cap _ | .uncompPsLast src len dst cap _
  | .uncompNew src len dst cap _ | .uncompNewLast src len dst cap _ => [(src.toNat, len.toNat), (dst.toNat, cap.toNat)]
  | .mirrorGray8 buf len _ | .mirrorGray16 buf len _ | .mirrorDepth1mm buf len _ | .mirrorDepth100um buf len _
  | .mirrorShift92 buf len _ | .mirrorRgb888 buf len _ | .mirrorYuv422 buf len _ | .mirrorYuyv buf len _ =>
    [(buf.toNat, len.toNat)]
  | .frameSofPacked12 _ wbase wcap _ | .frameSofPs _ wbase wcap _ | .frameSofNew _ wbase wcap _ =>
    [(wbase.toNat, wcap.toNat)]
  | .frameChunk _ src _ len _ => [(src.toNat, len.toNat)]
  | .lu3 a b x => [(a.toNat, 72), (b.toNat, 24), (x.toNat, 24)]
  | .planefit pts n out => [(pts.toNat, 24 * n.toNat), (out.toNat, 24)]
  | .nop | .s2dInit | .s2dUpdate | .s2dFree | .setcfgZeroPlaneDistance _ _ | .setcfgZeroPlanePixelSize _ _
  | .setcfgEmitterDistance _ _ | .setcfgMaxShift _ | .setcfgMaxDepth _ | .setcfgConstShift _
  | .setcfgPixelSizeFactor _ | .setcfgParamCoeff _ | .setcfgShiftScale _ | .setcfgMinCutoff _ | .setcfgMaxCutoff _
  | .setcfgOutputFormat _ | .mirrorCode _ _ _ _ | .frameEof _ => []

/-- The context state lets the command go on to its range checks: FRAME_CHUNK and FRAME_EOF only on an accumulating
context (44_frame.md rule R275). -/
def contextReady (s : State) (i : Instr) : Prop :=
  match i with
  | .frameChunk c _ _ _ _ | .frameEof c => (getContext s c).state = .accumulating
  | _ => True

/-- The output of the packed-12 path for a twelve-bit shift (43_unpack12.md rules R252, R253), on numbers. -/
def expectedOutput (s : State) (v : Nat) : Nat :=
  let clamped := if s.calib.maxShift.toNat ≤ v + 1 then 0 else v
  if s.calib.outputFormat = 100 ∨ s.calib.outputFormat = 101 then (s.s2d.getD clamped 0).toNat else clamped

/-- The input bytes b0, b1, b2 unpack to the two u16 values at `a` and `a + 2`: one 3-byte group of 43_unpack12.md
rule R251, after the clamp and the output format. -/
abbrev GroupUnpacked (s : State) (b0 b1 b2 : Byte) (m : Memory) (a : Nat) : Prop :=
  halfAt m a = expectedOutput s (b0.toNat * 16 + b1.toNat / 16) ∧
    halfAt m (a + 2) = expectedOutput s (b1.toNat % 16 * 256 + b2.toNat)

/-- A packed-12 command can map its elements: the format reads no table, or the tables are built, or there is no
element (43_unpack12.md rule R253, 40_s2d_engine.md rule R153). -/
abbrev OutputReady (s : State) (nElem : Nat) : Prop :=
  nElem = 0 ∨ s.tablesValid = true ∨ (s.calib.outputFormat ≠ 100 ∧ s.calib.outputFormat ≠ 101)

/-- The Uncomp command of a variant (`isNew`) and LAST bit (42_uncomp.md rules R228, R229). -/
def uncompCommand (isNew last : Bool) (src srclen dst dstcap line : Word) : Instr :=
  match isNew, last with
  | false, false => .uncompPs src srclen dst dstcap line
  | false, true => .uncompPsLast src srclen dst dstcap line
  | true, false => .uncompNew src srclen dst dstcap line
  | true, true => .uncompNewLast src srclen dst dstcap line

/-- The opcode of an Uncomp variant (30_encoding.md rule R115). -/
abbrev uncompOpcode (isNew : Bool) : BitVec 8 := if isNew then 0x12 else 0x11

/-- The channel map of an Uncomp variant (42_uncomp.md rule R224). -/
abbrev uncompMap (isNew : Bool) : List (Fin 3) := if isNew then [0, 1] else [0, 1, 2, 1]

/-- The FRAME_SOF command of a KIND (44_frame.md rule R279). -/
def sofCommand (k : FrameKind) (c : BitVec 4) (wbase wcap line : Word) : Instr :=
  match k with
  | .packed12 => .frameSofPacked12 c wbase wcap line
  | .uncompPs => .frameSofPs c wbase wcap line
  | .uncompNew => .frameSofNew c wbase wcap line

/-- The MIRROR commands of the 1-, 2- and 3-byte layouts with their bytes per pixel (41_mirror.md rule R200). -/
abbrev pixelMirrors : List ((Word → Word → Word → Instr) × Nat) :=
  [(.mirrorGray8, 1), (.mirrorGray16, 2), (.mirrorDepth1mm, 2), (.mirrorDepth100um, 2), (.mirrorShift92, 2),
    (.mirrorRgb888, 3)]

/-- Every MIRROR command of a recognised format with its bytes per pixel and the pixels a line is a multiple of
(41_mirror.md rules R200, R205). -/
abbrev allMirrors : List ((Word → Word → Word → Instr) × Nat × Nat) :=
  [(.mirrorGray8, 1, 1), (.mirrorGray16, 2, 1), (.mirrorDepth1mm, 2, 1), (.mirrorDepth100um, 2, 1),
    (.mirrorShift92, 2, 1), (.mirrorRgb888, 3, 1), (.mirrorYuv422, 2, 2), (.mirrorYuyv, 2, 2)]

/-- The register invariant of 40_s2d_engine.md rule R159, with the values OUTPUT_FORMAT can hold. -/
abbrev CalibInv (c : Calib) : Prop :=
  c.minCutoff ≤ c.maxDepth ∧ c.maxCutoff ≤ c.maxDepth ∧
    (c.outputFormat = 100 ∨ c.outputFormat = 101 ∨ c.outputFormat = 102)

/-- The table sizes of 10_state.md rules R39 and R45: latched from the calibration registers while the tables are
valid, 0 while they are not. -/
abbrev TablesInv (s : State) : Prop :=
  (s.tablesValid = true →
    s.tblNShift.toNat = calibNS s.calib ∧ s.tblNDepth.toNat = calibND s.calib ∧
      s.s2d.length = calibNS s.calib ∧ s.d2s.length = calibND s.calib) ∧
  (s.tablesValid = false → s.tblNShift = 0 ∧ s.tblNDepth = 0)

/-- The invariant of a frame context (10_state.md rules R46, R47): WBUF_SIZE ≤ WBUF_CAP and CONT_LEN ≤ CONT_CAP. -/
abbrev ContextInv (p : Params) (x : Context) : Prop := x.wbufSize ≤ x.wbufCap ∧ x.cont.length ≤ p.contCap

/-- Every context keeps its invariant. -/
abbrev ContextsInv (s : State) : Prop := ∀ c : Fin 16, ContextInv s.params s.contexts[c]

/-- The registers of contexts that do not exist stay as reset leaves them (10_state.md rule R46). -/
abbrev AbsentContextsInv (s : State) : Prop :=
  ∀ c : Fin 16, s.params.numCtx ≤ c.val → s.contexts[c] = Context.reset

/-- The codes LAST_STATUS can hold (60_exceptions.md rule R340). -/
def legalStatusCodes : List (BitVec 8) := [0x00, 0x01, 0x02, 0x03, 0x04, 0x05, 0x06, 0x07, 0xFF]

/-- STATUS, FAULT_* and RESULT0..3 fit together (60_exceptions.md rules R340, R341, R343, R345, R348): FAULT is set
exactly when LAST_STATUS is 0xFF; no command runs while it is; a non-OK status comes with zero results; FAULT_CAUSE
is 1..6 in the fault state and all three fault registers are 0 outside it. -/
abbrev StatusInv (s : State) : Prop :=
  s.lastStatus ∈ legalStatusCodes ∧
  (s.fault = true ↔ s.lastStatus = 0xFF) ∧
  (s.fault = true → s.running = none ∧ 1 ≤ s.faultCause ∧ s.faultCause ≤ 6) ∧
  (s.fault = false → s.faultCause = 0 ∧ s.faultInfo = 0 ∧ s.faultValue = 0) ∧
  (s.lastStatus ≠ 0 → s.result = #v[0, 0, 0, 0])

/-- The command of a calibration field (40_s2d_engine.md rule R158); `vhi` is used by the f64 fields only. -/
def setcfgCommand (f : CalibField) (vlo vhi : Word) : Instr :=
  match f with
  | .zeroPlaneDistance => .setcfgZeroPlaneDistance vlo vhi
  | .zeroPlanePixelSize => .setcfgZeroPlanePixelSize vlo vhi
  | .emitterDistance => .setcfgEmitterDistance vlo vhi
  | .maxShift => .setcfgMaxShift vlo
  | .maxDepth => .setcfgMaxDepth vlo
  | .constShift => .setcfgConstShift vlo
  | .pixelSizeFactor => .setcfgPixelSizeFactor vlo
  | .paramCoeff => .setcfgParamCoeff vlo
  | .shiftScale => .setcfgShiftScale vlo
  | .minCutoff => .setcfgMinCutoff vlo
  | .maxCutoff => .setcfgMaxCutoff vlo
  | .outputFormat => .setcfgOutputFormat vlo

/-- The commands that may change a calibration register or CFG_EPOCH: S2D_SETCFG (10_state.md rules R38, R43). -/
def isSetcfg (i : Instr) : Bool := i.opcode == 0x04

/-- The commands that may change the tables, their sizes or TABLES_VALID (40_s2d_engine.md rules R150-R160). -/
def touchesTables (i : Instr) : Bool :=
  i.opcode == 0x01 || i.opcode == 0x02 || i.opcode == 0x03 || i.opcode == 0x04

/-! ### Rules R9, R81, R154, R310, R311, R313 and R314 as the spec writes them, beside the model's own definitions -/

/-- The 64 bits at `a`, the least significant byte lowest (20_memory.md rule R81, 45_calib_math.md rule R311). -/
abbrev bits64In (m : Memory) (a : Nat) : Bits64 :=
  m.read (a + 7) ++ m.read (a + 6) ++ m.read (a + 5) ++ m.read (a + 4) ++ m.read (a + 3) ++ m.read (a + 2)
    ++ m.read (a + 1) ++ m.read a

/-- The f64 at `a` (45_calib_math.md rule R311). -/
abbrev f64In (m : Memory) (a : Nat) : F64 := F64.ofBits (bits64In m a)

/-- The number a finite binary64 stands for. -/
def exactValue (neg : Bool) (m : Nat) (e : Int) : ℚ := if neg then -(m * 2 ^ e) else m * 2 ^ e

/-- `r` is the binary64 of sign `neg` nearest to the magnitude `v`, ties to even: `q * 2^f` with a 53-bit `q` as fine
as binary64 has it, the infinity when that is past the largest exponent (45_calib_math.md rule R310). Below a power of
two the values stand twice as close, so `v` is within a quarter there, its tie included. At most one `r` is so
(`NearestEven.unique` of Laws/Rounding.lean). -/
def NearestEven (neg : Bool) (v : ℚ) (r : F64) : Prop :=
  ∃ (q : Nat) (f : Int), r = (if 971 < f then .inf neg else .fin neg q f) ∧ q < 2 ^ 53 ∧ -1074 ≤ f ∧
    (f = -1074 ∨ 2 ^ 52 ≤ q) ∧ |(q : ℚ) * 2 ^ f - v| ≤ 2 ^ f / 2 ∧ (|(q : ℚ) * 2 ^ f - v| = 2 ^ f / 2 → q % 2 = 0) ∧
    (f = -1074 ∨ q ≠ 2 ^ 52 ∨ (q : ℚ) * 2 ^ f - v ≤ 2 ^ f / 4)

/-- `lastIndex` of 40_s2d_engine.md rule R154 when the scan reaches `n`: the greatest kept index below `n`, or 0. -/
def lastKeptBelow (kept : Nat → Bool) : Nat → Nat
  | 0 => 0
  | n + 1 => if kept n then n else lastKeptBelow kept n

/-- `k+1 .. 2`, ascending: the rows and columns the inner loops of 45_calib_math.md rule R313 run over. -/
def indicesAfter (k : Fin 3) : List (Fin 3) := ([0, 1, 2] : List (Fin 3)).filter fun i => k < i

/-- The row `p` rule R313 chooses for column `k`: a later row only if its entry is greater in magnitude. -/
def pivotRow (a : Fin 3 → Fin 3 → F64) (k : Fin 3) : Fin 3 :=
  (indicesAfter k).foldl (fun p i => if (a p k).abs.lt (a i k).abs then i else p) k

/-- Entries `k` and `p` exchanged (rule R313). -/
def swapEntries {α : Type} (k p : Fin 3) (f : Fin 3 → α) (i : Fin 3) : α :=
  if i = k then f p else if i = p then f k else f i

/-- The body of the first loop of rule R313 for column `k`; none is SINGULAR. -/
def eliminateColumn (k : Fin 3) (a : Fin 3 → Fin 3 → F64) (b : Fin 3 → F64) :
    Option ((Fin 3 → Fin 3 → F64) × (Fin 3 → F64)) :=
  let p := pivotRow a k
  if (a p k).isZero then none
  else
    let a' := swapEntries k p a
    let b' := swapEntries k p b
    let l (i : Fin 3) : F64 := (a' i k).div (a' k k)
    some (fun i j => if k < i then if k < j then (a' i j).sub ((l i).mul (a' k j)) else if j = k then F64.zero
        else a' i j else a' i j,
      fun i => if k < i then (b' i).sub ((l i).mul (b' k)) else b' i)

/-- The body of the second loop of rule R313: `x[i]` from the entries after it, `j` ascending. -/
def substituteRow (a : Fin 3 → Fin 3 → F64) (b x : Fin 3 → F64) (i n : Fin 3) : F64 :=
  if n = i then ((indicesAfter i).foldl (fun s j => s.sub ((a i j).mul (x j))) (b i)).div (a i i) else x n

/-- `Solve3(a, b)` as 45_calib_math.md rule R313 writes it: columns 0, 1, 2, then rows 2, 1, 0. -/
def luSolution (a : Fin 3 → Fin 3 → F64) (b : Fin 3 → F64) : Option (Fin 3 → F64) :=
  (eliminateColumn 0 a b).bind fun r0 =>
    (eliminateColumn 1 r0.1 r0.2).bind fun r1 =>
      (eliminateColumn 2 r1.1 r1.2).map fun r2 =>
        ([2, 1, 0] : List (Fin 3)).foldl (substituteRow r2.1 r2.2) fun _ => F64.zero

/-- The matrix at `a`: element (i, j) at offset 8*(3i + j) (45_calib_math.md rule R311). -/
abbrev matrixIn (m : Memory) (a : Nat) (i j : Fin 3) : F64 := f64In m (a + 8 * (3 * i.val + j.val))

/-- The 3-vector at `a`: element i at offset 8i (45_calib_math.md rule R311). -/
abbrev vectorIn (m : Memory) (a : Nat) (i : Fin 3) : F64 := f64In m (a + 8 * i.val)

/-- A sum of 45_calib_math.md rule R314: from +0.0, the terms 0 .. n-1 added in ascending order. -/
def sumOf (n : Nat) (term : Nat → F64) : F64 := (List.range n).foldl (fun t i => t.add (term i)) F64.zero

/-- The matrix m of 45_calib_math.md rule R314, for the `n` points at `pts`. -/
def planeMatrix (m : Memory) (pts n : Nat) : Fin 3 → Fin 3 → F64 :=
  let x (i : Nat) : F64 := f64In m (pts + 24 * i)
  let y (i : Nat) : F64 := f64In m (pts + 24 * i + 8)
  ![![sumOf n fun i => (x i).mul (x i), sumOf n fun i => (x i).mul (y i), sumOf n x],
    ![sumOf n fun i => (x i).mul (y i), sumOf n fun i => (y i).mul (y i), sumOf n y],
    ![sumOf n x, sumOf n y, F64.ofNat n]]

/-- The vector v of 45_calib_math.md rule R314, for the `n` points at `pts`. -/
def planeVector (m : Memory) (pts n : Nat) : Fin 3 → F64 :=
  let x (i : Nat) : F64 := f64In m (pts + 24 * i)
  let y (i : Nat) : F64 := f64In m (pts + 24 * i + 8)
  let z (i : Nat) : F64 := f64In m (pts + 24 * i + 16)
  ![sumOf n fun i => (x i).mul (z i), sumOf n fun i => (y i).mul (z i), sumOf n z]

/-! ### The accesses of a command in the order of its pseudocode (20_memory.md rules R85, R92) -/

/-- MIRROR, `bpp` bytes a pixel and lines of whole `group`-pixel groups, gets to its lines: each is read and then
written in place, so its bytes are accessed in ascending order (41_mirror.md rule R209). -/
abbrev mirrorAccess (s : State) (bpp group : Nat) (buf len width : Word) (base n : Nat) : Prop :=
  1 ≤ width.toNat ∧ width.toNat ≤ s.params.mirrorMaxLinePixels ∧ len.toNat % (width.toNat * bpp) = 0 ∧
    width.toNat % group = 0 ∧ base = buf.toNat ∧ n = len.toNat

/-- An Uncomp command gets to input byte `k` when the decode of the bytes before it met no output overflow, and to its
output when its decode ends OK (42_uncomp.md rule R226). -/
abbrev uncompAccess (s : State) (isNew last : Bool) (src len dst cap line : Word) (base n : Nat) : Prop :=
  line ≠ 0 ∧
    ((∃ k, k < len.toNat ∧ base = src.toNat + k ∧ n = 1 ∧ Admitted s.params src.toNat k ∧
        decodeStream (bufNibble (s.mem.readList src.toNat k)) (uncompMap isNew) k cap.toNat line.toNat false ≠
          .ok .outputOverflow) ∨
      (∃ rd bytes, Admitted s.params src.toNat len.toNat ∧
        decodeStream (bufNibble (s.mem.readList src.toNat len.toNat)) (uncompMap isNew) len.toNat cap.toNat line.toNat
          last = .ok (.done rd bytes) ∧ base = dst.toNat ∧ n = bytes.length))

/-- A command whose checks before it pass gets to its access of the `n` bytes at `base`: what its rule asks before
that access holds, and every byte of the accesses before it is in ADMITTED. -/
def accessReached (s : State) (i : Instr) (base n : Nat) : Prop :=
  match i with
  | .s2dConvert src count dst =>
    s.tablesValid = true ∧ (src = dst ∨ Apart src.toNat (2 * count.toNat) dst.toNat (2 * count.toNat)) ∧
      ∃ e, e < count.toNat ∧ Admitted s.params src.toNat (2 * e) ∧ Admitted s.params dst.toNat (2 * e) ∧
        (∀ d, d < e → halfAt s.mem (src.toNat + 2 * d) < s.tblNShift.toNat) ∧ n = 2 ∧
        (base = src.toNat + 2 * e ∨
          (base = dst.toNat + 2 * e ∧ Admitted s.params (src.toNat + 2 * e) 2 ∧
            halfAt s.mem (src.toNat + 2 * e) < s.tblNShift.toNat))
  | .s2dRdtabS2d dst cap => s.tablesValid = true ∧ base = dst.toNat ∧ n = 2 * s.tblNShift.toNat ∧ n ≤ cap.toNat
  | .s2dRdtabD2s dst cap => s.tablesValid = true ∧ base = dst.toNat ∧ n = 2 * s.tblNDepth.toNat ∧ n ≤ cap.toNat
  | .unpack12 src len dst cap =>
    OutputReady s (len.toNat / 24) ∧ 32 * (len.toNat / 24) ≤ cap.toNat ∧
      ∃ g, g < 8 * (len.toNat / 24) ∧ Admitted s.params src.toNat (3 * g) ∧ Admitted s.params dst.toNat (4 * g) ∧
        ((base = src.toNat + 3 * g ∧ n = 3) ∨
          (base = dst.toNat + 4 * g ∧ n = 4 ∧ Admitted s.params (src.toNat + 3 * g) 3))
  | .uncompPs src len dst cap line => uncompAccess s false false src len dst cap line base n
  | .uncompPsLast src len dst cap line => uncompAccess s false true src len dst cap line base n
  | .uncompNew src len dst cap line => uncompAccess s true false src len dst cap line base n
  | .uncompNewLast src len dst cap line => uncompAccess s true true src len dst cap line base n
  | .mirrorGray8 buf len width => mirrorAccess s 1 1 buf len width base n
  | .mirrorGray16 buf len width => mirrorAccess s 2 1 buf len width base n
  | .mirrorDepth1mm buf len width => mirrorAccess s 2 1 buf len width base n
  | .mirrorDepth100um buf len width => mirrorAccess s 2 1 buf len width base n
  | .mirrorShift92 buf len width => mirrorAccess s 2 1 buf len width base n
  | .mirrorRgb888 buf len width => mirrorAccess s 3 1 buf len width base n
  | .mirrorYuv422 buf len width => mirrorAccess s 2 2 buf len width base n
  | .mirrorYuyv buf len width => mirrorAccess s 2 2 buf len width base n
  | .frameChunk c src offset len bufsize =>
    let x := getContext s c
    let bytes := x.cont ++ s.mem.readList src.toNat len.toNat
    (base = src.toNat ∧ n = len.toNat) ∨
      (Admitted s.params src.toNat len.toNat ∧ base = x.wbufBase.toNat + x.wbufSize.toNat ∧
        ((x.kind = .packed12 ∧ OutputReady s (bytes.length / 24) ∧ n = 32 * (bytes.length / 24) ∧
            x.wbufSize.toNat + n ≤ x.wbufCap.toNat) ∨
          (x.kind ≠ .packed12 ∧ ∃ rd out,
            decodeStream (bufNibble bytes) (uncompMap (decide (x.kind = .uncompNew))) bytes.length
              (x.wbufCap.toNat - x.wbufSize.toNat) x.lineBytes.toNat
              (decide (offset.toNat + len.toNat = bufsize.toNat)) = .ok (.done rd out) ∧ n = out.length)))
  | .lu3 a b x =>
    (base = a.toNat ∧ n = 72) ∨ (Admitted s.params a.toNat 72 ∧ base = b.toNat ∧ n = 24) ∨
      (Admitted s.params a.toNat 72 ∧ Admitted s.params b.toNat 24 ∧
        luSolution (matrixIn s.mem a.toNat) (vectorIn s.mem b.toNat) ≠ none ∧ base = x.toNat ∧ n = 24)
  | .planefit pts cnt out =>
    (base = pts.toNat ∧ n = 24 * cnt.toNat) ∨
      (Admitted s.params pts.toNat (24 * cnt.toNat) ∧
        luSolution (planeMatrix s.mem pts.toNat cnt.toNat) (planeVector s.mem pts.toNat cnt.toNat) ≠ none ∧
        base = out.toNat ∧ n = 24)
  | .nop | .s2dInit | .s2dUpdate | .s2dFree | .setcfgZeroPlaneDistance _ _ | .setcfgZeroPlanePixelSize _ _
  | .setcfgEmitterDistance _ _ | .setcfgMaxShift _ | .setcfgMaxDepth _ | .setcfgConstShift _
  | .setcfgPixelSizeFactor _ | .setcfgParamCoeff _ | .setcfgShiftScale _ | .setcfgMinCutoff _ | .setcfgMaxCutoff _
  | .setcfgOutputFormat _ | .mirrorCode _ _ _ _ | .frameSofPacked12 _ _ _ _ | .frameSofPs _ _ _ _
  | .frameSofNew _ _ _ _ | .frameEof _ => False

/-- A run has met no fault of the block so far (60_exceptions.md rule R345: FAULT is sticky). -/
abbrev FaultFree (s : State) : Prop := s.fault = false

end Sys2Proof.Machine
end

