-- ==== Sys2Proof/Certificates/Slice0/Obligations.lean ====
section
/-! DEFINITION. Certificates/Slice0/Obligations.lean: the statements for the provers. Each docstring names the rules
of spec/ it comes from; a rule the spec itself marks as derived is said to be so. -/

open Sys2Proof Sys2Proof.Machine

/-- After power-on with any parameters, and after a reset from any state, no command runs, every register of the
window reads its reset value (ID reads BLOCK_ID, OUTPUT_FORMAT 100, every other register 0), the f64 registers are
+0.0, TABLES_VALID is 0, every context is idle with all fields 0 and no continuation byte, and the calibration
registers satisfy MIN_CUTOFF, MAX_CUTOFF <= MAX_DEPTH; reset keeps the parameters, and with no command running it
keeps data memory. That State.reset is this reset with Config.params, and that a reset keeps every parameter (R34
says it of ID), is the model's choice (log entry 1, DESIGN CHOICE). (Derived: R380, R7, R34, R159.) -/
def Obligations.ResetStateValues : Prop :=
  (∀ p : Params, ResetValues (State.resetWith p)) ∧ State.reset = State.resetWith Config.params ∧
    ∀ s : State, ResetValues (resetNow s) ∧ CalibInv (resetNow s).calib ∧ (resetNow s).params = s.params ∧
      (s.running = none → (resetNow s).mem = s.mem)

/-- For every state, BUSY or in the fault state or idle: a host write to CONTROL with bit 1 set, whatever its other
bits, and the platform's reset input, give a next state with every register at its reset value and no command
running; every byte of data memory outside the write ranges of the command that was running is as before, and all of
data memory is if none was. That the parameters are kept is log entry 1 (DESIGN CHOICE). (Derived: R36, R348, R381,
R382, R7, R34.) -/
def Obligations.ResetFromAnyState : Prop :=
  ∀ (s : State) (es : List Event) (e : Event),
    (e = .resetInput ∨ ∃ v : Word, v.getLsbD 1 = true ∧ e = .regWrite 0x008 .bits32 v) → s.events = e :: es →
    ∃ t, step s = .next t ∧ ResetValues t ∧ t.params = s.params ∧ t.events = es ∧
      (s.running = none → t.mem = s.mem) ∧
      ∀ d, s.running = some d → ∀ a, inRanges a (runningWrites s d) = false → t.mem.read a = s.mem.read a

/-- A host write to CONTROL with bit 0 set and bit 1 clear: while BUSY = 1 or FAULT = 1 it changes nothing;
otherwise the descriptor in CMD0..CMD7 is latched, BUSY becomes 1, and nothing else changes but the list of raced
bytes, which is emptied (the model's own field, log entry 12, DESIGN CHOICE). A CONTROL write with both bits clear
changes nothing. A write to CMDk stores the word while BUSY = 0 and is ignored while BUSY = 1; a read of CMDk while
BUSY = 0 returns the word held, which is 0 after reset; the start of a command latches the eight words, and the
command run is that of the latched descriptor. Whatever CMD0..CMD7 hold when the engine runs a started command, the
end is the same: with any other eight words in them the step ends in the same state with those words in them. (Both
runs draw the same unspecified values, their counters being equal: log entry 5, DESIGN CHOICE.) (Derived: R40, R36,
R331, R330, R380.) -/
def Obligations.CommandRegistersAndStart : Prop :=
  (∀ (s : State) (es : List Event) (v : Word), s.events = .regWrite 0x008 .bits32 v :: es → v.getLsbD 1 = false →
    (v.getLsbD 0 = true → s.running.isSome = true ∨ s.fault = true → step s = .next { s with events := es }) ∧
    (v.getLsbD 0 = true → s.running = none → s.fault = false →
      step s = .next { s with events := es, running := some s.cmd, raced := [] }) ∧
    (v.getLsbD 0 = false → step s = .next { s with events := es })) ∧
  ((∀ (s : State) (es : List Event) (k : Fin 8) (v : Word),
    s.events = .regWrite (BitVec.ofNat 10 (0x040 + 4 * k.val)) .bits32 v :: es →
    (s.running = none → step s = .next { s with events := es, cmd := s.cmd.set k v }) ∧
    (s.running.isSome = true → step s = .next { s with events := es })) ∧
  (∀ (s : State) (es : List Event) (k : Fin 8),
    s.events = .regRead (BitVec.ofNat 10 (0x040 + 4 * k.val)) .bits32 :: es → s.running = none →
    step s = .next { s with events := es, readData := s.cmd[k] }) ∧
  (∀ (p : Params) (k : Fin 8), (State.resetWith p).cmd[k] = 0) ∧
  (∀ s : State, s.running = none → s.fault = false → (startCommand s).running = some s.cmd) ∧
  (∀ (s : State) (d : Descriptor) (i : Instr), legalCommand s d = some i → runDescriptor d s = exec i s) ∧
  (∀ (s t : State) (cmd : Descriptor), s.running.isSome = true →
    (s.events = [] ∨ s.events.head? = some .engine) → step s = .next t →
    step { s with cmd := cmd } = .next { t with cmd := cmd }))

/-- A naturally aligned 32-bit write at any offset but CONTROL and CMD0..CMD7 (a read-only register, a calibration
register, a reserved offset) leaves the state as it is; a read of a reserved offset returns 0, while BUSY = 1 too;
an access of another width or alignment is refused. An idle read at the offset of a register returns that register:
the single registers, RESULTk at 0x060 + 4k, the calibration words at their offsets (an f64 as LO and HI words), and
the fields of context c at 0x100 + 0x20c, which read 0 for c >= NUM_CTX; TBL_NSHIFT and TBL_NDEPTH read 0 while
TABLES_VALID = 0; STATUS has BUSY, FAULT, TABLES_VALID in bits 0, 1, 2, LAST_STATUS in bits 15:8, LAST_OPCODE in
bits 23:16 and 0 elsewhere; CTXc_STATE has STATE (0 idle, 1 accumulating, 2 complete) in bits 1:0, KIND (0
packed-12, 1 Uncomp PS, 2 Uncomp new) in bits 3:2, CORRUPTED in bit 4 and 0 in bits 31:5. CONTROL reading 0 is R36,
the RESULT words R41, the LO and HI words R44. That a reserved offset reads 0 while BUSY = 1 too is the model's
reading of R33 beside R53 (log entry 16, DEDUCED). (Derived: R32, R33, R34, R35, R37, R38, R39, R42, R43, R46, R48,
R49.) -/
def Obligations.RegisterWindowAccess : Prop :=
  ((∀ (s : State) (es : List Event) (off : BitVec 10) (v : Word), s.events = .regWrite off .bits32 v :: es →
    off.toNat % 4 = 0 → off.toNat ≠ 0x008 → (off.toNat < 0x040 ∨ 0x060 ≤ off.toNat) →
    step s = .next { s with events := es }) ∧
  (∀ (s : State) (es : List Event) (off : BitVec 10), s.events = .regRead off .bits32 :: es → off.toNat % 4 = 0 →
    ((0x024 ≤ off.toNat ∧ off.toNat < 0x040) ∨ (0x070 ≤ off.toNat ∧ off.toNat < 0x080) ∨
      (0x0BC ≤ off.toNat ∧ off.toNat < 0x100) ∨ 0x300 ≤ off.toNat ∨
      (0x100 ≤ off.toNat ∧ off.toNat < 0x300 ∧ off.toNat % 0x20 = 0x1C)) →
    step s = .next { s with events := es, readData := 0 }) ∧
  (∀ (s : State) (es : List Event) (off : BitVec 10) (size : AccessSize) (v : Word),
    size ≠ .bits32 ∨ off.toNat % 4 ≠ 0 →
    (s.events = .regRead off size :: es ∨ s.events = .regWrite off size v :: es) →
    step s = .refused .windowAccessForm)) ∧
  ((∀ (s : State) (es : List Event) (off : BitVec 10) (v : Word), s.running = none →
    s.events = .regRead off .bits32 :: es →
    (off = 0x000 ∧ v = s.params.blockId ∨ off = 0x004 ∧ v = statusWord s ∨ off = 0x008 ∧ v = 0 ∨
      off = 0x00C ∧ v = s.faultCause.setWidth 32 ∨ off = 0x010 ∧ v = s.faultInfo ∨ off = 0x014 ∧ v = s.faultValue ∨
      off = 0x018 ∧ v = s.cfgEpoch ∨
      off = 0x01C ∧ v = (if s.tablesValid then s.tblNShift.setWidth 32 else 0) ∨
      off = 0x020 ∧ v = (if s.tablesValid then s.tblNDepth.setWidth 32 else 0) ∨
      (∃ k : Fin 4, off = BitVec.ofNat 10 (0x060 + 4 * k.val) ∧ v = s.result[k]) ∨
      off = 0x080 ∧ v = s.calib.zeroPlaneDistance.extractLsb' 0 32 ∨
      off = 0x084 ∧ v = s.calib.zeroPlaneDistance.extractLsb' 32 32 ∨
      off = 0x088 ∧ v = s.calib.zeroPlanePixelSize.extractLsb' 0 32 ∨
      off = 0x08C ∧ v = s.calib.zeroPlanePixelSize.extractLsb' 32 32 ∨
      off = 0x090 ∧ v = s.calib.emitterDistance.extractLsb' 0 32 ∨
      off = 0x094 ∧ v = s.calib.emitterDistance.extractLsb' 32 32 ∨
      off = 0x098 ∧ v = s.calib.maxShift.setWidth 32 ∨ off = 0x09C ∧ v = s.calib.maxDepth.setWidth 32 ∨
      off = 0x0A0 ∧ v = s.calib.constShift ∨ off = 0x0A4 ∧ v = s.calib.pixelSizeFactor ∨
      off = 0x0A8 ∧ v = s.calib.paramCoeff ∨ off = 0x0AC ∧ v = s.calib.shiftScale ∨
      off = 0x0B0 ∧ v = s.calib.minCutoff.setWidth 32 ∨ off = 0x0B4 ∧ v = s.calib.maxCutoff.setWidth 32 ∨
      off = 0x0B8 ∧ v = s.calib.outputFormat.setWidth 32) →
    step s = .next { s with events := es, readData := v }) ∧
  (∀ (s : State) (es : List Event) (off : BitVec 10) (c : Fin 16) (j : Nat) (v : Word), s.running = none →
    s.events = .regRead off .bits32 :: es → off = BitVec.ofNat 10 (0x100 + 0x20 * c.val + j) →
    (j = 0x00 ∧ v = ctxStateWord s.contexts[c] ∨ j = 0x04 ∧ v = s.contexts[c].frameId ∨
      j = 0x08 ∧ v = s.contexts[c].wbufBase ∨ j = 0x0C ∧ v = s.contexts[c].wbufCap ∨
      j = 0x10 ∧ v = s.contexts[c].wbufSize ∨ j = 0x14 ∧ v = BitVec.ofNat 32 s.contexts[c].cont.length ∨
      j = 0x18 ∧ v = s.contexts[c].lineBytes) →
    step s = .next { s with events := es, readData := if c.val < s.params.numCtx then v else 0 }) ∧
  (∀ s : State, (statusWord s).getLsbD 0 = s.running.isSome ∧ (statusWord s).getLsbD 1 = s.fault ∧
    (statusWord s).getLsbD 2 = s.tablesValid ∧ (statusWord s).extractLsb' 3 5 = 0 ∧
    (statusWord s).extractLsb' 8 8 = s.lastStatus ∧ (statusWord s).extractLsb' 16 8 = s.lastOpcode ∧
    (statusWord s).extractLsb' 24 8 = 0) ∧
  (∀ x : Context, (ctxStateWord x).extractLsb' 0 2 = (match x.state with
      | .idle => 0
      | .accumulating => 1
      | .complete => 2) ∧
    (ctxStateWord x).extractLsb' 2 2 = (match x.kind with
      | .packed12 => 0
      | .uncompPs => 1
      | .uncompNew => 2) ∧
    (ctxStateWord x).getLsbD 4 = x.corrupted ∧ (ctxStateWord x).extractLsb' 5 27 = 0))

/-- With a command running, a read of STATUS returns BUSY = 1 with the other fields of the previous completion, a
read of ID returns BLOCK_ID, and a read of any other register returns the next free value, whatever that value is;
nothing else changes but the count of free values drawn. CONTROL (R36: reads 0) and the registers of contexts from
NUM_CTX on (R46: read 0) are among the registers that read free here: that R53 goes before R36 and R46 while BUSY =
1 is log entry 16 (DEDUCED). That each read draws the next of the free values and counts it is the model's form of
U2 (log entry 5, DESIGN CHOICE). (Derived: R53, R36, R46, 93_implementation_defined.md U2.) -/
def Obligations.BusyReadsAreFree : Prop :=
  ∀ (s : State) (es : List Event) (off : BitVec 10) (r : Reg), s.running.isSome = true → off.toNat % 4 = 0 →
    regAt off.toNat = some r → s.events = .regRead off .bits32 :: es →
    (r = .status → ∃ v : Word, step s = .next { s with events := es, readData := v } ∧ v.getLsbD 0 = true ∧
      v.getLsbD 1 = s.fault ∧ v.getLsbD 2 = s.tablesValid ∧ v.extractLsb' 8 8 = s.lastStatus ∧
      v.extractLsb' 16 8 = s.lastOpcode) ∧
    (r = .id → step s = .next { s with events := es, readData := s.params.blockId }) ∧
    (r ≠ .status → r ≠ .id →
      step s = .next { s with events := es, readData := Config.freeWord s.nonce, nonce := s.nonce + 1 })

/-- From any idle state without a fault, ten steps over the events of the issue protocol end as running the
descriptor it writes, with CMD0..CMD7 holding the descriptor and nothing else changed before the run. The emptied
list of raced bytes is the model's own field (log entry 12, DESIGN CHOICE). (Derived: R122, R123, R334.) -/
def Obligations.IssueProtocolRunsCommand : Prop :=
  ∀ (s : State) (d : Descriptor) (es : List Event), s.running = none → s.fault = false →
    s.events = issueEvents d ++ es →
    Host.Core.run Sys2Proof.core 10 s =
      runDescriptor d { s with cmd := d, running := some d, events := es, raced := [] }

/-- When the latched descriptor decodes to a command i that is well formed on this machine, the step in which the
engine runs it is exec i of the state (past the event, if one told the engine to run). If the host wrote bytes of
memory meanwhile, exec runs on the state in which those bytes are free values, and the bytes are settled after it.
With no command running and no event left, the state stays as it is. The clause on raced bytes is the model's form
of U4 (log entry 12, DESIGN CHOICE). (Derived: R10, R331, R332, R356, R92, R390, 93_implementation_defined.md U4.)
-/
def Obligations.StepRunsDecodedCommand : Prop :=
  (∀ (s : State) (d : Descriptor) (i : Instr), s.running = some d → decode d = .ok i →
    i.wellFormed s.params.numCtx = true →
    (s.raced = [] → s.events = [] → step s = exec i s) ∧
    (∀ es, s.raced = [] → s.events = .engine :: es → step s = exec i { s with events := es }) ∧
    (∀ t, s.raced ≠ [] → s.events = [] → exec i (enterRace s) = .next t →
      step s = .next (leaveRace s (writeRanges s i) t))) ∧
  (∀ s : State, s.running = none → s.events = [] → step s = .next s)

/-- For every descriptor and every NUM_CTX the engine finds no legal command exactly when OPC is one of the reserved
values or a CMD0 field violates the field-use table: an unused CTX, FLAGS or ARG16 that is not 0, a FLAGS or ARG16
value not listed, or a frame command's CTX not below NUM_CTX. CMD1..CMD7 play no part. When the latched descriptor
has a reserved opcode or breaks the field rules, the step in which the engine runs it ends with LAST_STATUS 0x07,
RESULT0..3 = 0, LAST_OPCODE = OPC and BUSY = 0; every other piece of state, all of memory included, is as before,
and no fault is raised. (Stated: R113, R117.) -/
def Obligations.IllegalCommands : Prop :=
  (∀ (s : State) (d : Descriptor),
    legalCommand s d = none ↔ (ReservedOpcode (opcOf d).toNat ∨ FieldViolation s.params.numCtx d)) ∧
  (∀ (s : State) (d : Descriptor), s.running = some d → s.raced = [] → s.events = [] →
    (ReservedOpcode (opcOf d).toNat ∨ FieldViolation s.params.numCtx d) →
    step s = .next (statusState s (opcOf d) 0x07))

/-- If a descriptor decodes to a command, every descriptor with the same CMD0 and the same words in the operand
positions the command uses decodes to the same command; and whether a descriptor decodes at all depends on CMD0
alone. (Stated: R112.) -/
def Obligations.UnusedOperandWordsIgnored : Prop :=
  (∀ (d d' : Descriptor) (i : Instr), decode d = .ok i → d[0] = d'[0] →
    (∀ k : Fin 8, k.val ≤ usedWords i → d[k] = d'[k]) → decode d' = .ok i) ∧
  (∀ (d d' : Descriptor), d[0] = d'[0] → ((∃ i, decode d = .ok i) ↔ ∃ i, decode d' = .ok i))

/-- For every command term, with every operand word, context number and free format code at every value the encoding
admits, the decoder reads from the encoder's descriptor exactly that command. (Derived: R110, R111, R115, R116,
R119, R120, R121.) -/
def Obligations.DecodeOfEncode : Prop :=
  ∀ i : Instr, i.formatOk = true → decode (encode i) = .ok i

/-- For every descriptor that decodes to a command, the command is well formed in its format, and its encoding has
the same CMD0 and the same operand words in the positions the command uses. With the round trip the other way, each
command has exactly one CMD0 and no bit of it is dropped. (Derived: R111, R112, R115, R116, R119, R120.) -/
def Obligations.EncodeOfDecode : Prop :=
  ∀ (d : Descriptor) (i : Instr), decode d = .ok i →
    i.formatOk = true ∧ (encode i)[0] = d[0] ∧ ∀ k : Fin 8, k.val ≤ usedWords i → (encode i)[k] = d[k]

/-- A few descriptors, one per opcode family, written out word by word from the spec's field table, decode to the
command they stand for; the all-zero descriptor is NOP. (Derived: R111, R115, R116, R119, R120, R121.) -/
def Obligations.DecodeSampleWords : Prop :=
  decode #v[0, 0, 0, 0, 0, 0, 0, 0] = .ok .nop ∧
  decode #v[0x00000001, 0, 0, 0, 0, 0, 0, 0] = .ok .s2dInit ∧
  decode #v[0x00080004, 10, 0, 0, 0, 0, 0, 0] = .ok (.setcfgShiftScale 10) ∧
  decode #v[0x00001006, 0x2000, 4096, 0, 0, 0, 0, 0] = .ok (.s2dRdtabD2s 0x2000 4096) ∧
  decode #v[0x00000010, 0x1000, 24, 0x2000, 32, 0, 0, 0] = .ok (.unpack12 0x1000 24 0x2000 32) ∧
  decode #v[0x00001011, 1, 2, 3, 4, 5, 0, 0] = .ok (.uncompPsLast 1 2 3 4 5) ∧
  decode #v[0x00C90020, 0x1000, 8, 4, 0, 0, 0, 0] = .ok (.mirrorYuv422 0x1000 8 4) ∧
  decode #v[0x00CC0020, 0x1000, 8, 4, 0, 0, 0, 0] = .ok (.mirrorCode 204 0x1000 8 4) ∧
  decode #v[0x00002330, 0x20000, 640, 8, 0, 0, 0, 0] = .ok (.frameSofNew 3 0x20000 640 8) ∧
  decode #v[0x00000041, 0x1000, 4, 0x2000, 0, 0, 0, 0] = .ok (.planefit 0x1000 4 0x2000)

/-- For every state whose memory lists strictly rising addresses below 2^32 and no entry equal to what an unlisted
address reads as, a step that gives a next state keeps that form. The form is the model's own; the value an unlisted
address reads as is the model's choice (log entry 6). (Derived: R80, R85, 20_memory.md section 1.) -/
def Obligations.StepKeepsMemoryForm : Prop :=
  ∀ s t : State, s.mem.wf = true → step s = .next t → t.mem.wf = true

/-- For every state whose calibration registers satisfy the register invariant, whatever the step is (a host access,
a reset, or the run of any command), a next state's calibration registers satisfy it again. The spec marks the
invariant as derived from the tests of rule R159. (Derived: R42, R43, R159.) -/
def Obligations.StepKeepsCalibrationInvariant : Prop :=
  ∀ s t : State, CalibInv s.calib → step s = .next t → CalibInv t.calib

/-- For every state whose calibration registers satisfy their invariant and whose tables have the sizes MAX_SHIFT +
1 and MAX_DEPTH + 1 while TABLES_VALID = 1 (and sizes 0 while it is 0), a next state has the same property: a
cascade or a build keeps the sizes equal to the current registers. (Derived: R39, R45, R150, R152, R160, R392.) -/
def Obligations.StepKeepsTableSizes : Prop :=
  ∀ s t : State, CalibInv s.calib → TablesInv s → step s = .next t → TablesInv t

/-- For every state in which each of the frame contexts has WBUF_SIZE at most WBUF_CAP and at most CONT_CAP
continuation bytes, a next state has the same property, after a fault of a frame command too (its context holds any
legal field values). For every state whose contexts from NUM_CTX on are as after reset, a next state's are too: no
command reaches a context that does not exist. (Derived: R46, R47, R271, R273, R113.) -/
def Obligations.StepKeepsContextInvariants : Prop :=
  (∀ s t : State, ContextsInv s → step s = .next t → ContextsInv t) ∧
  (∀ s t : State, AbsentContextsInv s → step s = .next t → AbsentContextsInv t)

/-- For every state in which LAST_STATUS is a listed code, FAULT is set exactly when it is 0xFF, no command runs and
FAULT_CAUSE is 1..6 while FAULT is set, the fault registers are 0 while it is not, and the results are 0 after every
status but OK, a next state has the same property. (Derived: R35, R37, R340, R341, R343, R345, R348.) -/
def Obligations.StepKeepsStatusInvariant : Prop :=
  ∀ s t : State, StatusInv s → step s = .next t → StatusInv t

/-- State.reset, whatever its parameters are, satisfies the memory form, the calibration invariant, the table size
invariant, the context invariants and the status invariant. (Derived: R45, R46, R159, R340, R380.) -/
def Obligations.ResetMeetsInvariants : Prop :=
  State.reset.mem.wf = true ∧ CalibInv State.reset.calib ∧ TablesInv State.reset ∧ ContextsInv State.reset ∧
    AbsentContextsInv State.reset ∧ StatusInv State.reset

/-- Every step that gives a next state keeps the implementation parameters, BLOCK_ID among them, and so does a
reset; a read of offset 0x000 returns BLOCK_ID in every state. R34 says this of ID; that every parameter stays is
the model's reading of R7 (log entry 1, DESIGN CHOICE). (Derived: R7, R34.) -/
def Obligations.ParametersNeverChange : Prop :=
  (∀ s t : State, step s = .next t → t.params = s.params) ∧ (∀ s : State, (resetNow s).params = s.params) ∧
  (∀ (s : State) (es : List Event), s.events = .regRead 0x000 .bits32 :: es →
    step s = .next { s with events := es, readData := s.params.blockId })

/-- For every command and every state, exec answers a next state (never a stop of the model), with no command
running and LAST_OPCODE the command's opcode; from a state without a fault it ends in exactly one of two ways: with
FAULT still 0 and a status code that is not 0xFF, or with FAULT = 1 and LAST_STATUS = 0xFF. The latched CMD
registers, the parameters, the pending events, the last read value and the raced list are as before. The parameters
and the raced list are the model's fields (log entries 1 and 12, DESIGN CHOICE). (Derived: R332, R333, R343, R345,
R10.) -/
def Obligations.EveryCommandEnds : Prop :=
  ∀ (i : Instr) (s : State), ∃ t, exec i s = .next t ∧ t.running = none ∧ t.lastOpcode = i.opcode ∧
    t.cmd = s.cmd ∧ t.params = s.params ∧ t.events = s.events ∧ t.readData = s.readData ∧ t.raced = s.raced ∧
    (s.fault = false →
      (t.fault = false ∧ t.lastStatus ∈ legalStatusCodes ∧ t.lastStatus ≠ 0xFF ∧ t.faultCause = s.faultCause ∧
        t.faultInfo = s.faultInfo ∧ t.faultValue = s.faultValue) ∨
      (t.fault = true ∧ t.lastStatus = 0xFF ∧ t.result = #v[0, 0, 0, 0]))

/-- For every command and state: if exec ends with a status that is neither OK nor the fault code, the next state is
the old one with RESULT0..3 = 0, LAST_STATUS and LAST_OPCODE written and BUSY = 0: the same memory, calibration
registers, tables, contexts, CFG_EPOCH and fault registers. The spec marks the rule as derived from the command
rules. (Derived: R343, R344.) -/
def Obligations.NonOkStatusChangesNothing : Prop :=
  ∀ (i : Instr) (s t : State), exec i s = .next t → t.lastStatus ≠ 0x00 → t.lastStatus ≠ 0xFF →
    t = statusState s i.opcode t.lastStatus

/-- If a command run from a state without a fault ends in the fault state, then FAULT_CAUSE is 1..6, LAST_STATUS is
0xFF, RESULT0..3 are 0 and LAST_OPCODE is the opcode; every byte outside the command's write ranges, and all of
memory when the cause is TABLES_NOT_VALID, DEPTH_INDEX_RANGE, GEOMETRY or ADDRESS_WRAP, is as before; every context
but the one a frame command named is as before; the calibration registers and CFG_EPOCH are as before unless the
command was S2D_SETCFG, and the tables are unless the command builds them. That all of memory is as before after
those four causes is R346 (which the spec marks derived) against R345, settled by log entry 11 (DEDUCED). (Derived:
R96, R341, R342, R345, R346.) -/
def Obligations.FaultEffects : Prop :=
  ∀ (i : Instr) (s t : State), s.fault = false → exec i s = .next t → t.fault = true →
    1 ≤ t.faultCause ∧ t.faultCause ≤ 6 ∧ Faulted t i.opcode t.faultCause t.faultInfo t.faultValue ∧
    (∀ a, inRanges a (writeRanges s i) = false → t.mem.read a = s.mem.read a) ∧
    (t.faultCause = 1 ∨ t.faultCause = 3 ∨ t.faultCause = 4 ∨ t.faultCause = 6 → t.mem = s.mem) ∧
    (∀ c : BitVec 4, i.ctx? ≠ some c → getContext t c = getContext s c) ∧
    (isSetcfg i = false → t.calib = s.calib ∧ t.cfgEpoch = s.cfgEpoch) ∧
    (touchesTables i = false → t.tablesValid = s.tablesValid ∧ t.tblNShift = s.tblNShift ∧
      t.tblNDepth = s.tblNDepth ∧ t.s2d = s.s2d ∧ t.d2s = s.d2s)

/-- From a state with FAULT = 1 and no command running, a step whose event is not the reset input and not a CONTROL
write with SOFT_RESET keeps FAULT = 1, starts no command, and keeps FAULT_CAUSE, FAULT_INFO, FAULT_VALUE,
LAST_STATUS, LAST_OPCODE, RESULT0..3, the calibration registers, the tables and the contexts; a CONTROL write with
SOFT_RESET clears FAULT. (Derived: R35, R37, R345, R348, R382.) -/
def Obligations.FaultStateIsSticky : Prop :=
  (∀ s t : State, s.fault = true → s.running = none → step s = .next t → s.events.head? ≠ some .resetInput →
    (∀ v : Word, v.getLsbD 1 = true → s.events.head? ≠ some (.regWrite 0x008 .bits32 v)) →
    t.fault = true ∧ t.running = none ∧ t.faultCause = s.faultCause ∧ t.faultInfo = s.faultInfo ∧
      t.faultValue = s.faultValue ∧ t.lastStatus = s.lastStatus ∧ t.lastOpcode = s.lastOpcode ∧
      t.result = s.result ∧ t.calib = s.calib ∧ t.cfgEpoch = s.cfgEpoch ∧ t.tablesValid = s.tablesValid ∧
      t.s2d = s.s2d ∧ t.d2s = s.d2s ∧ t.contexts = s.contexts) ∧
  (∀ (s : State) (es : List Event) (v : Word), s.fault = true → v.getLsbD 1 = true →
    s.events = .regWrite 0x008 .bits32 v :: es → ∃ t, step s = .next t ∧ t.fault = false)

/-- For every command and every state, every byte outside the write ranges computed from the command's own operands
(for FRAME_CHUNK, from its context's write buffer) reads as before; a command that has no write range (NOP,
S2D_INIT, S2D_UPDATE, S2D_FREE, S2D_SETCFG, MIRROR of an unrecognised format, FRAME_SOF, FRAME_EOF) leaves all of
memory as it is. (Derived: R84, R96, R162, R164, R209, R226, R254, R271, R312, R314.) -/
def Obligations.MemoryFrame : Prop :=
  ∀ (i : Instr) (s t : State), exec i s = .next t →
    (∀ a, inRanges a (writeRanges s i) = false → t.mem.read a = s.mem.read a) ∧
    (writeRanges s i = [] → t.mem = s.mem)

/-- For every command and state, each context whose number the command does not name in CTX is the same in the next
state, whatever happened to the memory and the named context. Every command that is not S2D_INIT, S2D_UPDATE,
S2D_FREE or S2D_SETCFG, faulting or not, leaves both tables, TBL_NSHIFT, TBL_NDEPTH and TABLES_VALID as they were.
(Derived: R276, R45, R153.) -/
def Obligations.ContextAndTableFrame : Prop :=
  (∀ (i : Instr) (s t : State), exec i s = .next t → ∀ c : BitVec 4, i.ctx? ≠ some c →
    getContext t c = getContext s c) ∧
  (∀ (i : Instr) (s t : State), exec i s = .next t → touchesTables i = false →
    t.tablesValid = s.tablesValid ∧ t.tblNShift = s.tblNShift ∧ t.tblNDepth = s.tblNDepth ∧ t.s2d = s.s2d ∧
      t.d2s = s.d2s)

/-- A command that is not S2D_SETCFG keeps every calibration register and CFG_EPOCH, and so does an S2D_SETCFG whose
value is rejected; a step that runs no command and performs no reset keeps them, a host write to their offsets
included. (Derived: R43, R38, R159, R380.) -/
def Obligations.CalibrationFrame : Prop :=
  (∀ (i : Instr) (s t : State), exec i s = .next t → isSetcfg i = false →
    t.calib = s.calib ∧ t.cfgEpoch = s.cfgEpoch) ∧
  (∀ (i : Instr) (s t : State), exec i s = .next t → t.lastStatus = 0x03 →
    t.calib = s.calib ∧ t.cfgEpoch = s.cfgEpoch) ∧
  (∀ (s t : State) (e : Event) (es : List Event), s.events = e :: es → step s = .next t → e ≠ .engine →
    e ≠ .resetInput → (∀ v : Word, v.getLsbD 1 = true → e ≠ .regWrite 0x008 .bits32 v) →
    t.calib = s.calib ∧ t.cfgEpoch = s.cfgEpoch) ∧
  (∀ s : State, (resetNow s).calib = Calib.reset)

/-- With no command running, a host write to an address in ADMITTED stores the byte there and changes no other byte,
and a host read of an address in ADMITTED returns the byte there. A host access outside ADMITTED, to which the spec
gives no outcome, stops the model by name (the model's choice, log entry 13). While a command runs, a host read of a
byte in its write ranges returns a free value, and a host write is recorded; when the command runs, each recorded
byte reads as a free value while every other byte is as it was; after it, a recorded byte outside the command's
write ranges holds what the host wrote. The clauses on a running command (the raced list, what a raced byte is
before and after the command) are the model's form of U4 (log entry 12, DESIGN CHOICE). (Derived: R80, R85, R88,
R92, R390, 93_implementation_defined.md U4.) -/
def Obligations.HostMemoryAccessAndRaces : Prop :=
  ((∀ (s : State) (es : List Event) (a : Word) (b : Byte), s.running = none → s.mem.wf = true →
    s.params.admits a.toNat = true → s.events = .memWrite a b :: es →
    ∃ m, step s = .next { s with events := es, mem := m } ∧ m.read a.toNat = b ∧
      ∀ x, x ≠ a.toNat → m.read x = s.mem.read x) ∧
  (∀ (s : State) (es : List Event) (a : Word), s.running = none → s.params.admits a.toNat = true →
    s.events = .memRead a :: es →
    step s = .next { s with events := es, readData := (s.mem.read a.toNat).setWidth 32 }) ∧
  (∀ (s : State) (es : List Event) (a : Word) (b : Byte), s.params.admits a.toNat = false →
    (s.events = .memRead a :: es ∨ s.events = .memWrite a b :: es) → step s = .fault .hostAddressNotAdmitted)) ∧
  ((∀ (s : State) (d : Descriptor) (es : List Event) (a : Word), s.running = some d →
    s.params.admits a.toNat = true → inRanges a.toNat (runningWrites s d) = true → s.events = .memRead a :: es →
    step s = .next { s with
      events := es, readData := (Config.freeByte s.nonce).setWidth 32, nonce := s.nonce + 1 }) ∧
  (∀ (s : State) (d : Descriptor) (es : List Event) (a : Word) (b : Byte), s.running = some d →
    s.params.admits a.toNat = true → s.events = .memWrite a b :: es →
    step s = .next { s with events := es, mem := s.mem.write a.toNat b, raced := a :: s.raced }) ∧
  (∀ s : State, s.mem.wf = true →
    (∀ a ∈ s.raced, ∃ k, k < s.raced.length ∧ (enterRace s).mem.read a.toNat = Config.freeByte (s.nonce + k)) ∧
    (∀ x, (∀ a ∈ s.raced, a.toNat ≠ x) → (enterRace s).mem.read x = s.mem.read x)) ∧
  (∀ (s t : State) (w : List (Nat × Nat)), t.mem.wf = true →
    (∀ a ∈ s.raced, inRanges a.toNat w = false → (leaveRace s w t).mem.read a.toNat = s.mem.read a.toNat) ∧
    (∀ x, (∀ a ∈ s.raced, a.toNat ≠ x) → (leaveRace s w t).mem.read x = t.mem.read x)))

/-- In every state NOP ends with LAST_STATUS = 0x00, LAST_OPCODE = 0x00, RESULT0..3 = 0 and BUSY = 0, every other
piece of state as before; CMD0 after reset is NOP, so a command started after reset with no descriptor written is a
NOP. (Stated: R330.) -/
def Obligations.NopCompletes : Prop :=
  (∀ s : State, exec .nop s = .next (okState s 0x00 0 0 0 0)) ∧
  (∀ p : Params, decode (State.resetWith p).cmd = .ok .nop)

/-- In every state whose calibration registers satisfy their invariant, Build of sizes MAX_SHIFT + 1 and MAX_DEPTH +
1 succeeds and S2D_INIT ends OK with its tables in place, TABLES_VALID = 1, TBL_NSHIFT = MAX_SHIFT + 1, TBL_NDEPTH =
MAX_DEPTH + 1 and the two sizes in RESULT0 and RESULT1, whether or not tables were valid before; nothing else
changes. (Derived: R150, R154, R156.) -/
def Obligations.S2dInitBuilds : Prop :=
  ∀ s : State, CalibInv s.calib → ∃ t : List Half × List Half,
    buildTables s.params s.calib (s.calib.maxShift.toNat + 1) (s.calib.maxDepth.toNat + 1) = .ok t ∧
    exec .s2dInit s = .next (okState
      { s with
        s2d := t.1, d2s := t.2, tablesValid := true
        tblNShift := BitVec.ofNat 17 (s.calib.maxShift.toNat + 1)
        tblNDepth := BitVec.ofNat 17 (s.calib.maxDepth.toNat + 1) }
      0x01 (BitVec.ofNat 32 (s.calib.maxShift.toNat + 1)) (BitVec.ofNat 32 (s.calib.maxDepth.toNat + 1)) 0 0)

/-- In every state with TABLES_VALID = 1 whose table sizes agree with calibration registers that satisfy their
invariant, S2D_UPDATE ends OK with the tables Build gives for MAX_SHIFT + 1 and MAX_DEPTH + 1, the sizes in RESULT0
and RESULT1, and nothing else changed; with TABLES_VALID = 0 it faults with TABLES_NOT_VALID, info 0, value 0, and
changes nothing but the fault and status registers. That memory is unchanged after this fault is R346 (which the
spec marks derived) against R345, settled by log entry 11 (DEDUCED). (Derived: R151, R154, R156, R160, R341, R342,
R346.) -/
def Obligations.S2dUpdateRebuilds : Prop :=
  (∀ s : State, CalibInv s.calib → TablesInv s → s.tablesValid = true → ∃ t : List Half × List Half,
    buildTables s.params s.calib (s.calib.maxShift.toNat + 1) (s.calib.maxDepth.toNat + 1) = .ok t ∧
    exec .s2dUpdate s = .next (okState { s with s2d := t.1, d2s := t.2 } 0x02
      (BitVec.ofNat 32 (s.calib.maxShift.toNat + 1)) (BitVec.ofNat 32 (s.calib.maxDepth.toNat + 1)) 0 0)) ∧
  (∀ s : State, s.tablesValid = false → exec .s2dUpdate s = .next (faultState s 0x02 1 0 0))

/-- In every state S2D_FREE ends OK with TABLES_VALID = 0, TBL_NSHIFT = TBL_NDEPTH = 0 and zero results. The
contents of the tables, unspecified from then on, are held as empty lists (the model's choice, log entry 7). Every
other piece of state is as before, and a second S2D_FREE changes nothing. (Derived: R152, R45.) -/
def Obligations.S2dFreeReleases : Prop :=
  ∀ s : State,
    exec .s2dFree s =
      .next (okState { s with tablesValid := false, tblNShift := 0, tblNDepth := 0, s2d := [], d2s := [] } 0x03
        0 0 0 0) ∧
    ∀ t, exec .s2dFree s = .next t → exec .s2dFree t = .next t

/-- With TABLES_VALID = 0: fields 0 to 2 store {VHI, VLO}, any 64 bits; fields 5 to 8 store VLO; fields 3, 4, 9, 10,
11 store VLO when it fits 16 bits and passes its test (MAX_DEPTH at least both cutoffs, each cutoff at most
MAX_DEPTH, OUTPUT_FORMAT one of 100, 101, 102). The command ends OK with CFG_EPOCH advanced by 1 modulo 2^32 in
RESULT0 and 0 in RESULT1; every other register, the tables, the contexts and memory are as before. A value that does
not fit u16 (fields 3, 4, 9, 10, 11), a MAX_DEPTH below a cutoff, a cutoff above MAX_DEPTH and an OUTPUT_FORMAT
outside 100, 101, 102 end with CONFIG_REJECTED, zero results and nothing else changed, tables built or not.
(Derived: R38, R42, R114, R158, R159, R160, R43, R343.) -/
def Obligations.SetcfgCommitsOrRejects : Prop :=
  (∀ s : State, s.tablesValid = false →
    let done (c : Calib) : Host.Outcome State Fault Refusal :=
      .next (okState { s with calib := c, cfgEpoch := s.cfgEpoch + 1 } 0x04 (s.cfgEpoch + 1) 0 0 0)
    (∀ lo hi, exec (.setcfgZeroPlaneDistance lo hi) s = done { s.calib with zeroPlaneDistance := hi ++ lo }) ∧
    (∀ lo hi, exec (.setcfgZeroPlanePixelSize lo hi) s = done { s.calib with zeroPlanePixelSize := hi ++ lo }) ∧
    (∀ lo hi, exec (.setcfgEmitterDistance lo hi) s = done { s.calib with emitterDistance := hi ++ lo }) ∧
    (∀ h : Half, exec (.setcfgMaxShift (h.setWidth 32)) s = done { s.calib with maxShift := h }) ∧
    (∀ h : Half, s.calib.minCutoff ≤ h → s.calib.maxCutoff ≤ h →
      exec (.setcfgMaxDepth (h.setWidth 32)) s = done { s.calib with maxDepth := h }) ∧
    (∀ v, exec (.setcfgConstShift v) s = done { s.calib with constShift := v }) ∧
    (∀ v, exec (.setcfgPixelSizeFactor v) s = done { s.calib with pixelSizeFactor := v }) ∧
    (∀ v, exec (.setcfgParamCoeff v) s = done { s.calib with paramCoeff := v }) ∧
    (∀ v, exec (.setcfgShiftScale v) s = done { s.calib with shiftScale := v }) ∧
    (∀ h : Half, h ≤ s.calib.maxDepth →
      exec (.setcfgMinCutoff (h.setWidth 32)) s = done { s.calib with minCutoff := h }) ∧
    (∀ h : Half, h ≤ s.calib.maxDepth →
      exec (.setcfgMaxCutoff (h.setWidth 32)) s = done { s.calib with maxCutoff := h }) ∧
    (∀ h : Half, h ∈ ([100, 101, 102] : List Half) →
      exec (.setcfgOutputFormat (h.setWidth 32)) s = done { s.calib with outputFormat := h })) ∧
  (∀ (s : State) (v : Word),
    let rejected (i : Instr) : Prop := exec i s = .next (statusState s 0x04 0x03)
    (2 ^ 16 ≤ v.toNat → rejected (.setcfgMaxShift v)) ∧
    (2 ^ 16 ≤ v.toNat ∨ v.toNat < s.calib.minCutoff.toNat ∨ v.toNat < s.calib.maxCutoff.toNat →
      rejected (.setcfgMaxDepth v)) ∧
    (s.calib.maxDepth.toNat < v.toNat → rejected (.setcfgMinCutoff v) ∧ rejected (.setcfgMaxCutoff v)) ∧
    (v.toNat ∉ [100, 101, 102] → rejected (.setcfgOutputFormat v)))

/-- In every state with TABLES_VALID = 1 whose registers and table sizes satisfy their invariants, an accepted value
of any field is committed and counted, Build runs on the new registers with sizes MAX_SHIFT + 1 and MAX_DEPTH + 1 of
them, and the command ends OK with the new tables and sizes in place, TABLES_VALID = 1, RESULT0 = CFG_EPOCH and
RESULT1 = 1; nothing else changes. (Derived: R156, R160, R161, R392.) -/
def Obligations.SetcfgCascades : Prop :=
  ∀ (s : State) (f : CalibField) (lo hi : Word), CalibInv s.calib → TablesInv s → s.tablesValid = true →
    acceptsField f lo s.calib = true →
    let c := commitField f lo hi s.calib
    ∃ t : List Half × List Half, buildTables s.params c (c.maxShift.toNat + 1) (c.maxDepth.toNat + 1) = .ok t ∧
      exec (setcfgCommand f lo hi) s = .next (okState
        { s with
          calib := c, cfgEpoch := s.cfgEpoch + 1, s2d := t.1, d2s := t.2, tablesValid := true
          tblNShift := BitVec.ofNat 17 (c.maxShift.toNat + 1)
          tblNDepth := BitVec.ofNat 17 (c.maxDepth.toNat + 1) }
        0x04 (s.cfgEpoch + 1) 1 0 0)

/-- For every parameter set and every value of the calibration registers that satisfies the register invariant (NaN,
infinite and negative f64 registers included), Build of sizes MAX_SHIFT + 1 and MAX_DEPTH + 1 succeeds. The spec
marks the fact as derived from the keep test and the invariant. (Derived: R154, R156, R159.) -/
def Obligations.BuildNeverFaults : Prop :=
  ∀ (p : Params) (c : Calib), CalibInv c →
    ∃ t, buildTables p c (c.maxShift.toNat + 1) (c.maxDepth.toNat + 1) = .ok t

/-- When Build succeeds the tables have NS and ND entries. depth(s) is scale * (((metric * Z) / (E - metric)) + Z)
with metric = (((s - cs) / PARAM_COEFF) - 0.375) * (ZERO_PLANE_PIXEL_SIZE * PIXEL_SIZE_FACTOR), cs = (CONST_SHIFT *
PARAM_COEFF) / PIXEL_SIZE_FACTOR and scale = SHIFT_SCALE * FINE_SCALE_MULT for OUTPUT_FORMAT 101, SHIFT_SCALE * 1
otherwise, every operation in binary64 in this grouping. A shift s is kept when 1 <= s < MAX_SHIFT and depth(s) lies
strictly between the cutoffs. S2D[s] is the integer part of depth(s) for a kept s, that is S2D[s] <= depth(s) <
S2D[s] + 1, and 0 otherwise. A kept s fills D2S from S2D of the kept shift before it (or 0) while the index is below
depth(s), with that shift; a later fill overwrites an earlier one; the tail fills from S2D of the last kept shift
through MAX_DEPTH with that shift: so D2S[j] is the last kept shift for j in the tail, else what the last fill that
covers j gives, else 0; and every D2S entry is 0 or a kept shift. (Derived: R154, R155, R156, R157, R9.) -/
def Obligations.BuildTableContents : Prop :=
  ∀ (p : Params) (c : Calib) (nd : Nat) (t : List Half × List Half),
    buildTables p c (c.maxShift.toNat + 1) nd = .ok t →
    let number (n : Nat) : F64 := F64.ofNat n
    let scale := (number c.shiftScale.toNat).mul (number (if c.outputFormat = 101 then p.fineScaleMult.toNat else 1))
    let cs := ((F64.ofInt c.constShift.toInt).mul (number c.paramCoeff.toNat)).div (number c.pixelSizeFactor.toNat)
    let pps := (F64.ofBits c.zeroPlanePixelSize).mul (number c.pixelSizeFactor.toNat)
    let z := F64.ofBits c.zeroPlaneDistance
    let metric (i : Nat) : F64 :=
      ((((number i).sub cs).div (number c.paramCoeff.toNat)).sub (.fin false 3 (-3))).mul pps
    let depth (i : Nat) : F64 :=
      scale.mul ((((metric i).mul z).div ((F64.ofBits c.emitterDistance).sub (metric i))).add z)
    let kept (i : Nat) : Bool := decide (1 ≤ i ∧ i < c.maxShift.toNat) &&
      ((number c.minCutoff.toNat).lt (depth i) && (depth i).lt (number c.maxCutoff.toNat))
    let prev := lastKeptBelow kept
    let stored (i : Nat) : Nat := (t.1.getD i 0).toNat
    let covers (i j : Nat) : Prop := kept i = true ∧ stored (prev i) ≤ j ∧ (number j).lt (depth i) = true
    let last := prev c.maxShift.toNat
    let inTail (j : Nat) : Prop := stored last ≤ j ∧ j ≤ c.maxDepth.toNat
    t.1.length = c.maxShift.toNat + 1 ∧ t.2.length = nd ∧
    (∀ i, i ≤ c.maxShift.toNat → t.1[i]? = some (if kept i then (depth i).truncHalf else 0)) ∧
    (∀ i, kept i = true → (depth i).lt (number (stored i)) = false ∧ (depth i).lt (number (stored i + 1)) = true) ∧
    (∀ j, j < nd → inTail j → t.2[j]? = some (BitVec.ofNat 16 last)) ∧
    (∀ i j, j < nd → ¬ inTail j → covers i j → (∀ k, i < k → ¬ covers k j) →
      t.2[j]? = some (BitVec.ofNat 16 (prev i))) ∧
    (∀ j, j < nd → ¬ inTail j → (∀ i, ¬ covers i j) → t.2[j]? = some 0) ∧
    (∀ h ∈ t.2, h = 0 ∨ kept h.toNat = true)

/-- Under the register invariant, if the kept depths do not decrease as the shift index grows, then D2S is
non-decreasing in the depth index, and for every kept shift s with d = S2D[s], D2S[d] >= s and S2D[D2S[d]] <= d. The
spec marks the rule as derived from the build procedure. (Derived: R154, R165.) -/
def Obligations.DepthTableInvertsShiftTable : Prop :=
  ∀ (p : Params) (c : Calib) (t : List Half × List Half), CalibInv c →
    buildTables p c (c.maxShift.toNat + 1) (c.maxDepth.toNat + 1) = .ok t →
    let depth := shiftDepth (buildConsts p c)
    let kept (i : Nat) : Prop := 1 ≤ i ∧ i < c.maxShift.toNat ∧ keptDepth (buildConsts p c) (depth i) = true
    (∀ i j, kept i → kept j → i < j → (depth j).lt (depth i) = false) →
    (∀ i j, i ≤ j → j ≤ c.maxDepth.toNat → (t.2.getD i 0).toNat ≤ (t.2.getD j 0).toNat) ∧
    (∀ i, kept i →
      let d := (t.1.getD i 0).toNat
      i ≤ (t.2.getD d 0).toNat ∧ (t.1.getD (t.2.getD d 0).toNat 0).toNat ≤ d)

/-- With tables valid, both ranges in ADMITTED, either DST = SRC or the ranges disjoint, and every shift below
TBL_NSHIFT: S2D_CONVERT ends OK with RESULT0 = COUNT; the u16 at DST + 2i is S2D of the u16 that stood at SRC + 2i
before the command; no other byte and no other state changes. COUNT = 0 and any alignment are included. (Derived:
R81, R89, R162, R163.) -/
def Obligations.ConvertLooksUpEachElement : Prop :=
  ∀ (s : State) (src count dst : Word), s.mem.wf = true → s.tablesValid = true →
    Admitted s.params src.toNat (2 * count.toNat) → Admitted s.params dst.toNat (2 * count.toNat) →
    (src = dst ∨ Apart src.toNat (2 * count.toNat) dst.toNat (2 * count.toNat)) →
    (∀ i, i < count.toNat → halfAt s.mem (src.toNat + 2 * i) < s.tblNShift.toNat) →
    ∃ m, exec (.s2dConvert src count dst) s = .next (okState { s with mem := m } 0x05 count 0 0 0) ∧
      (∀ i, i < count.toNat →
        halfAt m (dst.toNat + 2 * i) = (s.s2d.getD (halfAt s.mem (src.toNat + 2 * i)) 0).toNat) ∧
      (∀ a, (a < dst.toNat ∨ dst.toNat + 2 * count.toNat ≤ a) → m.read a = s.mem.read a)

/-- With tables valid, both ranges in ADMITTED and DST = SRC or disjoint ranges: if element i is the first whose
shift is at least TBL_NSHIFT, the command faults with cause 2, FAULT_INFO = i and FAULT_VALUE = the shift, and bytes
outside the depth range are unchanged. With TABLES_VALID = 0 and ranges that do not wrap it faults with cause 1,
info and value 0, and all of memory unchanged. That all of memory is unchanged after TABLES_NOT_VALID is R346 (which
the spec marks derived) against R345, settled by log entry 11 (DEDUCED). (Derived: R162, R341, R342, R345, R346.) -/
def Obligations.ConvertFaultsAtFirstBadShift : Prop :=
  (∀ (s : State) (src count dst : Word) (i : Nat), s.mem.wf = true → s.tablesValid = true →
    Admitted s.params src.toNat (2 * count.toNat) → Admitted s.params dst.toNat (2 * count.toNat) →
    (src = dst ∨ Apart src.toNat (2 * count.toNat) dst.toNat (2 * count.toNat)) → i < count.toNat →
    (∀ j, j < i → halfAt s.mem (src.toNat + 2 * j) < s.tblNShift.toNat) →
    s.tblNShift.toNat ≤ halfAt s.mem (src.toNat + 2 * i) →
    ∃ t, exec (.s2dConvert src count dst) s = .next t ∧
      Faulted t 0x05 2 (BitVec.ofNat 32 i) (BitVec.ofNat 32 (halfAt s.mem (src.toNat + 2 * i))) ∧
      ∀ a, (a < dst.toNat ∨ dst.toNat + 2 * count.toNat ≤ a) → t.mem.read a = s.mem.read a) ∧
  (∀ (s : State) (src count dst : Word), s.tablesValid = false → InSpace src.toNat (2 * count.toNat) →
    InSpace dst.toNat (2 * count.toNat) →
    ∃ t, exec (.s2dConvert src count dst) s = .next t ∧ Faulted t 0x05 1 0 0 ∧ t.mem = s.mem)

/-- For either table (n entries): with tables valid, a range that does not wrap, CAP at least 2n and the first 2n
bytes in ADMITTED it ends OK with RESULT0 = 2n, the u16 at DST + 2i equal to entry i, bytes from DST + 2n on and
everything else unchanged; with CAP below 2n it ends with OUTPUT_BUFFER_OVERFLOW and nothing written; with
TABLES_VALID = 0 it faults with TABLES_NOT_VALID and changes nothing but the fault and status registers. That memory
is unchanged after this fault is R346 (which the spec marks derived) against R345, settled by log entry 11
(DEDUCED). (Derived: R81, R164, R341, R342, R346.) -/
def Obligations.ReadTableCopiesOut : Prop :=
  ∀ (s : State) (dst cap : Word) (which : Bool),
    let i : Instr := if which then .s2dRdtabD2s dst cap else .s2dRdtabS2d dst cap
    let table := if which then s.d2s else s.s2d
    let n := if which then s.tblNDepth.toNat else s.tblNShift.toNat
    InSpace dst.toNat cap.toNat →
    (s.tablesValid = true → 2 * n ≤ cap.toNat → Admitted s.params dst.toNat (2 * n) → s.mem.wf = true →
      ∃ m, exec i s = .next (okState { s with mem := m } 0x06 (BitVec.ofNat 32 (2 * n)) 0 0 0) ∧
        (∀ k, k < n → halfAt m (dst.toNat + 2 * k) = (table.getD k 0).toNat) ∧
        (∀ a, (a < dst.toNat ∨ dst.toNat + 2 * n ≤ a) → m.read a = s.mem.read a)) ∧
    (s.tablesValid = true → cap.toNat < 2 * n → exec i s = .next (statusState s 0x06 0x02)) ∧
    (s.tablesValid = false → exec i s = .next (faultState s 0x06 1 0 0))

/-- With ranges that do not wrap, the whole elements' input bytes and the output bytes in ADMITTED, source and
destination ranges disjoint, DSTCAP at least 32 bytes an element, and the tables built if a depth format has an
element to look up: UNPACK12 ends OK with the bytes consumed, the bytes written and the leftover count; group g's
two values {b0, b1[7:4]} and {b1[3:0], b2}, replaced by 0 from MAX_SHIFT - 1 on and looked up in S2D for a depth
format, stand at DST + 4g; no other byte and no other state changes. (Derived: R81, R250, R251, R252, R253, R254.)
-/
def Obligations.Unpack12WritesEveryGroup : Prop :=
  ∀ (s : State) (src srclen dst dstcap : Word),
    let nElem := srclen.toNat / 24
    s.mem.wf = true → InSpace src.toNat srclen.toNat → InSpace dst.toNat dstcap.toNat →
    Apart src.toNat srclen.toNat dst.toNat dstcap.toNat → Admitted s.params src.toNat (24 * nElem) →
    Admitted s.params dst.toNat (32 * nElem) → 32 * nElem ≤ dstcap.toNat → OutputReady s nElem →
    ∃ m, exec (.unpack12 src srclen dst dstcap) s = .next (okState { s with mem := m } 0x10
        (BitVec.ofNat 32 (24 * nElem)) (BitVec.ofNat 32 (32 * nElem)) (BitVec.ofNat 32 (srclen.toNat % 24)) 0) ∧
      (∀ g, g < 8 * nElem → GroupUnpacked s (s.mem.read (src.toNat + 3 * g)) (s.mem.read (src.toNat + 3 * g + 1))
        (s.mem.read (src.toNat + 3 * g + 2)) m (dst.toNat + 4 * g)) ∧
      (∀ a, (a < dst.toNat ∨ dst.toNat + 32 * nElem ≤ a) → m.read a = s.mem.read a)

/-- With ranges that do not wrap: a depth OUTPUT_FORMAT with at least one element and TABLES_VALID = 0 faults with
TABLES_NOT_VALID whatever DSTCAP is, memory unchanged; otherwise a DSTCAP below 32 bytes an element ends with
OUTPUT_BUFFER_OVERFLOW, nothing written. With ranges that do not wrap: LINE = 0 faults with GEOMETRY, info 0, value
SRCLEN; otherwise, with the input in ADMITTED, a decode that needs more than DSTCAP bytes ends with
OUTPUT_BUFFER_OVERFLOW and, for LAST = 1, one cut off inside a literal ends with BUFFER_TOO_SMALL; in all three
memory is unchanged. That memory is unchanged after the two faults is R346 (which the spec marks derived) against
R345, settled by log entry 11 (DEDUCED). (Derived: R153, R254, R341, R342, R226, R227, R346.) -/
def Obligations.DecoderRefusals : Prop :=
  (∀ (s : State) (src srclen dst dstcap : Word), InSpace src.toNat srclen.toNat → InSpace dst.toNat dstcap.toNat →
    (s.tablesValid = false → (s.calib.outputFormat = 100 ∨ s.calib.outputFormat = 101) → 24 ≤ srclen.toNat →
      exec (.unpack12 src srclen dst dstcap) s = .next (faultState s 0x10 1 0 0)) ∧
    (OutputReady s (srclen.toNat / 24) → dstcap.toNat < 32 * (srclen.toNat / 24) →
      exec (.unpack12 src srclen dst dstcap) s = .next (statusState s 0x10 0x02))) ∧
  (∀ (s : State) (isNew last : Bool) (src srclen dst dstcap line : Word), InSpace src.toNat srclen.toNat →
    InSpace dst.toNat dstcap.toNat →
    let i := uncompCommand isNew last src srclen dst dstcap line
    let result := decodeStream (bufNibble (s.mem.readList src.toNat srclen.toNat)) (uncompMap isNew) srclen.toNat
      dstcap.toNat line.toNat last
    (line = 0 → exec i s = .next (faultState s (uncompOpcode isNew) 4 0 srclen)) ∧
    (line ≠ 0 → Admitted s.params src.toNat srclen.toNat → result = .ok .outputOverflow →
      exec i s = .next (statusState s (uncompOpcode isNew) 0x02)) ∧
    (line ≠ 0 → Admitted s.params src.toNat srclen.toNat → result = .ok .inputTooSmall →
      exec i s = .next (statusState s (uncompOpcode isNew) 0x01)))

/-- For both variants and both LAST values: with LINE not 0, ranges that do not wrap and do not overlap, the input
in ADMITTED, and the decode procedure over the input bytes ending OK with actualRead rd and some bytes that lie in
ADMITTED at DST: the command ends OK with exactly those bytes stored from DST on, RESULT0 = rd, RESULT1 = their
number, and nothing else changed. (Derived: R220, R221, R224, R226, R228, R229.) -/
def Obligations.UncompCompletes : Prop :=
  ∀ (s : State) (isNew last : Bool) (src srclen dst dstcap line : Word) (rd : Nat) (bytes : List Byte),
    line ≠ 0 → InSpace dst.toNat dstcap.toNat → Admitted s.params src.toNat srclen.toNat →
    Apart src.toNat srclen.toNat dst.toNat dstcap.toNat →
    decodeStream (bufNibble (s.mem.readList src.toNat srclen.toNat)) (uncompMap isNew) srclen.toNat dstcap.toNat
      line.toNat last = .ok (.done rd bytes) →
    Admitted s.params dst.toNat bytes.length →
    exec (uncompCommand isNew last src srclen dst dstcap line) s =
      .next (okState { s with mem := s.mem.writeList dst.toNat bytes } (uncompOpcode isNew)
        (BitVec.ofNat 32 rd) (BitVec.ofNat 32 bytes.length) 0 0)

/-- At a decoder state inside the input, with u the nibble there and run the running value of the slot's channel: u
<= 0xC yields the sample (run + u - 6) mod 256 and takes one nibble; u = 0xD takes one nibble and yields nothing; u
>= 0xE yields the sample nib(k+1)*16 + nib(k+2) and takes three, or is cut off when fewer than three are left.
Nibble j of a byte list is the high half of byte j/2 when j is even, the low half when j is odd. A sample v is
output next; within a scanline run[ch] becomes v, the other running values stay, and the slot advances by 1 modulo
the map's length; when the output count becomes a multiple of LINE, an odd k advances to the byte boundary, the
running values and the slot become 0, bIn is k/2 and bOut the output count. The decode starts with k, o, slot, bIn,
bOut and the running values 0 and no output, and takes unit after unit while k < 2N: a filler moves k only, a cut
ends it, a sample past the capacity is output overflow; 2N turns always reach its end. With LAST = 1 all input and
output count, or a cut is BUFFER_TOO_SMALL; with LAST = 0 they count up to bIn and bOut. (Derived: R221, R222, R223,
R225, R226.) -/
def Obligations.UncompUnitMeaning : Prop :=
  (∀ (buf : List Byte) (map : List (Fin 3)) (st : DecodeState), st.k < 2 * buf.length →
    let nib (j : Nat) : Nat :=
      if j % 2 = 0 then (buf.getD (j / 2) 0).toNat / 16 else (buf.getD (j / 2) 0).toNat % 16
    let run := (st.run[channelOf map st]).toNat
    let unit := decodeUnit (bufNibble buf) map (2 * buf.length) st
    (nib st.k ≤ 0xC → ∃ v : Byte, unit = .ok (.sample v (st.k + 1)) ∧
      (v.toNat : Int) = ((run : Int) + nib st.k - 6) % 256) ∧
    (nib st.k = 0xD → unit = .ok (.filler (st.k + 1))) ∧
    (0xE ≤ nib st.k → st.k + 2 < 2 * buf.length →
      ∃ v : Byte, unit = .ok (.sample v (st.k + 3)) ∧ v.toNat = nib (st.k + 1) * 16 + nib (st.k + 2)) ∧
    (0xE ≤ nib st.k → 2 * buf.length ≤ st.k + 2 → unit = .ok .cut)) ∧
  (∀ (map : List (Fin 3)) (st : DecodeState) (h : st.slot < map.length), channelOf map st = map[st.slot]) ∧
  (∀ (map : List (Fin 3)) (line k : Nat) (v : Byte) (st : DecodeState),
    let st' := acceptSample map line v k st
    st'.out = v :: st.out ∧ st'.o = st.o + 1 ∧
    ((st.o + 1) % line ≠ 0 → st'.k = k ∧ (∀ c, st'.run[c] = if c = channelOf map st then v else st.run[c]) ∧
      st'.slot = (st.slot + 1) % map.length ∧ st'.bIn = st.bIn ∧ st'.bOut = st.bOut) ∧
    ((st.o + 1) % line = 0 → st'.k = (if k % 2 = 1 then k + 1 else k) ∧ (∀ c : Fin 3, st'.run[c] = 0) ∧
      st'.slot = 0 ∧ 2 * st'.bIn = st'.k ∧ st'.bOut = st.o + 1)) ∧
  (DecodeState.start.k = 0 ∧ DecodeState.start.o = 0 ∧ (∀ c : Fin 3, DecodeState.start.run[c] = 0) ∧
    DecodeState.start.slot = 0 ∧ DecodeState.start.bIn = 0 ∧ DecodeState.start.bOut = 0 ∧
    DecodeState.start.out = []) ∧
  (∀ (buf : List Byte) (map : List (Fin 3)) (cap line : Nat) (st : DecodeState) (turns : Nat),
    let M := 2 * buf.length
    let loop := decodeLoop (bufNibble buf) map M cap line
    (M ≤ st.k → loop turns st = .ok (.consumed st)) ∧
    (st.k < M →
      (∀ k, decodeUnit (bufNibble buf) map M st = .ok (.filler k) →
        loop (turns + 1) st = loop turns { st with k := k }) ∧
      (decodeUnit (bufNibble buf) map M st = .ok .cut → loop (turns + 1) st = .ok (.truncated st)) ∧
      (∀ v k, decodeUnit (bufNibble buf) map M st = .ok (.sample v k) → cap ≤ st.o →
        loop (turns + 1) st = .ok .overflow) ∧
      (∀ v k, decodeUnit (bufNibble buf) map M st = .ok (.sample v k) → st.o < cap →
        loop (turns + 1) st = loop turns (acceptSample map line v k st))) ∧
    loop (M - st.k + turns) st = loop (M - st.k) st) ∧
  (∀ (buf : List Byte) (map : List (Fin 3)) (cap line : Nat) (st : DecodeState),
    let loop := decodeLoop (bufNibble buf) map (2 * buf.length) cap line (2 * buf.length) DecodeState.start
    let decode := decodeStream (bufNibble buf) map buf.length cap line
    (loop = .ok .overflow → ∀ last, decode last = .ok .outputOverflow) ∧
    (loop = .ok (.consumed st) → decode true = .ok (.done buf.length st.out.reverse)) ∧
    (loop = .ok (.truncated st) → decode true = .ok .inputTooSmall) ∧
    (loop = .ok (.consumed st) ∨ loop = .ok (.truncated st) →
      decode false = .ok (.done st.bIn (st.out.reverse.take st.bOut))))

/-- For every byte list, channel map, capacity and LINE the decode procedure over the list ends without a fault;
when it ends OK, actualRead is at most the input length and the counted output at most the capacity; with LAST = 1
the whole input is counted and with LAST = 0 a whole number of scanlines; it never reports BUFFER_TOO_SMALL with
LAST = 0. (Derived: R225, R226, R227.) -/
def Obligations.UncompDecodeBounds : Prop :=
  ∀ (buf : List Byte) (map : List (Fin 3)) (cap line : Nat) (last : Bool), ∃ r : DecodeResult,
    decodeStream (bufNibble buf) map buf.length cap line last = .ok r ∧
    (last = false → r ≠ .inputTooSmall) ∧
    ∀ rd bytes, r = .done rd bytes → rd ≤ buf.length ∧ bytes.length ≤ cap ∧ (last = true → rd = buf.length) ∧
      (last = false → bytes.length % line = 0)

/-- Let a buffer decode with LAST = 1 to OK with output out. For every split byte b, the first b bytes decode with
LAST = 0 to OK with some bIn and some bytes; the bytes from bIn on then decode with LAST = 1, in the remaining
capacity, to OK; and the two outputs joined are out. Both channel maps. The spec marks the property as derived from
the decode rules. (Derived: R222, R225, R226, R230, R285.) -/
def Obligations.UncompResumable : Prop :=
  ∀ (buf : List Byte) (isNew : Bool) (cap line b rd : Nat) (out : List Byte), 0 < line → b ≤ buf.length →
    decodeStream (bufNibble buf) (uncompMap isNew) buf.length cap line true = .ok (.done rd out) →
    ∃ (bIn : Nat) (first second : List Byte), bIn ≤ b ∧
      decodeStream (bufNibble (buf.take b)) (uncompMap isNew) b cap line false = .ok (.done bIn first) ∧
      decodeStream (bufNibble (buf.drop bIn)) (uncompMap isNew) (buf.length - bIn) (cap - first.length) line true =
        .ok (.done (buf.length - bIn) second) ∧
      first ++ second = out

/-- For GRAY8 (1 byte), GRAY16, DEPTH_1_MM, DEPTH_100_UM, SHIFT_9_2 (2 bytes) and RGB888 (3 bytes): with 1 <= WIDTH
<= MIRROR_MAX_LINE_PIXELS, LEN a multiple of the line's bytes and the buffer in ADMITTED, MIRROR ends OK with the
number of lines in RESULT0; byte k of pixel p of each line is what byte k of pixel WIDTH-1-p was; bytes outside the
buffer and all other state are unchanged. (Derived: R200, R202, R206, R209.) -/
def Obligations.MirrorPixelLayouts : Prop :=
  ∀ (s : State) (q : (Word → Word → Word → Instr) × Nat) (buf len width : Word), q ∈ pixelMirrors →
    let lineBytes := width.toNat * q.2
    s.mem.wf = true → 1 ≤ width.toNat → width.toNat ≤ s.params.mirrorMaxLinePixels → len.toNat % lineBytes = 0 →
    Admitted s.params buf.toNat len.toNat →
    ∃ m, exec (q.1 buf len width) s =
        .next (okState { s with mem := m } 0x20 (BitVec.ofNat 32 (len.toNat / lineBytes)) 0 0 0) ∧
      (∀ l p k, l < len.toNat / lineBytes → p < width.toNat → k < q.2 →
        m.read (buf.toNat + l * lineBytes + p * q.2 + k) =
          s.mem.read (buf.toNat + l * lineBytes + (width.toNat - 1 - p) * q.2 + k)) ∧
      (∀ a, (a < buf.toNat ∨ buf.toNat + len.toNat ≤ a) → m.read a = s.mem.read a)

/-- For the two 2-pixel-group formats: with an even WIDTH from 2 to MIRROR_MAX_LINE_PIXELS, LEN a multiple of the
line's bytes and the buffer in ADMITTED, MIRROR ends OK with the number of lines in RESULT0; the bytes of group g of
each line are those of group G-1-g in the order 0, 3, 2, 1 for YUV422 (U, Y1, V, Y0) and 2, 1, 0, 3 for YUYV (Y1, U,
Y0, V); bytes outside the buffer and all other state are unchanged. (Derived: R200, R202, R207, R208, R209.) -/
def Obligations.MirrorYuvLayouts : Prop :=
  ∀ (s : State) (yuyv : Bool) (buf len width : Word),
    let i : Instr := if yuyv then .mirrorYuyv buf len width else .mirrorYuv422 buf len width
    let lineBytes := width.toNat * 2
    let groups := width.toNat / 2
    s.mem.wf = true → 2 ≤ width.toNat → width.toNat % 2 = 0 → width.toNat ≤ s.params.mirrorMaxLinePixels →
    len.toNat % lineBytes = 0 → Admitted s.params buf.toNat len.toNat →
    ∃ m, exec i s = .next (okState { s with mem := m } 0x20 (BitVec.ofNat 32 (len.toNat / lineBytes)) 0 0 0) ∧
      (∀ l g, l < len.toNat / lineBytes → g < groups →
        let dst := buf.toNat + l * lineBytes + 4 * g
        let src := buf.toNat + l * lineBytes + 4 * (groups - 1 - g)
        if yuyv then m.read dst = s.mem.read (src + 2) ∧ m.read (dst + 1) = s.mem.read (src + 1) ∧
          m.read (dst + 2) = s.mem.read src ∧ m.read (dst + 3) = s.mem.read (src + 3)
        else m.read dst = s.mem.read src ∧ m.read (dst + 1) = s.mem.read (src + 3) ∧
          m.read (dst + 2) = s.mem.read (src + 2) ∧ m.read (dst + 3) = s.mem.read (src + 1)) ∧
      (∀ a, (a < buf.toNat ∨ buf.toNat + len.toNat ≤ a) → m.read a = s.mem.read a)

/-- For every recognised format and every legal WIDTH up to MIRROR_MAX_LINE_PIXELS: with the buffer in ADMITTED and
LEN a multiple of the line's bytes, MIRROR ends with a next state, MIRROR again from it too, and data memory is then
exactly what it was. The spec marks the property as derived from the layout rules. (Derived: R201, R206, R207, R208,
R210.) -/
def Obligations.MirrorTwiceRestores : Prop :=
  ∀ (s : State) (q : (Word → Word → Word → Instr) × Nat × Nat) (buf len width : Word), q ∈ allMirrors →
    s.mem.wf = true → 1 ≤ width.toNat → width.toNat % q.2.2 = 0 → width.toNat ≤ s.params.mirrorMaxLinePixels →
    len.toNat % (width.toNat * q.2.1) = 0 → Admitted s.params buf.toNat len.toNat →
    ∃ t u, exec (q.1 buf len width) s = .next t ∧ exec (q.1 buf len width) t = .next u ∧ u.mem = s.mem

/-- MIRROR of any format code no layout takes completes BAD_FORMAT before any other check, whatever its operands.
For a recognised format and a range that does not wrap: WIDTH over MIRROR_MAX_LINE_PIXELS completes
BUFFER_TOO_SMALL; otherwise WIDTH = 0, LEN no multiple of the line's bytes, or an odd WIDTH in a 2-pixel-group
format faults GEOMETRY with info WIDTH and value LEN. Nothing but STATUS, RESULT and, for the fault, the fault
registers changes. That memory is unchanged after GEOMETRY is R346 (which the spec marks derived) against R345,
settled by log entry 11 (DEDUCED). (Derived: R200, R204, R205, R209, R341, R342, R346.) -/
def Obligations.MirrorRefusals : Prop :=
  (∀ (s : State) (fmt : Half) (buf len width : Word),
    exec (.mirrorCode fmt buf len width) s = .next (statusState s 0x20 0x04)) ∧
  (∀ (s : State) (q : (Word → Word → Word → Instr) × Nat × Nat) (buf len width : Word), q ∈ allMirrors →
    InSpace buf.toNat len.toNat →
    (s.params.mirrorMaxLinePixels < width.toNat → exec (q.1 buf len width) s = .next (statusState s 0x20 0x01)) ∧
    (width.toNat ≤ s.params.mirrorMaxLinePixels →
      width.toNat = 0 ∨ len.toNat % (width.toNat * q.2.1) ≠ 0 ∨ width.toNat % q.2.2 ≠ 0 →
      exec (q.1 buf len width) s = .next (faultState s 0x20 4 width len)))

/-- For each KIND, any context state and a write-buffer range that does not wrap (and LINE not 0 for the Uncomp
kinds): FRAME_SOF ends OK with RESULT0 = FRAME_ID + 1 modulo 2^32, and the named context accumulating, of that KIND,
not corrupted, with the new FRAME_ID, the given base and capacity, WBUF_SIZE 0, LINE_BYTES = LINE (0 for PACKED12)
and no continuation byte; memory and everything else are unchanged. An Uncomp KIND with LINE = 0 faults with
GEOMETRY, info 0, value 0, memory unchanged. That memory is unchanged after this fault is R346 (which the spec marks
derived) against R345, settled by log entry 11 (DEDUCED). (Derived: R272, R275, R279, R280, R394, R342, R346.) -/
def Obligations.FrameSofStartsFrame : Prop :=
  ∀ (s : State) (k : FrameKind) (c : BitVec 4) (wbase wcap line : Word), InSpace wbase.toNat wcap.toNat →
    let id := (getContext s c).frameId + 1
    (k = .packed12 ∨ line ≠ 0 →
      exec (sofCommand k c wbase wcap line) s = .next (okState
        (setContext s c
          { state := .accumulating, kind := k, corrupted := false, frameId := id, wbufBase := wbase, wbufCap := wcap
            wbufSize := 0, lineBytes := if k = .packed12 then 0 else line, cont := [] })
        0x30 id 0 0 0)) ∧
    (k ≠ .packed12 → line = 0 →
      ∃ t, exec (sofCommand k c wbase wcap line) s = .next t ∧ Faulted t 0x30 4 0 0 ∧ t.mem = s.mem)

/-- On an accumulating PACKED12 context, with the chunk in ADMITTED, the tables built if a depth format has an
element to look up, the whole elements of CONT ++ chunk fitting the free space, their output bytes in ADMITTED, and
the chunk apart from the write buffer: the command ends OK, the elements' groups stand as u16 pairs from WBUF_BASE +
WBUF_SIZE on, WBUF_SIZE grows by 32 an element, the leftover bytes (below 24) become CONT, RESULT0..3 are the new
WBUF_SIZE, CORRUPTED, the final-chunk bit OFFSET + LEN = BUFSIZE, and the new CONT_LEN; no other byte and no other
state changes. (Derived: R271, R278, R281, R282, R283.) -/
def Obligations.FrameChunkPacked12Appends : Prop :=
  ∀ (s : State) (c : BitVec 4) (src offset len bufsize : Word),
    let x := getContext s c
    let buf := x.cont ++ s.mem.readList src.toNat len.toNat
    let nElem := buf.length / 24
    let start := x.wbufBase.toNat + x.wbufSize.toNat
    let size := x.wbufSize + BitVec.ofNat 32 (32 * nElem)
    let rest := buf.drop (24 * nElem)
    s.mem.wf = true → x.state = .accumulating → x.kind = .packed12 → OutputReady s nElem →
    Admitted s.params src.toNat len.toNat → x.wbufSize.toNat + 32 * nElem ≤ x.wbufCap.toNat →
    Admitted s.params start (32 * nElem) →
    Apart src.toNat len.toNat x.wbufBase.toNat x.wbufCap.toNat →
    ∃ m, exec (.frameChunk c src offset len bufsize) s = .next (okState
        (setContext { s with mem := m } c { x with wbufSize := size, cont := rest }) 0x31 size
        (if x.corrupted then 1 else 0) (if offset.toNat + len.toNat = bufsize.toNat then 1 else 0)
        (BitVec.ofNat 32 rest.length)) ∧
      (∀ g, g < 8 * nElem → GroupUnpacked s (buf.getD (3 * g) 0) (buf.getD (3 * g + 1) 0) (buf.getD (3 * g + 2) 0) m
        (start + 4 * g)) ∧
      (∀ a, (a < start ∨ start + 32 * nElem ≤ a) → m.read a = s.mem.read a)

/-- On an accumulating PACKED12 context with the chunk in ADMITTED and the tables built if needed: when the whole
elements of CONT ++ chunk need more than the free space, memory and WBUF_SIZE are unchanged, CORRUPTED is set, the
leftover bytes become CONT, and the command ends OK with RESULT1 = 1. With a depth format, an element to map and
TABLES_VALID = 0 it faults TABLES_NOT_VALID instead, memory unchanged. That memory is unchanged after this fault is
R346 (which the spec marks derived) against R345, settled by log entry 11 (DEDUCED). (Derived: R273, R277, R281,
R283, R289, R341, R342, R346.) -/
def Obligations.FrameChunkPacked12Overflow : Prop :=
  ∀ (s : State) (c : BitVec 4) (src offset len bufsize : Word),
    let x := getContext s c
    let buf := x.cont ++ s.mem.readList src.toNat len.toNat
    let nElem := buf.length / 24
    let rest := buf.drop (24 * nElem)
    x.state = .accumulating → x.kind = .packed12 → Admitted s.params src.toNat len.toNat →
    (OutputReady s nElem → x.wbufCap.toNat - x.wbufSize.toNat < 32 * nElem →
      exec (.frameChunk c src offset len bufsize) s = .next (okState
        (setContext s c { x with corrupted := true, cont := rest }) 0x31 x.wbufSize 1
        (if offset.toNat + len.toNat = bufsize.toNat then 1 else 0) (BitVec.ofNat 32 rest.length))) ∧
    (¬ OutputReady s nElem →
      ∃ t, exec (.frameChunk c src offset len bufsize) s = .next t ∧ Faulted t 0x31 1 0 0 ∧ t.mem = s.mem)

/-- On an accumulating Uncomp context with the chunk in ADMITTED and apart from the write buffer, when CONT ++ chunk
is not empty and decodes OK (LAST = the final-chunk bit) with actualRead rd and some bytes in ADMITTED at WBUF_BASE
+ WBUF_SIZE: the bytes are stored there, WBUF_SIZE grows by their number, the bytes from rd on become CONT if they
fit CONT_CAP, else CORRUPTED is set and CONT emptied, and the command ends OK with WBUF_SIZE, CORRUPTED, the
final-chunk bit and CONT_LEN. With CONT ++ chunk empty nothing but STATUS and RESULT changes. On an accumulating
Uncomp context with the chunk in ADMITTED: when the decode of the non-empty CONT ++ chunk ends in output overflow,
or on the final chunk in a cut-off literal, CORRUPTED is set, CONT becomes empty, WBUF_SIZE and memory are
unchanged, and the command ends OK with RESULT1 = 1 and RESULT3 = 0. (Derived: R271, R278, R281, R282, R284, R285,
R287, R286, R289.) -/
def Obligations.FrameChunkUncomp : Prop :=
  (∀ (s : State) (c : BitVec 4) (src offset len bufsize : Word),
    let x := getContext s c
    let buf := x.cont ++ s.mem.readList src.toNat len.toNat
    let start := x.wbufBase.toNat + x.wbufSize.toNat
    let free := x.wbufCap.toNat - x.wbufSize.toNat
    let final := decide (offset.toNat + len.toNat = bufsize.toNat)
    x.state = .accumulating → x.kind ≠ .packed12 → Admitted s.params src.toNat len.toNat →
    (∀ rd bytes, buf ≠ [] →
      decodeStream (bufNibble buf) (uncompMap (decide (x.kind = .uncompNew))) buf.length free x.lineBytes.toNat final =
        .ok (.done rd bytes) →
      Admitted s.params start bytes.length → Apart src.toNat len.toNat x.wbufBase.toNat x.wbufCap.toNat →
      let size := x.wbufSize + BitVec.ofNat 32 bytes.length
      let rest := buf.drop rd
      let y : Context :=
        if rest.length ≤ s.params.contCap then { x with wbufSize := size, cont := rest }
        else { x with wbufSize := size, corrupted := true, cont := [] }
      exec (.frameChunk c src offset len bufsize) s = .next (okState
        (setContext { s with mem := s.mem.writeList start bytes } c y) 0x31 size (if y.corrupted then 1 else 0)
        (if final then 1 else 0) (BitVec.ofNat 32 y.cont.length))) ∧
    (buf = [] →
      exec (.frameChunk c src offset len bufsize) s = .next (okState s 0x31 x.wbufSize (if x.corrupted then 1 else 0)
        (if final then 1 else 0) 0))) ∧
  (∀ (s : State) (c : BitVec 4) (src offset len bufsize : Word) (r : DecodeResult),
    let x := getContext s c
    let buf := x.cont ++ s.mem.readList src.toNat len.toNat
    let final := decide (offset.toNat + len.toNat = bufsize.toNat)
    x.state = .accumulating → x.kind ≠ .packed12 → Admitted s.params src.toNat len.toNat → buf ≠ [] →
    decodeStream (bufNibble buf) (uncompMap (decide (x.kind = .uncompNew))) buf.length
      (x.wbufCap.toNat - x.wbufSize.toNat) x.lineBytes.toNat final = .ok r →
    r = .outputOverflow ∨ r = .inputTooSmall →
    exec (.frameChunk c src offset len bufsize) s = .next (okState
      (setContext s c { x with corrupted := true, cont := [] }) 0x31 x.wbufSize 1 (if final then 1 else 0) 0))

/-- On an accumulating context FRAME_EOF ends OK with the context complete and its continuation bytes discarded,
every other field of it kept, RESULT0 = WBUF_SIZE, RESULT1 = CORRUPTED, RESULT2 = FRAME_ID; memory and everything
else are unchanged. On an idle or complete context both commands end with ILLEGAL_STATE before any other check,
whatever their operands, with zero results and nothing else changed. (Derived: R275, R288, R289, R281, R340.) -/
def Obligations.FrameEofAndIllegalState : Prop :=
  (∀ (s : State) (c : BitVec 4), (getContext s c).state = .accumulating →
    exec (.frameEof c) s = .next (okState
      (setContext s c { getContext s c with state := .complete, cont := [] }) 0x32 (getContext s c).wbufSize
      (if (getContext s c).corrupted then 1 else 0) (getContext s c).frameId 0)) ∧
  (∀ (s : State) (c : BitVec 4) (src offset len bufsize : Word), (getContext s c).state ≠ .accumulating →
    exec (.frameChunk c src offset len bufsize) s = .next (statusState s 0x31 0x05) ∧
    exec (.frameEof c) s = .next (statusState s 0x32 0x05))

/-- With the 72, 24 and 24 bytes at A, B and X in ADMITTED, whatever their overlap: the matrix element (i, j) is the
little-endian f64 at A + 8(3i + j) and the right-hand side element i the f64 at B + 8i, as they stood before the
command. luSolution writes rule R313 out by index: for columns 0, 1, 2 the pivot row is the first of the greatest
magnitude, a zero pivot is SINGULAR, rows are exchanged, and each later row loses l times the pivot row with l its
entry over the pivot; then for rows 2, 1, 0 the products with the entries found so far are taken off, j ascending,
and the rest is divided by the diagonal. A solution ends OK with its element i stored little-endian at X + 8i (sign
and payload of a NaN in it are free values), no other byte changed, and zero results; SINGULAR writes nothing.
Nothing else changes but the count of free values drawn. (Derived: R81, R310, R311, R312, R313.) -/
def Obligations.LuSolve3Completes : Prop :=
  ∀ (s : State) (a b x : Word), Admitted s.params a.toNat 72 → Admitted s.params b.toNat 24 →
    Admitted s.params x.toNat 24 →
    (∀ v, s.mem.wf = true → luSolution (matrixIn s.mem a.toNat) (vectorIn s.mem b.toNat) = some v →
      ∃ m, exec (.lu3 a b x) s = .next (okState { s with mem := m, nonce := s.nonce + 3 } 0x40 0 0 0 0) ∧
        (∀ i : Fin 3, bits64In m (x.toNat + 8 * i.val) = (v i).toBits (Config.freeNaN (s.nonce + i.val))) ∧
        (∀ p, (p < x.toNat ∨ x.toNat + 24 ≤ p) → m.read p = s.mem.read p)) ∧
    (luSolution (matrixIn s.mem a.toNat) (vectorIn s.mem b.toNat) = none →
      exec (.lu3 a b x) s = .next (statusState s 0x40 0x06))

/-- With the 24 N bytes at PTS and the 24 bytes at OUT in ADMITTED, whatever their overlap: point i is the three
little-endian f64 x, y, z at PTS + 24i, 24i + 8 and 24i + 16; each of the eight sums starts at +0.0 and adds its
terms in ascending order, every product and sum rounded separately; planeMatrix and planeVector are the matrix
[[Sxx, Sxy, Sx], [Sxy, Syy, Sy], [Sx, Sy, f64(N)]] and the vector [Sxz, Syz, Sz] of these sums, and luSolution is
rule R313 written out by index. A solution ends OK with RESULT0 = N and its element i stored little-endian at OUT +
8i (sign and payload of a NaN in it are free values), no other byte changed; SINGULAR writes nothing, and N = 0 is
always SINGULAR. Nothing else changes but the count of free values drawn. (Derived: R81, R310, R311, R313, R314,
R315.) -/
def Obligations.PlaneFitCompletes : Prop :=
  ∀ (s : State) (pts n out : Word), Admitted s.params pts.toNat (24 * n.toNat) → Admitted s.params out.toNat 24 →
    let solution := luSolution (planeMatrix s.mem pts.toNat n.toNat) (planeVector s.mem pts.toNat n.toNat)
    (∀ v, s.mem.wf = true → solution = some v →
      ∃ m, exec (.planefit pts n out) s = .next (okState { s with mem := m, nonce := s.nonce + 3 } 0x41 n 0 0 0) ∧
        (∀ i : Fin 3, bits64In m (out.toNat + 8 * i.val) = (v i).toBits (Config.freeNaN (s.nonce + i.val))) ∧
        (∀ p, (p < out.toNat ∨ out.toNat + 24 ≤ p) → m.read p = s.mem.read p)) ∧
    (solution = none → exec (.planefit pts n out) s = .next (statusState s 0x41 0x06)) ∧
    (n = 0 → exec (.planefit pts n out) s = .next (statusState s 0x41 0x06))

/-- NearestEven neg v r says of r: it is q * 2^f of sign neg with q < 2^53 and f >= -1074, f = -1074 or q >= 2^52,
|q * 2^f - v| at most 2^f / 2 with q even when it is exactly that, and v at most 2^f / 4 below where q = 2^52 and f
> -1074, the values below standing twice as close; or the infinity of that sign when that f is above 971. F64.round
of every sign and exact magnitude n * 2^e is so. f64(x) is exact. For all finite values, subnormals and zeros of
both signs included: the sum and the difference are so of the exact sum and difference, with its sign, and an exact
zero is -0.0 only when both terms added are negative; the product and the quotient by a value that is not zero are
so of the exact ones (the model's cut of a quotient to a sticky bit, log entry 22, loses nothing), with the
exclusive or of the signs; a quotient by zero is the infinity of that sign, or NaN for zero by zero; <. compares the
exact values, ==. 0.0 is true of exactly the zeros. A NaN operand gives NaN, and a comparison with one is false.
Infinities that cancel give NaN, an infinity otherwise absorbs a finite term; zero times an infinity is NaN, any
other factor keeps it; infinity by infinity is NaN, by a finite value infinite, a finite value by infinity a zero,
each of the signs' exclusive or; <. orders the infinities below and above all. |x| clears the sign bit of every
encoding, and ==. 0.0 is true of the encodings of +0.0 and -0.0 alone. (Derived: R9, R310, R313.) -/
def Obligations.RoundingIsNearestEven : Prop :=
  (∀ (neg : Bool) (n : Nat) (e : Int), NearestEven neg (n * 2 ^ e) (F64.round neg n e)) ∧
  (∀ z : Int, ∃ s m, F64.ofInt z = .fin s m 0 ∧ exactValue s m 0 = z) ∧
  (∀ n : Nat, ∃ m, F64.ofNat n = .fin false m 0 ∧ exactValue false m 0 = n) ∧
  (∀ (s t : Bool) (m n : Nat) (e f : Int),
    let x := exactValue s m e
    let y := exactValue t n f
    NearestEven (if x + y = 0 then s && t else decide (x + y < 0)) |x + y| ((F64.fin s m e).add (.fin t n f)) ∧
    NearestEven (if x - y = 0 then s && !t else decide (x - y < 0)) |x - y| ((F64.fin s m e).sub (.fin t n f)) ∧
    NearestEven (s ^^ t) |x * y| ((F64.fin s m e).mul (.fin t n f)) ∧
    (y ≠ 0 → NearestEven (s ^^ t) |x / y| ((F64.fin s m e).div (.fin t n f))) ∧
    (y = 0 → (F64.fin s m e).div (.fin t n f) = if x = 0 then .nan else .inf (s ^^ t)) ∧
    ((F64.fin s m e).lt (.fin t n f) = true ↔ x < y) ∧ ((F64.fin s m e).isZero = true ↔ x = 0)) ∧
  (∀ x : F64, x.add .nan = .nan ∧ F64.nan.add x = .nan ∧ x.sub .nan = .nan ∧ F64.nan.sub x = .nan ∧
    x.mul .nan = .nan ∧ F64.nan.mul x = .nan ∧ x.div .nan = .nan ∧ F64.nan.div x = .nan ∧
    x.lt .nan = false ∧ F64.nan.lt x = false) ∧
  (∀ s t : Bool, (F64.inf s).add (.inf t) = (if s = t then .inf s else .nan) ∧
    (F64.inf s).sub (.inf t) = (if s = t then .nan else .inf s) ∧ (F64.inf s).mul (.inf t) = .inf (s ^^ t) ∧
    (F64.inf s).div (.inf t) = .nan ∧ (F64.inf s).lt (.inf t) = (s && !t)) ∧
  (∀ (s t : Bool) (m : Nat) (e : Int),
    let y := F64.fin t m e
    let i := F64.inf s
    i.add y = i ∧ y.add i = i ∧ i.sub y = i ∧ y.sub i = .inf (!s) ∧
    i.mul y = (if m = 0 then .nan else .inf (s ^^ t)) ∧ y.mul i = (if m = 0 then .nan else .inf (s ^^ t)) ∧
    i.div y = .inf (s ^^ t) ∧ y.div i = .fin (s ^^ t) 0 (-1074) ∧ i.lt y = s ∧ y.lt i = !s) ∧
  (∀ b : Bits64, (F64.ofBits b).abs = F64.ofBits (b &&& 0x7FFFFFFFFFFFFFFF) ∧
    ((F64.ofBits b).isZero = true ↔ b = 0 ∨ b = 0x8000000000000000))

/-- Every encoding that is no NaN, zeros of both signs, subnormals and infinities included, read as a value and
encoded again gives the same bits; a NaN is stored as a quiet NaN with free sign and payload; and eight bytes read
little-endian and stored again are the same bytes. The value of an encoding is IEEE's: an exponent field of all ones
is an infinity or, with a fraction that is not 0, a NaN; any other is sign * 1.fraction * 2^(exponent - 1023), and
with exponent field 0 sign * 0.fraction * 2^-1022. (Derived: R44, R81, R310, R311.) -/
def Obligations.BinaryEncodingRoundTrip : Prop :=
  (∀ b : Bits64,
    let exponent := (b.extractLsb' 52 11).toNat
    let fraction : ℚ := (b.extractLsb' 0 52).toNat / 2 ^ 52
    let sign : ℚ := if b.msb then -1 else 1
    (exponent = 0x7FF → F64.ofBits b = if fraction = 0 then .inf b.msb else .nan) ∧
    (exponent ≠ 0x7FF → ∃ m e, F64.ofBits b = .fin b.msb m e ∧
      exactValue b.msb m e = if exponent = 0 then sign * fraction * 2 ^ (-1022 : Int)
        else sign * (1 + fraction) * 2 ^ ((exponent : Int) - 1023))) ∧
  (∀ (b : Bits64) (free : BitVec 52), F64.ofBits b ≠ .nan → (F64.ofBits b).toBits free = b) ∧
  (∀ (b : Bits64) (free : BitVec 52), F64.ofBits b = .nan → ((F64.ofBits b).toBits free).extractLsb' 51 12 = 0xFFF) ∧
  (∀ bs : List Byte, bs.length = 8 → bits64Bytes (bits64At bs 0) = bs)

/-- For every command that names ranges (a FRAME_CHUNK on an accumulating context): if the first of its ranges, in
its rule's order, whose length is not 0 and whose base + length, computed without wrap-around, exceeds 2^32 is
(base, length), the command faults with cause 6, FAULT_INFO = base, FAULT_VALUE = length modulo 2^32, and memory is
unchanged. If every named range is empty or ends by 2^32, the command does not fault with cause 6. R84 names the
first range that wraps, R341 FAULT_INFO and FAULT_VALUE, R281 and R342 that FRAME_CHUNK checks its context first.
That memory is unchanged after this fault is R346 (which the spec marks derived) against R345, settled by log entry
11 (DEDUCED). (Derived: R84, R281, R341, R342, R346.) -/
def Obligations.AddressWrapFaults : Prop :=
  (∀ (i : Instr) (s : State) (before after : List (Nat × Nat)) (base length : Nat), contextReady s i →
    namedRanges i = before ++ (base, length) :: after → (∀ r ∈ before, InSpace r.1 r.2) → ¬ InSpace base length →
    ∃ t, exec i s = .next t ∧ Faulted t i.opcode 6 (BitVec.ofNat 32 base) (BitVec.ofNat 32 length) ∧
      t.mem = s.mem) ∧
  (∀ (i : Instr) (s t : State), s.fault = false → (∀ r ∈ namedRanges i, InSpace r.1 r.2) → exec i s = .next t →
    t.fault = true → t.faultCause ≠ 6)

/-- accessReached lists, for every command that accesses memory, each access its pseudocode makes, in order, with
what the rule asks before it and every earlier access in ADMITTED: the elements of S2D_CONVERT (read, then write,
equal or disjoint ranges), the copy of S2D_READ_TABLE, the groups of UNPACK12 (read, then write), each input byte of
the Uncomp commands until an output overflow and then their output, all lines of MIRROR, the chunk and the write
buffer of FRAME_CHUNK, the matrix, the right-hand side and the solution of LU_SOLVE3, the points and the solution of
PLANE_FIT. With the range checks passed, if byte j is the first byte outside ADMITTED of such an access, the command
faults with cause 5, FAULT_INFO the byte's address and FAULT_VALUE 0, and bytes outside the command's write ranges
are unchanged. That the bytes of one element are accessed lowest first is log entry 10 (DEDUCED). (Derived: R85,
R92, R96, R162, R164, R209, R226, R254, R281, R312, R314, R341.) -/
def Obligations.BusErrorAtFirstRefusedByte : Prop :=
  ∀ (s : State) (i : Instr) (base n j : Nat), (∀ r ∈ namedRanges i, InSpace r.1 r.2) → contextReady s i →
    accessReached s i base n → j < n → (∀ k, k < j → s.params.admits (base + k) = true) →
    s.params.admits (base + j) = false →
    ∃ t, exec i s = .next t ∧ Faulted t i.opcode 5 (BitVec.ofNat 32 (base + j)) 0 ∧
      ∀ a, inRanges a (writeRanges s i) = false → t.mem.read a = s.mem.read a
end

