-- ==== Sys2Proof/Laws/F64.lean ====
section
/-! SUPPORT. Laws/F64.lean: the order of binary64 values against integers, in integers: what the keep test and the
inner loop of Build compare. -/

namespace Sys2Proof.Machine

/-- A non-negative finite value as the fraction `num / den`. -/
def F64.num : F64 → Nat
  | .fin _ m e => m * 2 ^ e.toNat
  | .inf _ => 0
  | .nan => 0

/-- The denominator of `F64.num`. -/
def F64.den : F64 → Nat
  | .fin _ _ e => 2 ^ (-e).toNat
  | .inf _ => 1
  | .nan => 1

theorem F64.den_pos (d : F64) : 0 < d.den := by
  cases d with
  | fin s m e => exact Nat.two_pow_pos _
  | inf s => exact Nat.one_pos
  | nan => exact Nat.one_pos

theorem F64.truncNat_eq {s : Bool} {m : Nat} {e : Int} :
    (F64.fin s m e).truncNat = (F64.fin s m e).num / (F64.fin s m e).den := by
  simp only [F64.truncNat, F64.num, F64.den]
  split_ifs with h
  · rw [show (-e).toNat = 0 by omega, pow_zero, Nat.div_one]
  · rw [show e.toNat = 0 by omega, pow_zero, Nat.mul_one]

theorem F64.ofNat_lt_fin (i m : Nat) (e : Int) :
    (F64.ofNat i).lt (.fin false m e) = decide (i * (F64.fin false m e).den < (F64.fin false m e).num) := by
  simp only [F64.ofNat, F64.lt, signedShift, F64.den, F64.num, Bool.false_eq_true, if_false]
  rw [show ((0 : Int) - min 0 e).toNat = (-e).toNat by omega, show (e - min 0 e).toNat = e.toNat by omega]
  congr 1
  exact propext Nat.cast_lt

theorem F64.fin_lt_ofNat (h m : Nat) (e : Int) :
    (F64.fin false m e).lt (.ofNat h) = decide ((F64.fin false m e).num < h * (F64.fin false m e).den) := by
  simp only [F64.ofNat, F64.lt, signedShift, F64.den, F64.num, Bool.false_eq_true, if_false]
  rw [show (e - min e 0).toNat = e.toNat by omega, show ((0 : Int) - min e 0).toNat = (-e).toNat by omega]
  congr 1
  exact propext Nat.cast_lt

/-- A value above an integer and below another is a non-negative finite one. -/
theorem F64.fin_of_between {l h : Nat} {d : F64} (h1 : (F64.ofNat l).lt d = true) (h2 : d.lt (.ofNat h) = true) :
    ∃ m e, d = .fin false m e := by
  cases d with
  | nan => simp [F64.ofNat, F64.lt] at h1
  | inf s =>
    simp only [F64.ofNat, F64.lt] at h1 h2
    rw [h2] at h1
    simp at h1
  | fin s m e =>
    cases s with
    | false => exact ⟨m, e, rfl⟩
    | true =>
      exfalso
      simp only [F64.ofNat, F64.lt, signedShift, Bool.false_eq_true, if_false, if_true, decide_eq_true_eq] at h1
      have a1 : (0 : Int) ≤ ((l * 2 ^ ((0 : Int) - min 0 e).toNat : Nat) : Int) := Int.natCast_nonneg _
      have a2 : (0 : Int) ≤ ((m * 2 ^ (e - min 0 e).toNat : Nat) : Int) := Int.natCast_nonneg _
      omega

/-- What the keep test says of a depth: it is a fraction strictly between the cutoffs, its integer part is the
quotient, and an index is below it exactly when the fraction says so. -/
theorem F64.between {l h : Nat} {d : F64} (h1 : (F64.ofNat l).lt d = true) (h2 : d.lt (.ofNat h) = true) :
    d.truncNat = d.num / d.den ∧ l * d.den < d.num ∧ d.num < h * d.den ∧
      ∀ i, (F64.ofNat i).lt d = decide (i * d.den < d.num) := by
  obtain ⟨m, e, rfl⟩ := F64.fin_of_between h1 h2
  rw [F64.ofNat_lt_fin] at h1
  rw [F64.fin_lt_ofNat] at h2
  exact ⟨F64.truncNat_eq, of_decide_eq_true h1, of_decide_eq_true h2, fun i => F64.ofNat_lt_fin i m e⟩

/-- The integer part of a value between two integers. -/
theorem F64.truncNat_lt {l h : Nat} {d : F64} (h1 : (F64.ofNat l).lt d = true) (h2 : d.lt (.ofNat h) = true) :
    d.truncNat < h := by
  obtain ⟨ht, -, hh, -⟩ := F64.between h1 h2
  rw [ht]
  exact Nat.div_lt_of_lt_mul (by rwa [Nat.mul_comm] at hh)

/-- The integer part of a value between two integers is the integer below it and within 1 of it (rule R9). -/
theorem F64.truncNat_bounds {l h : Nat} {d : F64} (h1 : (F64.ofNat l).lt d = true) (h2 : d.lt (.ofNat h) = true) :
    d.lt (.ofNat d.truncNat) = false ∧ d.lt (.ofNat (d.truncNat + 1)) = true := by
  obtain ⟨m, e, rfl⟩ := F64.fin_of_between h1 h2
  rw [F64.fin_lt_ofNat, F64.fin_lt_ofNat, F64.truncNat_eq]
  exact ⟨decide_eq_false (not_lt.2 (Nat.div_mul_le_self _ _)),
    decide_eq_true (by rw [Nat.add_one_mul]; exact Nat.lt_div_mul_add (F64.den_pos _))⟩

/-- Two non-negative finite values compare as their fractions. -/
theorem F64.fin_lt_fin (m n : Nat) (e f : Int) :
    (F64.fin false m e).lt (.fin false n f) =
      decide ((F64.fin false m e).num * (F64.fin false n f).den < (F64.fin false n f).num * (F64.fin false m e).den) := by
  simp only [F64.lt, signedShift, F64.den, F64.num, Bool.false_eq_true, if_false]
  congr 1
  apply propext
  rw [Nat.cast_lt]
  obtain ⟨t, ht1, ht2⟩ : ∃ t : Nat, e.toNat + (-f).toNat = (e - min e f).toNat + t ∧
      f.toNat + (-e).toNat = (f - min e f).toNat + t :=
    ⟨(e.toNat + (-f).toNat) - (e - min e f).toNat, by omega, by omega⟩
  have l1 : m * 2 ^ e.toNat * 2 ^ (-f).toNat = m * 2 ^ (e - min e f).toNat * 2 ^ t := by
    rw [Nat.mul_assoc, ← pow_add, ht1, pow_add, Nat.mul_assoc]
  have l2 : n * 2 ^ f.toNat * 2 ^ (-e).toNat = n * 2 ^ (f - min e f).toNat * 2 ^ t := by
    rw [Nat.mul_assoc, ← pow_add, ht2, pow_add, Nat.mul_assoc]
  rw [l1, l2]
  exact (Nat.mul_lt_mul_right (Nat.two_pow_pos t)).symm

end Sys2Proof.Machine
end

