-- ==== Sys2Proof/Laws/Build.lean ====
section
/-! SUPPORT. Laws/Build.lean: what the build procedure of the tables can do: what the inner loop, one shift index, the
scan and the tail leave in the tables, and when a depth index could pass the table. -/

namespace Sys2Proof.Machine

/-- What the keep test says with the cutoffs of the calibration registers. -/
theorem keptDepth_iff {p : Params} {c : Calib} {d : F64} :
    keptDepth (buildConsts p c) d = true ↔
      (F64.ofNat c.minCutoff.toNat).lt d = true ∧ d.lt (.ofNat c.maxCutoff.toNat) = true := by
  simp [keptDepth, buildConsts]

/-- A kept depth's integer part fits u16, so the entry stored is the integer part. -/
theorem truncHalf_kept {p : Params} {c : Calib} {d : F64} (h : keptDepth (buildConsts p c) d = true) :
    d.truncHalf.toNat = d.truncNat ∧ d.truncNat < c.maxCutoff.toNat := by
  obtain ⟨h1, h2⟩ := keptDepth_iff.1 h
  have h3 := F64.truncNat_lt h1 h2
  have h4 := c.maxCutoff.isLt
  refine ⟨?_, h3⟩
  rw [F64.truncHalf, BitVec.toNat_ofNat]
  exact Nat.mod_eq_of_lt (by omega)

@[simp] theorem length_fillTail (lastIndex n i : Nat) (d2s : List Half) :
    (fillTail lastIndex n i d2s).length = d2s.length := by
  induction n generalizing i d2s with
  | zero => rfl
  | succ n ih => simp [fillTail, ih]

/-- Entry `j` after the tail. -/
theorem fillTail_get (lastIndex n i : Nat) (d2s : List Half) (j : Nat) (hj : j < d2s.length) :
    (fillTail lastIndex n i d2s).getD j 0 =
      if i ≤ j ∧ j < i + n then BitVec.ofNat 16 lastIndex else d2s.getD j 0 := by
  induction n generalizing i d2s with
  | zero => rw [if_neg (by omega)]; rfl
  | succ n ih =>
    rw [fillTail, ih _ _ (by simpa using hj)]
    by_cases h1 : i + 1 ≤ j ∧ j < i + 1 + n
    · rw [if_pos h1, if_pos (by omega)]
    · rw [if_neg h1, List.getD_eq_getElem _ _ (by simpa using hj), List.getElem_set]
      by_cases h2 : i = j
      · rw [if_pos h2, if_pos (by omega)]
      · rw [if_neg h2, if_neg (by omega), List.getD_eq_getElem _ _ hj]

theorem length_fillDepths {depth : F64} {s lastIndex room i : Nat} {d2s d2s' : List Half}
    (h : fillDepths depth s lastIndex room i d2s = .ok d2s') : d2s'.length = d2s.length := by
  induction room generalizing i d2s with
  | zero =>
    unfold fillDepths at h
    split_ifs at h
    cases h
    rfl
  | succ room ih =>
    unfold fillDepths at h
    split_ifs at h
    · rw [ih h, List.length_set]
    · cases h; rfl

/-- The inner loop for a depth given as the fraction `num / den`: it stores at every index from `i` on that is below
the depth, and faults exactly when such an index reaches the end of the table. -/
theorem fillDepths_spec {depth : F64} (hd : ∀ i, (F64.ofNat i).lt depth = decide (i * depth.den < depth.num))
    (s lastIndex room i : Nat) (d2s : List Half) (hroom : room = d2s.length - i) :
    ((i + room) * depth.den < depth.num ∧ ∃ f, fillDepths depth s lastIndex room i d2s = .error f ∧
        f.cause = .depthIndexRange) ∨
    (¬ (i + room) * depth.den < depth.num ∧ ∃ d2s', fillDepths depth s lastIndex room i d2s = .ok d2s' ∧
      ∀ j, j < d2s.length → d2s'.getD j 0 =
        if i ≤ j ∧ j * depth.den < depth.num then BitVec.ofNat 16 lastIndex else d2s.getD j 0) := by
  induction room generalizing i d2s with
  | zero =>
    unfold fillDepths
    rw [hd i, Nat.add_zero]
    by_cases h : i * depth.den < depth.num
    · left
      simp [h]
    · right
      refine ⟨h, d2s, by simp [h], fun j hj => ?_⟩
      rw [if_neg]
      rintro ⟨h1, h2⟩
      exact h (lt_of_le_of_lt (Nat.mul_le_mul_right _ h1) h2)
  | succ room ih =>
    unfold fillDepths
    rw [hd i]
    by_cases h : i * depth.den < depth.num
    · have h' := ih (i + 1) (d2s.set i (BitVec.ofNat 16 lastIndex)) (by rw [List.length_set]; omega)
      rw [List.length_set, show i + 1 + room = i + (room + 1) by omega] at h'
      simp only [h, decide_true, if_true]
      rcases h' with h' | ⟨h1, d2s', h2, h3⟩
      · exact .inl h'
      · refine .inr ⟨h1, d2s', h2, fun j hj => ?_⟩
        rw [h3 j hj]
        by_cases hj1 : i + 1 ≤ j ∧ j * depth.den < depth.num
        · rw [if_pos hj1, if_pos ⟨by omega, hj1.2⟩]
        · rw [if_neg hj1, List.getD_eq_getElem _ _ (by simpa using hj), List.getElem_set]
          by_cases hij : i = j
          · subst hij
            rw [if_pos rfl, if_pos ⟨le_rfl, h⟩]
          · rw [if_neg hij, if_neg (by rintro ⟨a, b⟩; exact hj1 ⟨by omega, b⟩), List.getD_eq_getElem _ _ hj]
    · right
      simp only [h, decide_false, Bool.false_eq_true, if_false]
      have hmono : ∀ j, i ≤ j → ¬ j * depth.den < depth.num := fun j hj hlt =>
        h (lt_of_le_of_lt (Nat.mul_le_mul_right _ hj) hlt)
      refine ⟨hmono _ (by omega), d2s, rfl, fun j hj => ?_⟩
      rw [if_neg]
      rintro ⟨h1, h2⟩
      exact hmono j h1 h2

/-- The tables keep their lengths through the scan. -/
theorem length_buildStep {k : BuildConsts} {nd s : Nat} {b b' : BuildState} (h : buildStep k nd s b = .ok b') :
    b'.s2d.length = b.s2d.length ∧ b'.d2s.length = b.d2s.length := by
  unfold buildStep at h
  simp only at h
  split_ifs at h
  · split at h
    · simp at h
    · rename_i d2s hd
      cases h
      exact ⟨List.length_set, length_fillDepths hd⟩
  · cases h
    exact ⟨rfl, rfl⟩

theorem length_buildScan {k : BuildConsts} {nd n s : Nat} {b b' : BuildState} (h : buildScan k nd n s b = .ok b') :
    b'.s2d.length = b.s2d.length ∧ b'.d2s.length = b.d2s.length := by
  induction n generalizing s b with
  | zero => cases h; exact ⟨rfl, rfl⟩
  | succ n ih =>
    unfold buildScan at h
    split at h
    · simp at h
    · rename_i b1 h1
      have h2 := length_buildStep h1
      have h3 := ih h
      exact ⟨h3.1.trans h2.1, h3.2.trans h2.2⟩

/-- What holds of every state the scan reaches holds at its end. -/
theorem buildScan_ind {k : BuildConsts} {nd : Nat} {P : Nat → BuildState → Prop} {n s : Nat} {b b' : BuildState}
    (h0 : P s b) (hstep : ∀ i c c', s ≤ i → i < s + n → P i c → buildStep k nd i c = .ok c' → P (i + 1) c')
    (h : buildScan k nd n s b = .ok b') : P (s + n) b' := by
  induction n generalizing s b with
  | zero => cases h; exact h0
  | succ n ih =>
    unfold buildScan at h
    split at h
    · simp at h
    · rename_i b1 h1
      have := ih (s := s + 1) (hstep s b b1 le_rfl (by omega) h0 h1)
        (fun i c c' hi hi2 => hstep i c c' (by omega) (by omega)) h
      rwa [show s + 1 + n = s + (n + 1) by omega] at this

/-- A scan whose every step succeeds from the states it reaches succeeds. -/
theorem buildScan_total {k : BuildConsts} {nd : Nat} {P : BuildState → Prop} (n s : Nat) {b : BuildState}
    (h0 : P b) (hstep : ∀ i c, P c → ∃ c', buildStep k nd i c = .ok c' ∧ P c') :
    ∃ b', buildScan k nd n s b = .ok b' ∧ P b' := by
  induction n generalizing s b with
  | zero => exact ⟨b, rfl, h0⟩
  | succ n ih =>
    obtain ⟨b1, h1, hp1⟩ := hstep s b h0
    unfold buildScan
    rw [h1]
    exact ih (s + 1) hp1

/-- A build either succeeds, with tables of the asked sizes, or faults DEPTH_INDEX_RANGE. -/
theorem buildTables_cases (p : Params) (c : Calib) (ns nd : Nat) :
    (∃ t, buildTables p c ns nd = .ok t ∧ t.1.length = ns ∧ t.2.length = nd) ∨
      ∃ f, buildTables p c ns nd = .error f := by
  unfold buildTables
  cases h : buildScan (buildConsts p c) nd (c.maxShift.toNat - 1) 1
      { s2d := List.replicate ns 0, d2s := List.replicate nd 0, lastDepth := 0, lastIndex := 0 } with
  | error f => exact .inr ⟨f, rfl⟩
  | ok b =>
    have hl := length_buildScan h
    exact .inl ⟨_, rfl, by simpa using hl.1, by simpa using hl.2⟩

/-- The only fault of the scan is DEPTH_INDEX_RANGE. -/
theorem fillDepths_error {depth : F64} {s lastIndex room i : Nat} {d2s : List Half} {f : Raise}
    (h : fillDepths depth s lastIndex room i d2s = .error f) : f.cause = .depthIndexRange := by
  induction room generalizing i d2s with
  | zero =>
    unfold fillDepths at h
    split_ifs at h
    simp only [Except.error.injEq] at h
    subst h
    rfl
  | succ room ih =>
    unfold fillDepths at h
    split_ifs at h
    exact ih h

theorem buildScan_error {k : BuildConsts} {nd n s : Nat} {b : BuildState} {f : Raise}
    (h : buildScan k nd n s b = .error f) : f.cause = .depthIndexRange := by
  induction n generalizing s b with
  | zero => simp [buildScan] at h
  | succ n ih =>
    unfold buildScan at h
    split at h
    · rename_i f' h1
      simp only [Except.error.injEq] at h
      subst h
      unfold buildStep at h1
      simp only at h1
      split_ifs at h1
      split at h1
      · rename_i h2
        simp only [Except.error.injEq] at h1
        exact h1 ▸ fillDepths_error h2
      · simp at h1
    · exact ih h

theorem buildTables_error {p : Params} {c : Calib} {ns nd : Nat} {f : Raise}
    (h : buildTables p c ns nd = .error f) : f.cause = .depthIndexRange := by
  unfold buildTables at h
  split at h
  · rename_i g hg
    simp only [Except.error.injEq] at h
    exact h ▸ buildScan_error hg
  · simp at h

end Sys2Proof.Machine
end

