-- ==== Sys2Proof/Laws/Memory.lean ====
section
/-! SUPPORT. Laws/Memory.lean: what data memory reads after each memory operation, and that every operation keeps the
canonical form. -/

namespace Sys2Proof.Machine

/-- An address the bus answers lies in the address space (rules R80, R85). -/
theorem Params.admits_lt {p : Params} {a : Nat} (h : p.admits a = true) : a < 2 ^ 32 := by
  simp only [Params.admits, Bool.and_eq_true, decide_eq_true_eq] at h
  exact h.1

@[simp] theorem Memory.wfFrom_nil (lo : Nat) : Memory.wfFrom lo [] = true := rfl

theorem Memory.wfFrom_cons {lo : Nat} {c : Host.Cell} {m : Memory} :
    Memory.wfFrom lo (c :: m) = true ↔
      lo ≤ c.1 ∧ c.1 < 2 ^ 32 ∧ c.2 ≠ Memory.unlisted ∧ Memory.wfFrom (c.1 + 1) m = true := by
  simp [Memory.wfFrom, and_assoc]

theorem Memory.wfFrom_mono {lo lo' : Nat} {m : Memory} (h : lo' ≤ lo) (hm : Memory.wfFrom lo m = true) :
    Memory.wfFrom lo' m = true := by
  cases m with
  | nil => rfl
  | cons c m => rw [Memory.wfFrom_cons] at hm ⊢; exact ⟨h.trans hm.1, hm.2⟩

/-- Below the lowest listed address nothing is listed. -/
theorem Memory.read_below {lo a : Nat} {m : Memory} (hm : Memory.wfFrom lo m = true) (h : a < lo) :
    Memory.read m a = Memory.unlisted := by
  induction m generalizing lo with
  | nil => rfl
  | cons c m ih =>
    rw [Memory.wfFrom_cons] at hm
    rw [Memory.read, if_neg (by omega)]
    exact ih hm.2.2.2 (by omega)

theorem Memory.wfFrom_insert {lo a : Nat} {b : Byte} {m : Memory} (hm : Memory.wfFrom lo m = true) (h : lo ≤ a)
    (ha : a < 2 ^ 32) (hb : b ≠ Memory.unlisted) : Memory.wfFrom lo (Memory.insert a b m) = true := by
  induction m generalizing lo with
  | nil => exact Memory.wfFrom_cons.2 ⟨h, ha, hb, rfl⟩
  | cons c m ih =>
    rw [Memory.wfFrom_cons] at hm
    unfold Memory.insert
    split
    · exact Memory.wfFrom_cons.2 ⟨h, ha, hb, Memory.wfFrom_cons.2 ⟨by omega, hm.2⟩⟩
    · split
      · exact Memory.wfFrom_cons.2 ⟨h, ha, hb, by simp_all⟩
      · exact Memory.wfFrom_cons.2 ⟨hm.1, hm.2.1, hm.2.2.1, ih hm.2.2.2 (by omega)⟩

theorem Memory.wfFrom_erase {lo a : Nat} {m : Memory} (hm : Memory.wfFrom lo m = true) :
    Memory.wfFrom lo (Memory.erase a m) = true := by
  induction m generalizing lo with
  | nil => rfl
  | cons c m ih =>
    rw [Memory.wfFrom_cons] at hm
    unfold Memory.erase
    split
    · exact Memory.wfFrom_mono (by omega) hm.2.2.2
    · exact Memory.wfFrom_cons.2 ⟨hm.1, hm.2.1, hm.2.2.1, ih hm.2.2.2⟩

theorem Memory.read_insert (a : Nat) (b : Byte) (m : Memory) (x : Nat) :
    Memory.read (Memory.insert a b m) x = if x = a then b else Memory.read m x := by
  induction m with
  | nil => simp [Memory.insert, Memory.read, eq_comm]
  | cons c m ih =>
    unfold Memory.insert
    by_cases h1 : a < c.1
    · rw [if_pos h1]
      by_cases h2 : x = a
      · simp [Memory.read, h2]
      · simp [Memory.read, h2, Ne.symm h2]
    · rw [if_neg h1]
      by_cases h3 : a = c.1
      · rw [if_pos h3]
        by_cases h2 : x = a
        · simp [Memory.read, h2]
        · simp [Memory.read, h2, Ne.symm h2, ← h3]
      · rw [if_neg h3, Memory.read, Memory.read, ih]
        by_cases h2 : c.1 = x
        · rw [if_pos h2, if_pos h2, if_neg (by omega)]
        · rw [if_neg h2, if_neg h2]

theorem Memory.read_erase_other {a x : Nat} (h : x ≠ a) (m : Memory) :
    Memory.read (Memory.erase a m) x = Memory.read m x := by
  induction m with
  | nil => rfl
  | cons c m ih =>
    unfold Memory.erase
    split_ifs with h1
    · simp only [Memory.read]
      rw [if_neg (by omega)]
    · simp only [Memory.read, ih]

theorem Memory.read_erase_same {lo a : Nat} {m : Memory} (hm : Memory.wfFrom lo m = true) :
    Memory.read (Memory.erase a m) a = Memory.unlisted := by
  induction m generalizing lo with
  | nil => rfl
  | cons c m ih =>
    rw [Memory.wfFrom_cons] at hm
    unfold Memory.erase
    split_ifs with h1
    · exact Memory.read_below hm.2.2.2 (by omega)
    · rw [Memory.read, if_neg h1]
      exact ih hm.2.2.2

/-- A write leaves every other address alone, in any list of pairs. -/
theorem Memory.read_write_other {a x : Nat} (h : x ≠ a) (m : Memory) (b : Byte) :
    (Memory.write m a b).read x = m.read x := by
  unfold Memory.write
  split_ifs
  · exact Memory.read_erase_other h m
  · rw [Memory.read_insert, if_neg h]

/-- A read after a write to the same address gives the byte written. -/
theorem Memory.read_write_same {m : Memory} (hm : m.wf = true) (a : Nat) (b : Byte) :
    (Memory.write m a b).read a = b := by
  unfold Memory.write
  split_ifs with h
  · rw [h]; exact Memory.read_erase_same hm
  · rw [Memory.read_insert, if_pos rfl]

theorem Memory.read_write {m : Memory} (hm : m.wf = true) (a : Nat) (b : Byte) (x : Nat) :
    (Memory.write m a b).read x = if x = a then b else m.read x := by
  split_ifs with h
  · rw [h]; exact Memory.read_write_same hm a b
  · exact Memory.read_write_other h m b

/-- A write inside the address space keeps the canonical form. -/
theorem Memory.wf_write {m : Memory} (hm : m.wf = true) {a : Nat} (ha : a < 2 ^ 32) (b : Byte) :
    (Memory.write m a b).wf = true := by
  unfold Memory.write
  split_ifs with h
  · exact Memory.wfFrom_erase hm
  · exact Memory.wfFrom_insert hm (Nat.zero_le a) ha h

/-- Two memories in canonical form that read the same everywhere are the same list. -/
theorem Memory.eq_of_read_from {lo : Nat} {m m' : Memory} (hm : Memory.wfFrom lo m = true)
    (hm' : Memory.wfFrom lo m' = true) (h : ∀ a, m.read a = m'.read a) : m = m' := by
  induction m generalizing lo m' with
  | nil =>
    cases m' with
    | nil => rfl
    | cons c' m' =>
      rw [Memory.wfFrom_cons] at hm'
      have := h c'.1
      simp only [Memory.read, if_true] at this
      exact absurd this.symm hm'.2.2.1
  | cons c m ih =>
    rw [Memory.wfFrom_cons] at hm
    cases m' with
    | nil =>
      have := h c.1
      simp only [Memory.read, if_true] at this
      exact absurd this hm.2.2.1
    | cons c' m' =>
      rw [Memory.wfFrom_cons] at hm'
      have hc : c.1 = c'.1 := by
        rcases Nat.lt_trichotomy c.1 c'.1 with hlt | heq | hgt
        · have h1 := h c.1
          simp only [Memory.read, if_true] at h1
          rw [if_neg (by omega), Memory.read_below hm'.2.2.2 (by omega)] at h1
          exact absurd h1 hm.2.2.1
        · exact heq
        · have h1 := h c'.1
          simp only [Memory.read, if_true] at h1
          rw [if_neg (by omega), Memory.read_below hm.2.2.2 (by omega)] at h1
          exact absurd h1.symm hm'.2.2.1
      have hb : c.2 = c'.2 := by
        have h1 := h c.1
        simpa only [Memory.read, if_true, hc.symm] using h1
      have ht : m = m' := by
        refine ih hm.2.2.2 (by rw [hc]; exact hm'.2.2.2) fun a => ?_
        by_cases hlt : a < c.1 + 1
        · rw [Memory.read_below hm.2.2.2 hlt, Memory.read_below hm'.2.2.2 (by omega)]
        · have h1 := h a
          simp only [Memory.read] at h1
          rwa [if_neg (by omega), if_neg (by omega)] at h1
      rw [ht, Prod.ext hc hb]

/-- Equal memories are equal data. -/
theorem Memory.eq_of_read {m m' : Memory} (hm : m.wf = true) (hm' : m'.wf = true) (h : ∀ a, m.read a = m'.read a) :
    m = m' := Memory.eq_of_read_from hm hm' h

/-- Storing a byte list inside the address space keeps the canonical form. -/
theorem Memory.wf_writeList {m : Memory} (hm : m.wf = true) {a : Nat} {bs : List Byte} (h : a + bs.length ≤ 2 ^ 32) :
    (m.writeList a bs).wf = true := by
  induction bs generalizing m a with
  | nil => exact hm
  | cons b bs ih =>
    simp only [List.length_cons] at h
    exact ih (Memory.wf_write hm (by omega) b) (by omega)

/-- Storing a byte list leaves every address outside it alone. -/
theorem Memory.read_writeList_other {a x : Nat} {bs : List Byte} (h : x < a ∨ a + bs.length ≤ x) (m : Memory) :
    (m.writeList a bs).read x = m.read x := by
  induction bs generalizing m a with
  | nil => rfl
  | cons b bs ih =>
    simp only [List.length_cons] at h
    rw [Memory.writeList, ih (by omega), Memory.read_write_other (by omega)]

/-- Byte `k` of a stored list reads back. -/
theorem Memory.read_writeList {m : Memory} (hm : m.wf = true) {a k : Nat} {bs : List Byte}
    (h : a + bs.length ≤ 2 ^ 32) (hk : k < bs.length) : (m.writeList a bs).read (a + k) = bs[k] := by
  induction bs generalizing m a k with
  | nil => simp at hk
  | cons b bs ih =>
    simp only [List.length_cons] at h hk
    rw [Memory.writeList]
    cases k with
    | zero => rw [Memory.read_writeList_other (by omega), Nat.add_zero, Memory.read_write_same hm]; rfl
    | succ k =>
      have := ih (m := m.write a b) (a := a + 1) (k := k) (Memory.wf_write hm (by omega) b) (by omega) (by omega)
      rw [show a + (k + 1) = a + 1 + k by omega, this]
      rfl

@[simp] theorem Memory.length_readList (m : Memory) (a n : Nat) : (m.readList a n).length = n := by
  induction n generalizing a with
  | zero => rfl
  | succ n ih => simp [Memory.readList, ih]

/-- Byte `k` of a list read from memory. -/
theorem Memory.getElem_readList (m : Memory) (a n k : Nat) (h : k < n) :
    (m.readList a n)[k]'(by simpa using h) = m.read (a + k) := by
  induction n generalizing a k with
  | zero => omega
  | succ n ih =>
    cases k with
    | zero => rfl
    | succ k =>
      simp only [Memory.readList, List.getElem_cons_succ]
      rw [ih (a + 1) k (by omega)]
      congr 1
      omega

/-- What a byte list read from memory holds depends on those addresses only. -/
theorem Memory.readList_congr {m m' : Memory} {a n : Nat} (h : ∀ k, k < n → m.read (a + k) = m'.read (a + k)) :
    m.readList a n = m'.readList a n := by
  induction n generalizing a with
  | zero => rfl
  | succ n ih =>
    simp only [Memory.readList]
    rw [ih (fun k hk => by have := h (k + 1) (by omega); rwa [show a + (k + 1) = a + 1 + k by omega] at this)]
    have := h 0 (by omega)
    rw [Nat.add_zero] at this
    rw [this]

/-- Splitting a read. -/
theorem Memory.readList_add (m : Memory) (a n k : Nat) :
    m.readList a (n + k) = m.readList a n ++ m.readList (a + n) k := by
  induction n generalizing a with
  | zero => simp [Memory.readList]
  | succ n ih =>
    rw [show n + 1 + k = (n + k) + 1 by omega]
    simp only [Memory.readList, List.cons_append, ih]
    rw [show a + 1 + n = a + (n + 1) by omega]

/-- Making a range free keeps the canonical form. -/
theorem Memory.wf_havoc {p : Params} {m : Memory} (hm : m.wf = true) (a n nonce : Nat) :
    (Memory.havoc p m a n nonce).wf = true := by
  induction n generalizing m a nonce with
  | zero => exact hm
  | succ n ih =>
    unfold Memory.havoc
    apply ih
    split_ifs with h
    · exact Memory.wf_write hm (Params.admits_lt h) _
    · exact hm

/-- Making a range free leaves every address outside it alone. -/
theorem Memory.read_havoc_other {p : Params} {a n x : Nat} (h : x < a ∨ a + n ≤ x) (m : Memory) (nonce : Nat) :
    (Memory.havoc p m a n nonce).read x = m.read x := by
  induction n generalizing m a nonce with
  | zero => rfl
  | succ n ih =>
    unfold Memory.havoc
    rw [ih (by omega)]
    split_ifs
    · exact Memory.read_write_other (by omega) m _
    · rfl

/-- The `k`-th byte of a range made free, where the bus answers it, is the `k`-th free value. -/
theorem Memory.read_havoc {p : Params} {m : Memory} (hm : m.wf = true) {a n k : Nat} (nonce : Nat) (hk : k < n)
    (hp : p.admits (a + k) = true) :
    (Memory.havoc p m a n nonce).read (a + k) = Config.freeByte (nonce + k) := by
  induction n generalizing m a k nonce with
  | zero => omega
  | succ n ih =>
    unfold Memory.havoc
    cases k with
    | zero =>
      simp only [Nat.add_zero] at hp ⊢
      rw [Memory.read_havoc_other (by omega), if_pos hp, Memory.read_write_same hm]
    | succ k =>
      rw [show a + (k + 1) = a + 1 + k by omega] at hp ⊢
      rw [ih _ _ (by omega) hp, show nonce + 1 + k = nonce + (k + 1) by omega]
      split_ifs with h
      · exact Memory.wf_write hm (Params.admits_lt h) _
      · exact hm

/-- Making raced bytes free keeps the canonical form. -/
theorem wf_freeAt {m : Memory} (hm : m.wf = true) (nonce : Nat) (as : List Word) : (freeAt m nonce as).wf = true := by
  induction as generalizing m nonce with
  | nil => exact hm
  | cons a as ih => exact ih (Memory.wf_write hm a.isLt _) _

/-- Settling raced bytes keeps the canonical form. -/
theorem wf_settleRace {before m : Memory} (hm : m.wf = true) (writes : List (Nat × Nat)) (nonce : Nat)
    (as : List Word) : (settleRace before writes m nonce as).wf = true := by
  induction as generalizing m nonce with
  | nil => exact hm
  | cons a as ih => exact ih (Memory.wf_write hm a.isLt _) _

end Sys2Proof.Machine
end

