-- ==== Sys2Proof/Laws/State.lean ====
section
/-! SUPPORT. Laws/State.lean: what each named update of the state does to each field, so that no proof unfolds a record
update. -/

namespace Sys2Proof.Machine

/-! ### finish -/

@[simp] theorem finish_params (opc : BitVec 8) (st : Status) (s : State) (r0 r1 r2 r3 : Word) :
    (finish opc st s r0 r1 r2 r3).params = s.params := rfl

@[simp] theorem finish_running (opc : BitVec 8) (st : Status) (s : State) (r0 r1 r2 r3 : Word) :
    (finish opc st s r0 r1 r2 r3).running = none := rfl

@[simp] theorem finish_fault (opc : BitVec 8) (st : Status) (s : State) (r0 r1 r2 r3 : Word) :
    (finish opc st s r0 r1 r2 r3).fault = s.fault := rfl

@[simp] theorem finish_tablesValid (opc : BitVec 8) (st : Status) (s : State) (r0 r1 r2 r3 : Word) :
    (finish opc st s r0 r1 r2 r3).tablesValid = s.tablesValid := rfl

@[simp] theorem finish_lastStatus (opc : BitVec 8) (st : Status) (s : State) (r0 r1 r2 r3 : Word) :
    (finish opc st s r0 r1 r2 r3).lastStatus = statusCode st := rfl

@[simp] theorem finish_lastOpcode (opc : BitVec 8) (st : Status) (s : State) (r0 r1 r2 r3 : Word) :
    (finish opc st s r0 r1 r2 r3).lastOpcode = opc := rfl

@[simp] theorem finish_faultCause (opc : BitVec 8) (st : Status) (s : State) (r0 r1 r2 r3 : Word) :
    (finish opc st s r0 r1 r2 r3).faultCause = s.faultCause := rfl

@[simp] theorem finish_faultInfo (opc : BitVec 8) (st : Status) (s : State) (r0 r1 r2 r3 : Word) :
    (finish opc st s r0 r1 r2 r3).faultInfo = s.faultInfo := rfl

@[simp] theorem finish_faultValue (opc : BitVec 8) (st : Status) (s : State) (r0 r1 r2 r3 : Word) :
    (finish opc st s r0 r1 r2 r3).faultValue = s.faultValue := rfl

@[simp] theorem finish_cfgEpoch (opc : BitVec 8) (st : Status) (s : State) (r0 r1 r2 r3 : Word) :
    (finish opc st s r0 r1 r2 r3).cfgEpoch = s.cfgEpoch := rfl

@[simp] theorem finish_tblNShift (opc : BitVec 8) (st : Status) (s : State) (r0 r1 r2 r3 : Word) :
    (finish opc st s r0 r1 r2 r3).tblNShift = s.tblNShift := rfl

@[simp] theorem finish_tblNDepth (opc : BitVec 8) (st : Status) (s : State) (r0 r1 r2 r3 : Word) :
    (finish opc st s r0 r1 r2 r3).tblNDepth = s.tblNDepth := rfl

@[simp] theorem finish_cmd (opc : BitVec 8) (st : Status) (s : State) (r0 r1 r2 r3 : Word) :
    (finish opc st s r0 r1 r2 r3).cmd = s.cmd := rfl

@[simp] theorem finish_result (opc : BitVec 8) (st : Status) (s : State) (r0 r1 r2 r3 : Word) :
    (finish opc st s r0 r1 r2 r3).result = if st = .ok then #v[r0, r1, r2, r3] else #v[0, 0, 0, 0] := rfl

@[simp] theorem finish_calib (opc : BitVec 8) (st : Status) (s : State) (r0 r1 r2 r3 : Word) :
    (finish opc st s r0 r1 r2 r3).calib = s.calib := rfl

@[simp] theorem finish_s2d (opc : BitVec 8) (st : Status) (s : State) (r0 r1 r2 r3 : Word) :
    (finish opc st s r0 r1 r2 r3).s2d = s.s2d := rfl

@[simp] theorem finish_d2s (opc : BitVec 8) (st : Status) (s : State) (r0 r1 r2 r3 : Word) :
    (finish opc st s r0 r1 r2 r3).d2s = s.d2s := rfl

@[simp] theorem finish_contexts (opc : BitVec 8) (st : Status) (s : State) (r0 r1 r2 r3 : Word) :
    (finish opc st s r0 r1 r2 r3).contexts = s.contexts := rfl

@[simp] theorem finish_mem (opc : BitVec 8) (st : Status) (s : State) (r0 r1 r2 r3 : Word) :
    (finish opc st s r0 r1 r2 r3).mem = s.mem := rfl

@[simp] theorem finish_events (opc : BitVec 8) (st : Status) (s : State) (r0 r1 r2 r3 : Word) :
    (finish opc st s r0 r1 r2 r3).events = s.events := rfl

@[simp] theorem finish_readData (opc : BitVec 8) (st : Status) (s : State) (r0 r1 r2 r3 : Word) :
    (finish opc st s r0 r1 r2 r3).readData = s.readData := rfl

@[simp] theorem finish_raced (opc : BitVec 8) (st : Status) (s : State) (r0 r1 r2 r3 : Word) :
    (finish opc st s r0 r1 r2 r3).raced = s.raced := rfl

@[simp] theorem finish_nonce (opc : BitVec 8) (st : Status) (s : State) (r0 r1 r2 r3 : Word) :
    (finish opc st s r0 r1 r2 r3).nonce = s.nonce := rfl

/-! ### enterFault -/

@[simp] theorem enterFault_params (opc : BitVec 8) (f : Raise) (s : State) :
    (enterFault opc f s).params = s.params := rfl

@[simp] theorem enterFault_running (opc : BitVec 8) (f : Raise) (s : State) :
    (enterFault opc f s).running = none := rfl

@[simp] theorem enterFault_fault (opc : BitVec 8) (f : Raise) (s : State) :
    (enterFault opc f s).fault = true := rfl

@[simp] theorem enterFault_tablesValid (opc : BitVec 8) (f : Raise) (s : State) :
    (enterFault opc f s).tablesValid = s.tablesValid := rfl

@[simp] theorem enterFault_lastStatus (opc : BitVec 8) (f : Raise) (s : State) :
    (enterFault opc f s).lastStatus = faultStatusCode := rfl

@[simp] theorem enterFault_lastOpcode (opc : BitVec 8) (f : Raise) (s : State) :
    (enterFault opc f s).lastOpcode = opc := rfl

@[simp] theorem enterFault_faultCause (opc : BitVec 8) (f : Raise) (s : State) :
    (enterFault opc f s).faultCause = causeCode f.cause := rfl

@[simp] theorem enterFault_faultInfo (opc : BitVec 8) (f : Raise) (s : State) :
    (enterFault opc f s).faultInfo = f.info := rfl

@[simp] theorem enterFault_faultValue (opc : BitVec 8) (f : Raise) (s : State) :
    (enterFault opc f s).faultValue = f.value := rfl

@[simp] theorem enterFault_cfgEpoch (opc : BitVec 8) (f : Raise) (s : State) :
    (enterFault opc f s).cfgEpoch = s.cfgEpoch := rfl

@[simp] theorem enterFault_tblNShift (opc : BitVec 8) (f : Raise) (s : State) :
    (enterFault opc f s).tblNShift = s.tblNShift := rfl

@[simp] theorem enterFault_tblNDepth (opc : BitVec 8) (f : Raise) (s : State) :
    (enterFault opc f s).tblNDepth = s.tblNDepth := rfl

@[simp] theorem enterFault_cmd (opc : BitVec 8) (f : Raise) (s : State) :
    (enterFault opc f s).cmd = s.cmd := rfl

@[simp] theorem enterFault_result (opc : BitVec 8) (f : Raise) (s : State) :
    (enterFault opc f s).result = #v[0, 0, 0, 0] := rfl

@[simp] theorem enterFault_calib (opc : BitVec 8) (f : Raise) (s : State) :
    (enterFault opc f s).calib = s.calib := rfl

@[simp] theorem enterFault_s2d (opc : BitVec 8) (f : Raise) (s : State) :
    (enterFault opc f s).s2d = s.s2d := rfl

@[simp] theorem enterFault_d2s (opc : BitVec 8) (f : Raise) (s : State) :
    (enterFault opc f s).d2s = s.d2s := rfl

@[simp] theorem enterFault_contexts (opc : BitVec 8) (f : Raise) (s : State) :
    (enterFault opc f s).contexts = s.contexts := rfl

@[simp] theorem enterFault_mem (opc : BitVec 8) (f : Raise) (s : State) :
    (enterFault opc f s).mem = s.mem := rfl

@[simp] theorem enterFault_events (opc : BitVec 8) (f : Raise) (s : State) :
    (enterFault opc f s).events = s.events := rfl

@[simp] theorem enterFault_readData (opc : BitVec 8) (f : Raise) (s : State) :
    (enterFault opc f s).readData = s.readData := rfl

@[simp] theorem enterFault_raced (opc : BitVec 8) (f : Raise) (s : State) :
    (enterFault opc f s).raced = s.raced := rfl

@[simp] theorem enterFault_nonce (opc : BitVec 8) (f : Raise) (s : State) :
    (enterFault opc f s).nonce = s.nonce := rfl

/-! ### havocRange -/

@[simp] theorem havocRange_params (s : State) (r : Nat × Nat) :
    (havocRange s r).params = s.params := rfl

@[simp] theorem havocRange_running (s : State) (r : Nat × Nat) :
    (havocRange s r).running = s.running := rfl

@[simp] theorem havocRange_fault (s : State) (r : Nat × Nat) :
    (havocRange s r).fault = s.fault := rfl

@[simp] theorem havocRange_tablesValid (s : State) (r : Nat × Nat) :
    (havocRange s r).tablesValid = s.tablesValid := rfl

@[simp] theorem havocRange_lastStatus (s : State) (r : Nat × Nat) :
    (havocRange s r).lastStatus = s.lastStatus := rfl

@[simp] theorem havocRange_lastOpcode (s : State) (r : Nat × Nat) :
    (havocRange s r).lastOpcode = s.lastOpcode := rfl

@[simp] theorem havocRange_faultCause (s : State) (r : Nat × Nat) :
    (havocRange s r).faultCause = s.faultCause := rfl

@[simp] theorem havocRange_faultInfo (s : State) (r : Nat × Nat) :
    (havocRange s r).faultInfo = s.faultInfo := rfl

@[simp] theorem havocRange_faultValue (s : State) (r : Nat × Nat) :
    (havocRange s r).faultValue = s.faultValue := rfl

@[simp] theorem havocRange_cfgEpoch (s : State) (r : Nat × Nat) :
    (havocRange s r).cfgEpoch = s.cfgEpoch := rfl

@[simp] theorem havocRange_tblNShift (s : State) (r : Nat × Nat) :
    (havocRange s r).tblNShift = s.tblNShift := rfl

@[simp] theorem havocRange_tblNDepth (s : State) (r : Nat × Nat) :
    (havocRange s r).tblNDepth = s.tblNDepth := rfl

@[simp] theorem havocRange_cmd (s : State) (r : Nat × Nat) :
    (havocRange s r).cmd = s.cmd := rfl

@[simp] theorem havocRange_result (s : State) (r : Nat × Nat) :
    (havocRange s r).result = s.result := rfl

@[simp] theorem havocRange_calib (s : State) (r : Nat × Nat) :
    (havocRange s r).calib = s.calib := rfl

@[simp] theorem havocRange_s2d (s : State) (r : Nat × Nat) :
    (havocRange s r).s2d = s.s2d := rfl

@[simp] theorem havocRange_d2s (s : State) (r : Nat × Nat) :
    (havocRange s r).d2s = s.d2s := rfl

@[simp] theorem havocRange_contexts (s : State) (r : Nat × Nat) :
    (havocRange s r).contexts = s.contexts := rfl

@[simp] theorem havocRange_mem (s : State) (r : Nat × Nat) :
    (havocRange s r).mem = Memory.havoc s.params s.mem r.1 r.2 s.nonce := rfl

@[simp] theorem havocRange_events (s : State) (r : Nat × Nat) :
    (havocRange s r).events = s.events := rfl

@[simp] theorem havocRange_readData (s : State) (r : Nat × Nat) :
    (havocRange s r).readData = s.readData := rfl

@[simp] theorem havocRange_raced (s : State) (r : Nat × Nat) :
    (havocRange s r).raced = s.raced := rfl

@[simp] theorem havocRange_nonce (s : State) (r : Nat × Nat) :
    (havocRange s r).nonce = s.nonce + r.2 := rfl

/-! ### setContext -/

@[simp] theorem setContext_params (s : State) (c : BitVec 4) (x : Context) :
    (setContext s c x).params = s.params := rfl

@[simp] theorem setContext_running (s : State) (c : BitVec 4) (x : Context) :
    (setContext s c x).running = s.running := rfl

@[simp] theorem setContext_fault (s : State) (c : BitVec 4) (x : Context) :
    (setContext s c x).fault = s.fault := rfl

@[simp] theorem setContext_tablesValid (s : State) (c : BitVec 4) (x : Context) :
    (setContext s c x).tablesValid = s.tablesValid := rfl

@[simp] theorem setContext_lastStatus (s : State) (c : BitVec 4) (x : Context) :
    (setContext s c x).lastStatus = s.lastStatus := rfl

@[simp] theorem setContext_lastOpcode (s : State) (c : BitVec 4) (x : Context) :
    (setContext s c x).lastOpcode = s.lastOpcode := rfl

@[simp] theorem setContext_faultCause (s : State) (c : BitVec 4) (x : Context) :
    (setContext s c x).faultCause = s.faultCause := rfl

@[simp] theorem setContext_faultInfo (s : State) (c : BitVec 4) (x : Context) :
    (setContext s c x).faultInfo = s.faultInfo := rfl

@[simp] theorem setContext_faultValue (s : State) (c : BitVec 4) (x : Context) :
    (setContext s c x).faultValue = s.faultValue := rfl

@[simp] theorem setContext_cfgEpoch (s : State) (c : BitVec 4) (x : Context) :
    (setContext s c x).cfgEpoch = s.cfgEpoch := rfl

@[simp] theorem setContext_tblNShift (s : State) (c : BitVec 4) (x : Context) :
    (setContext s c x).tblNShift = s.tblNShift := rfl

@[simp] theorem setContext_tblNDepth (s : State) (c : BitVec 4) (x : Context) :
    (setContext s c x).tblNDepth = s.tblNDepth := rfl

@[simp] theorem setContext_cmd (s : State) (c : BitVec 4) (x : Context) :
    (setContext s c x).cmd = s.cmd := rfl

@[simp] theorem setContext_result (s : State) (c : BitVec 4) (x : Context) :
    (setContext s c x).result = s.result := rfl

@[simp] theorem setContext_calib (s : State) (c : BitVec 4) (x : Context) :
    (setContext s c x).calib = s.calib := rfl

@[simp] theorem setContext_s2d (s : State) (c : BitVec 4) (x : Context) :
    (setContext s c x).s2d = s.s2d := rfl

@[simp] theorem setContext_d2s (s : State) (c : BitVec 4) (x : Context) :
    (setContext s c x).d2s = s.d2s := rfl

@[simp] theorem setContext_contexts (s : State) (c : BitVec 4) (x : Context) :
    (setContext s c x).contexts = s.contexts.set c.toNat x c.isLt := rfl

@[simp] theorem setContext_mem (s : State) (c : BitVec 4) (x : Context) :
    (setContext s c x).mem = s.mem := rfl

@[simp] theorem setContext_events (s : State) (c : BitVec 4) (x : Context) :
    (setContext s c x).events = s.events := rfl

@[simp] theorem setContext_readData (s : State) (c : BitVec 4) (x : Context) :
    (setContext s c x).readData = s.readData := rfl

@[simp] theorem setContext_raced (s : State) (c : BitVec 4) (x : Context) :
    (setContext s c x).raced = s.raced := rfl

@[simp] theorem setContext_nonce (s : State) (c : BitVec 4) (x : Context) :
    (setContext s c x).nonce = s.nonce := rfl

/-! ### havocContext -/

@[simp] theorem havocContext_params (s : State) (c : BitVec 4) :
    (havocContext s c).params = s.params := rfl

@[simp] theorem havocContext_running (s : State) (c : BitVec 4) :
    (havocContext s c).running = s.running := rfl

@[simp] theorem havocContext_fault (s : State) (c : BitVec 4) :
    (havocContext s c).fault = s.fault := rfl

@[simp] theorem havocContext_tablesValid (s : State) (c : BitVec 4) :
    (havocContext s c).tablesValid = s.tablesValid := rfl

@[simp] theorem havocContext_lastStatus (s : State) (c : BitVec 4) :
    (havocContext s c).lastStatus = s.lastStatus := rfl

@[simp] theorem havocContext_lastOpcode (s : State) (c : BitVec 4) :
    (havocContext s c).lastOpcode = s.lastOpcode := rfl

@[simp] theorem havocContext_faultCause (s : State) (c : BitVec 4) :
    (havocContext s c).faultCause = s.faultCause := rfl

@[simp] theorem havocContext_faultInfo (s : State) (c : BitVec 4) :
    (havocContext s c).faultInfo = s.faultInfo := rfl

@[simp] theorem havocContext_faultValue (s : State) (c : BitVec 4) :
    (havocContext s c).faultValue = s.faultValue := rfl

@[simp] theorem havocContext_cfgEpoch (s : State) (c : BitVec 4) :
    (havocContext s c).cfgEpoch = s.cfgEpoch := rfl

@[simp] theorem havocContext_tblNShift (s : State) (c : BitVec 4) :
    (havocContext s c).tblNShift = s.tblNShift := rfl

@[simp] theorem havocContext_tblNDepth (s : State) (c : BitVec 4) :
    (havocContext s c).tblNDepth = s.tblNDepth := rfl

@[simp] theorem havocContext_cmd (s : State) (c : BitVec 4) :
    (havocContext s c).cmd = s.cmd := rfl

@[simp] theorem havocContext_result (s : State) (c : BitVec 4) :
    (havocContext s c).result = s.result := rfl

@[simp] theorem havocContext_calib (s : State) (c : BitVec 4) :
    (havocContext s c).calib = s.calib := rfl

@[simp] theorem havocContext_s2d (s : State) (c : BitVec 4) :
    (havocContext s c).s2d = s.s2d := rfl

@[simp] theorem havocContext_d2s (s : State) (c : BitVec 4) :
    (havocContext s c).d2s = s.d2s := rfl

@[simp] theorem havocContext_contexts (s : State) (c : BitVec 4) :
    (havocContext s c).contexts = s.contexts.set c.toNat (freeContext s.params s.nonce) c.isLt := rfl

@[simp] theorem havocContext_mem (s : State) (c : BitVec 4) :
    (havocContext s c).mem = s.mem := rfl

@[simp] theorem havocContext_events (s : State) (c : BitVec 4) :
    (havocContext s c).events = s.events := rfl

@[simp] theorem havocContext_readData (s : State) (c : BitVec 4) :
    (havocContext s c).readData = s.readData := rfl

@[simp] theorem havocContext_raced (s : State) (c : BitVec 4) :
    (havocContext s c).raced = s.raced := rfl

@[simp] theorem havocContext_nonce (s : State) (c : BitVec 4) :
    (havocContext s c).nonce = s.nonce + 9 + s.params.contCap := rfl

/-! ### havocTables -/

@[simp] theorem havocTables_params (s : State) :
    (havocTables s).params = s.params := rfl

@[simp] theorem havocTables_running (s : State) :
    (havocTables s).running = s.running := rfl

@[simp] theorem havocTables_fault (s : State) :
    (havocTables s).fault = s.fault := rfl

@[simp] theorem havocTables_tablesValid (s : State) :
    (havocTables s).tablesValid = Config.freeBit s.nonce := rfl

@[simp] theorem havocTables_lastStatus (s : State) :
    (havocTables s).lastStatus = s.lastStatus := rfl

@[simp] theorem havocTables_lastOpcode (s : State) :
    (havocTables s).lastOpcode = s.lastOpcode := rfl

@[simp] theorem havocTables_faultCause (s : State) :
    (havocTables s).faultCause = s.faultCause := rfl

@[simp] theorem havocTables_faultInfo (s : State) :
    (havocTables s).faultInfo = s.faultInfo := rfl

@[simp] theorem havocTables_faultValue (s : State) :
    (havocTables s).faultValue = s.faultValue := rfl

@[simp] theorem havocTables_cfgEpoch (s : State) :
    (havocTables s).cfgEpoch = s.cfgEpoch := rfl

@[simp] theorem havocTables_tblNShift (s : State) :
    (havocTables s).tblNShift = s.tblNShift := rfl

@[simp] theorem havocTables_tblNDepth (s : State) :
    (havocTables s).tblNDepth = s.tblNDepth := rfl

@[simp] theorem havocTables_cmd (s : State) :
    (havocTables s).cmd = s.cmd := rfl

@[simp] theorem havocTables_result (s : State) :
    (havocTables s).result = s.result := rfl

@[simp] theorem havocTables_calib (s : State) :
    (havocTables s).calib = s.calib := rfl

@[simp] theorem havocTables_s2d (s : State) :
    (havocTables s).s2d = Config.freeTable (s.nonce + 1) := rfl

@[simp] theorem havocTables_d2s (s : State) :
    (havocTables s).d2s = Config.freeTable (s.nonce + 2) := rfl

@[simp] theorem havocTables_contexts (s : State) :
    (havocTables s).contexts = s.contexts := rfl

@[simp] theorem havocTables_mem (s : State) :
    (havocTables s).mem = s.mem := rfl

@[simp] theorem havocTables_events (s : State) :
    (havocTables s).events = s.events := rfl

@[simp] theorem havocTables_readData (s : State) :
    (havocTables s).readData = s.readData := rfl

@[simp] theorem havocTables_raced (s : State) :
    (havocTables s).raced = s.raced := rfl

@[simp] theorem havocTables_nonce (s : State) :
    (havocTables s).nonce = s.nonce + 3 := rfl

/-! ### resetBlock -/

@[simp] theorem resetBlock_params (s : State) :
    (resetBlock s).params = s.params := rfl

@[simp] theorem resetBlock_running (s : State) :
    (resetBlock s).running = none := rfl

@[simp] theorem resetBlock_fault (s : State) :
    (resetBlock s).fault = false := rfl

@[simp] theorem resetBlock_tablesValid (s : State) :
    (resetBlock s).tablesValid = false := rfl

@[simp] theorem resetBlock_lastStatus (s : State) :
    (resetBlock s).lastStatus = 0 := rfl

@[simp] theorem resetBlock_lastOpcode (s : State) :
    (resetBlock s).lastOpcode = 0 := rfl

@[simp] theorem resetBlock_faultCause (s : State) :
    (resetBlock s).faultCause = 0 := rfl

@[simp] theorem resetBlock_faultInfo (s : State) :
    (resetBlock s).faultInfo = 0 := rfl

@[simp] theorem resetBlock_faultValue (s : State) :
    (resetBlock s).faultValue = 0 := rfl

@[simp] theorem resetBlock_cfgEpoch (s : State) :
    (resetBlock s).cfgEpoch = 0 := rfl

@[simp] theorem resetBlock_tblNShift (s : State) :
    (resetBlock s).tblNShift = 0 := rfl

@[simp] theorem resetBlock_tblNDepth (s : State) :
    (resetBlock s).tblNDepth = 0 := rfl

@[simp] theorem resetBlock_cmd (s : State) :
    (resetBlock s).cmd = Vector.replicate 8 0 := rfl

@[simp] theorem resetBlock_result (s : State) :
    (resetBlock s).result = Vector.replicate 4 0 := rfl

@[simp] theorem resetBlock_calib (s : State) :
    (resetBlock s).calib = Calib.reset := rfl

@[simp] theorem resetBlock_s2d (s : State) :
    (resetBlock s).s2d = [] := rfl

@[simp] theorem resetBlock_d2s (s : State) :
    (resetBlock s).d2s = [] := rfl

@[simp] theorem resetBlock_contexts (s : State) :
    (resetBlock s).contexts = Vector.replicate 16 Context.reset := rfl

@[simp] theorem resetBlock_mem (s : State) :
    (resetBlock s).mem = s.mem := rfl

@[simp] theorem resetBlock_events (s : State) :
    (resetBlock s).events = s.events := rfl

@[simp] theorem resetBlock_readData (s : State) :
    (resetBlock s).readData = s.readData := rfl

@[simp] theorem resetBlock_raced (s : State) :
    (resetBlock s).raced = [] := rfl

@[simp] theorem resetBlock_nonce (s : State) :
    (resetBlock s).nonce = s.nonce := rfl

/-! ### enterRace -/

@[simp] theorem enterRace_params (s : State) :
    (enterRace s).params = s.params := rfl

@[simp] theorem enterRace_running (s : State) :
    (enterRace s).running = s.running := rfl

@[simp] theorem enterRace_fault (s : State) :
    (enterRace s).fault = s.fault := rfl

@[simp] theorem enterRace_tablesValid (s : State) :
    (enterRace s).tablesValid = s.tablesValid := rfl

@[simp] theorem enterRace_lastStatus (s : State) :
    (enterRace s).lastStatus = s.lastStatus := rfl

@[simp] theorem enterRace_lastOpcode (s : State) :
    (enterRace s).lastOpcode = s.lastOpcode := rfl

@[simp] theorem enterRace_faultCause (s : State) :
    (enterRace s).faultCause = s.faultCause := rfl

@[simp] theorem enterRace_faultInfo (s : State) :
    (enterRace s).faultInfo = s.faultInfo := rfl

@[simp] theorem enterRace_faultValue (s : State) :
    (enterRace s).faultValue = s.faultValue := rfl

@[simp] theorem enterRace_cfgEpoch (s : State) :
    (enterRace s).cfgEpoch = s.cfgEpoch := rfl

@[simp] theorem enterRace_tblNShift (s : State) :
    (enterRace s).tblNShift = s.tblNShift := rfl

@[simp] theorem enterRace_tblNDepth (s : State) :
    (enterRace s).tblNDepth = s.tblNDepth := rfl

@[simp] theorem enterRace_cmd (s : State) :
    (enterRace s).cmd = s.cmd := rfl

@[simp] theorem enterRace_result (s : State) :
    (enterRace s).result = s.result := rfl

@[simp] theorem enterRace_calib (s : State) :
    (enterRace s).calib = s.calib := rfl

@[simp] theorem enterRace_s2d (s : State) :
    (enterRace s).s2d = s.s2d := rfl

@[simp] theorem enterRace_d2s (s : State) :
    (enterRace s).d2s = s.d2s := rfl

@[simp] theorem enterRace_contexts (s : State) :
    (enterRace s).contexts = s.contexts := rfl

@[simp] theorem enterRace_mem (s : State) :
    (enterRace s).mem = freeAt s.mem s.nonce s.raced := rfl

@[simp] theorem enterRace_events (s : State) :
    (enterRace s).events = s.events := rfl

@[simp] theorem enterRace_readData (s : State) :
    (enterRace s).readData = s.readData := rfl

@[simp] theorem enterRace_raced (s : State) :
    (enterRace s).raced = s.raced := rfl

@[simp] theorem enterRace_nonce (s : State) :
    (enterRace s).nonce = s.nonce + s.raced.length := rfl

/-! ### leaveRace -/

@[simp] theorem leaveRace_params (s : State) (w : List (Nat × Nat)) (t : State) :
    (leaveRace s w t).params = t.params := rfl

@[simp] theorem leaveRace_running (s : State) (w : List (Nat × Nat)) (t : State) :
    (leaveRace s w t).running = t.running := rfl

@[simp] theorem leaveRace_fault (s : State) (w : List (Nat × Nat)) (t : State) :
    (leaveRace s w t).fault = t.fault := rfl

@[simp] theorem leaveRace_tablesValid (s : State) (w : List (Nat × Nat)) (t : State) :
    (leaveRace s w t).tablesValid = t.tablesValid := rfl

@[simp] theorem leaveRace_lastStatus (s : State) (w : List (Nat × Nat)) (t : State) :
    (leaveRace s w t).lastStatus = t.lastStatus := rfl

@[simp] theorem leaveRace_lastOpcode (s : State) (w : List (Nat × Nat)) (t : State) :
    (leaveRace s w t).lastOpcode = t.lastOpcode := rfl

@[simp] theorem leaveRace_faultCause (s : State) (w : List (Nat × Nat)) (t : State) :
    (leaveRace s w t).faultCause = t.faultCause := rfl

@[simp] theorem leaveRace_faultInfo (s : State) (w : List (Nat × Nat)) (t : State) :
    (leaveRace s w t).faultInfo = t.faultInfo := rfl

@[simp] theorem leaveRace_faultValue (s : State) (w : List (Nat × Nat)) (t : State) :
    (leaveRace s w t).faultValue = t.faultValue := rfl

@[simp] theorem leaveRace_cfgEpoch (s : State) (w : List (Nat × Nat)) (t : State) :
    (leaveRace s w t).cfgEpoch = t.cfgEpoch := rfl

@[simp] theorem leaveRace_tblNShift (s : State) (w : List (Nat × Nat)) (t : State) :
    (leaveRace s w t).tblNShift = t.tblNShift := rfl

@[simp] theorem leaveRace_tblNDepth (s : State) (w : List (Nat × Nat)) (t : State) :
    (leaveRace s w t).tblNDepth = t.tblNDepth := rfl

@[simp] theorem leaveRace_cmd (s : State) (w : List (Nat × Nat)) (t : State) :
    (leaveRace s w t).cmd = t.cmd := rfl

@[simp] theorem leaveRace_result (s : State) (w : List (Nat × Nat)) (t : State) :
    (leaveRace s w t).result = t.result := rfl

@[simp] theorem leaveRace_calib (s : State) (w : List (Nat × Nat)) (t : State) :
    (leaveRace s w t).calib = t.calib := rfl

@[simp] theorem leaveRace_s2d (s : State) (w : List (Nat × Nat)) (t : State) :
    (leaveRace s w t).s2d = t.s2d := rfl

@[simp] theorem leaveRace_d2s (s : State) (w : List (Nat × Nat)) (t : State) :
    (leaveRace s w t).d2s = t.d2s := rfl

@[simp] theorem leaveRace_contexts (s : State) (w : List (Nat × Nat)) (t : State) :
    (leaveRace s w t).contexts = t.contexts := rfl

@[simp] theorem leaveRace_mem (s : State) (w : List (Nat × Nat)) (t : State) :
    (leaveRace s w t).mem = settleRace s.mem w t.mem t.nonce s.raced := rfl

@[simp] theorem leaveRace_events (s : State) (w : List (Nat × Nat)) (t : State) :
    (leaveRace s w t).events = t.events := rfl

@[simp] theorem leaveRace_readData (s : State) (w : List (Nat × Nat)) (t : State) :
    (leaveRace s w t).readData = t.readData := rfl

@[simp] theorem leaveRace_raced (s : State) (w : List (Nat × Nat)) (t : State) :
    (leaveRace s w t).raced = [] := rfl

@[simp] theorem leaveRace_nonce (s : State) (w : List (Nat × Nat)) (t : State) :
    (leaveRace s w t).nonce = t.nonce + s.raced.length := rfl

/-! ### returnData -/

@[simp] theorem returnData_params (v : Word) (s : State) :
    (returnData v s).params = s.params := rfl

@[simp] theorem returnData_running (v : Word) (s : State) :
    (returnData v s).running = s.running := rfl

@[simp] theorem returnData_fault (v : Word) (s : State) :
    (returnData v s).fault = s.fault := rfl

@[simp] theorem returnData_tablesValid (v : Word) (s : State) :
    (returnData v s).tablesValid = s.tablesValid := rfl

@[simp] theorem returnData_lastStatus (v : Word) (s : State) :
    (returnData v s).lastStatus = s.lastStatus := rfl

@[simp] theorem returnData_lastOpcode (v : Word) (s : State) :
    (returnData v s).lastOpcode = s.lastOpcode := rfl

@[simp] theorem returnData_faultCause (v : Word) (s : State) :
    (returnData v s).faultCause = s.faultCause := rfl

@[simp] theorem returnData_faultInfo (v : Word) (s : State) :
    (returnData v s).faultInfo = s.faultInfo := rfl

@[simp] theorem returnData_faultValue (v : Word) (s : State) :
    (returnData v s).faultValue = s.faultValue := rfl

@[simp] theorem returnData_cfgEpoch (v : Word) (s : State) :
    (returnData v s).cfgEpoch = s.cfgEpoch := rfl

@[simp] theorem returnData_tblNShift (v : Word) (s : State) :
    (returnData v s).tblNShift = s.tblNShift := rfl

@[simp] theorem returnData_tblNDepth (v : Word) (s : State) :
    (returnData v s).tblNDepth = s.tblNDepth := rfl

@[simp] theorem returnData_cmd (v : Word) (s : State) :
    (returnData v s).cmd = s.cmd := rfl

@[simp] theorem returnData_result (v : Word) (s : State) :
    (returnData v s).result = s.result := rfl

@[simp] theorem returnData_calib (v : Word) (s : State) :
    (returnData v s).calib = s.calib := rfl

@[simp] theorem returnData_s2d (v : Word) (s : State) :
    (returnData v s).s2d = s.s2d := rfl

@[simp] theorem returnData_d2s (v : Word) (s : State) :
    (returnData v s).d2s = s.d2s := rfl

@[simp] theorem returnData_contexts (v : Word) (s : State) :
    (returnData v s).contexts = s.contexts := rfl

@[simp] theorem returnData_mem (v : Word) (s : State) :
    (returnData v s).mem = s.mem := rfl

@[simp] theorem returnData_events (v : Word) (s : State) :
    (returnData v s).events = s.events := rfl

@[simp] theorem returnData_readData (v : Word) (s : State) :
    (returnData v s).readData = v := rfl

@[simp] theorem returnData_raced (v : Word) (s : State) :
    (returnData v s).raced = s.raced := rfl

@[simp] theorem returnData_nonce (v : Word) (s : State) :
    (returnData v s).nonce = s.nonce := rfl

/-! ### returnFree -/

@[simp] theorem returnFree_params (s : State) :
    (returnFree s).params = s.params := rfl

@[simp] theorem returnFree_running (s : State) :
    (returnFree s).running = s.running := rfl

@[simp] theorem returnFree_fault (s : State) :
    (returnFree s).fault = s.fault := rfl

@[simp] theorem returnFree_tablesValid (s : State) :
    (returnFree s).tablesValid = s.tablesValid := rfl

@[simp] theorem returnFree_lastStatus (s : State) :
    (returnFree s).lastStatus = s.lastStatus := rfl

@[simp] theorem returnFree_lastOpcode (s : State) :
    (returnFree s).lastOpcode = s.lastOpcode := rfl

@[simp] theorem returnFree_faultCause (s : State) :
    (returnFree s).faultCause = s.faultCause := rfl

@[simp] theorem returnFree_faultInfo (s : State) :
    (returnFree s).faultInfo = s.faultInfo := rfl

@[simp] theorem returnFree_faultValue (s : State) :
    (returnFree s).faultValue = s.faultValue := rfl

@[simp] theorem returnFree_cfgEpoch (s : State) :
    (returnFree s).cfgEpoch = s.cfgEpoch := rfl

@[simp] theorem returnFree_tblNShift (s : State) :
    (returnFree s).tblNShift = s.tblNShift := rfl

@[simp] theorem returnFree_tblNDepth (s : State) :
    (returnFree s).tblNDepth = s.tblNDepth := rfl

@[simp] theorem returnFree_cmd (s : State) :
    (returnFree s).cmd = s.cmd := rfl

@[simp] theorem returnFree_result (s : State) :
    (returnFree s).result = s.result := rfl

@[simp] theorem returnFree_calib (s : State) :
    (returnFree s).calib = s.calib := rfl

@[simp] theorem returnFree_s2d (s : State) :
    (returnFree s).s2d = s.s2d := rfl

@[simp] theorem returnFree_d2s (s : State) :
    (returnFree s).d2s = s.d2s := rfl

@[simp] theorem returnFree_contexts (s : State) :
    (returnFree s).contexts = s.contexts := rfl

@[simp] theorem returnFree_mem (s : State) :
    (returnFree s).mem = s.mem := rfl

@[simp] theorem returnFree_events (s : State) :
    (returnFree s).events = s.events := rfl

@[simp] theorem returnFree_readData (s : State) :
    (returnFree s).readData = Config.freeWord s.nonce := rfl

@[simp] theorem returnFree_raced (s : State) :
    (returnFree s).raced = s.raced := rfl

@[simp] theorem returnFree_nonce (s : State) :
    (returnFree s).nonce = s.nonce + 1 := rfl

/-! ### hostMemWrite -/

@[simp] theorem hostMemWrite_params (a : Word) (b : Byte) (s : State) :
    (hostMemWrite a b s).params = s.params := rfl

@[simp] theorem hostMemWrite_running (a : Word) (b : Byte) (s : State) :
    (hostMemWrite a b s).running = s.running := rfl

@[simp] theorem hostMemWrite_fault (a : Word) (b : Byte) (s : State) :
    (hostMemWrite a b s).fault = s.fault := rfl

@[simp] theorem hostMemWrite_tablesValid (a : Word) (b : Byte) (s : State) :
    (hostMemWrite a b s).tablesValid = s.tablesValid := rfl

@[simp] theorem hostMemWrite_lastStatus (a : Word) (b : Byte) (s : State) :
    (hostMemWrite a b s).lastStatus = s.lastStatus := rfl

@[simp] theorem hostMemWrite_lastOpcode (a : Word) (b : Byte) (s : State) :
    (hostMemWrite a b s).lastOpcode = s.lastOpcode := rfl

@[simp] theorem hostMemWrite_faultCause (a : Word) (b : Byte) (s : State) :
    (hostMemWrite a b s).faultCause = s.faultCause := rfl

@[simp] theorem hostMemWrite_faultInfo (a : Word) (b : Byte) (s : State) :
    (hostMemWrite a b s).faultInfo = s.faultInfo := rfl

@[simp] theorem hostMemWrite_faultValue (a : Word) (b : Byte) (s : State) :
    (hostMemWrite a b s).faultValue = s.faultValue := rfl

@[simp] theorem hostMemWrite_cfgEpoch (a : Word) (b : Byte) (s : State) :
    (hostMemWrite a b s).cfgEpoch = s.cfgEpoch := rfl

@[simp] theorem hostMemWrite_tblNShift (a : Word) (b : Byte) (s : State) :
    (hostMemWrite a b s).tblNShift = s.tblNShift := rfl

@[simp] theorem hostMemWrite_tblNDepth (a : Word) (b : Byte) (s : State) :
    (hostMemWrite a b s).tblNDepth = s.tblNDepth := rfl

@[simp] theorem hostMemWrite_cmd (a : Word) (b : Byte) (s : State) :
    (hostMemWrite a b s).cmd = s.cmd := rfl

@[simp] theorem hostMemWrite_result (a : Word) (b : Byte) (s : State) :
    (hostMemWrite a b s).result = s.result := rfl

@[simp] theorem hostMemWrite_calib (a : Word) (b : Byte) (s : State) :
    (hostMemWrite a b s).calib = s.calib := rfl

@[simp] theorem hostMemWrite_s2d (a : Word) (b : Byte) (s : State) :
    (hostMemWrite a b s).s2d = s.s2d := rfl

@[simp] theorem hostMemWrite_d2s (a : Word) (b : Byte) (s : State) :
    (hostMemWrite a b s).d2s = s.d2s := rfl

@[simp] theorem hostMemWrite_contexts (a : Word) (b : Byte) (s : State) :
    (hostMemWrite a b s).contexts = s.contexts := rfl

@[simp] theorem hostMemWrite_mem (a : Word) (b : Byte) (s : State) :
    (hostMemWrite a b s).mem = s.mem.write a.toNat b := rfl

@[simp] theorem hostMemWrite_events (a : Word) (b : Byte) (s : State) :
    (hostMemWrite a b s).events = s.events := rfl

@[simp] theorem hostMemWrite_readData (a : Word) (b : Byte) (s : State) :
    (hostMemWrite a b s).readData = s.readData := rfl

@[simp] theorem hostMemWrite_raced (a : Word) (b : Byte) (s : State) :
    (hostMemWrite a b s).raced = if s.busy then a :: s.raced else s.raced := rfl

@[simp] theorem hostMemWrite_nonce (a : Word) (b : Byte) (s : State) :
    (hostMemWrite a b s).nonce = s.nonce := rfl

/-! ### placeCommand -/

@[simp] theorem placeCommand_params (d : Descriptor) (s : State) :
    (placeCommand d s).params = s.params := rfl

@[simp] theorem placeCommand_running (d : Descriptor) (s : State) :
    (placeCommand d s).running = some d := rfl

@[simp] theorem placeCommand_fault (d : Descriptor) (s : State) :
    (placeCommand d s).fault = s.fault := rfl

@[simp] theorem placeCommand_tablesValid (d : Descriptor) (s : State) :
    (placeCommand d s).tablesValid = s.tablesValid := rfl

@[simp] theorem placeCommand_lastStatus (d : Descriptor) (s : State) :
    (placeCommand d s).lastStatus = s.lastStatus := rfl

@[simp] theorem placeCommand_lastOpcode (d : Descriptor) (s : State) :
    (placeCommand d s).lastOpcode = s.lastOpcode := rfl

@[simp] theorem placeCommand_faultCause (d : Descriptor) (s : State) :
    (placeCommand d s).faultCause = s.faultCause := rfl

@[simp] theorem placeCommand_faultInfo (d : Descriptor) (s : State) :
    (placeCommand d s).faultInfo = s.faultInfo := rfl

@[simp] theorem placeCommand_faultValue (d : Descriptor) (s : State) :
    (placeCommand d s).faultValue = s.faultValue := rfl

@[simp] theorem placeCommand_cfgEpoch (d : Descriptor) (s : State) :
    (placeCommand d s).cfgEpoch = s.cfgEpoch := rfl

@[simp] theorem placeCommand_tblNShift (d : Descriptor) (s : State) :
    (placeCommand d s).tblNShift = s.tblNShift := rfl

@[simp] theorem placeCommand_tblNDepth (d : Descriptor) (s : State) :
    (placeCommand d s).tblNDepth = s.tblNDepth := rfl

@[simp] theorem placeCommand_cmd (d : Descriptor) (s : State) :
    (placeCommand d s).cmd = d := rfl

@[simp] theorem placeCommand_result (d : Descriptor) (s : State) :
    (placeCommand d s).result = s.result := rfl

@[simp] theorem placeCommand_calib (d : Descriptor) (s : State) :
    (placeCommand d s).calib = s.calib := rfl

@[simp] theorem placeCommand_s2d (d : Descriptor) (s : State) :
    (placeCommand d s).s2d = s.s2d := rfl

@[simp] theorem placeCommand_d2s (d : Descriptor) (s : State) :
    (placeCommand d s).d2s = s.d2s := rfl

@[simp] theorem placeCommand_contexts (d : Descriptor) (s : State) :
    (placeCommand d s).contexts = s.contexts := rfl

@[simp] theorem placeCommand_mem (d : Descriptor) (s : State) :
    (placeCommand d s).mem = s.mem := rfl

@[simp] theorem placeCommand_events (d : Descriptor) (s : State) :
    (placeCommand d s).events = [] := rfl

@[simp] theorem placeCommand_readData (d : Descriptor) (s : State) :
    (placeCommand d s).readData = s.readData := rfl

@[simp] theorem placeCommand_raced (d : Descriptor) (s : State) :
    (placeCommand d s).raced = [] := rfl

@[simp] theorem placeCommand_nonce (d : Descriptor) (s : State) :
    (placeCommand d s).nonce = s.nonce := rfl

/-! ### havocRanges, raiseFault: by induction on the ranges and by cases on the cause -/

@[simp] theorem havocRanges_params (s : State) (rs : List (Nat × Nat)) : (havocRanges s rs).params = s.params := by
  induction rs generalizing s with
  | nil => rfl
  | cons r rs ih => exact (ih _).trans rfl

@[simp] theorem havocRanges_running (s : State) (rs : List (Nat × Nat)) : (havocRanges s rs).running = s.running := by
  induction rs generalizing s with
  | nil => rfl
  | cons r rs ih => exact (ih _).trans rfl

@[simp] theorem havocRanges_fault (s : State) (rs : List (Nat × Nat)) : (havocRanges s rs).fault = s.fault := by
  induction rs generalizing s with
  | nil => rfl
  | cons r rs ih => exact (ih _).trans rfl

@[simp] theorem havocRanges_tablesValid (s : State) (rs : List (Nat × Nat)) : (havocRanges s rs).tablesValid = s.tablesValid := by
  induction rs generalizing s with
  | nil => rfl
  | cons r rs ih => exact (ih _).trans rfl

@[simp] theorem havocRanges_lastStatus (s : State) (rs : List (Nat × Nat)) : (havocRanges s rs).lastStatus = s.lastStatus := by
  induction rs generalizing s with
  | nil => rfl
  | cons r rs ih => exact (ih _).trans rfl

@[simp] theorem havocRanges_lastOpcode (s : State) (rs : List (Nat × Nat)) : (havocRanges s rs).lastOpcode = s.lastOpcode := by
  induction rs generalizing s with
  | nil => rfl
  | cons r rs ih => exact (ih _).trans rfl

@[simp] theorem havocRanges_faultCause (s : State) (rs : List (Nat × Nat)) : (havocRanges s rs).faultCause = s.faultCause := by
  induction rs generalizing s with
  | nil => rfl
  | cons r rs ih => exact (ih _).trans rfl

@[simp] theorem havocRanges_faultInfo (s : State) (rs : List (Nat × Nat)) : (havocRanges s rs).faultInfo = s.faultInfo := by
  induction rs generalizing s with
  | nil => rfl
  | cons r rs ih => exact (ih _).trans rfl

@[simp] theorem havocRanges_faultValue (s : State) (rs : List (Nat × Nat)) : (havocRanges s rs).faultValue = s.faultValue := by
  induction rs generalizing s with
  | nil => rfl
  | cons r rs ih => exact (ih _).trans rfl

@[simp] theorem havocRanges_cfgEpoch (s : State) (rs : List (Nat × Nat)) : (havocRanges s rs).cfgEpoch = s.cfgEpoch := by
  induction rs generalizing s with
  | nil => rfl
  | cons r rs ih => exact (ih _).trans rfl

@[simp] theorem havocRanges_tblNShift (s : State) (rs : List (Nat × Nat)) : (havocRanges s rs).tblNShift = s.tblNShift := by
  induction rs generalizing s with
  | nil => rfl
  | cons r rs ih => exact (ih _).trans rfl

@[simp] theorem havocRanges_tblNDepth (s : State) (rs : List (Nat × Nat)) : (havocRanges s rs).tblNDepth = s.tblNDepth := by
  induction rs generalizing s with
  | nil => rfl
  | cons r rs ih => exact (ih _).trans rfl

@[simp] theorem havocRanges_cmd (s : State) (rs : List (Nat × Nat)) : (havocRanges s rs).cmd = s.cmd := by
  induction rs generalizing s with
  | nil => rfl
  | cons r rs ih => exact (ih _).trans rfl

@[simp] theorem havocRanges_result (s : State) (rs : List (Nat × Nat)) : (havocRanges s rs).result = s.result := by
  induction rs generalizing s with
  | nil => rfl
  | cons r rs ih => exact (ih _).trans rfl

@[simp] theorem havocRanges_calib (s : State) (rs : List (Nat × Nat)) : (havocRanges s rs).calib = s.calib := by
  induction rs generalizing s with
  | nil => rfl
  | cons r rs ih => exact (ih _).trans rfl

@[simp] theorem havocRanges_s2d (s : State) (rs : List (Nat × Nat)) : (havocRanges s rs).s2d = s.s2d := by
  induction rs generalizing s with
  | nil => rfl
  | cons r rs ih => exact (ih _).trans rfl

@[simp] theorem havocRanges_d2s (s : State) (rs : List (Nat × Nat)) : (havocRanges s rs).d2s = s.d2s := by
  induction rs generalizing s with
  | nil => rfl
  | cons r rs ih => exact (ih _).trans rfl

@[simp] theorem havocRanges_contexts (s : State) (rs : List (Nat × Nat)) : (havocRanges s rs).contexts = s.contexts := by
  induction rs generalizing s with
  | nil => rfl
  | cons r rs ih => exact (ih _).trans rfl

@[simp] theorem havocRanges_events (s : State) (rs : List (Nat × Nat)) : (havocRanges s rs).events = s.events := by
  induction rs generalizing s with
  | nil => rfl
  | cons r rs ih => exact (ih _).trans rfl

@[simp] theorem havocRanges_readData (s : State) (rs : List (Nat × Nat)) : (havocRanges s rs).readData = s.readData := by
  induction rs generalizing s with
  | nil => rfl
  | cons r rs ih => exact (ih _).trans rfl

@[simp] theorem havocRanges_raced (s : State) (rs : List (Nat × Nat)) : (havocRanges s rs).raced = s.raced := by
  induction rs generalizing s with
  | nil => rfl
  | cons r rs ih => exact (ih _).trans rfl

@[simp] theorem raiseFault_params (opc : BitVec 8) (rs : List (Nat × Nat)) (f : Raise) (s : State) :
    (raiseFault opc rs f s).params = s.params := by
  unfold raiseFault
  split <;> simp

@[simp] theorem raiseFault_running (opc : BitVec 8) (rs : List (Nat × Nat)) (f : Raise) (s : State) :
    (raiseFault opc rs f s).running = none := rfl

@[simp] theorem raiseFault_fault (opc : BitVec 8) (rs : List (Nat × Nat)) (f : Raise) (s : State) :
    (raiseFault opc rs f s).fault = true := rfl

@[simp] theorem raiseFault_tablesValid (opc : BitVec 8) (rs : List (Nat × Nat)) (f : Raise) (s : State) :
    (raiseFault opc rs f s).tablesValid = s.tablesValid := by
  unfold raiseFault
  split <;> simp

@[simp] theorem raiseFault_lastStatus (opc : BitVec 8) (rs : List (Nat × Nat)) (f : Raise) (s : State) :
    (raiseFault opc rs f s).lastStatus = faultStatusCode := rfl

@[simp] theorem raiseFault_lastOpcode (opc : BitVec 8) (rs : List (Nat × Nat)) (f : Raise) (s : State) :
    (raiseFault opc rs f s).lastOpcode = opc := rfl

@[simp] theorem raiseFault_faultCause (opc : BitVec 8) (rs : List (Nat × Nat)) (f : Raise) (s : State) :
    (raiseFault opc rs f s).faultCause = causeCode f.cause := rfl

@[simp] theorem raiseFault_faultInfo (opc : BitVec 8) (rs : List (Nat × Nat)) (f : Raise) (s : State) :
    (raiseFault opc rs f s).faultInfo = f.info := rfl

@[simp] theorem raiseFault_faultValue (opc : BitVec 8) (rs : List (Nat × Nat)) (f : Raise) (s : State) :
    (raiseFault opc rs f s).faultValue = f.value := rfl

@[simp] theorem raiseFault_cfgEpoch (opc : BitVec 8) (rs : List (Nat × Nat)) (f : Raise) (s : State) :
    (raiseFault opc rs f s).cfgEpoch = s.cfgEpoch := by
  unfold raiseFault
  split <;> simp

@[simp] theorem raiseFault_tblNShift (opc : BitVec 8) (rs : List (Nat × Nat)) (f : Raise) (s : State) :
    (raiseFault opc rs f s).tblNShift = s.tblNShift := by
  unfold raiseFault
  split <;> simp

@[simp] theorem raiseFault_tblNDepth (opc : BitVec 8) (rs : List (Nat × Nat)) (f : Raise) (s : State) :
    (raiseFault opc rs f s).tblNDepth = s.tblNDepth := by
  unfold raiseFault
  split <;> simp

@[simp] theorem raiseFault_cmd (opc : BitVec 8) (rs : List (Nat × Nat)) (f : Raise) (s : State) :
    (raiseFault opc rs f s).cmd = s.cmd := by
  unfold raiseFault
  split <;> simp

@[simp] theorem raiseFault_result (opc : BitVec 8) (rs : List (Nat × Nat)) (f : Raise) (s : State) :
    (raiseFault opc rs f s).result = #v[0, 0, 0, 0] := rfl

@[simp] theorem raiseFault_calib (opc : BitVec 8) (rs : List (Nat × Nat)) (f : Raise) (s : State) :
    (raiseFault opc rs f s).calib = s.calib := by
  unfold raiseFault
  split <;> simp

@[simp] theorem raiseFault_s2d (opc : BitVec 8) (rs : List (Nat × Nat)) (f : Raise) (s : State) :
    (raiseFault opc rs f s).s2d = s.s2d := by
  unfold raiseFault
  split <;> simp

@[simp] theorem raiseFault_d2s (opc : BitVec 8) (rs : List (Nat × Nat)) (f : Raise) (s : State) :
    (raiseFault opc rs f s).d2s = s.d2s := by
  unfold raiseFault
  split <;> simp

@[simp] theorem raiseFault_contexts (opc : BitVec 8) (rs : List (Nat × Nat)) (f : Raise) (s : State) :
    (raiseFault opc rs f s).contexts = s.contexts := by
  unfold raiseFault
  split <;> simp

@[simp] theorem raiseFault_events (opc : BitVec 8) (rs : List (Nat × Nat)) (f : Raise) (s : State) :
    (raiseFault opc rs f s).events = s.events := by
  unfold raiseFault
  split <;> simp

@[simp] theorem raiseFault_readData (opc : BitVec 8) (rs : List (Nat × Nat)) (f : Raise) (s : State) :
    (raiseFault opc rs f s).readData = s.readData := by
  unfold raiseFault
  split <;> simp

@[simp] theorem raiseFault_raced (opc : BitVec 8) (rs : List (Nat × Nat)) (f : Raise) (s : State) :
    (raiseFault opc rs f s).raced = s.raced := by
  unfold raiseFault
  split <;> simp

/-! ### contexts -/

/-- The context just replaced. -/
@[simp] theorem getContext_setContext_same (s : State) (c : BitVec 4) (x : Context) :
    getContext (setContext s c x) c = x := by
  simp [getContext, setContext]

/-- Any other context. -/
theorem getContext_setContext_other (s : State) {c d : BitVec 4} (h : d ≠ c) (x : Context) :
    getContext (setContext s c x) d = getContext s d := by
  have hcd : c.toNat ≠ d.toNat := fun e => h (BitVec.eq_of_toNat_eq e.symm)
  simp [getContext, setContext, hcd]

end Sys2Proof.Machine
end

