-- ==== Sys2Proof/Laws/Ops.lean ====
section
/-! SUPPORT. Laws/Ops.lean: what each shared operation can do, said once: the range check, checked reads and writes,
the end of a command, and what a fault leaves in memory. -/

namespace Sys2Proof.Machine

/-! ### ADMITTED -/

theorem Admitted.lt {p : Params} {a n : Nat} (h : Admitted p a n) {k : Nat} (hk : k < n) : a + k < 2 ^ 32 :=
  Params.admits_lt (h k hk)

/-- A non-empty admitted range ends inside the address space. -/
theorem Admitted.end_le {p : Params} {a n : Nat} (h : Admitted p a n) (hn : 0 < n) : a + n ≤ 2 ^ 32 := by
  have := h.lt (k := n - 1) (by omega)
  omega

theorem Admitted.inSpace {p : Params} {a n : Nat} (h : Admitted p a n) : InSpace a n := by
  rcases Nat.eq_zero_or_pos n with h0 | h0
  · exact .inl h0
  · exact .inr (h.end_le h0)

theorem Admitted.sub {p : Params} {a n b m : Nat} (h : Admitted p a n) (hb : a ≤ b) (hm : b + m ≤ a + n) :
    Admitted p b m := fun k hk => by
  have := h (b - a + k) (by omega)
  rwa [show a + (b - a + k) = b + k by omega] at this

theorem firstRefused_eq_none {p : Params} {a n : Nat} : firstRefused p a n = none ↔ Admitted p a n := by
  induction n generalizing a with
  | zero => exact ⟨fun _ k hk => absurd hk (Nat.not_lt_zero k), fun _ => rfl⟩
  | succ n ih =>
    unfold firstRefused
    split_ifs with h
    · rw [ih]
      refine ⟨fun hs k hk => ?_, fun hs k hk => ?_⟩
      · cases k with
        | zero => exact h
        | succ k => have := hs k (by omega); rwa [show a + 1 + k = a + (k + 1) by omega] at this
      · have := hs (k + 1) (by omega); rwa [show a + (k + 1) = a + 1 + k by omega] at this
    · exact ⟨fun hs => by simp at hs, fun hs => absurd (hs 0 (by omega)) (by simpa using h)⟩

/-- The first refused address: not answered, with every address before it answered. -/
theorem firstRefused_eq_some {p : Params} {a n b : Nat} : firstRefused p a n = some b ↔
    ∃ j, j < n ∧ b = a + j ∧ p.admits (a + j) = false ∧ ∀ k, k < j → p.admits (a + k) = true := by
  induction n generalizing a with
  | zero => simp [firstRefused]
  | succ n ih =>
    unfold firstRefused
    split_ifs with h
    · rw [ih]
      constructor
      · rintro ⟨j, hj, rfl, hf, ht⟩
        refine ⟨j + 1, by omega, by omega, by rwa [show a + (j + 1) = a + 1 + j by omega], fun k hk => ?_⟩
        cases k with
        | zero => exact h
        | succ k => have := ht k (by omega); rwa [show a + 1 + k = a + (k + 1) by omega] at this
      · rintro ⟨j, hj, rfl, hf, ht⟩
        cases j with
        | zero => rw [Nat.add_zero, h] at hf; simp at hf
        | succ j =>
          refine ⟨j, by omega, by omega, by rwa [show a + 1 + j = a + (j + 1) by omega], fun k hk => ?_⟩
          have := ht (k + 1) (by omega); rwa [show a + (k + 1) = a + 1 + k by omega] at this
    · constructor
      · intro hs
        obtain rfl : a = b := by simpa using hs
        exact ⟨0, by omega, by omega, by simpa using h, fun k hk => absurd hk (Nat.not_lt_zero k)⟩
      · rintro ⟨j, hj, rfl, hf, ht⟩
        cases j with
        | zero => rfl
        | succ j => exact absurd (ht 0 (by omega)) (by simpa using h)

/-! ### checked reads and writes -/

theorem readChecked_eq_ok {p : Params} {m : Memory} {a n : Nat} {bs : List Byte} :
    readChecked p m a n = .ok bs ↔ Admitted p a n ∧ bs = m.readList a n := by
  unfold readChecked
  cases h : firstRefused p a n with
  | none => exact ⟨fun e => ⟨firstRefused_eq_none.1 h, (Except.ok.inj e).symm⟩, fun e => congrArg _ e.2.symm⟩
  | some b =>
    have : ¬ Admitted p a n := fun hn => by rw [firstRefused_eq_none.2 hn] at h; simp at h
    simp [this]

theorem readChecked_of_admitted {p : Params} {a n : Nat} (h : Admitted p a n) (m : Memory) :
    readChecked p m a n = .ok (m.readList a n) := readChecked_eq_ok.2 ⟨h, rfl⟩

theorem readChecked_eq_error {p : Params} {m : Memory} {a n : Nat} {f : Raise}
    (h : readChecked p m a n = .error f) : f.cause = .busError ∧ f.value = 0 := by
  unfold readChecked at h
  split at h
  · simp only [Except.error.injEq] at h; subst h; exact ⟨rfl, rfl⟩
  · simp at h

theorem readChecked_of_refused {p : Params} {a n j : Nat} (hj : j < n) (hf : p.admits (a + j) = false)
    (ht : ∀ k, k < j → p.admits (a + k) = true) (m : Memory) :
    readChecked p m a n = .error (busError (a + j)) := by
  unfold readChecked
  rw [firstRefused_eq_some.2 ⟨j, hj, rfl, hf, ht⟩]

theorem writeChecked_eq_ok {p : Params} {m m' : Memory} {a : Nat} {bs : List Byte} :
    writeChecked p m a bs = .ok m' ↔ Admitted p a bs.length ∧ m' = m.writeList a bs := by
  unfold writeChecked
  cases h : firstRefused p a bs.length with
  | none => exact ⟨fun e => ⟨firstRefused_eq_none.1 h, (Except.ok.inj e).symm⟩, fun e => congrArg _ e.2.symm⟩
  | some b =>
    have : ¬ Admitted p a bs.length := fun hn => by rw [firstRefused_eq_none.2 hn] at h; simp at h
    simp [this]

theorem writeChecked_of_admitted {p : Params} {a : Nat} {bs : List Byte} (h : Admitted p a bs.length) (m : Memory) :
    writeChecked p m a bs = .ok (m.writeList a bs) := writeChecked_eq_ok.2 ⟨h, rfl⟩

theorem writeChecked_eq_error {p : Params} {m : Memory} {a : Nat} {bs : List Byte} {f : Raise}
    (h : writeChecked p m a bs = .error f) : f.cause = .busError ∧ f.value = 0 := by
  unfold writeChecked at h
  split at h
  · simp only [Except.error.injEq] at h; subst h; exact ⟨rfl, rfl⟩
  · simp at h

theorem writeChecked_of_refused {p : Params} {a j : Nat} {bs : List Byte} (hj : j < bs.length)
    (hf : p.admits (a + j) = false) (ht : ∀ k, k < j → p.admits (a + k) = true) (m : Memory) :
    writeChecked p m a bs = .error (busError (a + j)) := by
  unfold writeChecked
  rw [firstRefused_eq_some.2 ⟨j, hj, rfl, hf, ht⟩]

/-- A checked write keeps the canonical form and touches only its own bytes. -/
theorem writeChecked_effect {p : Params} {m m' : Memory} {a : Nat} {bs : List Byte}
    (h : writeChecked p m a bs = .ok m') :
    (m.wf = true → m'.wf = true) ∧ ∀ x, x < a ∨ a + bs.length ≤ x → m'.read x = m.read x := by
  obtain ⟨ha, rfl⟩ := writeChecked_eq_ok.1 h
  refine ⟨fun hm => ?_, fun x hx => Memory.read_writeList_other hx m⟩
  rcases ha.inSpace with h0 | h0
  · rw [List.length_eq_zero_iff.1 h0]; exact hm
  · exact Memory.wf_writeList hm h0

/-! ### the range check -/

theorem checkRanges_eq_ok {rs : List (Nat × Nat)} {u : Unit} :
    checkRanges rs = .ok u ↔ ∀ r ∈ rs, InSpace r.1 r.2 := by
  induction rs with
  | nil => simp [checkRanges]
  | cons r rs ih =>
    unfold checkRanges
    split_ifs with h
    · simp only [List.mem_cons, forall_eq_or_imp, false_iff, not_and]
      intro hr
      rcases hr with hr | hr
      · exact absurd hr h.1
      · omega
    · rw [ih]
      simp only [List.mem_cons, forall_eq_or_imp]
      refine ⟨fun hs => ⟨?_, hs⟩, fun hs => hs.2⟩
      by_cases h0 : r.2 = 0
      · exact .inl h0
      · exact .inr (by have := fun h1 => h ⟨h0, h1⟩; omega)

theorem checkRanges_of_inSpace {rs : List (Nat × Nat)} (h : ∀ r ∈ rs, InSpace r.1 r.2) : checkRanges rs = .ok () :=
  checkRanges_eq_ok.2 h

/-- The first range that passes 2^32 is the one reported. -/
theorem checkRanges_of_wrap {rs qs : List (Nat × Nat)} {base length : Nat} (h : ∀ r ∈ rs, InSpace r.1 r.2)
    (hb : ¬ InSpace base length) :
    checkRanges (rs ++ (base, length) :: qs) =
      .error ⟨.addressWrap, BitVec.ofNat 32 base, BitVec.ofNat 32 length⟩ := by
  induction rs with
  | nil =>
    simp only [InSpace, not_or] at hb
    rw [List.nil_append, checkRanges, if_pos ⟨hb.1, by omega⟩]
  | cons r rs ih =>
    have hr := h r (by simp)
    rw [List.cons_append, checkRanges, if_neg, ih fun q hq => h q (by simp [hq])]
    rintro ⟨h0, h1⟩
    rcases hr with hr | hr
    · exact h0 hr
    · omega

theorem checkRanges_eq_error {rs : List (Nat × Nat)} {f : Raise} (h : checkRanges rs = .error f) :
    f.cause = .addressWrap := by
  induction rs with
  | nil => simp [checkRanges] at h
  | cons r rs ih =>
    unfold checkRanges at h
    split_ifs at h
    · simp only [Except.error.injEq] at h; subst h; rfl
    · exact ih h

/-! ### ranges -/

theorem inRange_eq_false {a : Nat} {r : Nat × Nat} : inRange a r = false ↔ a < r.1 ∨ r.1 + r.2 ≤ a := by
  simp only [inRange, Bool.and_eq_false_iff, decide_eq_false_iff_not]
  omega

theorem inRanges_eq_false {a : Nat} {rs : List (Nat × Nat)} :
    inRanges a rs = false ↔ ∀ r ∈ rs, a < r.1 ∨ r.1 + r.2 ≤ a := by
  simp only [inRanges, List.any_eq_false, Bool.not_eq_true, inRange_eq_false]

@[simp] theorem inRanges_nil (a : Nat) : inRanges a [] = false := rfl

theorem inRanges_singleton {a b n : Nat} : inRanges a [(b, n)] = false ↔ a < b ∨ b + n ≤ a := by
  simp [inRanges_eq_false]

/-- Ranges that share no byte do not overlap, and the other way round. -/
theorem rangesOverlap_eq_false {a n b m : Nat} : rangesOverlap (a, n) (b, m) = false ↔ Apart a n b m := by
  simp only [rangesOverlap, Bool.and_eq_false_iff, decide_eq_false_iff_not]
  omega

/-! ### what a fault leaves -/

/-- Making ranges free keeps the canonical form. -/
theorem wf_havocRanges {s : State} (h : s.mem.wf = true) (rs : List (Nat × Nat)) : (havocRanges s rs).mem.wf = true := by
  induction rs generalizing s with
  | nil => exact h
  | cons r rs ih => exact ih (Memory.wf_havoc h _ _ _)

/-- Making ranges free leaves every address outside them alone. -/
theorem read_havocRanges_other {a : Nat} {rs : List (Nat × Nat)} (h : inRanges a rs = false) (s : State) :
    (havocRanges s rs).mem.read a = s.mem.read a := by
  induction rs generalizing s with
  | nil => rfl
  | cons r rs ih =>
    rw [inRanges_eq_false] at h
    have h1 := ih (inRanges_eq_false.2 fun q hq => h q (by simp [hq])) (havocRange s r)
    exact h1.trans (Memory.read_havoc_other (h r (by simp)) _ _)

theorem wf_raiseFault {s : State} (h : s.mem.wf = true) (opc : BitVec 8) (rs : List (Nat × Nat)) (f : Raise) :
    (raiseFault opc rs f s).mem.wf = true := by
  unfold raiseFault
  rw [enterFault_mem]
  split_ifs
  · exact wf_havocRanges h rs
  · exact h

theorem read_raiseFault_other {a : Nat} {rs : List (Nat × Nat)} (h : inRanges a rs = false) (opc : BitVec 8)
    (f : Raise) (s : State) : (raiseFault opc rs f s).mem.read a = s.mem.read a := by
  unfold raiseFault
  rw [enterFault_mem]
  split_ifs
  · exact read_havocRanges_other h s
  · rfl

/-- A cause met before the first write leaves the state but for the registers of rule R345. -/
theorem raiseFault_of_early {f : Raise} (h : causeLosesMemory f.cause = false) (opc : BitVec 8)
    (rs : List (Nat × Nat)) (s : State) : raiseFault opc rs f s = enterFault opc f s := by
  simp [raiseFault, h]

/-- The registers after any fault. -/
theorem faulted_raiseFault (opc : BitVec 8) (rs : List (Nat × Nat)) (f : Raise) (s : State) :
    Faulted (raiseFault opc rs f s) opc (causeCode f.cause) f.info f.value :=
  ⟨rfl, rfl, rfl, rfl, rfl, rfl, rfl, rfl⟩

theorem causeCode_bounds (c : Cause) : 1 ≤ causeCode c ∧ causeCode c ≤ 6 := by cases c <;> decide

/-! ### the end of a command -/

@[simp] theorem endCommand_ok (opc : BitVec 8) (rs : List (Nat × Nat)) (s t : State) :
    endCommand opc rs s (.ok t) = t := rfl

@[simp] theorem endCommand_error (opc : BitVec 8) (rs : List (Nat × Nat)) (s : State) (f : Raise) :
    endCommand opc rs s (.error f) = raiseFault opc rs f s := rfl

/-- Whatever holds of the body's state and of the state after each fault holds of the command's end. -/
theorem endCommand_ind {P : State → Prop} {opc : BitVec 8} {rs : List (Nat × Nat)} {s : State}
    {body : Except Raise State} (ok : ∀ t, body = .ok t → P t)
    (error : ∀ f, body = .error f → P (raiseFault opc rs f s)) : P (endCommand opc rs s body) := by
  cases body with
  | ok t => exact ok t rfl
  | error f => exact error f rfl

@[simp] theorem finish_ok (opc : BitVec 8) (s : State) (r0 r1 r2 r3 : Word) :
    finish opc .ok s r0 r1 r2 r3 = okState s opc r0 r1 r2 r3 := rfl

theorem finish_status {st : Status} (h : st ≠ .ok) (opc : BitVec 8) (s : State) (r0 r1 r2 r3 : Word) :
    finish opc st s r0 r1 r2 r3 = statusState s opc (statusCode st) := by
  simp [finish, h]

theorem enterFault_eq (opc : BitVec 8) (f : Raise) (s : State) :
    enterFault opc f s = faultState s opc (causeCode f.cause) f.info f.value := rfl

end Sys2Proof.Machine
end

