-- ==== Sys2Proof/Laws/Codec.lean ====
section
/-! SUPPORT. Laws/Codec.lean: what the Uncomp decode procedure keeps at every turn, and that decoding memory is
decoding the bytes read from it. -/

namespace Sys2Proof.Machine

/-- What holds of the decoder state at every turn, with `n` input bytes, capacity `cap` and scanlines of `line`
bytes. -/
structure DecodeInv (n cap line : Nat) (st : DecodeState) : Prop where
  out_length : st.out.length = st.o
  o_le : st.o ≤ cap
  k_le : st.k ≤ 2 * n
  bIn_le : 2 * st.bIn ≤ st.k
  bOut_le : st.bOut ≤ st.o
  bOut_mod : st.bOut % line = 0

theorem DecodeInv.start (n cap line : Nat) : DecodeInv n cap line DecodeState.start where
  out_length := rfl
  o_le := Nat.zero_le _
  k_le := Nat.zero_le _
  bIn_le := Nat.zero_le _
  bOut_le := Nat.zero_le _
  bOut_mod := Nat.zero_mod _

/-- Every unit takes at least one nibble and stays inside the input. -/
theorem decodeUnit_next {nib : Nat → Except Raise (BitVec 4)} {map : List (Fin 3)} {M : Nat} {st : DecodeState}
    (hk : st.k < M) :
    (∀ k, decodeUnit nib map M st = .ok (.filler k) → k = st.k + 1) ∧
    (∀ v k, decodeUnit nib map M st = .ok (.sample v k) → st.k < k ∧ k ≤ M) := by
  unfold decodeUnit
  refine ⟨fun k h => ?_, fun v k h => ?_⟩
  · split at h
    · simp at h
    · split_ifs at h
      · simpa [eq_comm] using h
      · simp at h
      · simp at h
      · split at h
        · simp at h
        · split at h <;> simp at h
  · split at h
    · simp at h
    · split_ifs at h with h1 h2 h3
      · simp at h
      · simp only [Except.ok.injEq, DecodeUnit.sample.injEq] at h; omega
      · simp at h
      · split at h
        · simp at h
        · split at h
          · simp at h
          · simp only [Except.ok.injEq, DecodeUnit.sample.injEq] at h; omega

theorem DecodeInv.acceptSample {n cap line : Nat} {st : DecodeState} (h : DecodeInv n cap line st)
    (map : List (Fin 3)) (v : Byte) {k : Nat} (hk : st.k < k) (hk2 : k ≤ 2 * n) (ho : st.o < cap) :
    DecodeInv n cap line (acceptSample map line v k st) := by
  have h1 := h.out_length
  have h4 := h.bIn_le
  have h5 := h.bOut_le
  unfold Machine.acceptSample
  split_ifs with hl
  · exact ⟨by simp [h1], by simpa using ho, by simp only; omega, by simp only; omega, le_rfl, hl⟩
  · exact ⟨by simp [h1], by simpa using ho, hk2, by simp only; omega, by simp only; omega, h.bOut_mod⟩

/-- The decoder state at the end of the loop keeps what every turn keeps. -/
theorem decodeLoop_inv {nib : Nat → Except Raise (BitVec 4)} {map : List (Fin 3)} {n cap line turns : Nat}
    {st : DecodeState} {e : LoopEnd} (hst : DecodeInv n cap line st)
    (h : decodeLoop nib map (2 * n) cap line turns st = .ok e) :
    ∀ st', e = .consumed st' ∨ e = .truncated st' → DecodeInv n cap line st' := by
  induction turns generalizing st with
  | zero =>
    simp only [decodeLoop, Except.ok.injEq] at h
    rintro st' (rfl | rfl)
    · cases h; exact hst
    · cases h
  | succ turns ih =>
    unfold decodeLoop at h
    by_cases hk : st.k < 2 * n
    · rw [if_pos hk] at h
      have hu := decodeUnit_next (nib := nib) (map := map) hk
      split at h
      · simp at h
      · rename_i k heq
        have hkk := hu.1 k heq
        have h4 := hst.bIn_le
        exact ih (st := { st with k := k })
          ⟨hst.out_length, hst.o_le, by simp only; omega, by simp only; omega, hst.bOut_le, hst.bOut_mod⟩ h
      · simp only [Except.ok.injEq] at h
        rintro st' (rfl | rfl)
        · cases h
        · cases h; exact hst
      · rename_i v k heq
        have hkk := hu.2 v k heq
        split_ifs at h with ho
        · simp only [Except.ok.injEq] at h
          rintro st' (rfl | rfl) <;> cases h
        · exact ih (hst.acceptSample map v hkk.1 hkk.2 (by omega)) h
    · rw [if_neg hk] at h
      simp only [Except.ok.injEq] at h
      rintro st' (rfl | rfl)
      · cases h; exact hst
      · cases h

/-- What a decode that ends OK counts lies within its input and its capacity. -/
theorem decodeStream_bounds {nib : Nat → Except Raise (BitVec 4)} {map : List (Fin 3)} {n cap line : Nat} {last : Bool}
    {rd : Nat} {bytes : List Byte} (h : decodeStream nib map n cap line last = .ok (.done rd bytes)) :
    rd ≤ n ∧ bytes.length ≤ cap ∧ (last = true → rd = n) ∧ (last = false → bytes.length % line = 0) := by
  unfold decodeStream at h
  split at h
  · simp at h
  · rename_i e he
    have hinv := decodeLoop_inv (DecodeInv.start n cap line) he
    simp only [Except.ok.injEq] at h
    cases e with
    | overflow => simp [decodeFinish] at h
    | consumed st =>
      have hs := hinv st (.inl rfl)
      have h1 := hs.out_length
      have h2 := hs.o_le
      have h3 := hs.k_le
      have h4 := hs.bIn_le
      have h5 := hs.bOut_le
      cases last <;> simp only [decodeFinish, Bool.false_eq_true, if_false, if_true, DecodeResult.done.injEq] at h <;>
        obtain ⟨rfl, rfl⟩ := h
      · have hlen : (st.out.reverse.take st.bOut).length = st.bOut := by
          rw [List.length_take, List.length_reverse]; omega
        exact ⟨by omega, by rw [hlen]; omega, by simp, fun _ => by rw [hlen]; exact hs.bOut_mod⟩
      · exact ⟨le_rfl, by rw [List.length_reverse]; omega, fun _ => rfl, by simp⟩
    | truncated st =>
      have hs := hinv st (.inr rfl)
      have h1 := hs.out_length
      have h2 := hs.o_le
      have h3 := hs.k_le
      have h4 := hs.bIn_le
      have h5 := hs.bOut_le
      cases last <;> simp only [decodeFinish, Bool.false_eq_true, if_false, if_true, DecodeResult.done.injEq] at h
      · obtain ⟨rfl, rfl⟩ := h
        have hlen : (st.out.reverse.take st.bOut).length = st.bOut := by
          rw [List.length_take, List.length_reverse]; omega
        exact ⟨by omega, by rw [hlen]; omega, by simp, fun _ => by rw [hlen]; exact hs.bOut_mod⟩
      · cases h

/-- One unit depends on the nibbles below `M` only. -/
theorem decodeUnit_congr {nib nib' : Nat → Except Raise (BitVec 4)} {map : List (Fin 3)} {M : Nat} {st : DecodeState}
    (h : ∀ j, j < M → nib j = nib' j) (hk : st.k < M) : decodeUnit nib map M st = decodeUnit nib' map M st := by
  unfold decodeUnit
  rw [h _ hk]
  split
  · rfl
  · split_ifs with h1 h2 h3
    · rfl
    · rfl
    · rfl
    · rw [h _ (by omega), h _ (by omega)]

/-- The loop depends on the nibbles below `M` only. -/
theorem decodeLoop_congr {nib nib' : Nat → Except Raise (BitVec 4)} {map : List (Fin 3)} {M cap line turns : Nat}
    {st : DecodeState} (h : ∀ j, j < M → nib j = nib' j) :
    decodeLoop nib map M cap line turns st = decodeLoop nib' map M cap line turns st := by
  induction turns generalizing st with
  | zero => rfl
  | succ turns ih =>
    unfold decodeLoop
    by_cases hk : st.k < M
    · rw [if_pos hk, if_pos hk, decodeUnit_congr h hk]
      split
      · rfl
      · exact ih
      · rfl
      · split_ifs
        · rfl
        · exact ih
    · rw [if_neg hk, if_neg hk]

/-- Decoding admitted memory is decoding the bytes read from it. -/
theorem decodeStream_mem {p : Params} {src n : Nat} (h : Admitted p src n) (m : Memory) (map : List (Fin 3))
    (cap line : Nat) (last : Bool) :
    decodeStream (memNibble p m src) map n cap line last =
      decodeStream (bufNibble (m.readList src n)) map n cap line last := by
  unfold decodeStream
  rw [decodeLoop_congr (nib' := bufNibble (m.readList src n))]
  intro j hj
  have h1 : Admitted p (src + j / 2) 1 := h.sub (by omega) (by omega)
  unfold memNibble bufNibble
  rw [readChecked_of_admitted h1]
  have h2 : (m.readList src n).getD (j / 2) 0 = m.read (src + j / 2) := by
    rw [List.getD_eq_getElem _ _ (by simpa using (by omega : j / 2 < n)), Memory.getElem_readList _ _ _ _ (by omega)]
  rw [h2]
  rfl

/-- A unit read from a byte list never faults. -/
theorem decodeUnit_buf (buf : List Byte) (map : List (Fin 3)) (M : Nat) (st : DecodeState) :
    ∃ u, decodeUnit (bufNibble buf) map M st = .ok u := by
  unfold decodeUnit bufNibble
  simp only
  split_ifs <;> exact ⟨_, rfl⟩

/-- The loop over a byte list never faults. -/
theorem decodeLoop_buf (buf : List Byte) (map : List (Fin 3)) (M cap line turns : Nat) (st : DecodeState) :
    ∃ e, decodeLoop (bufNibble buf) map M cap line turns st = .ok e := by
  induction turns generalizing st with
  | zero => exact ⟨_, rfl⟩
  | succ turns ih =>
    unfold decodeLoop
    obtain ⟨u, hu⟩ := decodeUnit_buf buf map M st
    rw [hu]
    by_cases hk : st.k < M
    · rw [if_pos hk]
      cases u with
      | filler k => exact ih _
      | cut => exact ⟨_, rfl⟩
      | sample v k =>
        simp only
        split_ifs
        · exact ⟨_, rfl⟩
        · exact ih _
    · rw [if_neg hk]
      exact ⟨_, rfl⟩

/-- The faults of a decode from memory are bus errors. -/
theorem memNibble_error {p : Params} {m : Memory} {src j : Nat} {f : Raise} (h : memNibble p m src j = .error f) :
    f.cause = .busError := by
  unfold memNibble at h
  split at h
  · rename_i g hr
    simp only [Except.error.injEq] at h
    exact h ▸ (readChecked_eq_error hr).1
  · simp at h

/-- A fault of the loop is a fault of a nibble. -/
theorem decodeLoop_error {nib : Nat → Except Raise (BitVec 4)} {map : List (Fin 3)} {M cap line turns : Nat}
    {st : DecodeState} {f : Raise} (h : decodeLoop nib map M cap line turns st = .error f) : ∃ j, nib j = .error f := by
  induction turns generalizing st with
  | zero => simp [decodeLoop] at h
  | succ turns ih =>
    unfold decodeLoop at h
    by_cases hk : st.k < M
    swap
    · rw [if_neg hk] at h
      simp at h
    rw [if_pos hk] at h
    split at h
    · rename_i g hg
      simp only [Except.error.injEq] at h
      subst h
      unfold decodeUnit at hg
      split at hg
      · rename_i g' hn; simp only [Except.error.injEq] at hg; exact ⟨_, hg ▸ hn⟩
      · split_ifs at hg
        split at hg
        · rename_i g' hn; simp only [Except.error.injEq] at hg; exact ⟨_, hg ▸ hn⟩
        · split at hg
          · rename_i g' hn; simp only [Except.error.injEq] at hg; exact ⟨_, hg ▸ hn⟩
          · simp at hg
    · exact ih h
    · simp at h
    · split_ifs at h
      exact ih h

theorem decodeStream_error {p : Params} {m : Memory} {src : Nat} {map : List (Fin 3)} {n cap line : Nat} {last : Bool}
    {f : Raise} (h : decodeStream (memNibble p m src) map n cap line last = .error f) : f.cause = .busError := by
  unfold decodeStream at h
  split at h
  · rename_i g hg
    simp only [Except.error.injEq] at h
    subst h
    obtain ⟨j, hj⟩ := decodeLoop_error hg
    exact memNibble_error hj
  · simp at h

end Sys2Proof.Machine
end

