-- ==== Sys2Proof/Laws/Loops.lean ====
section
/-! SUPPORT. Laws/Loops.lean: what the loops of the commands can do to memory, said once for each: S2D_CONVERT,
UNPACK12 and MIRROR, and the little-endian numbers they move. -/

namespace Sys2Proof.Machine

/-- A memory operation that keeps the canonical form and touches only `[a, a + n)`. -/
abbrev MemEffect (m m' : Memory) (a n : Nat) : Prop :=
  (m.wf = true → m'.wf = true) ∧ ∀ x, x < a ∨ a + n ≤ x → m'.read x = m.read x

theorem MemEffect.refl (m : Memory) (a n : Nat) : MemEffect m m a n := ⟨id, fun _ _ => rfl⟩

theorem MemEffect.widen {m m' : Memory} {a n b k : Nat} (h : MemEffect m m' a n) (hb : b ≤ a) (hk : a + n ≤ b + k) :
    MemEffect m m' b k := ⟨h.1, fun x hx => h.2 x (by omega)⟩

theorem MemEffect.trans {m m' m'' : Memory} {a n : Nat} (h : MemEffect m m' a n) (h' : MemEffect m' m'' a n) :
    MemEffect m m'' a n := ⟨fun hm => h'.1 (h.1 hm), fun x hx => (h'.2 x hx).trans (h.2 x hx)⟩

theorem MemEffect.writeList {m : Memory} {p : Params} {a : Nat} {bs : List Byte} (h : Admitted p a bs.length) :
    MemEffect m (m.writeList a bs) a bs.length := writeChecked_effect (writeChecked_of_admitted h m)

/-! ### little-endian numbers -/

@[simp] theorem leNat_nil : leNat [] = 0 := rfl

@[simp] theorem leNat_cons (b : Byte) (bs : List Byte) : leNat (b :: bs) = b.toNat + 256 * leNat bs := rfl

theorem readList_two (m : Memory) (a : Nat) : m.readList a 2 = [m.read a, m.read (a + 1)] := rfl

theorem leNat_readList_two (m : Memory) (a : Nat) : leNat (m.readList a 2) = halfAt m a := rfl

@[simp] theorem length_halfBytes (h : Half) : (halfBytes h).length = 2 := rfl

/-- The two bytes of a u16 give it back. -/
theorem leNat_halfBytes (h : Half) : leNat (halfBytes h) = h.toNat := by
  have := h.isLt
  simp only [halfBytes, leNat_cons, leNat_nil, BitVec.extractLsb'_toNat, Nat.shiftRight_eq_div_pow]
  omega

@[simp] theorem length_freeBytes (nonce n : Nat) : (freeBytes nonce n).length = n := by
  induction n generalizing nonce with
  | zero => rfl
  | succ n ih => simp [freeBytes, ih]

/-- A u16 just stored reads back. -/
theorem halfAt_writeList {m : Memory} (hm : m.wf = true) {a : Nat} (ha : a + 2 ≤ 2 ^ 32) (h : Half) :
    halfAt (m.writeList a (halfBytes h)) a = h.toNat := by
  have h0 := Memory.read_writeList hm (a := a) (k := 0) (bs := halfBytes h) (by simpa using ha) (by simp)
  have h1 := Memory.read_writeList hm (a := a) (k := 1) (bs := halfBytes h) (by simpa using ha) (by simp)
  rw [Nat.add_zero] at h0
  rw [halfAt, h0, h1, ← leNat_halfBytes h]
  simp [halfBytes]

/-- A u16 outside the bytes an operation touches reads as before. -/
theorem MemEffect.halfAt {m m' : Memory} {a n x : Nat} (h : MemEffect m m' a n) (hx : x + 2 ≤ a ∨ a + n ≤ x) :
    halfAt m' x = halfAt m x := by
  rw [Machine.halfAt, Machine.halfAt, h.2 x (by omega), h.2 (x + 1) (by omega)]

/-! ### S2D_CONVERT -/

@[simp] theorem length_convertOut (scramble : Option Nat) (i : Nat) (depth : Half) :
    (convertOut scramble i depth).length = 2 := by cases scramble <;> simp [convertOut]

/-- The convert loop touches only its destination, and faults only for a byte the bus refuses or a shift past the
table. -/
theorem convertLoop_effect {p : Params} {s2d : List Half} {ns : Nat} {scramble : Option Nat} {n i src dst : Nat}
    {m m' : Memory} (h : convertLoop p s2d ns scramble n i src dst m = .ok m') : MemEffect m m' dst (2 * n) := by
  induction n generalizing i src dst m with
  | zero => simp only [convertLoop, Except.ok.injEq] at h; subst h; exact .refl m _ _
  | succ n ih =>
    unfold convertLoop at h
    split at h
    · simp at h
    · split_ifs at h
      split at h
      · simp at h
      · rename_i m1 hw
        have h1 := writeChecked_effect hw
        rw [length_convertOut] at h1
        exact (MemEffect.widen h1 le_rfl (by omega)).trans ((ih h).widen (by omega) (by omega))

theorem convertLoop_error {p : Params} {s2d : List Half} {ns : Nat} {scramble : Option Nat} {n i src dst : Nat}
    {m : Memory} {f : Raise} (h : convertLoop p s2d ns scramble n i src dst m = .error f) :
    f.cause = .busError ∨ f.cause = .shiftIndexRange := by
  induction n generalizing i src dst m with
  | zero => simp [convertLoop] at h
  | succ n ih =>
    unfold convertLoop at h
    split at h
    · rename_i g hr
      simp only [Except.error.injEq] at h
      exact .inl (h ▸ (readChecked_eq_error hr).1)
    · split_ifs at h
      · simp only [Except.error.injEq] at h; subst h; exact .inr rfl
      · split at h
        · rename_i g hw
          simp only [Except.error.injEq] at h
          exact .inl (h ▸ (writeChecked_eq_error hw).1)
        · exact ih h

/-- The convert loop when nothing overlaps out of place: every element becomes its table entry. -/
theorem convertLoop_value {p : Params} {s2d : List Half} {ns n i src dst : Nat} {m : Memory} (hm : m.wf = true)
    (hs : Admitted p src (2 * n)) (hd : Admitted p dst (2 * n)) (ho : src = dst ∨ Apart src (2 * n) dst (2 * n))
    (hv : ∀ k, k < n → halfAt m (src + 2 * k) < ns) :
    ∃ m', convertLoop p s2d ns none n i src dst m = .ok m' ∧
      ∀ k, k < n → halfAt m' (dst + 2 * k) = (s2d.getD (halfAt m (src + 2 * k)) 0).toNat := by
  induction n generalizing i src dst m with
  | zero => exact ⟨m, rfl, fun k hk => absurd hk (Nat.not_lt_zero k)⟩
  | succ n ih =>
    have hd2 : Admitted p dst 2 := hd.sub le_rfl (by omega)
    have hend : dst + 2 ≤ 2 ^ 32 := hd2.end_le (by omega)
    have hw : Admitted p dst (halfBytes (s2d.getD (halfAt m src) 0)).length := hd2
    have h0 : halfAt m src < ns := hv 0 (by omega)
    have heff := MemEffect.writeList (m := m) hw
    rw [length_halfBytes] at heff
    have hnext : ∀ k, k < n → halfAt (m.writeList dst (halfBytes (s2d.getD (halfAt m src) 0))) (src + 2 + 2 * k) =
        halfAt m (src + 2 + 2 * k) := fun k hk => heff.halfAt (by rcases ho with rfl | ho <;> omega)
    obtain ⟨m', hm', hval⟩ := ih (i := i + 1) (src := src + 2) (dst := dst + 2)
      (m := m.writeList dst (halfBytes (s2d.getD (halfAt m src) 0))) (heff.1 hm)
      (hs.sub (by omega) (by omega)) (hd.sub (by omega) (by omega))
      (by rcases ho with rfl | ho
          · exact .inl rfl
          · exact .inr (by omega))
      (fun k hk => by
        rw [hnext k hk]
        have := hv (k + 1) (by omega)
        rwa [show src + 2 * (k + 1) = src + 2 + 2 * k by omega] at this)
    refine ⟨m', ?_, fun k hk => ?_⟩
    · unfold convertLoop
      rw [readChecked_of_admitted (hs.sub le_rfl (by omega))]
      have hle : ¬ ns ≤ leNat (m.readList src 2) := Nat.not_le.2 h0
      simp only [if_neg hle, convertOut]
      rw [leNat_readList_two, writeChecked_of_admitted hw]
      exact hm'
    · cases k with
      | zero =>
        rw [(convertLoop_effect hm').halfAt (by omega)]
        exact halfAt_writeList hm hend _
      | succ k =>
        have := hval k (by omega)
        rw [hnext k (by omega)] at this
        rwa [show dst + 2 * (k + 1) = dst + 2 + 2 * k by omega, show src + 2 * (k + 1) = src + 2 + 2 * k by omega]

/-! ### UNPACK12 -/

@[simp] theorem length_groupOut (out : BitVec 12 → Half) (b0 b1 b2 : Byte) : (groupOut out b0 b1 b2).length = 4 := rfl

@[simp] theorem unpackBytes_group (out : BitVec 12 → Half) (b0 b1 b2 : Byte) :
    unpackBytes out [b0, b1, b2] = groupOut out b0 b1 b2 := by simp [unpackBytes]

/-- The unpacker's bytes are four for each whole group. -/
theorem length_unpackBytes (out : BitVec 12 → Half) (n : Nat) (bs : List Byte) (h : bs.length = 3 * n) :
    (unpackBytes out bs).length = 4 * n := by
  induction n generalizing bs with
  | zero => obtain rfl := List.length_eq_zero_iff.1 (show bs.length = 0 by omega); rfl
  | succ n ih =>
    match bs, h with
    | b0 :: b1 :: b2 :: bs, h =>
      simp only [unpackBytes, List.length_append, length_groupOut, ih bs (by simp at h; omega)]
      omega

/-- Group `g` of the unpacker's bytes. -/
theorem unpackBytes_get (out : BitVec 12 → Half) (n : Nat) (bs : List Byte) (h : bs.length = 3 * n) (g k : Nat)
    (hg : g < n) (hk : k < 4) :
    (unpackBytes out bs).getD (4 * g + k) 0 =
      (groupOut out (bs.getD (3 * g) 0) (bs.getD (3 * g + 1) 0) (bs.getD (3 * g + 2) 0)).getD k 0 := by
  induction n generalizing bs g with
  | zero => omega
  | succ n ih =>
    match bs, h with
    | b0 :: b1 :: b2 :: bs, h =>
      simp only [unpackBytes]
      cases g with
      | zero =>
        rw [List.getD_append _ _ _ _ (by simp; omega)]
        simp
      | succ g =>
        rw [List.getD_append_right _ _ _ _ (by simp; omega), length_groupOut,
          show 4 * (g + 1) + k - 4 = 4 * g + k by omega, ih bs (by simp at h; omega) g (by omega)]
        rfl

theorem readList_three (m : Memory) (a : Nat) : m.readList a 3 = [m.read a, m.read (a + 1), m.read (a + 2)] := rfl

/-- The unpack loop touches only its destination. -/
theorem unpackLoop_effect {p : Params} {out : BitVec 12 → Half} {n src dst : Nat} {m m' : Memory}
    (h : unpackLoop p out n src dst m = .ok m') : MemEffect m m' dst (4 * n) := by
  induction n generalizing src dst m with
  | zero => simp only [unpackLoop, Except.ok.injEq] at h; subst h; exact .refl m _ _
  | succ n ih =>
    unfold unpackLoop at h
    split at h
    · simp at h
    · rename_i bs hr
      obtain ⟨-, rfl⟩ := readChecked_eq_ok.1 hr
      split at h
      · simp at h
      · rename_i m1 hw
        have h1 := writeChecked_effect hw
        rw [readList_three, unpackBytes_group, length_groupOut] at h1
        exact (MemEffect.widen h1 le_rfl (by omega)).trans ((ih h).widen (by omega) (by omega))

theorem unpackLoop_error {p : Params} {out : BitVec 12 → Half} {n src dst : Nat} {m : Memory} {f : Raise}
    (h : unpackLoop p out n src dst m = .error f) : f.cause = .busError := by
  induction n generalizing src dst m with
  | zero => simp [unpackLoop] at h
  | succ n ih =>
    unfold unpackLoop at h
    split at h
    · rename_i g hr
      simp only [Except.error.injEq] at h
      exact h ▸ (readChecked_eq_error hr).1
    · split at h
      · rename_i g hw
        simp only [Except.error.injEq] at h
        exact h ▸ (writeChecked_eq_error hw).1
      · exact ih h

/-- The unpack loop between ranges that share no byte: each group's four bytes stand at its place. -/
theorem unpackLoop_value {p : Params} {out : BitVec 12 → Half} {n src dst : Nat} {m : Memory} (hm : m.wf = true)
    (hs : Admitted p src (3 * n)) (hd : Admitted p dst (4 * n)) (ho : Apart src (3 * n) dst (4 * n)) :
    ∃ m', unpackLoop p out n src dst m = .ok m' ∧
      ∀ g k, g < n → k < 4 → m'.read (dst + 4 * g + k) =
        (groupOut out (m.read (src + 3 * g)) (m.read (src + 3 * g + 1)) (m.read (src + 3 * g + 2))).getD k 0 := by
  induction n generalizing src dst m with
  | zero => exact ⟨m, rfl, fun g k hg => absurd hg (Nat.not_lt_zero g)⟩
  | succ n ih =>
    have hd4 : Admitted p dst 4 := hd.sub le_rfl (by omega)
    have hend : dst + 4 ≤ 2 ^ 32 := hd4.end_le (by omega)
    have hw : Admitted p dst (groupOut out (m.read src) (m.read (src + 1)) (m.read (src + 2))).length := hd4
    have heff := MemEffect.writeList (m := m) hw
    rw [length_groupOut] at heff
    obtain ⟨m', hm', hval⟩ := ih (src := src + 3) (dst := dst + 4)
      (m := m.writeList dst (groupOut out (m.read src) (m.read (src + 1)) (m.read (src + 2)))) (heff.1 hm)
      (hs.sub (by omega) (by omega)) (hd.sub (by omega) (by omega)) (by omega)
    refine ⟨m', ?_, fun g k hg hk => ?_⟩
    · unfold unpackLoop
      rw [readChecked_of_admitted (hs.sub le_rfl (by omega))]
      simp only [readList_three, unpackBytes_group]
      rw [writeChecked_of_admitted hw]
      exact hm'
    · cases g with
      | zero =>
        rw [Nat.mul_zero, Nat.add_zero, (unpackLoop_effect hm').2 _ (by omega),
          Memory.read_writeList hm (by simpa using hend) (by simpa using hk), ← List.getD_eq_getElem _ 0]
        rfl
      | succ g =>
        have := hval g k (by omega) hk
        rw [heff.2 _ (by omega), heff.2 _ (by omega), heff.2 _ (by omega)] at this
        rwa [show dst + 4 * (g + 1) + k = dst + 4 + 4 * g + k by omega,
          show src + 3 * (g + 1) = src + 3 + 3 * g by omega]

/-! ### MIRROR -/

@[simp] theorem length_mirrorLine (layout : Layout) (width : Nat) (line : List Byte) :
    (mirrorLine layout width line).length = line.length := by simp [mirrorLine]

/-- Byte `j` of a mirrored line. -/
theorem mirrorLine_get (layout : Layout) (width : Nat) (line : List Byte) (j : Nat) (h : j < line.length) :
    (mirrorLine layout width line)[j]'(by simpa using h) = line.getD (mirrorSource layout width j) 0 := by
  simp [mirrorLine]

/-- The mirror loop touches only its buffer. -/
theorem mirrorLoop_effect {p : Params} {layout : Layout} {width lineBytes n base : Nat} {m m' : Memory}
    (h : mirrorLoop p layout width lineBytes n base m = .ok m') : MemEffect m m' base (n * lineBytes) := by
  induction n generalizing base m with
  | zero => simp only [mirrorLoop, Except.ok.injEq] at h; subst h; exact .refl m _ _
  | succ n ih =>
    unfold mirrorLoop at h
    split at h
    · simp at h
    · rename_i bs hr
      obtain ⟨-, rfl⟩ := readChecked_eq_ok.1 hr
      split at h
      · simp at h
      · rename_i m1 hw
        have h1 := writeChecked_effect hw
        rw [length_mirrorLine, Memory.length_readList] at h1
        rw [Nat.succ_mul]
        exact (MemEffect.widen h1 le_rfl (by omega)).trans ((ih h).widen (by omega) (by omega))

theorem mirrorLoop_error {p : Params} {layout : Layout} {width lineBytes n base : Nat} {m : Memory} {f : Raise}
    (h : mirrorLoop p layout width lineBytes n base m = .error f) : f.cause = .busError := by
  induction n generalizing base m with
  | zero => simp [mirrorLoop] at h
  | succ n ih =>
    unfold mirrorLoop at h
    split at h
    · rename_i g hr
      simp only [Except.error.injEq] at h
      exact h ▸ (readChecked_eq_error hr).1
    · split at h
      · rename_i g hw
        simp only [Except.error.injEq] at h
        exact h ▸ (writeChecked_eq_error hw).1
      · exact ih h

/-- The mirror loop over an admitted buffer: byte `j` of line `l` comes from its source byte of the same line. -/
theorem mirrorLoop_value {p : Params} {layout : Layout} {width lineBytes n base : Nat} {m : Memory}
    (hm : m.wf = true) (hb : Admitted p base (n * lineBytes))
    (hs : ∀ j, j < lineBytes → mirrorSource layout width j < lineBytes) :
    ∃ m', mirrorLoop p layout width lineBytes n base m = .ok m' ∧
      ∀ l j, l < n → j < lineBytes → m'.read (base + l * lineBytes + j) =
        m.read (base + l * lineBytes + mirrorSource layout width j) := by
  induction n generalizing base m with
  | zero => exact ⟨m, rfl, fun l j hl => absurd hl (Nat.not_lt_zero l)⟩
  | succ n ih =>
    rw [Nat.succ_mul] at hb
    have hline : Admitted p base lineBytes := hb.sub le_rfl (by omega)
    have hw : Admitted p base (mirrorLine layout width (m.readList base lineBytes)).length := by simpa using hline
    have heff := MemEffect.writeList (m := m) hw
    rw [length_mirrorLine, Memory.length_readList] at heff
    obtain ⟨m', hm', hval⟩ := ih (base := base + lineBytes)
      (m := m.writeList base (mirrorLine layout width (m.readList base lineBytes))) (heff.1 hm)
      (hb.sub (by omega) (by omega))
    refine ⟨m', ?_, fun l j hl hj => ?_⟩
    · unfold mirrorLoop
      rw [readChecked_of_admitted hline]
      simp only
      rw [writeChecked_of_admitted hw]
      exact hm'
    · cases l with
      | zero =>
        have hend : base + lineBytes ≤ 2 ^ 32 := hline.end_le (by omega)
        rw [Nat.zero_mul, Nat.add_zero, (mirrorLoop_effect hm').2 _ (by omega),
          Memory.read_writeList hm (by simpa using hend) (by simpa using hj),
          mirrorLine_get _ _ _ _ (by simpa using hj), List.getD_eq_getElem _ _ (by simpa using hs j hj),
          Memory.getElem_readList _ _ _ _ (hs j hj)]
      | succ l =>
        have := hval l j (by omega) hj
        rw [heff.2 _ (by omega)] at this
        rwa [show base + (l + 1) * lineBytes = base + lineBytes + l * lineBytes by rw [Nat.succ_mul]; omega]

/-- On a line whose geometry is right, every byte comes from a byte of the line. -/
theorem mirrorSource_lt {layout : Layout} {width : Nat}
    (h2 : width % (if layoutPairs layout then 2 else 1) = 0) {j : Nat} (hj : j < width * layoutBpp layout) :
    mirrorSource layout width j < width * layoutBpp layout := by
  cases layout <;>
    simp only [mirrorSource, layoutBpp, layoutPairs, pixelSource, groupSource, if_true, Bool.false_eq_true,
      if_false] at *
  · omega
  · omega
  · omega
  · have : yuv422Source (j % 4) < 4 := by
      have : j % 4 < 4 := Nat.mod_lt _ (by omega)
      generalize j % 4 = x at this
      interval_cases x <;> decide
    omega
  · have : yuyvSource (j % 4) < 4 := by
      have : j % 4 < 4 := Nat.mod_lt _ (by omega)
      generalize j % 4 = x at this
      interval_cases x <;> decide
    omega

/-! ### values of the packed-12 path -/

theorem toNat_firstShift (b0 b1 : Byte) : (firstShift b0 b1).toNat = b0.toNat * 16 + b1.toNat / 16 := by
  have := b1.isLt
  unfold firstShift
  rw [BitVec.toNat_append, BitVec.extractLsb'_toNat, Nat.shiftRight_eq_div_pow, Nat.mod_eq_of_lt (by omega),
    ← Nat.shiftLeft_add_eq_or_of_lt (by omega), Nat.shiftLeft_eq]

theorem toNat_secondShift (b1 b2 : Byte) : (secondShift b1 b2).toNat = b1.toNat % 16 * 256 + b2.toNat := by
  have := b2.isLt
  unfold secondShift
  rw [BitVec.toNat_append, BitVec.extractLsb'_toNat, ← Nat.shiftLeft_add_eq_or_of_lt (by omega), Nat.shiftLeft_eq]
  simp

/-- The clamp and the output format, on numbers. -/
theorem toNat_packedOutput (s : State) (v : BitVec 12) :
    (packedOutput s.calib s.s2d v).toNat = expectedOutput s v.toNat := by
  have hv := v.isLt
  have hc : clampShift s.calib v = if s.calib.maxShift.toNat ≤ v.toNat + 1 then 0 else v.toNat := by
    unfold clampShift
    by_cases h : s.calib.maxShift.toNat ≤ v.toNat + 1
    · rw [if_pos h, if_pos (by omega)]
    · rw [if_neg h, if_neg (by omega)]
  have hlt : clampShift s.calib v < 4096 := by
    rw [hc]
    split_ifs <;> omega
  unfold packedOutput expectedOutput depthFormat
  simp only [Bool.or_eq_true, beq_iff_eq, ← hc]
  split_ifs
  · rfl
  · rw [BitVec.toNat_ofNat, Nat.mod_eq_of_lt (by omega)]

/-- With the tables ready, the packed-12 commands do not fault TABLES_NOT_VALID. -/
theorem outputReady_check {s : State} {n : Nat} (h : OutputReady s n) :
    (depthFormat s.calib && decide (0 < n) && !s.tablesValid) = false := by
  rcases h with h | h | h
  · simp [h]
  · simp [h]
  · have : depthFormat s.calib = false := by simpa [depthFormat] using h
    simp [this]

end Sys2Proof.Machine
end

