-- ==== Sys2Proof/Laws/Commands.lean ====
section
/-! SUPPORT. Laws/Commands.lean: everything each command can do, said once: the ways it can end, with the memory
effect of an OK ending. A statement over all commands is a case analysis over these lemmas. -/

namespace Sys2Proof.Machine

/-- A memory operation that keeps the canonical form and touches only the ranges. -/
abbrev RangesEffect (m m' : Memory) (ranges : List (Nat × Nat)) : Prop :=
  (m.wf = true → m'.wf = true) ∧ ∀ a, inRanges a ranges = false → m'.read a = m.read a

theorem RangesEffect.of {m m' : Memory} {a n b k : Nat} (h : MemEffect m m' a n) (hb : b ≤ a) (hk : a + n ≤ b + k) :
    RangesEffect m m' [(b, k)] :=
  ⟨h.1, fun x hx => h.2 x (by rw [inRanges_singleton] at hx; omega)⟩

theorem RangesEffect.refl (m : Memory) (rs : List (Nat × Nat)) : RangesEffect m m rs := ⟨id, fun _ _ => rfl⟩

theorem RangesEffect.trans {m m' m'' : Memory} {rs : List (Nat × Nat)} (h : RangesEffect m m' rs)
    (h' : RangesEffect m' m'' rs) : RangesEffect m m'' rs :=
  ⟨fun hm => h'.1 (h.1 hm), fun a ha => (h'.2 a ha).trans (h.2 a ha)⟩

/-- The ways a command that touches memory and no other state can end: a status, a fault, or OK. -/
inductive MemEnding (opc : BitVec 8) (ranges : List (Nat × Nat)) (s : State) : State → Prop where
  | status (st : Status) (h : st ≠ .ok) : MemEnding opc ranges s (statusState s opc (statusCode st))
  | fault (f : Raise) (n : Nat) : MemEnding opc ranges s (raiseFault opc ranges f { s with nonce := n })
  | ok (m : Memory) (n : Nat) (r0 r1 r2 r3 : Word) (h : RangesEffect s.mem m ranges) :
    MemEnding opc ranges s (okState { s with mem := m, nonce := n } opc r0 r1 r2 r3)

/-- Making a range free when a flag is set changes memory in that range and the counter, and nothing else. -/
theorem scrambleIf_eq (overlap : Bool) (range : Nat × Nat) (s : State) : ∃ m n,
    scrambleIf overlap range s = { s with mem := m, nonce := n } ∧ RangesEffect s.mem m [range] := by
  cases overlap with
  | false => exact ⟨s.mem, s.nonce, rfl, .refl _ _⟩
  | true =>
    exact ⟨_, _, rfl, fun h => Memory.wf_havoc h _ _ _, fun a ha => Memory.read_havoc_other
      (by rw [inRanges_singleton] at ha; exact ha) _ _⟩

/-- Nothing is made free when the ranges share no byte. -/
theorem scrambleIf_apart {b : Bool} {a n c k : Nat} (h : Apart a n c k) (s : State) :
    scrambleIf (b && rangesOverlap (a, n) (c, k)) (c, k) s = s := by
  rw [rangesOverlap_eq_false.2 h, Bool.and_false]
  rfl

theorem execS2dConvert_ends (src count dst : Word) (s : State) :
    ∃ t, execS2dConvert src count dst s = .next t ∧ MemEnding 0x05 (convertWrites count dst) s t := by
  refine ⟨_, rfl, ?_⟩
  have hn : ∃ n, (if convertOverlaps src count dst then { s with nonce := s.nonce + 2 * count.toNat } else s) =
      { s with nonce := n } := by
    split_ifs
    · exact ⟨_, rfl⟩
    · exact ⟨s.nonce, rfl⟩
  obtain ⟨n, hn⟩ := hn
  simp only [hn]
  refine endCommand_ind (fun t ht => ?_) fun f _ => .fault f n
  split at ht
  · simp at ht
  · split_ifs at ht
    all_goals
      split at ht
      · simp at ht
      · rename_i m hm
        simp only [Except.ok.injEq] at ht
        subst ht
        exact .ok m n _ _ _ _ (.of (convertLoop_effect hm) le_rfl le_rfl)

theorem length_takeD_flatMap (table : List Half) (n : Nat) : ((table.takeD n 0).flatMap halfBytes).length = 2 * n := by
  have h : ∀ l : List Half, (l.flatMap halfBytes).length = 2 * l.length := by
    intro l
    induction l with
    | nil => rfl
    | cons a l ih => rw [List.flatMap_cons, List.length_append, ih, length_halfBytes, List.length_cons]; omega
  rw [h, List.takeD_length]

theorem readTable_ends (table : List Half) (n : Nat) (dst cap : Word) (s : State) :
    MemEnding 0x06 (readTableWrites dst cap) s (readTable table n dst cap s) := by
  refine endCommand_ind (fun t ht => ?_) fun f _ => .fault f s.nonce
  split at ht
  · simp at ht
  · split_ifs at ht with h1 h2
    · simp only [Except.ok.injEq] at ht
      subst ht
      exact .status .outputBufferOverflow (by decide)
    · split at ht
      · simp at ht
      · rename_i m hm
        simp only [Except.ok.injEq] at ht
        subst ht
        refine .ok m s.nonce _ _ _ _ (.of (writeChecked_effect hm) le_rfl ?_)
        rw [length_takeD_flatMap]
        omega

theorem execUnpack12_ends (src srclen dst dstcap : Word) (s : State) :
    ∃ t, execUnpack12 src srclen dst dstcap s = .next t ∧ MemEnding 0x10 (unpackWrites dst dstcap) s t := by
  refine ⟨_, rfl, endCommand_ind (fun t ht => ?_) fun f _ => .fault f s.nonce⟩
  split at ht
  · simp at ht
  · split_ifs at ht with h1 h2
    · simp only [Except.ok.injEq] at ht
      subst ht
      exact .status .outputBufferOverflow (by decide)
    · split at ht
      · simp at ht
      · rename_i m hm
        simp only [Except.ok.injEq] at ht
        subst ht
        obtain ⟨m', n, he, hr⟩ := scrambleIf_eq (decide (0 < srclen.toNat / 24) &&
          rangesOverlap (src.toNat, srclen.toNat) (dst.toNat, dstcap.toNat)) (dst.toNat, dstcap.toNat)
          { s with mem := m }
        rw [he]
        exact .ok m' n _ _ _ _ (.trans (.of (unpackLoop_effect hm) le_rfl (by omega)) hr)

theorem uncomp_ends (opc : BitVec 8) (map : List (Fin 3)) (last : Bool) (src srclen dst dstcap line : Word) (s : State) :
    MemEnding opc (uncompWrites dst dstcap) s (uncomp opc map last src srclen dst dstcap line s) := by
  refine endCommand_ind (fun t ht => ?_) fun f _ => .fault f s.nonce
  split at ht
  · simp at ht
  · split_ifs at ht with h1
    split at ht
    · simp at ht
    · simp only [Except.ok.injEq] at ht
      subst ht
      exact .status .outputBufferOverflow (by decide)
    · simp only [Except.ok.injEq] at ht
      subst ht
      exact .status .bufferTooSmall (by decide)
    · rename_i rd bytes hd
      split at ht
      · simp at ht
      · rename_i m hm
        simp only [Except.ok.injEq] at ht
        subst ht
        obtain ⟨m', n, he, hr⟩ := scrambleIf_eq (decide (0 < bytes.length) &&
          rangesOverlap (src.toNat, srclen.toNat) (dst.toNat, dstcap.toNat)) (dst.toNat, dstcap.toNat)
          { s with mem := m }
        rw [he]
        have := (decodeStream_bounds hd).2.1
        exact .ok m' n _ _ _ _ (.trans (.of (writeChecked_effect hm) le_rfl (by omega)) hr)

theorem mirror_ends (layout : Layout) (buf len width : Word) (s : State) :
    MemEnding 0x20 (mirrorWrites buf len) s (mirror layout buf len width s) := by
  refine endCommand_ind (fun t ht => ?_) fun f _ => .fault f s.nonce
  split at ht
  · simp at ht
  · split_ifs at ht with h1 h2
    · simp only [Except.ok.injEq] at ht
      subst ht
      exact .status .bufferTooSmall (by decide)
    · split at ht
      · simp at ht
      · rename_i m hm
        simp only [Except.ok.injEq] at ht
        subst ht
        refine .ok m s.nonce _ _ _ _ (.of (mirrorLoop_effect hm) le_rfl ?_)
        have := Nat.div_mul_le_self len.toNat (width.toNat * layoutBpp layout)
        omega

theorem length_vecBytes (nonce : Nat) (x : Vec3) : (vecBytes nonce x).length = 24 := by simp [vecBytes, bits64Bytes]

theorem solveAndStore_ends {opc : BitVec 8} {m : Mat3} {dst : Nat} {r0 : Word} {s t : State}
    (h : solveAndStore opc m dst r0 s = .ok t) : MemEnding opc [(dst, 24)] s t := by
  unfold solveAndStore at h
  split at h
  · simp only [Except.ok.injEq] at h
    subst h
    exact .status .singular (by decide)
  · rename_i x hx
    split at h
    · simp at h
    · rename_i mem hm
      simp only [Except.ok.injEq] at h
      subst h
      have := writeChecked_effect hm
      rw [length_vecBytes] at this
      exact .ok mem _ _ _ _ _ (.of this le_rfl le_rfl)

theorem execLu3_ends (a b x : Word) (s : State) :
    ∃ t, execLu3 a b x s = .next t ∧ MemEnding 0x40 (vecWrites x) s t := by
  refine ⟨_, rfl, endCommand_ind (fun t ht => ?_) fun f _ => .fault f s.nonce⟩
  split at ht
  · simp at ht
  · split at ht
    · simp at ht
    · split at ht
      · simp at ht
      · exact solveAndStore_ends ht

theorem execPlanefit_ends (pts n out : Word) (s : State) :
    ∃ t, execPlanefit pts n out s = .next t ∧ MemEnding 0x41 (vecWrites out) s t := by
  refine ⟨_, rfl, endCommand_ind (fun t ht => ?_) fun f _ => .fault f s.nonce⟩
  split at ht
  · simp at ht
  · split at ht
    · simp at ht
    · exact solveAndStore_ends ht

/-! ### the table engine -/

/-- Build ends with both tables in place, or in the fault state with the tables unspecified. -/
theorem rebuild_ends (opc : BitVec 8) (ns nd : Nat) (r0 r1 : Word) (s : State) :
    (∃ f, buildTables s.params s.calib ns nd = .error f ∧
      rebuild opc ns nd r0 r1 s = raiseFault opc [] f (havocTables s)) ∨
    (∃ t, buildTables s.params s.calib ns nd = .ok t ∧
      rebuild opc ns nd r0 r1 s = okState
        { s with
          s2d := t.1, d2s := t.2, tablesValid := true, tblNShift := BitVec.ofNat 17 ns
          tblNDepth := BitVec.ofNat 17 nd } opc r0 r1 0 0) := by
  unfold rebuild
  cases h : buildTables s.params s.calib ns nd with
  | error f => exact .inl ⟨f, rfl, rfl⟩
  | ok t => exact .inr ⟨t, rfl, rfl⟩

/-- S2D_SETCFG rejects, commits, or commits and rebuilds. -/
theorem setcfg_ends (f : CalibField) (vlo vhi : Word) (s : State) :
    (acceptsField f vlo s.calib = false ∧ setcfg f vlo vhi s = statusState s 0x04 0x03) ∨
    (acceptsField f vlo s.calib = true ∧
      let t : State := { s with calib := commitField f vlo vhi s.calib, cfgEpoch := s.cfgEpoch + 1 }
      (s.tablesValid = false ∧ setcfg f vlo vhi s = okState t 0x04 t.cfgEpoch 0 0 0) ∨
      (s.tablesValid = true ∧ sizeAffecting f = true ∧
        setcfg f vlo vhi s = rebuild 0x04 (calibNS t.calib) (calibND t.calib) t.cfgEpoch 1 t) ∨
      (s.tablesValid = true ∧ sizeAffecting f = false ∧
        setcfg f vlo vhi s = rebuild 0x04 t.tblNShift.toNat t.tblNDepth.toNat t.cfgEpoch 1 t)) := by
  unfold setcfg
  cases ha : acceptsField f vlo s.calib with
  | false => exact .inl ⟨rfl, rfl⟩
  | true =>
    refine .inr ⟨rfl, ?_⟩
    cases hv : s.tablesValid with
    | false => exact .inl ⟨rfl, by simp⟩
    | true =>
      cases hs : sizeAffecting f with
      | true => exact .inr (.inl ⟨rfl, rfl, by simp⟩)
      | false => exact .inr (.inr ⟨rfl, rfl, by simp⟩)

/-! ### the frame commands -/

/-- FRAME_SOF starts a frame on its context, or faults before any write. -/
theorem frameSof_ends (k : FrameKind) (c : BitVec 4) (wbase wcap line : Word) (s : State) :
    (∃ f : Raise, causeLosesMemory f.cause = false ∧
      frameSof k c wbase wcap line s = havocContext (raiseFault 0x30 [] f s) c) ∨
    frameSof k c wbase wcap line s = okState (setContext s c (sofContext k wbase wcap line (getContext s c))) 0x30
      ((getContext s c).frameId + 1) 0 0 0 := by
  unfold frameSof
  cases h : checkRanges [(wbase.toNat, wcap.toNat)] with
  | error f =>
    refine .inl ⟨f, ?_, rfl⟩
    rw [checkRanges_eq_error h]
    rfl
  | ok u =>
    simp only
    split_ifs with h1
    · exact .inl ⟨_, rfl, rfl⟩
    · exact .inr rfl

/-- The bytes an Uncomp or packed-12 chunk appends: the write buffer's memory and WBUF_SIZE change together. -/
theorem bufAppend_eq_ok {p : Params} {m : Memory} {x : Context} {bs : List Byte} {r : Memory × Context}
    (h : bufAppend p m x bs = .ok r) :
    Admitted p (x.wbufBase.toNat + x.wbufSize.toNat) bs.length ∧
      r = (m.writeList (x.wbufBase.toNat + x.wbufSize.toNat) bs,
        { x with wbufSize := x.wbufSize + BitVec.ofNat 32 bs.length }) := by
  unfold bufAppend at h
  split at h
  · simp at h
  · rename_i m' hm
    obtain ⟨ha, rfl⟩ := writeChecked_eq_ok.1 hm
    simp only [Except.ok.injEq] at h
    exact ⟨ha, h.symm⟩

/-- An append that fits keeps the write buffer's bounds and stays inside it. -/
theorem bufAppend_effect {p : Params} {m : Memory} {x : Context} {bs : List Byte} {r : Memory × Context}
    (h : bufAppend p m x bs = .ok r) (hfit : bs.length ≤ wbufFree x) :
    RangesEffect m r.1 [wbufRange x] ∧ (x.wbufSize ≤ x.wbufCap → r.2.wbufSize ≤ x.wbufCap) := by
  obtain ⟨ha, rfl⟩ := bufAppend_eq_ok h
  unfold wbufFree at hfit
  have hc := x.wbufCap.isLt
  rcases Nat.eq_zero_or_pos bs.length with h0 | h0
  · obtain rfl := List.length_eq_zero_iff.1 h0
    exact ⟨.refl _ _, by simp⟩
  · refine ⟨.of (.writeList ha) (Nat.le_add_right _ _) (by omega), fun _ => ?_⟩
    simp only [BitVec.le_def, BitVec.toNat_add, BitVec.toNat_ofNat]
    rw [Nat.mod_eq_of_lt (a := bs.length) (by omega), Nat.mod_eq_of_lt (by omega)]
    omega

/-- What a chunk can do: append to the write buffer, set CORRUPTED, and replace CONT; everything else of the context
stays, and its invariant with it. -/
theorem chunkStep_effect {s : State} {x : Context} {buf : List Byte} {isLast : Bool} {r : Memory × Context}
    (h : chunkStep s x buf isLast = .ok r) :
    RangesEffect s.mem r.1 [wbufRange x] ∧ (ContextInv s.params x → ContextInv s.params r.2) ∧
      ∃ size corrupted cont, r.2 = { x with wbufSize := size, corrupted := corrupted, cont := cont } := by
  have hcap : 23 ≤ s.params.contCap := Nat.le_add_left _ _
  have hx : x = { x with wbufSize := x.wbufSize, corrupted := x.corrupted, cont := x.cont } := rfl
  unfold chunkStep at h
  split_ifs at h
  · unfold chunkUncomp at h
    split_ifs at h
    · simp only [Except.ok.injEq] at h
      subst h
      exact ⟨.refl _ _, id, _, _, _, hx⟩
    · split at h
      · simp at h
      · simp only [Except.ok.injEq] at h
        subst h
        exact ⟨.refl _ _, fun hi => ⟨hi.1, Nat.zero_le _⟩, _, _, _, rfl⟩
      · simp only [Except.ok.injEq] at h
        subst h
        exact ⟨.refl _ _, fun hi => ⟨hi.1, Nat.zero_le _⟩, _, _, _, rfl⟩
      · rename_i rd bytes hd
        split at h
        · simp at h
        · rename_i r' hr
          simp only [Except.ok.injEq] at h
          subst h
          obtain ⟨he, hsize⟩ := bufAppend_effect hr (decodeStream_bounds hd).2.1
          obtain ⟨-, rfl⟩ := bufAppend_eq_ok hr
          refine ⟨he, fun hi => ?_, ?_⟩
          · unfold keepRemainder
            split_ifs with hl
            · exact ⟨hsize hi.1, hl⟩
            · exact ⟨hsize hi.1, Nat.zero_le _⟩
          · unfold keepRemainder
            split_ifs
            · exact ⟨_, _, _, rfl⟩
            · exact ⟨_, _, _, rfl⟩
  · unfold chunkPacked12 at h
    simp only at h
    have hrest : (buf.drop (24 * (buf.length / 24))).length ≤ s.params.contCap := by
      rw [List.length_drop]; omega
    split_ifs at h with h1 h2
    · simp only [Except.ok.injEq] at h
      subst h
      exact ⟨.refl _ _, fun hi => ⟨hi.1, hrest⟩, _, _, _, rfl⟩
    · split at h
      · simp at h
      · rename_i r' hr
        simp only [Except.ok.injEq] at h
        subst h
        have hl := length_unpackBytes (packedOutput s.calib s.s2d) (8 * (buf.length / 24))
          (buf.take (24 * (buf.length / 24))) (by rw [List.length_take]; omega)
        obtain ⟨he, hsize⟩ := bufAppend_effect hr (by omega)
        obtain ⟨-, rfl⟩ := bufAppend_eq_ok hr
        exact ⟨he, fun hi => ⟨hsize hi.1, hrest⟩, _, _, _, rfl⟩

/-- FRAME_CHUNK without a frame in progress ends ILLEGAL_STATE; with one it faults, or ends OK with its context's
WBUF_SIZE, CORRUPTED and CONT and the write buffer's bytes changed. -/
theorem execFrameChunk_ends (c : BitVec 4) (src offset len bufsize : Word) (s : State) :
    ∃ t, execFrameChunk c src offset len bufsize s = .next t ∧
      (((getContext s c).state ≠ .accumulating ∧ t = statusState s 0x31 0x05) ∨
      ((getContext s c).state = .accumulating ∧
        ((∃ f, t = havocContext (raiseFault 0x31 (chunkWrites s c) f s) c) ∨
        ∃ m n y r0 r1 r2 r3, t = okState (setContext { s with mem := m, nonce := n } c y) 0x31 r0 r1 r2 r3 ∧
          RangesEffect s.mem m (chunkWrites s c) ∧
          (ContextInv s.params (getContext s c) → ContextInv s.params y) ∧
          ∃ size corrupted cont,
            y = { getContext s c with wbufSize := size, corrupted := corrupted, cont := cont }))) := by
  refine ⟨_, rfl, ?_⟩
  simp only
  split_ifs with hst
  · exact .inl ⟨hst, rfl⟩
  · refine .inr ⟨not_not.1 hst, ?_⟩
    cases h1 : checkRanges [(src.toNat, len.toNat)] with
    | error f => exact .inl ⟨f, rfl⟩
    | ok u =>
      simp only
      cases h2 : readChecked s.params s.mem src.toNat len.toNat with
      | error f => exact .inl ⟨f, rfl⟩
      | ok bs =>
        simp only
        cases h3 : chunkStep s (getContext s c) ((getContext s c).cont ++ bs) (isFinalChunk offset len bufsize) with
        | error f => exact .inl ⟨f, rfl⟩
        | ok r =>
          obtain ⟨he, hi, hy⟩ := chunkStep_effect h3
          obtain ⟨m, n, hs, hr⟩ := scrambleIf_eq (decide ((getContext s c).wbufSize ≠ r.2.wbufSize) &&
            rangesOverlap (src.toNat, len.toNat) (wbufRange (getContext s c))) (wbufRange (getContext s c))
            (setContext { s with mem := r.1 } c r.2)
          refine .inr ⟨m, n, r.2, r.2.wbufSize, boolWord r.2.corrupted, boolWord (isFinalChunk offset len bufsize),
            BitVec.ofNat 32 r.2.cont.length, ?_, .trans he hr, hi, hy⟩
          simp only [endFrameCommand]
          rw [hs]
          rfl

/-- FRAME_EOF without a frame in progress ends ILLEGAL_STATE; with one it completes the frame. -/
theorem execFrameEof_ends (c : BitVec 4) (s : State) :
    ∃ t, execFrameEof c s = .next t ∧
      (((getContext s c).state ≠ .accumulating ∧ t = statusState s 0x32 0x05) ∨
      ((getContext s c).state = .accumulating ∧ t = okState
        (setContext s c { getContext s c with state := .complete, cont := [] }) 0x32 (getContext s c).wbufSize
        (boolWord (getContext s c).corrupted) (getContext s c).frameId 0)) := by
  refine ⟨_, rfl, ?_⟩
  simp only
  split_ifs with hst
  · exact .inl ⟨hst, rfl⟩
  · exact .inr ⟨not_not.1 hst, rfl⟩

/-! ### contexts -/

/-- Replacing one context leaves the others. -/
theorem getContext_setContext_ne {c d : BitVec 4} (h : c ≠ d) (s : State) (x : Context) :
    getContext (setContext s c x) d = getContext s d := by
  simp only [getContext, setContext]
  rw [Vector.getElem_set_ne]
  exact fun e => h (BitVec.eq_of_toNat_eq e)

/-- Replacing a context by one that keeps the invariant keeps the invariant of all. -/
theorem ContextsInv.setContext {s : State} (h : ContextsInv s) {c : BitVec 4} {x : Context}
    (hx : ContextInv s.params (getContext s c) → ContextInv s.params x) : ContextsInv (setContext s c x) := by
  intro d
  show ContextInv s.params ((s.contexts.set c.toNat x c.isLt)[d.val])
  rw [Vector.getElem_set]
  split
  · exact hx (h ⟨c.toNat, c.isLt⟩)
  · exact h d

/-- The context a fault leaves keeps the invariant, whatever the free values are. -/
theorem contextInv_freeContext (p : Params) (nonce : Nat) : ContextInv p (freeContext p nonce) := by
  constructor
  · simp only [freeContext, BitVec.le_def, BitVec.toNat_ofNat]
    have h1 := Nat.mod_lt (Config.freeWord (nonce + 6)).toNat
      (y := (Config.freeWord (nonce + 5)).toNat + 1) (by omega)
    have h2 := (Config.freeWord (nonce + 5)).isLt
    rw [Nat.mod_eq_of_lt (by omega)]
    omega
  · simp only [freeContext, length_freeBytes]
    have := Nat.mod_lt (Config.freeWord (nonce + 8)).toNat (y := p.contCap + 1) (by omega)
    omega

end Sys2Proof.Machine
end

