-- ==== Sys2Proof/Laws/Encode.lean ====
section
/-! SUPPORT. Laws/Encode.lean: the fields and words of an encoded descriptor, and what each part of the decoder
accepts. -/

namespace Sys2Proof

theorem opcOf_cmd0 (arg16 : BitVec 16) (flags ctx : BitVec 4) (opc : BitVec 8) :
    (cmd0 arg16 flags ctx opc).extractLsb' 0 8 = opc := by
  ext i hi
  simp only [cmd0, BitVec.getElem_extractLsb', BitVec.getLsbD_append, Nat.zero_add]
  simp [hi]

theorem ctxOf_cmd0 (arg16 : BitVec 16) (flags ctx : BitVec 4) (opc : BitVec 8) :
    (cmd0 arg16 flags ctx opc).extractLsb' 8 4 = ctx := by
  ext i hi
  simp only [cmd0, BitVec.getElem_extractLsb', BitVec.getLsbD_append]
  simp [hi]

theorem flagsOf_cmd0 (arg16 : BitVec 16) (flags ctx : BitVec 4) (opc : BitVec 8) :
    (cmd0 arg16 flags ctx opc).extractLsb' 12 4 = flags := by
  ext i hi
  simp only [cmd0, BitVec.getElem_extractLsb', BitVec.getLsbD_append]
  simp [show ¬ 12 + i < 8 by omega, show ¬ 12 + i - 8 < 4 by omega, show 12 + i - 8 - 4 = i by omega, hi]

theorem arg16Of_cmd0 (arg16 : BitVec 16) (flags ctx : BitVec 4) (opc : BitVec 8) :
    (cmd0 arg16 flags ctx opc).extractLsb' 16 16 = arg16 := by
  ext i hi
  simp only [cmd0, BitVec.getElem_extractLsb', BitVec.getLsbD_append]
  simp [show ¬ 16 + i < 8 by omega, show ¬ 16 + i - 8 < 4 by omega, show ¬ 16 + i - 8 - 4 < 4 by omega,
    show 16 + i - 8 - 4 - 4 = i by omega, hi]

/-- CMD0 is its four fields put together. -/
theorem cmd0_fields (w : Word) :
    cmd0 (w.extractLsb' 16 16) (w.extractLsb' 12 4) (w.extractLsb' 8 4) (w.extractLsb' 0 8) = w := by
  apply BitVec.eq_of_getLsbD_eq
  intro i hi
  simp only [cmd0, BitVec.getLsbD_append, BitVec.getLsbD_extractLsb']
  split_ifs with h1 h2 h3
  · simp [h1]
  · simp [show i - 8 < 4 from h2, show 8 + (i - 8) = i by omega]
  · simp [show i - 8 - 4 < 4 from h3, show 12 + (i - 8 - 4) = i by omega]
  · simp [show i - 8 - 4 - 4 < 16 by omega, show 16 + (i - 8 - 4 - 4) = i by omega]

section
variable (arg16 : BitVec 16) (flags ctx : BitVec 4) (opc : BitVec 8) (w1 w2 w3 w4 w5 : Word)

@[simp] theorem opcOf_descriptor : opcOf (descriptor (cmd0 arg16 flags ctx opc) w1 w2 w3 w4 w5) = opc :=
  opcOf_cmd0 ..

@[simp] theorem ctxOf_descriptor : ctxOf (descriptor (cmd0 arg16 flags ctx opc) w1 w2 w3 w4 w5) = ctx :=
  ctxOf_cmd0 ..

@[simp] theorem flagsOf_descriptor : flagsOf (descriptor (cmd0 arg16 flags ctx opc) w1 w2 w3 w4 w5) = flags :=
  flagsOf_cmd0 ..

@[simp] theorem arg16Of_descriptor : arg16Of (descriptor (cmd0 arg16 flags ctx opc) w1 w2 w3 w4 w5) = arg16 :=
  arg16Of_cmd0 ..

end

section
variable (w0 w1 w2 w3 w4 w5 : Word)

@[simp] theorem descriptor_zero : (descriptor w0 w1 w2 w3 w4 w5)[0] = w0 := rfl
@[simp] theorem descriptor_one : (descriptor w0 w1 w2 w3 w4 w5)[1] = w1 := rfl
@[simp] theorem descriptor_two : (descriptor w0 w1 w2 w3 w4 w5)[2] = w2 := rfl
@[simp] theorem descriptor_three : (descriptor w0 w1 w2 w3 w4 w5)[3] = w3 := rfl
@[simp] theorem descriptor_four : (descriptor w0 w1 w2 w3 w4 w5)[4] = w4 := rfl
@[simp] theorem descriptor_five : (descriptor w0 w1 w2 w3 w4 w5)[5] = w5 := rfl

end

/-! ### what each part of the decoder accepts -/

/-- The two branches of a decision. -/
theorem ite_eq_cases {α : Type} {c : Prop} [Decidable c] {a b x : α} (h : (if c then a else b) = x) :
    (c ∧ a = x) ∨ (¬ c ∧ b = x) := by
  by_cases hc : c
  · exact .inl ⟨hc, by rwa [if_pos hc] at h⟩
  · exact .inr ⟨hc, by rwa [if_neg hc] at h⟩

theorem plainCommand_ok {d : Descriptor} {i j : Instr} (h : plainCommand d i = .ok j) :
    (ctxOf d = 0 ∧ flagsOf d = 0 ∧ arg16Of d = 0) ∧ j = i := by
  rcases ite_eq_cases h with ⟨hc, h⟩ | ⟨-, h⟩ <;> cases h
  exact ⟨hc, rfl⟩

theorem frameCommand_ok {d : Descriptor} {i j : Instr} (h : frameCommand d i = .ok j) :
    (flagsOf d = 0 ∧ arg16Of d = 0) ∧ j = i := by
  rcases ite_eq_cases h with ⟨hc, h⟩ | ⟨-, h⟩ <;> cases h
  exact ⟨hc, rfl⟩

theorem flagCommand_ok {d : Descriptor} {clear set j : Instr} (h : flagCommand d clear set = .ok j) :
    (ctxOf d = 0 ∧ arg16Of d = 0) ∧ ((flagsOf d = 0 ∧ j = clear) ∨ (flagsOf d = 1 ∧ j = set)) := by
  rcases ite_eq_cases h with ⟨-, h⟩ | ⟨hc, h⟩
  · cases h
  refine ⟨by simpa using hc, ?_⟩
  rcases ite_eq_cases h with ⟨hf, h⟩ | ⟨-, h⟩
  · cases h
    exact .inl ⟨hf, rfl⟩
  rcases ite_eq_cases h with ⟨hf, h⟩ | ⟨-, h⟩ <;> cases h
  exact .inr ⟨hf, rfl⟩

theorem decodeSof_ok {d : Descriptor} {j : Instr} (h : decodeSof d = .ok j) : arg16Of d = 0 ∧
    ((flagsOf d = 0 ∧ j = .frameSofPacked12 (ctxOf d) d[1] d[2] d[3]) ∨
      (flagsOf d = 1 ∧ j = .frameSofPs (ctxOf d) d[1] d[2] d[3]) ∨
      (flagsOf d = 2 ∧ j = .frameSofNew (ctxOf d) d[1] d[2] d[3])) := by
  rcases ite_eq_cases h with ⟨-, h⟩ | ⟨hc, h⟩
  · cases h
  refine ⟨by simpa using hc, ?_⟩
  rcases ite_eq_cases h with ⟨hf, h⟩ | ⟨-, h⟩
  · cases h
    exact .inl ⟨hf, rfl⟩
  rcases ite_eq_cases h with ⟨hf, h⟩ | ⟨-, h⟩
  · cases h
    exact .inr (.inl ⟨hf, rfl⟩)
  rcases ite_eq_cases h with ⟨hf, h⟩ | ⟨-, h⟩ <;> cases h
  exact .inr (.inr ⟨hf, rfl⟩)

theorem decodeSetcfg_ok {d : Descriptor} {j : Instr} (h : decodeSetcfg d = .ok j) :
    (ctxOf d = 0 ∧ flagsOf d = 0) ∧
    ((arg16Of d = 0 ∧ j = .setcfgZeroPlaneDistance d[1] d[2]) ∨
      (arg16Of d = 1 ∧ j = .setcfgZeroPlanePixelSize d[1] d[2]) ∨
      (arg16Of d = 2 ∧ j = .setcfgEmitterDistance d[1] d[2]) ∨ (arg16Of d = 3 ∧ j = .setcfgMaxShift d[1]) ∨
      (arg16Of d = 4 ∧ j = .setcfgMaxDepth d[1]) ∨ (arg16Of d = 5 ∧ j = .setcfgConstShift d[1]) ∨
      (arg16Of d = 6 ∧ j = .setcfgPixelSizeFactor d[1]) ∨ (arg16Of d = 7 ∧ j = .setcfgParamCoeff d[1]) ∨
      (arg16Of d = 8 ∧ j = .setcfgShiftScale d[1]) ∨ (arg16Of d = 9 ∧ j = .setcfgMinCutoff d[1]) ∨
      (arg16Of d = 10 ∧ j = .setcfgMaxCutoff d[1]) ∨ (arg16Of d = 11 ∧ j = .setcfgOutputFormat d[1])) := by
  rcases ite_eq_cases h with ⟨-, h⟩ | ⟨hc, h⟩
  · cases h
  refine ⟨by simpa using hc, ?_⟩
  iterate 12
    first
      | (refine (ite_eq_cases h).imp (fun h' => ⟨h'.1, ?_⟩) fun h' => ?_
         · exact (Except.ok.inj h'.2).symm
         replace h := h'.2
         clear h')
      | (rcases ite_eq_cases h with ⟨hf, h⟩ | ⟨-, h⟩ <;> cases h
         exact ⟨hf, rfl⟩)

theorem decodeMirror_ok {d : Descriptor} {j : Instr} (h : decodeMirror d = .ok j) :
    (ctxOf d = 0 ∧ flagsOf d = 0) ∧
    ((arg16Of d = 202 ∧ j = .mirrorGray8 d[1] d[2] d[3]) ∨ (arg16Of d = 203 ∧ j = .mirrorGray16 d[1] d[2] d[3]) ∨
      (arg16Of d = 100 ∧ j = .mirrorDepth1mm d[1] d[2] d[3]) ∨
      (arg16Of d = 101 ∧ j = .mirrorDepth100um d[1] d[2] d[3]) ∨
      (arg16Of d = 102 ∧ j = .mirrorShift92 d[1] d[2] d[3]) ∨ (arg16Of d = 200 ∧ j = .mirrorRgb888 d[1] d[2] d[3]) ∨
      (arg16Of d = 201 ∧ j = .mirrorYuv422 d[1] d[2] d[3]) ∨ (arg16Of d = 205 ∧ j = .mirrorYuyv d[1] d[2] d[3]) ∨
      (arg16Of d ∉ mirrorFormats ∧ j = .mirrorCode (arg16Of d) d[1] d[2] d[3])) := by
  rcases ite_eq_cases h with ⟨-, h⟩ | ⟨hc, h⟩
  · cases h
  refine ⟨by simpa using hc, ?_⟩
  rcases ite_eq_cases h with ⟨hf, h⟩ | ⟨n1, h⟩
  · exact .inl ⟨hf, (Except.ok.inj h).symm⟩
  refine .inr ?_
  rcases ite_eq_cases h with ⟨hf, h⟩ | ⟨n2, h⟩
  · exact .inl ⟨hf, (Except.ok.inj h).symm⟩
  refine .inr ?_
  rcases ite_eq_cases h with ⟨hf, h⟩ | ⟨n3, h⟩
  · exact .inl ⟨hf, (Except.ok.inj h).symm⟩
  refine .inr ?_
  rcases ite_eq_cases h with ⟨hf, h⟩ | ⟨n4, h⟩
  · exact .inl ⟨hf, (Except.ok.inj h).symm⟩
  refine .inr ?_
  rcases ite_eq_cases h with ⟨hf, h⟩ | ⟨n5, h⟩
  · exact .inl ⟨hf, (Except.ok.inj h).symm⟩
  refine .inr ?_
  rcases ite_eq_cases h with ⟨hf, h⟩ | ⟨n6, h⟩
  · exact .inl ⟨hf, (Except.ok.inj h).symm⟩
  refine .inr ?_
  rcases ite_eq_cases h with ⟨hf, h⟩ | ⟨n7, h⟩
  · exact .inl ⟨hf, (Except.ok.inj h).symm⟩
  refine .inr ?_
  rcases ite_eq_cases h with ⟨hf, h⟩ | ⟨n8, h⟩
  · exact .inl ⟨hf, (Except.ok.inj h).symm⟩
  refine .inr ⟨?_, (Except.ok.inj h).symm⟩
  simp only [mirrorFormats, List.mem_cons, List.not_mem_nil, or_false, not_or]
  exact ⟨n3, n4, n5, n6, n7, n1, n2, n8⟩

/-- Every descriptor that decodes is one row of the opcode map. -/
theorem decode_ok {d : Descriptor} {j : Instr} (h : decode d = .ok j) :
    (opcOf d = 0x00 ∧ plainCommand d .nop = .ok j) ∨ (opcOf d = 0x01 ∧ plainCommand d .s2dInit = .ok j) ∨
    (opcOf d = 0x02 ∧ plainCommand d .s2dUpdate = .ok j) ∨ (opcOf d = 0x03 ∧ plainCommand d .s2dFree = .ok j) ∨
    (opcOf d = 0x04 ∧ decodeSetcfg d = .ok j) ∨
    (opcOf d = 0x05 ∧ plainCommand d (.s2dConvert d[1] d[2] d[3]) = .ok j) ∨
    (opcOf d = 0x06 ∧ flagCommand d (.s2dRdtabS2d d[1] d[2]) (.s2dRdtabD2s d[1] d[2]) = .ok j) ∨
    (opcOf d = 0x10 ∧ plainCommand d (.unpack12 d[1] d[2] d[3] d[4]) = .ok j) ∨
    (opcOf d = 0x11 ∧
      flagCommand d (.uncompPs d[1] d[2] d[3] d[4] d[5]) (.uncompPsLast d[1] d[2] d[3] d[4] d[5]) = .ok j) ∨
    (opcOf d = 0x12 ∧
      flagCommand d (.uncompNew d[1] d[2] d[3] d[4] d[5]) (.uncompNewLast d[1] d[2] d[3] d[4] d[5]) = .ok j) ∨
    (opcOf d = 0x20 ∧ decodeMirror d = .ok j) ∨ (opcOf d = 0x30 ∧ decodeSof d = .ok j) ∨
    (opcOf d = 0x31 ∧ frameCommand d (.frameChunk (ctxOf d) d[1] d[2] d[3] d[4]) = .ok j) ∨
    (opcOf d = 0x32 ∧ frameCommand d (.frameEof (ctxOf d)) = .ok j) ∨
    (opcOf d = 0x40 ∧ plainCommand d (.lu3 d[1] d[2] d[3]) = .ok j) ∨
    (opcOf d = 0x41 ∧ plainCommand d (.planefit d[1] d[2] d[3]) = .ok j) := by
  unfold decode at h
  iterate 15
    refine (ite_eq_cases h).imp id fun h' => ?_
    replace h := h'.2
    clear h'
  rcases ite_eq_cases h with h | ⟨-, h⟩
  · exact h
  · cases h

end Sys2Proof
end

