-- ==== Sys2Proof/Laws/Engine.lean ====
section
/-! SUPPORT. Laws/Engine.lean: what one step is, by the event it takes, and what the engine's run of a latched
descriptor is. -/

namespace Sys2Proof.Machine

theorem step_nil {s : State} (h : s.events = []) : step s = engineRun s := by
  unfold step stepBlock
  rw [h]

theorem step_cons {s : State} {e : Event} {es : List Event} (h : s.events = e :: es) :
    step s = handleEvent e { s with events := es } := by
  unfold step stepBlock
  rw [h]

theorem alignedAccess_iff {off : BitVec 10} {size : AccessSize} :
    alignedAccess off size = true ↔ size = .bits32 ∧ off.toNat % 4 = 0 := by
  simp [alignedAccess]

theorem step_regWrite {s : State} {off : BitVec 10} {v : Word} {es : List Event} (h4 : off.toNat % 4 = 0)
    (h : s.events = .regWrite off .bits32 v :: es) :
    step s = .next (writeWindow off.toNat v { s with events := es }) := by
  rw [step_cons h, handleEvent, if_pos (alignedAccess_iff.2 ⟨rfl, h4⟩)]

theorem step_regRead {s : State} {off : BitVec 10} {es : List Event} (h4 : off.toNat % 4 = 0)
    (h : s.events = .regRead off .bits32 :: es) :
    step s = .next (readWindow off.toNat { s with events := es }) := by
  rw [step_cons h, handleEvent, if_pos (alignedAccess_iff.2 ⟨rfl, h4⟩)]

theorem regAt_control : regAt 0x008 = some .control := rfl

theorem regAt_cmd (k : Fin 8) : regAt (0x040 + 4 * k.val) = some (.cmd k) := by revert k; decide

theorem toNat_cmdOffset (k : Fin 8) : (BitVec.ofNat 10 (0x040 + 4 * k.val)).toNat = 0x040 + 4 * k.val := by
  revert k; decide

@[simp] theorem writeWindow_control (v : Word) (s : State) : writeWindow 0x008 v s = writeControl v s := rfl

theorem writeWindow_cmd (k : Fin 8) (v : Word) (s : State) :
    writeWindow (0x040 + 4 * k.val) v s = if s.busy then s else { s with cmd := s.cmd.set k v } := by
  unfold writeWindow
  rw [regAt_cmd]

theorem ite_cases {α : Type} {P : α → Prop} {c : Prop} [Decidable c] {a b : α} (ha : c → P a) (hb : ¬ c → P b) :
    P (if c then a else b) := by
  split
  · exact ha ‹_›
  · exact hb ‹_›

/-- A register of the calibration block is a calibration register. -/
theorem calibRegAt_cases (off : Nat) : calibRegAt off = none ∨ ∃ f hi, calibRegAt off = some (.calib f hi) := by
  let P : Option Reg → Prop := fun o => o = none ∨ ∃ f hi, o = some (Reg.calib f hi)
  have hit : ∀ f hi, P (some (Reg.calib f hi)) := fun f hi => .inr ⟨f, hi, rfl⟩
  show P (calibRegAt off)
  unfold calibRegAt
  iterate 15 refine ite_cases (P := P) (fun _ => hit _ _) fun _ => ?_
  exact .inl rfl

/-- Only offset 0x008 is CONTROL, and only 0x040 to 0x05C are CMD0 to CMD7. -/
theorem regAt_acting {off : Nat} : ∀ r, regAt off = some r →
    (r = .control → off = 0x008) ∧ (∀ k, r = .cmd k → 0x040 ≤ off ∧ off < 0x060) := by
  let P : Option Reg → Prop := fun o => ∀ r, o = some r →
    (r = .control → off = 0x008) ∧ (∀ k, r = .cmd k → 0x040 ≤ off ∧ off < 0x060)
  have plain : ∀ q : Reg, q ≠ .control → (∀ k, q ≠ .cmd k) → P (some q) := by
    rintro q h1 h2 r ⟨⟩
    exact ⟨fun e => absurd e h1, fun k e => absurd e (h2 k)⟩
  show P (regAt off)
  unfold regAt
  refine ite_cases (P := P) (fun _ => plain _ (by simp) (by simp)) fun _ => ?_
  refine ite_cases (P := P) (fun _ => plain _ (by simp) (by simp)) fun _ => ?_
  refine ite_cases (P := P) (fun h => ?_) fun _ => ?_
  · rintro r ⟨⟩
    exact ⟨fun _ => h, by simp⟩
  iterate 6 refine ite_cases (P := P) (fun _ => plain _ (by simp) (by simp)) fun _ => ?_
  refine ite_cases (P := P) (fun h => ?_) fun _ => ?_
  · rintro r ⟨⟩
    exact ⟨by simp, fun k _ => ⟨h.1, h.2.1⟩⟩
  refine ite_cases (P := P) (fun _ => plain _ (by simp) (by simp)) fun _ => ?_
  refine ite_cases (P := P) (fun _ => ?_) fun _ => ?_
  · cases ctxRegAt ((off - 0x100) % 0x20) with
    | none => rintro r ⟨⟩
    | some q => exact plain _ (by simp) (by simp)
  · rcases calibRegAt_cases off with h | ⟨f, hi, h⟩ <;> rw [h]
    · rintro r ⟨⟩
    · exact plain _ (by simp) (by simp)

/-- CONTROL and CMD0..CMD7 are the only registers a host write acts on. -/
theorem writeWindow_other {off : Nat} (hc : off ≠ 0x008) (hk : off < 0x040 ∨ 0x060 ≤ off) (v : Word) (s : State) :
    writeWindow off v s = s := by
  unfold writeWindow
  split
  · rename_i h
    exact absurd ((regAt_acting _ h).1 rfl) hc
  · rename_i k h
    have := (regAt_acting _ h).2 k rfl
    omega
  · rfl

/-- An idle read returns the register. -/
theorem readWindow_idle {off : Nat} {r : Reg} {s : State} (h : regAt off = some r) (hr : s.running = none) :
    readWindow off s = returnData (readReg s r) s := by
  have hb : s.busy = false := by simp [State.busy, hr]
  unfold readWindow
  rw [h]
  cases r <;> simp only [hb, Bool.false_eq_true, if_false]

/-- A read of a reserved offset returns 0. -/
theorem readWindow_reserved {off : Nat} (h : regAt off = none) (s : State) : readWindow off s = returnData 0 s := by
  unfold readWindow
  rw [h]

/-- While a command runs a read of any register but STATUS and ID returns a free value. -/
theorem readWindow_busy {off : Nat} {r : Reg} {s : State} (h : regAt off = some r) (hr : s.running.isSome = true)
    (h1 : r ≠ .status) (h2 : r ≠ .id) : readWindow off s = returnFree s := by
  have hb : s.busy = true := hr
  unfold readWindow
  rw [h]
  cases r <;> simp_all only [ne_eq, not_true_eq_false, if_true]

theorem step_control {s : State} {v : Word} {es : List Event} (h : s.events = .regWrite 0x008 .bits32 v :: es) :
    step s = .next (writeControl v { s with events := es }) := step_regWrite (by decide) h

theorem startCommand_ignored {s : State} (h : s.running.isSome = true ∨ s.fault = true) : startCommand s = s := by
  unfold startCommand State.busy
  rcases h with h | h <;> simp [h]

theorem startCommand_idle {s : State} (h : s.running = none) (hf : s.fault = false) :
    startCommand s = { s with running := some s.cmd, raced := [] } := by
  simp [startCommand, State.busy, h, hf]

theorem resetNow_idle {s : State} (h : s.running = none) : resetNow s = resetBlock s := by
  unfold resetNow
  rw [h]

theorem resetNow_busy {s : State} {d : Descriptor} (h : s.running = some d) :
    resetNow s = resetBlock (havocRanges s (runningWrites s d)) := by
  unfold resetNow
  rw [h]

theorem engineRun_idle {s : State} (h : s.running = none) : engineRun s = .next s := by
  unfold engineRun
  rw [h]

theorem engineRun_busy {s : State} {d : Descriptor} (h : s.running = some d) (hr : s.raced = []) :
    engineRun s = runDescriptor d s := by
  unfold engineRun
  rw [h, hr]
  rfl

theorem engineRun_raced {s t : State} {d : Descriptor} (h : s.running = some d) (hr : s.raced ≠ [])
    (ht : runDescriptor d (enterRace s) = .next t) : engineRun s = .next (leaveRace s (runningWrites s d) t) := by
  unfold engineRun
  rw [h]
  simp only
  rw [if_neg (by simpa [List.isEmpty_iff] using hr), ht]

theorem legalCommand_eq_some {s : State} {d : Descriptor} {i : Instr} :
    legalCommand s d = some i ↔ decode d = .ok i ∧ i.wellFormed s.params.numCtx = true := by
  unfold legalCommand
  cases h : decode d with
  | error e => simp
  | ok j =>
    simp only [Except.ok.injEq]
    split_ifs with hw
    · simp only [Option.some.injEq]
      exact ⟨fun e => ⟨e, e ▸ hw⟩, fun e => e.1⟩
    · simp only [false_iff, not_and]
      rintro rfl
      exact hw

theorem runDescriptor_legal {s : State} {d : Descriptor} {i : Instr} (h : legalCommand s d = some i) :
    runDescriptor d s = exec i s := by
  unfold runDescriptor
  rw [h]

theorem runDescriptor_illegal {s : State} {d : Descriptor} (h : legalCommand s d = none) :
    runDescriptor d s = .next (statusState s (opcOf d) 0x07) := by
  unfold runDescriptor
  rw [h]
  rfl

theorem runningWrites_legal {s : State} {d : Descriptor} {i : Instr} (h : legalCommand s d = some i) :
    runningWrites s d = writeRanges s i := by
  unfold runningWrites
  rw [h]

/-- What a command reads of the parameters alone decides whether it is legal. -/
theorem legalCommand_congr {s t : State} (h : s.params = t.params) (d : Descriptor) :
    legalCommand s d = legalCommand t d := by
  unfold legalCommand
  rw [h]


end Sys2Proof.Machine
end

