-- ==== Sys2Proof/Laws/PerInstr.lean ====
section
/-! SUPPORT. Laws/PerInstr.lean: statements made once per instruction. -/

namespace Sys2Proof.Laws.OpcodeField

/-- The opcode field of the encoding of a command is the command's opcode (30_encoding.md rules R111, R115). -/
def Statement (i : Instr) : Prop := opcOf (encode i) = i.opcode

theorem nop : Statement .nop := opcOf_descriptor ..

theorem s2dInit : Statement .s2dInit := opcOf_descriptor ..

theorem s2dUpdate : Statement .s2dUpdate := opcOf_descriptor ..

theorem s2dFree : Statement .s2dFree := opcOf_descriptor ..

theorem setcfgZeroPlaneDistance (vlo vhi : Word) : Statement (.setcfgZeroPlaneDistance vlo vhi) := opcOf_descriptor ..

theorem setcfgZeroPlanePixelSize (vlo vhi : Word) : Statement (.setcfgZeroPlanePixelSize vlo vhi) := opcOf_descriptor ..

theorem setcfgEmitterDistance (vlo vhi : Word) : Statement (.setcfgEmitterDistance vlo vhi) := opcOf_descriptor ..

theorem setcfgMaxShift (vlo : Word) : Statement (.setcfgMaxShift vlo) := opcOf_descriptor ..

theorem setcfgMaxDepth (vlo : Word) : Statement (.setcfgMaxDepth vlo) := opcOf_descriptor ..

theorem setcfgConstShift (vlo : Word) : Statement (.setcfgConstShift vlo) := opcOf_descriptor ..

theorem setcfgPixelSizeFactor (vlo : Word) : Statement (.setcfgPixelSizeFactor vlo) := opcOf_descriptor ..

theorem setcfgParamCoeff (vlo : Word) : Statement (.setcfgParamCoeff vlo) := opcOf_descriptor ..

theorem setcfgShiftScale (vlo : Word) : Statement (.setcfgShiftScale vlo) := opcOf_descriptor ..

theorem setcfgMinCutoff (vlo : Word) : Statement (.setcfgMinCutoff vlo) := opcOf_descriptor ..

theorem setcfgMaxCutoff (vlo : Word) : Statement (.setcfgMaxCutoff vlo) := opcOf_descriptor ..

theorem setcfgOutputFormat (vlo : Word) : Statement (.setcfgOutputFormat vlo) := opcOf_descriptor ..

theorem s2dConvert (src count dst : Word) : Statement (.s2dConvert src count dst) := opcOf_descriptor ..

theorem s2dRdtabS2d (dst cap : Word) : Statement (.s2dRdtabS2d dst cap) := opcOf_descriptor ..

theorem s2dRdtabD2s (dst cap : Word) : Statement (.s2dRdtabD2s dst cap) := opcOf_descriptor ..

theorem unpack12 (src srclen dst dstcap : Word) : Statement (.unpack12 src srclen dst dstcap) := opcOf_descriptor ..

theorem uncompPs (src srclen dst dstcap line : Word) : Statement (.uncompPs src srclen dst dstcap line) := opcOf_descriptor ..

theorem uncompPsLast (src srclen dst dstcap line : Word) : Statement (.uncompPsLast src srclen dst dstcap line) := opcOf_descriptor ..

theorem uncompNew (src srclen dst dstcap line : Word) : Statement (.uncompNew src srclen dst dstcap line) := opcOf_descriptor ..

theorem uncompNewLast (src srclen dst dstcap line : Word) : Statement (.uncompNewLast src srclen dst dstcap line) := opcOf_descriptor ..

theorem mirrorGray8 (buf len width : Word) : Statement (.mirrorGray8 buf len width) := opcOf_descriptor ..

theorem mirrorGray16 (buf len width : Word) : Statement (.mirrorGray16 buf len width) := opcOf_descriptor ..

theorem mirrorDepth1mm (buf len width : Word) : Statement (.mirrorDepth1mm buf len width) := opcOf_descriptor ..

theorem mirrorDepth100um (buf len width : Word) : Statement (.mirrorDepth100um buf len width) := opcOf_descriptor ..

theorem mirrorShift92 (buf len width : Word) : Statement (.mirrorShift92 buf len width) := opcOf_descriptor ..

theorem mirrorRgb888 (buf len width : Word) : Statement (.mirrorRgb888 buf len width) := opcOf_descriptor ..

theorem mirrorYuv422 (buf len width : Word) : Statement (.mirrorYuv422 buf len width) := opcOf_descriptor ..

theorem mirrorYuyv (buf len width : Word) : Statement (.mirrorYuyv buf len width) := opcOf_descriptor ..

theorem mirrorCode (fmt : Half) (buf len width : Word) : Statement (.mirrorCode fmt buf len width) := opcOf_descriptor ..

theorem frameSofPacked12 (c : BitVec 4) (wbase wcap line : Word) : Statement (.frameSofPacked12 c wbase wcap line) := opcOf_descriptor ..

theorem frameSofPs (c : BitVec 4) (wbase wcap line : Word) : Statement (.frameSofPs c wbase wcap line) := opcOf_descriptor ..

theorem frameSofNew (c : BitVec 4) (wbase wcap line : Word) : Statement (.frameSofNew c wbase wcap line) := opcOf_descriptor ..

theorem frameChunk (c : BitVec 4) (src offset len bufsize : Word) : Statement (.frameChunk c src offset len bufsize) := opcOf_descriptor ..

theorem frameEof (c : BitVec 4) : Statement (.frameEof c) := opcOf_descriptor ..

theorem lu3 (a b x : Word) : Statement (.lu3 a b x) := opcOf_descriptor ..

theorem planefit (pts n out : Word) : Statement (.planefit pts n out) := opcOf_descriptor ..

end Sys2Proof.Laws.OpcodeField
end

