-- ==== Sys2Proof/Laws/Rounding.lean ====
section
/-! SUPPORT. Laws/Rounding.lean: `NearestEven` leaves one value: the reference the statements hold the binary64
operations to is a function of the sign and the exact magnitude. -/

namespace Sys2Proof.Machine

/-- Two roundings of one magnitude have one exponent: the finer of two would have to reach past its own range, up to
the tie below a power of two, and that tie is odd. -/
theorem NearestEven.exponent_le {v : ℚ} {q q' : Nat} {f f' : Int} (hq : q < 2 ^ 53) (hf : -1074 ≤ f)
    (h : |(q : ℚ) * 2 ^ f - v| ≤ 2 ^ f / 2) (htie : |(q : ℚ) * 2 ^ f - v| = 2 ^ f / 2 → q % 2 = 0)
    (hb : f' = -1074 ∨ 2 ^ 52 ≤ q') (h' : |(q' : ℚ) * 2 ^ f' - v| ≤ 2 ^ f' / 2)
    (hp : f' = -1074 ∨ q' ≠ 2 ^ 52 ∨ (q' : ℚ) * 2 ^ f' - v ≤ 2 ^ f' / 4) : f' ≤ f := by
  by_contra hlt
  obtain ⟨j, hj⟩ : ∃ j : Nat, f' = f + 1 + j := ⟨(f' - f - 1).toNat, by omega⟩
  have hF : (0 : ℚ) < 2 ^ f := zpow_pos (by norm_num) f
  have hs : (2 : ℚ) ^ f' = 2 * 2 ^ j * 2 ^ f := by
    rw [hj, zpow_add₀ (by norm_num), zpow_add₀ (by norm_num), zpow_natCast]
    ring
  have hJ : (1 : ℚ) ≤ 2 ^ j := one_le_pow₀ (by norm_num)
  rw [hs] at h' hp
  rw [abs_le] at h h'
  have hq1 : (q : ℚ) ≤ 2 ^ 53 - 1 := by
    have : q + 1 ≤ 2 ^ 53 := hq
    have : (q : ℚ) + 1 ≤ 2 ^ 53 := by exact_mod_cast this
    linarith
  have hJF : (2 : ℚ) ^ f ≤ 2 ^ j * 2 ^ f := le_mul_of_one_le_left hF.le hJ
  have hqF := mul_le_mul_of_nonneg_right hq1 hF.le
  generalize (2 : ℚ) ^ f = F at *
  have hge : (2 : ℚ) ^ 52 ≤ q' := by exact_mod_cast hb.resolve_left (by omega)
  rcases hp with hp | hp | hp
  · omega
  · have h1 : (2 : ℚ) ^ 52 + 1 ≤ q' := by
      have : 2 ^ 52 + 1 ≤ q' := by
        have := hb.resolve_left (by omega)
        omega
      exact_mod_cast this
    have := mul_le_mul_of_nonneg_right h1 (by linarith : (0 : ℚ) ≤ 2 ^ j * F)
    nlinarith
  · have hm := mul_le_mul_of_nonneg_right hge (by linarith : (0 : ℚ) ≤ 2 ^ j * F)
    have hv : v = (q : ℚ) * F + F / 2 := by nlinarith
    have heq : (q : ℚ) * F = (2 ^ 53 - 1) * F := by nlinarith
    have hodd : q = 2 ^ 53 - 1 := by
      have := mul_right_cancel₀ hF.ne' heq
      have : ((q : ℚ)) = ((2 ^ 53 - 1 : Nat) : ℚ) := by rw [this]; norm_num
      exact_mod_cast this
    have := htie (by rw [hv, show (q : ℚ) * F - (q * F + F / 2) = -(F / 2) by ring, abs_neg, abs_of_pos (by linarith)])
    rw [hodd] at this
    norm_num at this

/-- A magnitude rounds to one value. -/
theorem NearestEven.unique {neg : Bool} {v : ℚ} {r r' : F64} (h : NearestEven neg v r) (h' : NearestEven neg v r') :
    r = r' := by
  obtain ⟨q, f, rfl, hq, hf, hb, he, ht, hp⟩ := h
  obtain ⟨q', f', rfl, hq', hf', hb', he', ht', hp'⟩ := h'
  obtain rfl : f = f' := le_antisymm (exponent_le hq' hf' he' ht' hb he hp) (exponent_le hq hf he ht hb' he' hp')
  have hF : (0 : ℚ) < 2 ^ f := zpow_pos (by norm_num) f
  suffices q = q' by rw [this]
  generalize (2 : ℚ) ^ f = F at *
  have a := abs_le.1 he
  have a' := abs_le.1 he'
  have far : ∀ x y : Nat, x < y → (x : ℚ) * F + F ≤ y * F := by
    intro x y hxy
    have : (x : ℚ) + 1 ≤ y := by exact_mod_cast hxy
    nlinarith
  rcases lt_trichotomy q q' with hlt | heq | hlt
  · have hd := far q q' hlt
    have e1 : (q : ℚ) * F - v = -(F / 2) := by linarith
    have e2 : (q' : ℚ) * F - v = F / 2 := by linarith
    have h1 := ht (by rw [e1, abs_neg, abs_of_pos (by linarith)])
    have h2 := ht' (by rw [e2, abs_of_pos (by linarith)])
    have : q' = q + 1 := by
      have : (q' : ℚ) * F = (q + 1) * F := by linarith
      exact_mod_cast mul_right_cancel₀ hF.ne' this
    omega
  · exact heq
  · have hd := far q' q hlt
    have e1 : (q' : ℚ) * F - v = -(F / 2) := by linarith
    have e2 : (q : ℚ) * F - v = F / 2 := by linarith
    have h1 := ht' (by rw [e1, abs_neg, abs_of_pos (by linarith)])
    have h2 := ht (by rw [e2, abs_of_pos (by linarith)])
    have : q = q' + 1 := by
      have : (q : ℚ) * F = (q' + 1) * F := by linarith
      exact_mod_cast mul_right_cancel₀ hF.ne' this
    omega

end Sys2Proof.Machine
end

