-- ==== Sys2Proof/Tests/Slice0.lean ====
section
/-! SUPPORT. Tests/Slice0.lean: the model's own tests. Expected results come from the vectors of
95_test_vectors.md, named in each comment, or from hand calculation by the rules cited. The witness theorems show
concrete states and operands that meet the hypotheses of the statements in Certificates/Slice0/Obligations.lean. -/

namespace Sys2Proof.Tests

open Sys2Proof Sys2Proof.Machine

/-- Small parameters: two contexts, lines of at most 8 pixels, CONT_CAP = 23, FINE_SCALE_MULT = 2, and all addresses
below 0x40000 in ADMITTED. -/
def tp : Params where
  numCtxPred := 1
  mirrorMaxPred := 7
  contCapOver := 0
  fineScaleMult := 2
  blockId := 0xABCD
  admittedRanges := [(0, 0x40000)]

/-- The machine after reset with the small parameters. -/
def t0 : State := State.resetWith tp

/-- `s` with bytes in data memory. -/
def put (a : Nat) (bs : List Nat) (s : State) : State := { s with mem := s.mem.writeList a (bs.map (BitVec.ofNat 8)) }

/-- The `n` bytes at `a`, as numbers. -/
def bytesAt (t : State) (a n : Nat) : List Nat := (t.mem.readList a n).map BitVec.toNat

/-- The outcome is a next state with a property. -/
def nextAnd (o : Host.Outcome State Fault Refusal) (p : State → Bool) : Bool :=
  match o with
  | .next t => p t
  | .fault _ => false
  | .refused _ => false

/-- The command ended with a status and four results, and the next state has a property. -/
def ended (o : Host.Outcome State Fault Refusal) (st : Nat) (r : List Nat) (p : State → Bool) : Bool :=
  nextAnd o fun t => decide (t.lastStatus.toNat = st) && decide (t.result.toList.map BitVec.toNat = r) && p t

/-- The command ended in the fault state with a cause, info and value, and the next state has a property. -/
def faulted (o : Host.Outcome State Fault Refusal) (cause info value : Nat) (p : State → Bool) : Bool :=
  nextAnd o fun t => t.fault && decide (t.lastStatus.toNat = 0xFF) && decide (t.faultCause.toNat = cause) &&
    decide (t.faultInfo.toNat = info) && decide (t.faultValue.toNat = value) && p t

/-- No property. -/
def anyState (_ : State) : Bool := true

/-! ### Well-formedness: each check refuses an ill-formed term -/

-- rule R113: CTX must be below NUM_CTX
theorem test_wf_refuses_context : (Instr.frameEof 2).wellFormed 2 = false := by decide
theorem test_wf_accepts_context : (Instr.frameEof 1).wellFormed 2 = true := by decide
-- opcode_table.json: GRAY8 has its own row
theorem test_wf_refuses_known_format : (Instr.mirrorCode 202 0 0 0).wellFormed 16 = false := by decide
theorem test_wf_accepts_other_format : (Instr.mirrorCode 204 0 0 0).wellFormed 16 = true := by decide

/-! ### Decoding: the descriptor of every constructor, written out from the field tables of 30_encoding.md (rules
R111, R115, R116, R119, R120, R121) -/

theorem test_decode_nop : decode #v[0x00000000, 9, 9, 9, 9, 9, 9, 9] = .ok .nop := rfl
theorem test_decode_s2dInit : decode #v[0x00000001, 9, 9, 9, 9, 9, 9, 9] = .ok .s2dInit := rfl
theorem test_decode_s2dUpdate : decode #v[0x00000002, 9, 9, 9, 9, 9, 9, 9] = .ok .s2dUpdate := rfl
theorem test_decode_s2dFree : decode #v[0x00000003, 9, 9, 9, 9, 9, 9, 9] = .ok .s2dFree := rfl
theorem test_decode_setcfgZeroPlaneDistance :
    decode #v[0x00000004, 1, 2, 9, 9, 9, 9, 9] = .ok (.setcfgZeroPlaneDistance 1 2) := rfl
theorem test_decode_setcfgZeroPlanePixelSize :
    decode #v[0x00010004, 1, 2, 9, 9, 9, 9, 9] = .ok (.setcfgZeroPlanePixelSize 1 2) := rfl
theorem test_decode_setcfgEmitterDistance :
    decode #v[0x00020004, 1, 2, 9, 9, 9, 9, 9] = .ok (.setcfgEmitterDistance 1 2) := rfl
theorem test_decode_setcfgMaxShift : decode #v[0x00030004, 1, 9, 9, 9, 9, 9, 9] = .ok (.setcfgMaxShift 1) := rfl
theorem test_decode_setcfgMaxDepth : decode #v[0x00040004, 1, 9, 9, 9, 9, 9, 9] = .ok (.setcfgMaxDepth 1) := rfl
theorem test_decode_setcfgConstShift : decode #v[0x00050004, 1, 9, 9, 9, 9, 9, 9] = .ok (.setcfgConstShift 1) := rfl
theorem test_decode_setcfgPixelSizeFactor :
    decode #v[0x00060004, 1, 9, 9, 9, 9, 9, 9] = .ok (.setcfgPixelSizeFactor 1) := rfl
theorem test_decode_setcfgParamCoeff : decode #v[0x00070004, 1, 9, 9, 9, 9, 9, 9] = .ok (.setcfgParamCoeff 1) := rfl
theorem test_decode_setcfgShiftScale : decode #v[0x00080004, 1, 9, 9, 9, 9, 9, 9] = .ok (.setcfgShiftScale 1) := rfl
theorem test_decode_setcfgMinCutoff : decode #v[0x00090004, 1, 9, 9, 9, 9, 9, 9] = .ok (.setcfgMinCutoff 1) := rfl
theorem test_decode_setcfgMaxCutoff : decode #v[0x000A0004, 1, 9, 9, 9, 9, 9, 9] = .ok (.setcfgMaxCutoff 1) := rfl
theorem test_decode_setcfgOutputFormat :
    decode #v[0x000B0004, 1, 9, 9, 9, 9, 9, 9] = .ok (.setcfgOutputFormat 1) := rfl
theorem test_decode_s2dConvert : decode #v[0x00000005, 1, 2, 3, 9, 9, 9, 9] = .ok (.s2dConvert 1 2 3) := rfl
theorem test_decode_s2dRdtabS2d : decode #v[0x00000006, 1, 2, 9, 9, 9, 9, 9] = .ok (.s2dRdtabS2d 1 2) := rfl
theorem test_decode_s2dRdtabD2s : decode #v[0x00001006, 1, 2, 9, 9, 9, 9, 9] = .ok (.s2dRdtabD2s 1 2) := rfl
theorem test_decode_unpack12 : decode #v[0x00000010, 1, 2, 3, 4, 9, 9, 9] = .ok (.unpack12 1 2 3 4) := rfl
theorem test_decode_uncompPs : decode #v[0x00000011, 1, 2, 3, 4, 5, 9, 9] = .ok (.uncompPs 1 2 3 4 5) := rfl
theorem test_decode_uncompPsLast : decode #v[0x00001011, 1, 2, 3, 4, 5, 9, 9] = .ok (.uncompPsLast 1 2 3 4 5) := rfl
theorem test_decode_uncompNew : decode #v[0x00000012, 1, 2, 3, 4, 5, 9, 9] = .ok (.uncompNew 1 2 3 4 5) := rfl
theorem test_decode_uncompNewLast : decode #v[0x00001012, 1, 2, 3, 4, 5, 9, 9] = .ok (.uncompNewLast 1 2 3 4 5) := rfl
theorem test_decode_mirrorGray8 : decode #v[0x00CA0020, 1, 2, 3, 9, 9, 9, 9] = .ok (.mirrorGray8 1 2 3) := rfl
theorem test_decode_mirrorGray16 : decode #v[0x00CB0020, 1, 2, 3, 9, 9, 9, 9] = .ok (.mirrorGray16 1 2 3) := rfl
theorem test_decode_mirrorDepth1mm : decode #v[0x00640020, 1, 2, 3, 9, 9, 9, 9] = .ok (.mirrorDepth1mm 1 2 3) := rfl
theorem test_decode_mirrorDepth100um :
    decode #v[0x00650020, 1, 2, 3, 9, 9, 9, 9] = .ok (.mirrorDepth100um 1 2 3) := rfl
theorem test_decode_mirrorShift92 : decode #v[0x00660020, 1, 2, 3, 9, 9, 9, 9] = .ok (.mirrorShift92 1 2 3) := rfl
theorem test_decode_mirrorRgb888 : decode #v[0x00C80020, 1, 2, 3, 9, 9, 9, 9] = .ok (.mirrorRgb888 1 2 3) := rfl
theorem test_decode_mirrorYuv422 : decode #v[0x00C90020, 1, 2, 3, 9, 9, 9, 9] = .ok (.mirrorYuv422 1 2 3) := rfl
theorem test_decode_mirrorYuyv : decode #v[0x00CD0020, 1, 2, 3, 9, 9, 9, 9] = .ok (.mirrorYuyv 1 2 3) := rfl
theorem test_decode_mirrorCode : decode #v[0x00CC0020, 1, 2, 3, 9, 9, 9, 9] = .ok (.mirrorCode 204 1 2 3) := rfl
theorem test_decode_frameSofPacked12 :
    decode #v[0x00000130, 1, 2, 3, 9, 9, 9, 9] = .ok (.frameSofPacked12 1 1 2 3) := rfl
theorem test_decode_frameSofPs : decode #v[0x00001030, 1, 2, 3, 9, 9, 9, 9] = .ok (.frameSofPs 0 1 2 3) := rfl
theorem test_decode_frameSofNew : decode #v[0x00002F30, 1, 2, 3, 9, 9, 9, 9] = .ok (.frameSofNew 15 1 2 3) := rfl
theorem test_decode_frameChunk : decode #v[0x00000231, 1, 2, 3, 4, 9, 9, 9] = .ok (.frameChunk 2 1 2 3 4) := rfl
theorem test_decode_frameEof : decode #v[0x00000332, 9, 9, 9, 9, 9, 9, 9] = .ok (.frameEof 3) := rfl
theorem test_decode_lu3 : decode #v[0x00000040, 1, 2, 3, 9, 9, 9, 9] = .ok (.lu3 1 2 3) := rfl
theorem test_decode_planefit : decode #v[0x00000041, 1, 2, 3, 9, 9, 9, 9] = .ok (.planefit 1 2 3) := rfl

-- rules R113, R117, and the rows of 95_test_vectors.md section 2.9
theorem test_decode_refuses_reserved : decode #v[0x00000007, 0, 0, 0, 0, 0, 0, 0] = .error .reservedOpcode := rfl
theorem test_decode_refuses_unused_flags : decode #v[0x00001001, 0, 0, 0, 0, 0, 0, 0] = .error .unusedField := rfl
theorem test_decode_refuses_field_12 : decode #v[0x000C0004, 0, 0, 0, 0, 0, 0, 0] = .error .badFieldId := rfl
theorem test_decode_refuses_kind_3 : decode #v[0x00003030, 0, 0, 0, 0, 0, 0, 0] = .error .badFlags := rfl

-- the opcode table's numbering: bit 0 is the least significant bit of CMD0
theorem test_table_word : decodeTableWord 32 0x00CD0020 = some (.mirrorYuyv 0 0 0) := rfl
theorem test_table_word_operands : decodeTableWord 96 0x000000030000000200001006 = some (.s2dRdtabD2s 2 3) := rfl

/-! ### One step of each command -/

-- V-S3, section 2.9
theorem test_nop : ended (exec .nop t0) 0 [0, 0, 0, 0] (fun t => decide (statusWord t = 0)) = true := by decide
theorem test_illegal_status :
    ended (step (t0.withFetchWord 32 0x00000007)) 7 [0, 0, 0, 0] (fun t => decide (statusWord t = 0x00070700)) = true := by
  decide
theorem test_illegal_context :
    ended (step (t0.withFetchWord 32 0x00000231)) 7 [0, 0, 0, 0] (fun t => decide (statusWord t = 0x00310700)) = true := by
  decide

/-- Registers for which every depth is exactly 3: Z = 3.0 and ZERO_PLANE_PIXEL_SIZE = 0.0, so that metric = 0
(40_s2d_engine.md rule R154), with MAX_SHIFT = 3, MAX_DEPTH = 4 and cutoffs 0 and 4. -/
def flatCalib : Calib where
  zeroPlaneDistance := 0x4008000000000000
  zeroPlanePixelSize := 0
  emitterDistance := 0x3FF0000000000000
  maxShift := 3
  maxDepth := 4
  constShift := 0
  pixelSizeFactor := 1
  paramCoeff := 1
  shiftScale := 1
  minCutoff := 0
  maxCutoff := 4
  outputFormat := 100

/-- Tables not built yet. -/
def tFlat : State := { t0 with calib := flatCalib }

/-- The tables of `flatCalib` by hand (rules R154, R155): shifts 1 and 2 are kept with depth 3, so D2S[0..2] = 0, and
the tail maps 3 and 4 to shift 2. -/
def tBuilt : State :=
  { tFlat with tablesValid := true, tblNShift := 4, tblNDepth := 5, s2d := [0, 3, 3, 0], d2s := [0, 0, 0, 2, 2] }

theorem test_s2dInit :
    ended (exec .s2dInit tFlat) 0 [4, 5, 0, 0] (fun t => decide (t.s2d = [0, 3, 3, 0]) &&
      decide (t.d2s = [0, 0, 0, 2, 2]) && decide (statusWord t = 0x00010004)) = true := by
  decide +kernel
-- V-S3
theorem test_s2dUpdate_without_tables :
    faulted (exec .s2dUpdate t0) 1 0 0 (fun t => decide (statusWord t = 0x0002FF02)) = true := by decide
theorem test_s2dUpdate :
    ended (exec .s2dUpdate { tBuilt with s2d := [7, 7, 7, 7] }) 0 [4, 5, 0, 0]
      (fun t => decide (t.s2d = [0, 3, 3, 0]) && decide (t.d2s = [0, 0, 0, 2, 2])) = true := by
  decide +kernel
theorem test_s2dFree :
    ended (exec .s2dFree tBuilt) 0 [0, 0, 0, 0] (fun t => decide (statusWord t = 0x00030000) &&
      decide (t.tblNShift = 0)) = true := by
  decide

/-- SCEN of 40_s2d_engine.md. -/
def scen : Calib where
  zeroPlaneDistance := 0x405E000000000000
  zeroPlanePixelSize := 0x3FB999999999999A
  emitterDistance := 0x401E000000000000
  maxShift := 2047
  maxDepth := 10000
  constShift := 200
  pixelSizeFactor := 1
  paramCoeff := 4
  shiftScale := 10
  minCutoff := 50
  maxCutoff := 9999
  outputFormat := 100

/-- The integer depth of a shift index, when it is kept. -/
def scenDepth (c : Calib) (i : Nat) : Option Nat :=
  let d := shiftDepth (buildConsts tp c) i
  if keptDepth (buildConsts tp c) d then some d.truncHalf.toNat else none

-- V-S1, S3
theorem test_scen_depths :
    [1, 3, 4, 8, 799, 800, 801, 1064, 1065, 1066, 2045].map (scenDepth scen) =
      [some 327, some 327, some 328, some 329, some 1190, some 1194, some 1198, some 9600, some 9863, none, none] := by
  decide +kernel
-- V-G2: SHIFT_SCALE = 20, and OUTPUT_FORMAT = 101 with FINE_SCALE_MULT = 2
theorem test_scen_scaled :
    scenDepth { scen with shiftScale := 20 } 1 = some 654 ∧ scenDepth { scen with outputFormat := 101 } 800 = some 2388 ∧
      scenDepth { scen with outputFormat := 101 } 1029 = some 9931 ∧
      scenDepth { scen with outputFormat := 101 } 1030 = none := by
  decide +kernel

-- V-G1 rows 8, 9, 10, 6, 4, 7, 1, 5, and accepted values by rules R158, R159
theorem test_setcfgZeroPlaneDistance :
    ended (exec (.setcfgZeroPlaneDistance 0 0x405E0000) t0) 0 [1, 0, 0, 0]
      (fun t => decide (t.calib.zeroPlaneDistance = 0x405E000000000000)) = true := by decide
theorem test_setcfgZeroPlanePixelSize :
    ended (exec (.setcfgZeroPlanePixelSize 0x9999999A 0x3FB99999) t0) 0 [1, 0, 0, 0]
      (fun t => decide (t.calib.zeroPlanePixelSize = 0x3FB999999999999A)) = true := by decide
theorem test_setcfgEmitterDistance :
    ended (exec (.setcfgEmitterDistance 0 0x401E0000) t0) 0 [1, 0, 0, 0]
      (fun t => decide (t.calib.emitterDistance = 0x401E000000000000)) = true := by decide
theorem test_setcfgMaxShift :
    ended (exec (.setcfgMaxShift 0xFFFF) t0) 0 [1, 0, 0, 0] (fun t => decide (t.calib.maxShift = 0xFFFF)) = true := by
  decide
theorem test_setcfgMaxShift_too_wide :
    ended (exec (.setcfgMaxShift 0x10000) t0) 3 [0, 0, 0, 0] (fun t => decide (t.calib = t0.calib)) = true := by decide
theorem test_setcfgMaxDepth :
    ended (exec (.setcfgMaxDepth 10000) t0) 0 [1, 0, 0, 0] (fun t => decide (t.calib.maxDepth = 10000)) = true := by
  decide
theorem test_setcfgMaxDepth_below_cutoff :
    ended (exec (.setcfgMaxDepth 5000) { t0 with calib := scen }) 3 [0, 0, 0, 0] (fun t => decide (t.calib = scen))
      = true := by decide
theorem test_setcfgConstShift :
    ended (exec (.setcfgConstShift 0xFFFFFF38) t0) 0 [1, 0, 0, 0] (fun t => decide (t.calib.constShift.toInt = -200))
      = true := by decide
theorem test_setcfgPixelSizeFactor :
    ended (exec (.setcfgPixelSizeFactor 1) t0) 0 [1, 0, 0, 0] (fun t => decide (t.calib.pixelSizeFactor = 1)) = true := by
  decide
theorem test_setcfgParamCoeff :
    ended (exec (.setcfgParamCoeff 4) t0) 0 [1, 0, 0, 0] (fun t => decide (t.calib.paramCoeff = 4)) = true := by decide
-- rules R154, R160: the cascade doubles the depth to 6, which is past MAX_CUTOFF
theorem test_setcfgShiftScale_cascades :
    ended (exec (.setcfgShiftScale 2) tBuilt) 0 [1, 1, 0, 0]
      (fun t => decide (t.s2d = [0, 0, 0, 0]) && decide (t.d2s = [0, 0, 0, 0, 0])) = true := by
  decide +kernel
theorem test_setcfgMinCutoff_rejected :
    ended (exec (.setcfgMinCutoff 50) t0) 3 [0, 0, 0, 0] (fun t => decide (t.cfgEpoch = 0)) = true := by decide
theorem test_setcfgMaxCutoff :
    ended (exec (.setcfgMaxCutoff 10000) { t0 with calib := scen }) 0 [1, 0, 0, 0]
      (fun t => decide (t.calib.maxCutoff = 10000)) = true := by decide
theorem test_setcfgMaxCutoff_rejected :
    ended (exec (.setcfgMaxCutoff 10001) { t0 with calib := scen }) 3 [0, 0, 0, 0] anyState = true := by decide
theorem test_setcfgOutputFormat :
    ended (exec (.setcfgOutputFormat 102) t0) 0 [1, 0, 0, 0] (fun t => decide (t.calib.outputFormat = 102)) = true := by
  decide
theorem test_setcfgOutputFormat_rejected :
    ended (exec (.setcfgOutputFormat 201) t0) 3 [0, 0, 0, 0] anyState = true := by decide

-- V-K1 with the small tables, by rule R162
theorem test_s2dConvert :
    ended (exec (.s2dConvert 0x1001 3 0x1001) (put 0x1001 [0, 0, 1, 0, 3, 0] tBuilt)) 0 [3, 0, 0, 0]
      (fun t => decide (bytesAt t 0x1001 6 = [0, 0, 3, 0, 0, 0])) = true := by decide
theorem test_s2dConvert_bad_shift :
    faulted (exec (.s2dConvert 0x1000 2 0x1100) (put 0x1000 [1, 0, 4, 0] tBuilt)) 2 1 4 anyState = true := by decide
-- V-K1
theorem test_s2dRdtabS2d :
    ended (exec (.s2dRdtabS2d 0x2000 8) tBuilt) 0 [8, 0, 0, 0]
      (fun t => decide (bytesAt t 0x2000 9 = [0, 0, 3, 0, 3, 0, 0, 0, 0])) = true := by decide
theorem test_s2dRdtabD2s_overflow :
    ended (exec (.s2dRdtabD2s 0x2000 9) tBuilt) 2 [0, 0, 0, 0] (fun t => decide (t.mem = tBuilt.mem)) = true := by decide
theorem test_s2dRdtabD2s :
    ended (exec (.s2dRdtabD2s 0x2000 10) tBuilt) 0 [10, 0, 0, 0]
      (fun t => decide (bytesAt t 0x2000 10 = [0, 0, 0, 0, 0, 0, 2, 0, 2, 0])) = true := by decide

/-- E1 of section 2.4. -/
def e1 : List Nat :=
  [0x32, 0x04, 0x29, 0x7F, 0xD7, 0xFE, 0x7F, 0xFF, 0xFF, 0x00, 0x00, 0x01, 0x42, 0x84, 0x2A, 0x14, 0x70, 0x01, 0x00,
    0x20, 0x03, 0x00, 0x40, 0x05]

/-- MAX_SHIFT = 2047 and OUTPUT_FORMAT = SHIFT_9_2, the second row of V-U2. -/
def tShift : State := { t0 with calib := { Calib.reset with maxShift := 2047, outputFormat := 102 } }

-- V-U2
theorem test_unpack12 :
    ended (exec (.unpack12 0x1000 24 0x1100 32) (put 0x1000 e1 tShift)) 0 [24, 32, 0, 0]
      (fun t => decide ((List.range 16).map (fun i => halfAt t.mem (0x1100 + 2 * i)) =
        [800, 1065, 2045, 0, 0, 0, 0, 1, 1064, 1066, 327, 1, 2, 3, 4, 5])) = true := by
  decide +kernel
-- V-U1, rows 6 and 7
theorem test_unpack12_without_tables :
    faulted (exec (.unpack12 0x1000 24 0x1100 32) (put 0x1000 e1 t0)) 1 0 0 anyState = true := by decide +kernel

/-- IMG of section 2.6. -/
def img : List Nat := [0xF1, 0x0F, 0x2F, 0x30, 0xF2, 0x0E, 0x1D, 0x96, 0xFF, 0xFF, 0x00, 0xDD, 0xC8]

-- V-C5, V-C7, V-C16, V-C15
theorem test_uncompPs :
    ended (exec (.uncompPs 0x1000 5 0x2000 16 4) (put 0x1000 [0xF1, 0x0F, 0x2F, 0x30, 0xF1] t0)) 0 [4, 4, 0, 0]
      (fun t => decide (bytesAt t 0x2000 5 = [0x10, 0x2F, 0xFD, 0x29, 0])) = true := by decide +kernel
theorem test_uncompPs_geometry :
    faulted (exec (.uncompPs 0x1000 4 0x2000 16 0) t0) 4 0 4 anyState = true := by decide +kernel
theorem test_uncompPsLast :
    ended (exec (.uncompPsLast 0x1000 13 0x2000 64 4) (put 0x1000 img t0)) 0 [13, 12, 0, 0]
      (fun t => decide (bytesAt t 0x2000 13 = [0x10, 0x2F, 0xFD, 0x29, 0x20, 0x1D, 0x03, 0x1D, 0xFF, 0, 6, 2, 0]))
      = true := by decide +kernel
theorem test_uncompPsLast_truncated :
    ended (exec (.uncompPsLast 0x1000 6 0x2000 16 4) (put 0x1000 [0xF1, 0x0F, 0x2F, 0x30, 0xF1, 0x0F] t0)) 1
      [0, 0, 0, 0] (fun t => decide (bytesAt t 0x2000 4 = [0, 0, 0, 0])) = true := by decide +kernel
-- V-C9, V-C13
theorem test_uncompNew :
    ended (exec (.uncompNew 0x1000 3 0x2000 16 2) (put 0x1000 [0xFA, 0xB7, 0xD5] t0)) 0 [2, 2, 0, 0]
      (fun t => decide (bytesAt t 0x2000 3 = [0xAB, 0x01, 0])) = true := by decide +kernel
theorem test_uncompNew_no_line :
    ended (exec (.uncompNew 0x1000 2 0x2000 16 4) (put 0x1000 [0x6C, 0x0D] t0)) 0 [0, 0, 0, 0] anyState = true := by
  decide +kernel
-- V-C10, V-C12
theorem test_uncompNewLast :
    ended (exec (.uncompNewLast 0x1000 4 0x2000 16 2) (put 0x1000 [0xFA, 0xB7, 0xD5, 0x6F] t0)) 0 [4, 4, 0, 0]
      (fun t => decide (bytesAt t 0x2000 4 = [0xAB, 0x01, 0xFF, 0x00])) = true := by decide +kernel
theorem test_uncompNewLast_filler :
    ended (exec (.uncompNewLast 0x1000 2 0x2000 16 4) (put 0x1000 [0x6C, 0x0D] t0)) 0 [2, 3, 0, 0]
      (fun t => decide (bytesAt t 0x2000 3 = [0x00, 0x06, 0xFA])) = true := by decide +kernel

-- V-M1 to V-M8, V-M11, V-M14, V-M15, V-M16, with MIRROR_MAX_LINE_PIXELS = 8
theorem test_mirrorGray8 :
    ended (exec (.mirrorGray8 0x1000 6 3) (put 0x1000 [1, 2, 3, 4, 5, 6] t0)) 0 [2, 0, 0, 0]
      (fun t => decide (bytesAt t 0x1000 6 = [3, 2, 1, 6, 5, 4])) = true := by decide +kernel
theorem test_mirrorGray8_geometry :
    faulted (exec (.mirrorGray8 0x1000 7 3) t0) 4 3 7 anyState = true := by decide +kernel
theorem test_mirrorGray16 :
    ended (exec (.mirrorGray16 0x1000 8 2) (put 0x1000 [1, 2, 3, 4, 5, 6, 7, 8] t0)) 0 [2, 0, 0, 0]
      (fun t => decide (bytesAt t 0x1000 8 = [3, 4, 1, 2, 7, 8, 5, 6])) = true := by decide +kernel
theorem test_mirrorDepth1mm :
    ended (exec (.mirrorDepth1mm 0x1000 6 3) (put 0x1000 [0xAA, 4, 0xBB, 5, 0xCC, 6] t0)) 0 [1, 0, 0, 0]
      (fun t => decide (bytesAt t 0x1000 6 = [0xCC, 6, 0xBB, 5, 0xAA, 4])) = true := by decide +kernel
theorem test_mirrorDepth100um :
    ended (exec (.mirrorDepth100um 0x1000 6 3) (put 0x1000 [0xAA, 4, 0xBB, 5, 0xCC, 6] t0)) 0 [1, 0, 0, 0]
      (fun t => decide (bytesAt t 0x1000 6 = [0xCC, 6, 0xBB, 5, 0xAA, 4])) = true := by decide +kernel
theorem test_mirrorShift92 :
    ended (exec (.mirrorShift92 0x1000 8 9) t0) 1 [0, 0, 0, 0] anyState = true := by decide +kernel
theorem test_mirrorRgb888 :
    ended (exec (.mirrorRgb888 0x1000 12 4) (put 0x1000 [1, 2, 3, 4, 5, 6, 7, 8, 9, 10, 11, 12] t0)) 0 [1, 0, 0, 0]
      (fun t => decide (bytesAt t 0x1000 12 = [10, 11, 12, 7, 8, 9, 4, 5, 6, 1, 2, 3])) = true := by decide +kernel
theorem test_mirrorYuv422 :
    ended (exec (.mirrorYuv422 0x1000 8 4) (put 0x1000 [0x10, 0x20, 0x30, 0x40, 0x11, 0x21, 0x31, 0x41] t0)) 0
      [1, 0, 0, 0]
      (fun t => decide (bytesAt t 0x1000 8 = [0x11, 0x41, 0x31, 0x21, 0x10, 0x40, 0x30, 0x20])) = true := by
  decide +kernel
theorem test_mirrorYuv422_odd :
    faulted (exec (.mirrorYuv422 0x1000 12 3) t0) 4 3 12 anyState = true := by decide +kernel
theorem test_mirrorYuyv :
    ended (exec (.mirrorYuyv 0x1000 8 4) (put 0x1000 [0x20, 0x10, 0x40, 0x30, 0x21, 0x11, 0x41, 0x31] t0)) 0
      [1, 0, 0, 0]
      (fun t => decide (bytesAt t 0x1000 8 = [0x41, 0x11, 0x21, 0x31, 0x40, 0x10, 0x20, 0x30])) = true := by
  decide +kernel
theorem test_mirrorCode : ended (exec (.mirrorCode 204 0x1000 12 2) t0) 4 [0, 0, 0, 0] anyState = true := by decide

/-- Context 0 after a start of frame. -/
def ctxPs (cap : Word) (cont : List Byte) : Context :=
  { Context.reset with
    state := .accumulating, kind := .uncompPs, frameId := 1, wbufBase := 0x30000, wbufCap := cap, lineBytes := 4
    cont := cont }

/-- Context 0 of a packed-12 frame, V-FR1. -/
def ctxPacked (cap : Word) (cont : List Byte) : Context :=
  { Context.reset with
    state := .accumulating, kind := .packed12, frameId := 1, wbufBase := 0x20000, wbufCap := cap, cont := cont }

-- V-FR1, V-FR10, V-FR9
theorem test_frameSofPacked12 :
    ended (exec (.frameSofPacked12 0 0x20000 640 0) t0) 0 [1, 0, 0, 0]
      (fun t => decide (getContext t 0 = ctxPacked 640 []) && decide (ctxStateWord (getContext t 0) = 1)) = true := by
  decide +kernel
theorem test_frameSofPs_geometry :
    faulted (exec (.frameSofPs 0 0x30000 64 0) t0) 4 0 0 anyState = true := by decide +kernel
theorem test_frameSofPs :
    ended (exec (.frameSofPs 0 0x30000 64 4) t0) 0 [1, 0, 0, 0] (fun t => decide (getContext t 0 = ctxPs 64 []))
      = true := by decide +kernel
theorem test_frameSofNew :
    ended (exec (.frameSofNew 1 0x30000 64 2) t0) 0 [1, 0, 0, 0]
      (fun t => decide (ctxStateWord (getContext t 1) = 9) && decide (getContext t 0 = Context.reset)) = true := by
  decide +kernel
-- V-FR6, the second chunk; V-FR7
theorem test_frameChunk :
    ended (exec (.frameChunk 0 0x1006 6 7 13) (setContext (put 0x1000 img t0) 0
      { ctxPs 64 [0xF2, 0x0E] with wbufSize := 4 })) 0 [12, 0, 1, 0]
      (fun t => decide (bytesAt t 0x30004 8 = [0x20, 0x1D, 0x03, 0x1D, 0xFF, 0, 6, 2]) &&
        decide ((getContext t 0).wbufSize = 12) && decide ((getContext t 0).cont = [])) = true := by
  decide +kernel
theorem test_frameChunk_corrupted :
    ended (exec (.frameChunk 0 0x1000 0 5 5) (setContext (put 0x1000 [0xF1, 0x0F, 0x2F, 0x30, 0xF1] t0) 0
      (ctxPs 64 []))) 0 [0, 1, 1, 0] (fun t => decide (bytesAt t 0x30000 4 = [0, 0, 0, 0])) = true := by
  decide +kernel
-- V-FR2, V-FR4
theorem test_frameEof_idle : ended (exec (.frameEof 0) t0) 5 [0, 0, 0, 0] anyState = true := by decide
theorem test_frameEof :
    ended (exec (.frameEof 0) (setContext t0 0 { ctxPacked 40 [1] with
      wbufSize := 32, corrupted := true, frameId := 2 })) 0 [32, 1, 2, 0]
      (fun t => decide (ctxStateWord (getContext t 0) = 0x12) && decide ((getContext t 0).cont = [])) = true := by
  decide +kernel

/-- f64 encodings as 8 bytes each, lowest address first. -/
def f64s (vs : List Nat) : List Nat := vs.flatMap fun v => (List.range 8).map fun i => v / 256 ^ i % 256

-- V-L1, the last row: the bits test the order of the operations
theorem test_lu3 :
    ended (exec (.lu3 0x3200 0x3248 0x3300) (put 0x3200 (f64s [0x4010000000000000, 0x4008000000000000, 0,
        0x4008000000000000, 0x4010000000000000, 0xBFF0000000000000, 0, 0xBFF0000000000000, 0x4010000000000000,
        0x4038000000000000, 0x403E000000000000, 0xC038000000000000]) t0)) 0 [0, 0, 0, 0]
      (fun t => decide (bytesAt t 0x3300 24 = f64s [0x4007FFFFFFFFFFFE, 0x4010000000000001, 0xC013FFFFFFFFFFFF]))
      = true := by decide +kernel
theorem test_lu3_singular :
    ended (exec (.lu3 0x3200 0x3248 0x3300) t0) 6 [0, 0, 0, 0] anyState = true := by decide +kernel
-- V-L2, the last row and N = 0
theorem test_planefit :
    ended (exec (.planefit 0x3000 4 0x3300) (put 0x3000 (f64s [0, 0, 0, 0x4000000000000000, 0, 0x3FF0000000000000,
        0, 0x4000000000000000, 0x3FF0000000000000, 0x4000000000000000, 0x4000000000000000, 0x4008000000000000]) t0)) 0
      [4, 0, 0, 0]
      (fun t => decide (bytesAt t 0x3300 24 = f64s [0x3FE8000000000000, 0x3FE8000000000000, 0xBFCFFFFFFFFFFFFD]))
      = true := by decide +kernel
theorem test_planefit_no_points :
    ended (exec (.planefit 0x3000 0 0x3300) t0) 6 [0, 0, 0, 0] anyState = true := by decide +kernel

/-! ### The register window, the engine and the host -/

-- section 2.9: GO in the fault state, SOFT_RESET in the fault state
theorem test_go_ignored_in_fault_state :
    nextAnd (step { t0 with fault := true, lastStatus := 0xFF, events := [.regWrite 0x008 .bits32 1] })
      (fun t => decide (t.running = none)) = true := by decide
theorem test_soft_reset_leaves_fault_state :
    nextAnd (step
        { t0 with
          fault := true, lastStatus := 0xFF, calib := scen, cfgEpoch := 14
          events := [.regWrite 0x008 .bits32 3] })
      (fun t => decide (statusWord t = 0) && decide (t.calib.outputFormat = 100) && decide (t.cfgEpoch = 0) &&
        decide (t.running = none)) = true := by decide
-- rules R33 and R34
theorem test_read_id :
    nextAnd (step { t0 with events := [.regRead 0x000 .bits32] }) (fun t => decide (t.readData = 0xABCD)) = true := by
  decide
theorem test_byte_access_refused : step { t0 with events := [.regRead 0x000 .bits8] } = .refused .windowAccessForm := rfl
-- program P1, line 2: ten steps of the protocol issue one command
theorem test_issue :
    nextAnd (Host.Core.run Sys2Proof.core 10
      { t0 with events := issueEvents #v[0x00090004, 0, 0, 0, 0, 0, 0, 0] })
      (fun t => decide (t.cfgEpoch = 1) && decide (t.result[0] = 1) && decide (t.events = [])) = true := by decide
-- the decimal literal 0.1 of program P1, line 7
theorem test_decimal_literal : (f64Literal false 1 (-1)).toBits 0 = 0x3FB999999999999A := by decide +kernel

/-! ### Witnesses: concrete states and operands that meet the hypotheses of the statements together. Where a statement
has clauses, each has its own conjunct or theorem, at a boundary of its range. -/

/-- An outcome that passes a check is a next state that passes it. -/
theorem nextAnd_exists {o : Host.Outcome State Fault Refusal} {p : State → Bool} (h : nextAnd o p = true) :
    ∃ t, o = .next t ∧ p t = true := by
  cases o with
  | next t => exact ⟨t, rfl, h⟩
  | fault f => cases h
  | refused r => cases h

/-- A running S2D_CONVERT of two elements from 0x1000 to 0x1100. -/
def dConvert : Descriptor := encode (.s2dConvert 0x1000 2 0x1100)

/-- `s` with that command running. -/
def running (s : State) : State := { s with running := some dConvert }

/-- `s` with events. -/
def next (es : List Event) (s : State) : State := { s with events := es }

theorem witness_ResetStateValues : tBuilt.running = none := rfl

theorem witness_ResetFromAnyState_input :
    (next [.resetInput] (running t0)).events = .resetInput :: [] ∧
      (next [.resetInput] (running t0)).running = some dConvert ∧
      inRanges 0x10FF (runningWrites (next [.resetInput] (running t0)) dConvert) = false ∧
      inRanges 0x1100 (runningWrites (next [.resetInput] (running t0)) dConvert) = true ∧
      inRanges 0x1103 (runningWrites (next [.resetInput] (running t0)) dConvert) = true ∧
      inRanges 0x1104 (runningWrites (next [.resetInput] (running t0)) dConvert) = false := by decide
theorem witness_ResetFromAnyState_control :
    (2 : Word).getLsbD 1 = true ∧ (3 : Word).getLsbD 1 = true ∧ (0xFFFFFFFF : Word).getLsbD 1 = true ∧
      (next [.regWrite 0x008 .bits32 2] t0).events = [.regWrite 0x008 .bits32 2] ∧
      (next [.regWrite 0x008 .bits32 2] t0).running = none := by decide

theorem witness_CommandRegistersAndStart_control :
    (1 : Word).getLsbD 1 = false ∧ (1 : Word).getLsbD 0 = true ∧ (0xFFFFFFFC : Word).getLsbD 1 = false ∧
      (0xFFFFFFFC : Word).getLsbD 0 = false ∧ (running t0).running.isSome = true ∧
      (next [.regWrite 0x008 .bits32 1] t0).events = [.regWrite 0x008 .bits32 1] ∧ t0.running = none ∧
      t0.fault = false := by decide
theorem witness_CommandRegistersAndStart_registers :
    (next [.regWrite (BitVec.ofNat 10 (0x040 + 4 * (7 : Fin 8).val)) .bits32 5] t0).events =
        [.regWrite 0x05C .bits32 5] ∧
      (next [.regRead (BitVec.ofNat 10 (0x040 + 4 * (0 : Fin 8).val)) .bits32] t0).events = [.regRead 0x040 .bits32] ∧
      legalCommand t0 dConvert = some (.s2dConvert 0x1000 2 0x1100) := by decide
theorem witness_CommandRegistersAndStart_run :
    (running tBuilt).running.isSome = true ∧ (running tBuilt).events = [] ∧
      (next [.engine] (running tBuilt)).events.head? = some .engine ∧ (∃ t, step (running tBuilt) = .next t) ∧
      ∃ t, step (next [.engine] (running tBuilt)) = .next t :=
  ⟨rfl, rfl, rfl, (nextAnd_exists (p := anyState) (by decide)).imp fun _ h => h.1,
    (nextAnd_exists (p := anyState) (by decide)).imp fun _ h => h.1⟩

theorem witness_RegisterWindowAccess_writes :
    ∀ off ∈ [(0x000 : BitVec 10), 0x004, 0x00C, 0x03C, 0x060, 0x080, 0x3FC], off.toNat % 4 = 0 ∧ off.toNat ≠ 0x008 ∧
      (off.toNat < 0x040 ∨ 0x060 ≤ off.toNat) ∧
      (next [.regWrite off .bits32 7] t0).events = [.regWrite off .bits32 7] := by decide
theorem witness_RegisterWindowAccess_reserved :
    ∀ off ∈ [(0x024 : BitVec 10), 0x03C, 0x070, 0x07C, 0x0BC, 0x0FC, 0x300, 0x3FC, 0x11C, 0x2FC], off.toNat % 4 = 0 ∧
      ((0x024 ≤ off.toNat ∧ off.toNat < 0x040) ∨ (0x070 ≤ off.toNat ∧ off.toNat < 0x080) ∨
        (0x0BC ≤ off.toNat ∧ off.toNat < 0x100) ∨ 0x300 ≤ off.toNat ∨
        (0x100 ≤ off.toNat ∧ off.toNat < 0x300 ∧ off.toNat % 0x20 = 0x1C)) := by decide
theorem witness_RegisterWindowAccess_forms :
    (AccessSize.bits8 ≠ .bits32 ∨ (0x000 : BitVec 10).toNat % 4 ≠ 0) ∧
      (AccessSize.bits32 ≠ .bits32 ∨ (0x3FF : BitVec 10).toNat % 4 ≠ 0) ∧
      (next [.regRead 0x3FF .bits32] t0).events = [.regRead 0x3FF .bits32] := by decide
theorem witness_RegisterWindowAccess_reads :
    (next [.regRead 0x000 .bits32] t0).running = none ∧
      (next [.regRead 0x000 .bits32] t0).events = .regRead 0x000 .bits32 :: [] ∧
      (∃ k : Fin 4, (0x06C : BitVec 10) = BitVec.ofNat 10 (0x060 + 4 * k.val)) ∧
      (0x118 : BitVec 10) = BitVec.ofNat 10 (0x100 + 0x20 * (0 : Fin 16).val + 0x18) ∧
      (0x2F8 : BitVec 10) = BitVec.ofNat 10 (0x100 + 0x20 * (15 : Fin 16).val + 0x18) := by decide

theorem witness_BusyReadsAreFree :
    (running t0).running.isSome = true ∧ regAt (0x004 : BitVec 10).toNat = some .status ∧
      regAt (0x000 : BitVec 10).toNat = some .id ∧
      regAt (0x0B8 : BitVec 10).toNat = some (.calib .outputFormat false) ∧
      regAt (0x2F8 : BitVec 10).toNat = some (.ctx 15 .lineBytes) ∧ (0x2F8 : BitVec 10).toNat % 4 = 0 ∧
      (next [.regRead 0x2F8 .bits32] (running t0)).events = [.regRead 0x2F8 .bits32] := by decide

theorem witness_IssueProtocolRunsCommand :
    (next (issueEvents dConvert ++ [.engine]) t0).running = none ∧
      (next (issueEvents dConvert ++ [.engine]) t0).fault = false ∧
      (next (issueEvents dConvert ++ [.engine]) t0).events = issueEvents dConvert ++ [.engine] := ⟨rfl, rfl, rfl⟩

theorem witness_StepRunsDecodedCommand :
    (running t0).running = some dConvert ∧ decode dConvert = .ok (.s2dConvert 0x1000 2 0x1100) ∧
      (Instr.s2dConvert 0x1000 2 0x1100).wellFormed (running t0).params.numCtx = true ∧ (running t0).raced = [] ∧
      (running t0).events = [] ∧ (next [.engine] (running t0)).events = [.engine] :=
  ⟨rfl, rfl, rfl, rfl, rfl, rfl⟩
theorem witness_StepRunsDecodedCommand_raced :
    ({ running tBuilt with raced := [0x1100] } : State).raced ≠ [] ∧
      ∃ t, exec (.s2dConvert 0x1000 2 0x1100) (enterRace { running tBuilt with raced := [0x1100] }) = .next t :=
  ⟨by decide, (nextAnd_exists (p := anyState) (by decide)).imp fun _ h => h.1⟩

theorem witness_IllegalCommands_reserved :
    ∀ o ∈ [(0x07 : BitVec 8), 0x0F, 0x13, 0x1F, 0x21, 0x2F, 0x33, 0x3F, 0x42, 0xFF], ReservedOpcode o.toNat := by decide
theorem witness_IllegalCommands_runs :
    ({ t0 with running := some #v[0x07, 0, 0, 0, 0, 0, 0, 0] } : State).raced = [] ∧
      ({ t0 with running := some #v[0x07, 0, 0, 0, 0, 0, 0, 0] } : State).events = [] ∧
      ReservedOpcode (opcOf #v[0x07, 0, 0, 0, 0, 0, 0, 0]).toNat := by decide
theorem witness_IllegalCommands_plain : FieldViolation 2 #v[0x00000100, 0, 0, 0, 0, 0, 0, 0] := .inl (by decide)
theorem witness_IllegalCommands_setcfg : FieldViolation 2 #v[0x000C0004, 0, 0, 0, 0, 0, 0, 0] :=
  .inr (.inl (by decide))
theorem witness_IllegalCommands_flag : FieldViolation 2 #v[0x00002006, 0, 0, 0, 0, 0, 0, 0] :=
  .inr (.inr (.inl (by decide)))
theorem witness_IllegalCommands_mirror : FieldViolation 2 #v[0x00001020, 0, 0, 0, 0, 0, 0, 0] :=
  .inr (.inr (.inr (.inl (by decide))))
theorem witness_IllegalCommands_sof : FieldViolation 2 #v[0x00003030, 0, 0, 0, 0, 0, 0, 0] :=
  .inr (.inr (.inr (.inr (.inl (by decide)))))
theorem witness_IllegalCommands_context : FieldViolation 2 #v[0x00000231, 0, 0, 0, 0, 0, 0, 0] :=
  .inr (.inr (.inr (.inr (.inr (by decide)))))

theorem witness_UnusedOperandWordsIgnored :
    decode #v[0x00001006, 1, 2, 0, 0, 0, 0, 0] = .ok (.s2dRdtabD2s 1 2) ∧
      (#v[0x00001006, 1, 2, 0, 0, 0, 0, 0] : Descriptor)[0] = (#v[0x00001006, 1, 2, 9, 9, 9, 9, 9] : Descriptor)[0] ∧
      ∀ k : Fin 8, k.val ≤ usedWords (.s2dRdtabD2s 1 2) →
        (#v[0x00001006, 1, 2, 0, 0, 0, 0, 0] : Descriptor)[k] = (#v[0x00001006, 1, 2, 9, 9, 9, 9, 9] : Descriptor)[k] :=
  ⟨rfl, by decide, by decide⟩

theorem witness_DecodeOfEncode :
    (Instr.mirrorCode 204 1 2 3).formatOk = true ∧ (Instr.frameEof 15).formatOk = true := by decide
theorem witness_EncodeOfDecode : decode #v[0x00CC0020, 1, 2, 3, 9, 9, 9, 9] = .ok (.mirrorCode 204 1 2 3) := rfl

/-- A state in which every piece of state is in use: tables built, a frame in progress, bytes in memory, and a
started S2D_SETCFG that rebuilds the tables. -/
def tFull : State :=
  { setContext (put 0x1000 [1, 2] tBuilt) 0 { ctxPs 64 [0xF2, 0x0E] with wbufSize := 64 } with
    running := some (encode (.setcfgShiftScale 2)) }

theorem witness_invariants_step :
    tFull.mem.wf = true ∧ CalibInv tFull.calib ∧ TablesInv tFull ∧ ContextsInv tFull ∧ AbsentContextsInv tFull ∧
      StatusInv tFull ∧ ∃ t, step tFull = .next t :=
  ⟨by decide, by decide, by decide, by decide +kernel, by decide, by decide,
    (nextAnd_exists (p := anyState) (by decide +kernel)).imp fun _ h => h.1⟩
theorem witness_invariants_cutoffs_at_limit : CalibInv { flatCalib with minCutoff := 4, outputFormat := 102 } := by decide
theorem witness_invariants_fault_state :
    StatusInv { t0 with fault := true, lastStatus := 0xFF, faultCause := 6 } ∧
      ∃ t, step { t0 with fault := true, lastStatus := 0xFF, faultCause := 6 } = .next t :=
  ⟨by decide, _, rfl⟩

theorem witness_ParametersNeverChange :
    (∃ t, step (running t0) = .next t) ∧ (next [.regRead 0x000 .bits32] t0).events = .regRead 0x000 .bits32 :: [] :=
  ⟨(nextAnd_exists (p := anyState) (by decide)).imp fun _ h => h.1, rfl⟩

theorem witness_EveryCommandEnds : tBuilt.fault = false := rfl

theorem witness_NonOkStatusChangesNothing :
    ∃ t, exec (.frameEof 0) t0 = .next t ∧ (decide (t.lastStatus ≠ 0x00) && decide (t.lastStatus ≠ 0xFF)) = true :=
  nextAnd_exists (by decide)

theorem witness_FaultEffects_lost :
    tBuilt.fault = false ∧ inRanges 0x1104 (writeRanges tBuilt (.s2dConvert 0x1000 2 0x1100)) = false ∧
      ∃ t, exec (.s2dConvert 0x1000 2 0x1100) (put 0x1000 [4] tBuilt) = .next t ∧
        (t.fault && decide (t.faultCause = 2)) = true :=
  ⟨rfl, by decide, nextAnd_exists (by decide)⟩
theorem witness_FaultEffects_kept :
    ∃ t, exec (.frameSofPs 0 0x30000 64 0) t0 = .next t ∧ (t.fault && decide (t.faultCause = 4)) = true :=
  nextAnd_exists (by decide +kernel)
theorem witness_FaultEffects_others :
    (Instr.frameSofPs 0 0x30000 64 0).ctx? ≠ some 1 ∧ isSetcfg .s2dUpdate = false ∧
      touchesTables (.s2dConvert 0 1 0) = false := by decide

/-- The fault state of cause 1. -/
def tFault : State := { t0 with fault := true, lastStatus := 0xFF, lastOpcode := 0x05, faultCause := 1 }

theorem witness_FaultStateIsSticky :
    tFault.fault = true ∧ tFault.running = none ∧
      (∃ t, step (next [.regWrite 0x008 .bits32 1] tFault) = .next t) ∧
      (next [.regWrite 0x008 .bits32 1] tFault).events.head? ≠ some .resetInput ∧
      (∀ v : Word, v.getLsbD 1 = true →
        (next [.regWrite 0x008 .bits32 1] tFault).events.head? ≠ some (.regWrite 0x008 .bits32 v)) :=
  ⟨rfl, rfl, ⟨_, rfl⟩, by decide, fun v hv h => by
    have h' : v = 1 := by
      simp only [next, List.head?_cons, Option.some.injEq, Event.regWrite.injEq, true_and] at h
      exact h.symm
    subst h'
    exact absurd hv (by decide)⟩

theorem witness_MemoryFrame :
    (∃ t, exec (.s2dConvert 0x1000 2 0x1100) tBuilt = .next t) ∧
      inRanges 0x10FF (writeRanges tBuilt (.s2dConvert 0x1000 2 0x1100)) = false ∧
      inRanges 0x1104 (writeRanges tBuilt (.s2dConvert 0x1000 2 0x1100)) = false ∧
      writeRanges tBuilt (.frameEof 0) = [] :=
  ⟨(nextAnd_exists (p := anyState) (by decide)).imp fun _ h => h.1, by decide, by decide, rfl⟩
theorem witness_ContextAndTableFrame :
    (∃ t, exec (.frameEof 0) t0 = .next t) ∧ (Instr.frameEof 0).ctx? ≠ some 1 ∧ touchesTables (.frameEof 0) = false :=
  ⟨⟨_, rfl⟩, by decide, by decide⟩
theorem witness_CalibrationFrame_commands :
    (∃ t, exec .s2dFree tBuilt = .next t) ∧ isSetcfg .s2dFree = false ∧
      ∃ t, exec (.setcfgMaxDepth 3) tBuilt = .next t ∧ decide (t.lastStatus = 0x03) = true :=
  ⟨⟨_, rfl⟩, by decide, nextAnd_exists (by decide)⟩
theorem witness_CalibrationFrame_events :
    (next [.regWrite 0x080 .bits32 1] tBuilt).events = .regWrite 0x080 .bits32 1 :: [] ∧
      (∃ t, step (next [.regWrite 0x080 .bits32 1] tBuilt) = .next t) ∧
      Event.regWrite 0x080 .bits32 1 ≠ .engine ∧ Event.regWrite 0x080 .bits32 1 ≠ .resetInput ∧
      ∀ v : Word, v.getLsbD 1 = true → Event.regWrite 0x080 .bits32 1 ≠ .regWrite 0x008 .bits32 v :=
  ⟨rfl, ⟨_, rfl⟩, by decide, by decide, fun v _ h => by injection h with h1; exact absurd h1 (by decide)⟩

theorem witness_HostMemoryAccess :
    t0.running = none ∧ t0.mem.wf = true ∧ t0.params.admits (0x3FFFF : Word).toNat = true ∧
      t0.params.admits (0x40000 : Word).toNat = false ∧
      (next [.memWrite 0x3FFFF 5] t0).events = [.memWrite 0x3FFFF 5] ∧
      (next [.memRead 0x3FFFF] t0).events = [.memRead 0x3FFFF] := by decide
theorem witness_Races :
    (running t0).running = some dConvert ∧ t0.params.admits (0x1103 : Word).toNat = true ∧
      inRanges (0x1103 : Word).toNat (runningWrites (running t0) dConvert) = true ∧
      inRanges (0x1104 : Word).toNat (runningWrites (running t0) dConvert) = false ∧
      (running { t0 with raced := [0x1104, 0x1103] }).mem.wf = true := by decide

theorem witness_S2dInitBuilds : CalibInv tFlat.calib ∧ CalibInv Calib.reset := by decide
theorem witness_S2dUpdateRebuilds :
    CalibInv tBuilt.calib ∧ TablesInv tBuilt ∧ tBuilt.tablesValid = true ∧ t0.tablesValid = false := by decide
theorem witness_SetcfgCommits :
    tFlat.tablesValid = false ∧ tFlat.calib.minCutoff ≤ (4 : Half) ∧ tFlat.calib.maxCutoff ≤ (4 : Half) ∧
      (4 : Half) ≤ tFlat.calib.maxDepth ∧ (102 : Half) ∈ ([100, 101, 102] : List Half) := by decide
theorem witness_SetcfgRejects :
    2 ^ 16 ≤ (0x10000 : Word).toNat ∧ (3 : Word).toNat < tFlat.calib.maxCutoff.toNat ∧
      ({ flatCalib with minCutoff := 4, maxCutoff := 0 } : Calib).minCutoff.toNat = (3 : Word).toNat + 1 ∧
      tFlat.calib.maxDepth.toNat < (5 : Word).toNat ∧ (103 : Word).toNat ∉ [100, 101, 102] ∧
      (99 : Word).toNat ∉ [100, 101, 102] := by decide
theorem witness_SetcfgCascades :
    CalibInv tBuilt.calib ∧ TablesInv tBuilt ∧ tBuilt.tablesValid = true ∧
      acceptsField .shiftScale 2 tBuilt.calib = true ∧ acceptsField .maxDepth 4 tBuilt.calib = true ∧
      acceptsField .maxShift 0xFFFF tBuilt.calib = true := by decide
theorem witness_BuildNeverFaults : CalibInv flatCalib ∧ CalibInv { flatCalib with maxCutoff := 0 } := by decide
theorem witness_BuildTableContents : buildTables tp flatCalib 4 5 = .ok ([0, 3, 3, 0], [0, 0, 0, 2, 2]) := by
  decide +kernel
/-- The kept shifts of `flatCalib`. -/
def keptFlat (i : Nat) : Bool :=
  decide (1 ≤ i ∧ i < flatCalib.maxShift.toNat) && keptDepth (buildConsts tp flatCalib) (shiftDepth (buildConsts tp flatCalib) i)
-- the tail holds 3 and 4, the fill of shift 1 covers 0 to 2 and no later one covers 2, and nothing covers 5
theorem witness_BuildTableContents_fills :
    buildTables tp flatCalib 4 6 = .ok ([0, 3, 3, 0], [0, 0, 0, 2, 2, 0]) ∧ lastKeptBelow keptFlat 3 = 2 ∧
      keptFlat 1 = true ∧ lastKeptBelow keptFlat 1 = 0 ∧ keptFlat 2 = true ∧ lastKeptBelow keptFlat 2 = 1 ∧
      keptFlat 3 = false ∧ (F64.ofNat 2).lt (shiftDepth (buildConsts tp flatCalib) 1) = true ∧
      (F64.ofNat 5).lt (shiftDepth (buildConsts tp flatCalib) 2) = false := by decide +kernel
theorem witness_DepthTableInvertsShiftTable :
    CalibInv flatCalib ∧ buildTables tp flatCalib (flatCalib.maxShift.toNat + 1) (flatCalib.maxDepth.toNat + 1) =
        .ok ([0, 3, 3, 0], [0, 0, 0, 2, 2]) ∧
      (∀ i j : Nat, 1 ≤ i ∧ i < flatCalib.maxShift.toNat →
        1 ≤ j ∧ j < flatCalib.maxShift.toNat → i < j →
        (shiftDepth (buildConsts tp flatCalib) j).lt (shiftDepth (buildConsts tp flatCalib) i) = false) ∧
      keptDepth (buildConsts tp flatCalib) (shiftDepth (buildConsts tp flatCalib) 1) = true := by
  refine ⟨by decide, by decide +kernel, ?_, by decide +kernel⟩
  intro i j hi hj hij
  have h3 : flatCalib.maxShift.toNat = 3 := rfl
  obtain rfl : i = 1 := by omega
  obtain rfl : j = 2 := by omega
  decide +kernel

theorem witness_ConvertLooksUpEachElement :
    (put 0x1000 [1, 0, 3, 0] tBuilt).mem.wf = true ∧ tBuilt.tablesValid = true ∧
      Admitted tp (0x1000 : Word).toNat (2 * (2 : Word).toNat) ∧ Admitted tp (0x1004 : Word).toNat (2 * (2 : Word).toNat) ∧
      Apart (0x1000 : Word).toNat (2 * (2 : Word).toNat) (0x1004 : Word).toNat (2 * (2 : Word).toNat) ∧
      (∀ i, i < (2 : Word).toNat →
        halfAt (put 0x1000 [1, 0, 3, 0] tBuilt).mem ((0x1000 : Word).toNat + 2 * i) < tBuilt.tblNShift.toNat) := by decide
theorem witness_ConvertFaultsAtFirstBadShift :
    (put 0x1000 [3, 0, 4, 0] tBuilt).mem.wf = true ∧ tBuilt.tablesValid = true ∧ 1 < (2 : Word).toNat ∧
      (∀ j, j < 1 →
        halfAt (put 0x1000 [3, 0, 4, 0] tBuilt).mem ((0x1000 : Word).toNat + 2 * j) < tBuilt.tblNShift.toNat) ∧
      tBuilt.tblNShift.toNat ≤ halfAt (put 0x1000 [3, 0, 4, 0] tBuilt).mem ((0x1000 : Word).toNat + 2 * 1) ∧
      t0.tablesValid = false ∧ InSpace (0xFFFFFFFE : Word).toNat (2 * (1 : Word).toNat) ∧
      InSpace (0xFFFFFFFF : Word).toNat (2 * (0 : Word).toNat) := by decide
theorem witness_ReadTableCopiesOut :
    InSpace (0x2000 : Word).toNat (8 : Word).toNat ∧ tBuilt.tablesValid = true ∧
      2 * tBuilt.tblNShift.toNat ≤ (8 : Word).toNat ∧ Admitted tp (0x2000 : Word).toNat (2 * tBuilt.tblNShift.toNat) ∧
      tBuilt.mem.wf = true ∧ (8 : Word).toNat < 2 * tBuilt.tblNDepth.toNat ∧ t0.tablesValid = false := by decide
theorem witness_Unpack12WritesEveryGroup :
    (put 0x1000 e1 tShift).mem.wf = true ∧ InSpace (0x1000 : Word).toNat (24 : Word).toNat ∧
      InSpace (0x1018 : Word).toNat (32 : Word).toNat ∧
      Apart (0x1000 : Word).toNat (24 : Word).toNat (0x1018 : Word).toNat (32 : Word).toNat ∧
      Admitted tp (0x1000 : Word).toNat 24 ∧ Admitted tp (0x1018 : Word).toNat 32 ∧ 32 * (24 / 24) ≤ (32 : Word).toNat ∧
      OutputReady tShift 1 ∧ OutputReady tBuilt 1 ∧ OutputReady t0 0 := by decide +kernel
theorem witness_DecoderRefusals_unpack12 :
    InSpace (0x1000 : Word).toNat (24 : Word).toNat ∧ InSpace (0x1100 : Word).toNat (31 : Word).toNat ∧
      t0.tablesValid = false ∧ t0.calib.outputFormat = 100 ∧ 24 ≤ (24 : Word).toNat ∧ OutputReady tShift (24 / 24) ∧
      (31 : Word).toNat < 32 * (24 / 24) := by decide
theorem witness_DecoderRefusals_uncomp :
    (4 : Word) ≠ 0 ∧ Admitted tp (0x1000 : Word).toNat (4 : Word).toNat ∧
      decodeStream (bufNibble ((put 0x1000 (img.take 4) t0).mem.readList 0x1000 4)) (uncompMap false) 4 3 4 true =
        .ok .outputOverflow ∧
      decodeStream (bufNibble ((put 0x1000 (img.take 4 ++ [0xF1]) t0).mem.readList 0x1000 5)) (uncompMap false) 5 16 4
        true = .ok .inputTooSmall := by decide +kernel
theorem witness_UncompCompletes :
    (4 : Word) ≠ 0 ∧ InSpace (0x1004 : Word).toNat (16 : Word).toNat ∧ Admitted tp (0x1000 : Word).toNat (4 : Word).toNat ∧
      Apart (0x1000 : Word).toNat (4 : Word).toNat (0x1004 : Word).toNat (16 : Word).toNat ∧
      decodeStream (bufNibble ((put 0x1000 (img.take 4) t0).mem.readList 0x1000 4)) (uncompMap false) 4 16 4 false =
        .ok (.done 4 [0x10, 0x2F, 0xFD, 0x29]) ∧ Admitted tp (0x1004 : Word).toNat 4 := by decide +kernel
theorem witness_UncompUnitMeaning :
    let nib (j : Nat) : Nat :=
      if j % 2 = 0 then (([0x6C, 0xDE, 0x12, 0xF0] : List Byte).getD (j / 2) 0).toNat / 16
      else (([0x6C, 0xDE, 0x12, 0xF0] : List Byte).getD (j / 2) 0).toNat % 16
    nib 1 ≤ 0xC ∧ nib 2 = 0xD ∧ 0xE ≤ nib 3 ∧ 3 + 2 < 2 * 4 ∧ 0xE ≤ nib 6 ∧ 2 * 4 ≤ 6 + 2 ∧
      ({ DecodeState.start with k := 6 } : DecodeState).k < 2 * 4 := by decide
theorem witness_UncompUnitMeaning_samples :
    ({ DecodeState.start with slot := 3 } : DecodeState).slot < mapPs.length ∧ (6 + 1) % 4 ≠ 0 ∧ (7 + 1) % 4 = 0 ∧
      7 % 2 = 1 := by decide
theorem witness_UncompUnitMeaning_loop :
    let buf : List Byte := [0x6C, 0xDE, 0x12, 0xF0]
    decodeUnit (bufNibble buf) mapPs 8 { DecodeState.start with k := 2 } = .ok (.filler 3) ∧
      decodeUnit (bufNibble buf) mapPs 8 { DecodeState.start with k := 3 } = .ok (.sample 0x12 6) ∧
      decodeUnit (bufNibble buf) mapPs 8 { DecodeState.start with k := 6 } = .ok .cut ∧
      decodeLoop (bufNibble buf) mapPs 8 2 4 8 DecodeState.start = .ok .overflow ∧
      (∃ st, decodeLoop (bufNibble buf) mapPs 8 3 4 8 DecodeState.start = .ok (.truncated st)) ∧
      ∃ st, decodeLoop (bufNibble (buf.take 3)) mapPs 6 3 4 6 DecodeState.start = .ok (.consumed st) :=
  ⟨rfl, rfl, rfl, rfl, ⟨_, rfl⟩, ⟨_, rfl⟩⟩
theorem witness_UncompDecodeBounds :
    decodeStream (bufNibble (img.map (BitVec.ofNat 8))) (uncompMap false) (img.map (BitVec.ofNat 8)).length 64 4 true =
      .ok (.done 13 [0x10, 0x2F, 0xFD, 0x29, 0x20, 0x1D, 0x03, 0x1D, 0xFF, 0, 6, 2]) := by decide +kernel
theorem witness_UncompResumable :
    0 < 4 ∧ 6 ≤ (img.map (BitVec.ofNat 8)).length ∧ 13 ≤ (img.map (BitVec.ofNat 8)).length ∧
      decodeStream (bufNibble (img.map (BitVec.ofNat 8))) (uncompMap false) (img.map (BitVec.ofNat 8)).length 12 4
        true = .ok (.done 13 [0x10, 0x2F, 0xFD, 0x29, 0x20, 0x1D, 0x03, 0x1D, 0xFF, 0, 6, 2]) := by decide +kernel

theorem witness_MirrorPixelLayouts :
    ((Instr.mirrorRgb888, 3) ∈ pixelMirrors) ∧ t0.mem.wf = true ∧ 1 ≤ (8 : Word).toNat ∧
      (8 : Word).toNat ≤ tp.mirrorMaxLinePixels ∧ (48 : Word).toNat % ((8 : Word).toNat * 3) = 0 ∧
      Admitted tp (0x1000 : Word).toNat (48 : Word).toNat :=
  ⟨by simp, by decide, by decide, by decide, by decide, by decide +kernel⟩
theorem witness_MirrorYuvLayouts :
    t0.mem.wf = true ∧ 2 ≤ (2 : Word).toNat ∧ (2 : Word).toNat % 2 = 0 ∧ (2 : Word).toNat ≤ tp.mirrorMaxLinePixels ∧
      (8 : Word).toNat % ((2 : Word).toNat * 2) = 0 ∧ Admitted tp (0x1000 : Word).toNat (8 : Word).toNat := by decide
theorem witness_MirrorTwiceRestores :
    ((Instr.mirrorYuyv, 2, 2) ∈ allMirrors) ∧ ((Instr.mirrorGray8, 1, 1) ∈ allMirrors) ∧ t0.mem.wf = true ∧
      1 ≤ (8 : Word).toNat ∧ (8 : Word).toNat % 2 = 0 ∧ (8 : Word).toNat ≤ tp.mirrorMaxLinePixels ∧
      (16 : Word).toNat % ((8 : Word).toNat * 2) = 0 ∧ Admitted tp (0x1000 : Word).toNat (16 : Word).toNat :=
  ⟨by simp, by simp, by decide, by decide, by decide, by decide, by decide, by decide⟩
theorem witness_MirrorRefusals :
    ((Instr.mirrorYuv422, 2, 2) ∈ allMirrors) ∧ InSpace (0x1000 : Word).toNat (12 : Word).toNat ∧
      tp.mirrorMaxLinePixels < (9 : Word).toNat ∧ (8 : Word).toNat ≤ tp.mirrorMaxLinePixels ∧ (0 : Word).toNat = 0 ∧
      (12 : Word).toNat % ((8 : Word).toNat * 2) ≠ 0 ∧ (3 : Word).toNat % 2 ≠ 0 :=
  ⟨by simp, by decide, by decide, by decide, by decide, by decide, by decide⟩

theorem witness_FrameSofStartsFrame :
    InSpace (0xFFFFFFFF : Word).toNat (1 : Word).toNat ∧ (FrameKind.packed12 = .packed12 ∨ (0 : Word) ≠ 0) ∧
      (FrameKind.uncompNew = .packed12 ∨ (1 : Word) ≠ 0) ∧ FrameKind.uncompPs ≠ .packed12 := by decide

/-- A packed-12 frame in progress on context 0, with 640 bytes of write buffer and the 6 continuation bytes of V-FR3. -/
def tPacked (s : State) (cap : Word) : State := setContext s 0 (ctxPacked cap [0x00, 0x10, 0x02, 0x00, 0x30, 0x04])

theorem witness_FrameChunkPacked12Appends :
    let s := tPacked (put 0x1000 (e1.take 18) tShift) 32
    let x := getContext s 0
    s.mem.wf = true ∧ x.state = .accumulating ∧ x.kind = .packed12 ∧ (x.cont ++ s.mem.readList 0x1000 18).length / 24 = 1 ∧
      OutputReady s 1 ∧ Admitted s.params 0x1000 18 ∧ x.wbufSize.toNat + 32 * 1 ≤ x.wbufCap.toNat ∧
      Admitted s.params (x.wbufBase.toNat + x.wbufSize.toNat) (32 * 1) ∧
      Apart 0x1000 18 x.wbufBase.toNat x.wbufCap.toNat := by decide +kernel
theorem witness_FrameChunkPacked12Overflow :
    let s := tPacked (put 0x1000 (e1.take 18) tShift) 31
    let x := getContext s 0
    x.state = .accumulating ∧ x.kind = .packed12 ∧ (x.cont ++ s.mem.readList 0x1000 18).length / 24 = 1 ∧
      Admitted s.params 0x1000 18 ∧ OutputReady s 1 ∧ x.wbufCap.toNat - x.wbufSize.toNat < 32 * 1 ∧
      ¬ OutputReady (tPacked t0 31) 1 := by decide +kernel
theorem witness_FrameChunkUncomp_done :
    let s := setContext (put 0x1000 img t0) 0 (ctxPs 12 [])
    let x := getContext s 0
    let buf := x.cont ++ s.mem.readList 0x1000 13
    x.state = .accumulating ∧ x.kind ≠ .packed12 ∧ Admitted s.params 0x1000 13 ∧ buf ≠ [] ∧
      decodeStream (bufNibble buf) (uncompMap (decide (x.kind = .uncompNew))) buf.length
        (x.wbufCap.toNat - x.wbufSize.toNat) x.lineBytes.toNat (decide ((0 : Word).toNat + 13 = (13 : Word).toNat)) =
          .ok (.done 13 [0x10, 0x2F, 0xFD, 0x29, 0x20, 0x1D, 0x03, 0x1D, 0xFF, 0, 6, 2]) ∧
      Admitted s.params (x.wbufBase.toNat + x.wbufSize.toNat) 12 ∧
      Apart 0x1000 13 x.wbufBase.toNat x.wbufCap.toNat := by decide +kernel
theorem witness_FrameChunkUncomp_empty :
    let s := setContext t0 0 (ctxPs 12 [])
    (getContext s 0).cont ++ s.mem.readList 0x1000 (0 : Word).toNat = [] ∧
      Admitted s.params 0x1000 (0 : Word).toNat := by decide +kernel
theorem witness_FrameChunkUncomp_errors :
    let s := setContext (put 0x1000 (img.take 4 ++ [0xF1]) t0) 0 (ctxPs 12 [])
    let buf := s.mem.readList 0x1000 5
    decodeStream (bufNibble buf) (uncompMap false) buf.length 12 4 true = .ok .inputTooSmall ∧
      decodeStream (bufNibble buf) (uncompMap false) buf.length 3 4 false = .ok .outputOverflow := by decide +kernel
theorem witness_FrameEofAndIllegalState :
    (getContext (setContext t0 0 (ctxPs 12 [])) 0).state = .accumulating ∧ (getContext t0 0).state ≠ .accumulating ∧
      (getContext (setContext t0 15 { Context.reset with state := .complete }) 15).state ≠ .accumulating := by
  decide +kernel

/-- The bits of small f64 values: 0, 1, 2, 3, 4 and 6. -/
def smallF64s : List Nat :=
  [0, 0x3FF0000000000000, 0x4000000000000000, 0x4008000000000000, 0x4010000000000000, 0x4018000000000000]

/-- Small f64 values by their place in `smallF64s`, in memory at `a`. -/
def putF64s (a : Nat) (vs : List Nat) (s : State) : State := put a (f64s (vs.map fun i => smallF64s.getD i 0)) s

/-- The system with rows [0, 1, 0], [2, 0, 0], [0, 0, 4] and right-hand side [3, 2, 4], which needs an exchange. -/
def tSystem : State := putF64s 0x3200 [0, 1, 0, 2, 0, 0, 0, 0, 4, 3, 2, 4] t0

/-- The points (0,0,1), (1,0,3), (0,1,4), (1,1,6) of the example of rule R314, whose plane is 2x + 3y + 1. -/
def tPoints : State := putF64s 0x3000 [0, 0, 1, 1, 0, 3, 0, 1, 4, 1, 1, 5] t0

theorem witness_LuSolve3Completes :
    Admitted tp (0x3200 : Word).toNat 72 ∧ Admitted tp (0x3248 : Word).toNat 24 ∧ Admitted tp (0x3FFE8 : Word).toNat 24 ∧
      tSystem.mem.wf = true ∧ luSolution (matrixIn t0.mem 0x3200) (vectorIn t0.mem 0x3248) = none ∧
      (luSolution (matrixIn tSystem.mem 0x3200) (vectorIn tSystem.mem 0x3248)).map
        (fun v => [v 0, v 1, v 2].map (F64.toBits 0)) = some [0x3FF0000000000000, 0x4008000000000000, 0x3FF0000000000000] :=
  ⟨by decide +kernel, by decide +kernel, by decide +kernel, by decide +kernel, by
    rw [← Option.isNone_iff_eq_none]; decide +kernel, by decide +kernel⟩
theorem witness_PlaneFitCompletes :
    Admitted tp (0x3000 : Word).toNat (24 * (4 : Word).toNat) ∧ Admitted tp (0x3FFE8 : Word).toNat 24 ∧
      tPoints.mem.wf = true ∧ luSolution (planeMatrix t0.mem 0x3000 0) (planeVector t0.mem 0x3000 0) = none ∧
      (luSolution (planeMatrix tPoints.mem 0x3000 4) (planeVector tPoints.mem 0x3000 4)).map
        (fun v => [v 0, v 1, v 2].map (F64.toBits 0)) = some [0x4000000000000000, 0x4008000000000000, 0x3FF0000000000000] :=
  ⟨by decide +kernel, by decide +kernel, by decide +kernel, by
    rw [← Option.isNone_iff_eq_none]; decide +kernel, by decide +kernel⟩
-- 1 / 3 = 0x3FD5555555555555, 1 / 10 = 0x3FB999999999999A: both are cut to a sticky bit before they are rounded
theorem witness_RoundingIsNearestEven :
    exactValue false 3 0 ≠ 0 ∧ exactValue true 0 5 = 0 ∧
      ((F64.fin false 1 0).div (.fin false 3 0)).toBits 0 = 0x3FD5555555555555 ∧
      ((F64.fin true 1 0).div (.fin false 10 0)).toBits 0 = 0xBFB999999999999A ∧
      (F64.fin true 1 0).div (.fin false 0 0) = .inf true :=
  ⟨by norm_num [exactValue], by norm_num [exactValue], by decide +kernel, by decide +kernel, by decide +kernel⟩
-- 1 - 2^-53 is a binary64 and is itself its rounding, and 1.0 is not; 1 - 2^-54, the tie above it, rounds to 1.0
theorem test_nearest_below_power_of_two :
    NearestEven false (1 - 1 / 2 ^ 53) (.fin false (2 ^ 53 - 1) (-53)) ∧
      ¬ NearestEven false (1 - 1 / 2 ^ 53) (.fin false (2 ^ 52) (-52)) ∧
      F64.round false (2 ^ 54 - 1) (-54) = .fin false (2 ^ 52) (-52) := by
  have h : NearestEven false (1 - 1 / 2 ^ 53) (.fin false (2 ^ 53 - 1) (-53)) :=
    ⟨2 ^ 53 - 1, -53, rfl, by norm_num, by norm_num, .inr (by norm_num), by norm_num, fun _ => by norm_num at *,
      .inr (.inl (by norm_num))⟩
  exact ⟨h, fun h' => absurd (h.unique h') (by decide), by decide +kernel⟩
theorem witness_BinaryEncodingRoundTrip :
    F64.ofBits 0x8000000000000001 ≠ .nan ∧ F64.ofBits 0x7FF0000000000000 ≠ .nan ∧
      F64.ofBits 0x7FF0000000000001 = .nan ∧ ([1, 2, 3, 4, 5, 6, 7, 8] : List Byte).length = 8 ∧
      ((0x7FF0000000000001 : Bits64).extractLsb' 52 11).toNat = 0x7FF ∧
      ((0x8000000000000001 : Bits64).extractLsb' 52 11).toNat ≠ 0x7FF := by decide

theorem witness_AddressWrapFaults :
    contextReady t0 (.lu3 0x1000 0xFFFFFFE9 0) ∧
      namedRanges (.lu3 0x1000 0xFFFFFFE9 0) = [(0x1000, 72)] ++ (0xFFFFFFE9, 24) :: [(0, 24)] ∧
      (∀ r ∈ [(0x1000, 72)], InSpace r.1 r.2) ∧ ¬ InSpace 0xFFFFFFE9 24 ∧ InSpace 0xFFFFFFE8 24 :=
  ⟨trivial, rfl, by decide, by decide, by decide⟩
theorem witness_AddressWrapFaults_other_causes :
    (∀ r ∈ namedRanges (.lu3 0xFFFFFFB8 0x1000 0x1000), InSpace r.1 r.2) ∧ t0.fault = false ∧
      ∃ t, exec (.lu3 0xFFFFFFB8 0x1000 0x1000) t0 = .next t ∧ t.fault = true :=
  ⟨by decide, rfl, nextAnd_exists (by decide +kernel)⟩

theorem witness_BusErrorAtFirstRefusedByte_edge :
    (∀ k, k < 1 → tp.admits (0x3FFFF + k) = true) ∧ tp.admits (0x3FFFF + 1) = false ∧ tp.admits (0x40000 + 0) = false := by
  decide
theorem witness_BusErrorAtFirstRefusedByte_ranges :
    (∀ r ∈ namedRanges (.s2dConvert 0x3FFFC 3 0x3FFFC), InSpace r.1 r.2) ∧
      (∀ r ∈ namedRanges (.unpack12 0x3FFF0 24 0 32), InSpace r.1 r.2) ∧
      (∀ r ∈ namedRanges (.uncompNewLast 0x1000 4 0x3FFFE 16 4), InSpace r.1 r.2) ∧
      (∀ r ∈ namedRanges (.mirrorYuyv 0x3FFFE 4 2), InSpace r.1 r.2) ∧
      (∀ r ∈ namedRanges (.frameChunk 0 0x3FFFF 0 2 2), InSpace r.1 r.2) ∧
      contextReady (setContext t0 0 (ctxPs 12 [])) (.frameChunk 0 0x3FFFF 0 2 2) ∧
      (∀ r ∈ namedRanges (.lu3 0x3FFFF 0 0), InSpace r.1 r.2) ∧
      (∀ r ∈ namedRanges (.planefit 0x3FFFF 1 0), InSpace r.1 r.2) ∧
      ∀ r ∈ namedRanges (.s2dRdtabD2s 0x3FFFF 10), InSpace r.1 r.2 :=
  ⟨by decide, by decide, by decide, by decide, by decide, by rw [contextReady]; decide +kernel, by decide, by decide,
    by decide⟩
theorem witness_BusErrorAtFirstRefusedByte_convert :
    accessReached tBuilt (.s2dConvert 0x3FFFC 3 0x3FFFC) 0x40000 2 ∧
      accessReached tBuilt (.s2dConvert 0x1000 1 0x3FFFF) 0x3FFFF 2 :=
  ⟨⟨rfl, .inl rfl, 2, by decide, by decide, by decide, by decide, rfl, .inl rfl⟩,
    ⟨rfl, .inr (by decide), 0, by decide, by decide, by decide, by decide, rfl, .inr ⟨rfl, by decide, by decide⟩⟩⟩
theorem witness_BusErrorAtFirstRefusedByte_tables :
    accessReached tBuilt (.s2dRdtabS2d 0x3FFFF 8) 0x3FFFF 8 ∧ accessReached tBuilt (.s2dRdtabD2s 0x3FFFF 10) 0x3FFFF 10 :=
  ⟨⟨rfl, rfl, rfl, by decide⟩, ⟨rfl, rfl, rfl, by decide⟩⟩
theorem witness_BusErrorAtFirstRefusedByte_unpack :
    accessReached tShift (.unpack12 0x3FFF0 24 0 32) 0x3FFFF 3 ∧
      accessReached tShift (.unpack12 0x1000 24 0x3FFFE 32) 0x3FFFE 4 :=
  ⟨⟨by decide, by decide, 5, by decide, by decide, by decide, .inl ⟨rfl, rfl⟩⟩,
    ⟨by decide, by decide, 0, by decide, by decide, by decide, .inr ⟨rfl, rfl, by decide⟩⟩⟩
theorem witness_BusErrorAtFirstRefusedByte_uncomp :
    (∀ i ∈ ([.uncompPs, .uncompPsLast, .uncompNew, .uncompNewLast] : List (Word → Word → Word → Word → Word → Instr)),
      accessReached (put 0x3FFFF [0x66] t0) (i 0x3FFFF 2 0 16 4) 0x40000 1) ∧
      accessReached (put 0x1000 (img.take 4) t0) (.uncompPs 0x1000 4 0x3FFFE 16 4) 0x3FFFE 4 := by
  have h (isNew last : Bool) : uncompAccess (put 0x3FFFF [0x66] t0) isNew last 0x3FFFF 2 0 16 4 0x40000 1 :=
    ⟨by decide, .inl ⟨1, by decide, rfl, rfl, by decide +kernel, by cases isNew <;> decide +kernel⟩⟩
  refine ⟨fun i hi => ?_, by decide, .inr ⟨4, [0x10, 0x2F, 0xFD, 0x29], by decide +kernel, by decide +kernel, rfl, rfl⟩⟩
  simp only [List.mem_cons, List.not_mem_nil, or_false] at hi
  rcases hi with rfl | rfl | rfl | rfl
  · exact h false false
  · exact h false true
  · exact h true false
  · exact h true true
theorem witness_BusErrorAtFirstRefusedByte_mirror :
    accessReached t0 (.mirrorGray8 0x3FFFE 4 2) 0x3FFFE 4 ∧ accessReached t0 (.mirrorGray16 0x3FFFE 8 2) 0x3FFFE 8 ∧
      accessReached t0 (.mirrorDepth1mm 0x3FFFE 4 1) 0x3FFFE 4 ∧ accessReached t0 (.mirrorDepth100um 0x3FFFE 4 2) 0x3FFFE 4 ∧
      accessReached t0 (.mirrorShift92 0x3FFFE 16 8) 0x3FFFE 16 ∧ accessReached t0 (.mirrorRgb888 0x3FFFE 6 2) 0x3FFFE 6 ∧
      accessReached t0 (.mirrorYuv422 0x3FFFE 8 2) 0x3FFFE 8 ∧ accessReached t0 (.mirrorYuyv 0x3FFFE 4 2) 0x3FFFE 4 := by
  refine ⟨?_, ?_, ?_, ?_, ?_, ?_, ?_, ?_⟩ <;> (rw [accessReached]; decide)
theorem witness_BusErrorAtFirstRefusedByte_frame :
    accessReached (setContext t0 0 (ctxPs 12 [])) (.frameChunk 0 0x3FFFF 0 2 2) 0x3FFFF 2 ∧
      accessReached (setContext (put 0x1000 (e1.take 18) tShift) 0
        { ctxPacked 40 [0x00, 0x10, 0x02, 0x00, 0x30, 0x04] with wbufBase := 0x3FFFE, wbufSize := 1 })
        (.frameChunk 0 0x1000 0 18 18) 0x3FFFF 32 ∧
      accessReached (setContext (put 0x1000 (img.take 4) t0) 0 { ctxPs 12 [] with wbufBase := 0x3FFFE })
        (.frameChunk 0 0x1000 0 4 4) 0x3FFFE 4 := by
  refine ⟨.inl ⟨rfl, rfl⟩, .inr ⟨by decide +kernel, by decide +kernel, .inl ?_⟩,
    .inr ⟨by decide +kernel, by decide +kernel, .inr ⟨by decide +kernel, 4, [0x10, 0x2F, 0xFD, 0x29], ?_, rfl⟩⟩⟩
  · decide +kernel
  · decide +kernel
theorem witness_BusErrorAtFirstRefusedByte_math :
    accessReached t0 (.lu3 0x3FFFF 0 0) 0x3FFFF 72 ∧ accessReached t0 (.lu3 0x1000 0x3FFFF 0) 0x3FFFF 24 ∧
      accessReached tSystem (.lu3 0x3200 0x3248 0x3FFFF) 0x3FFFF 24 ∧
      accessReached t0 (.planefit 0x3FFFF 1 0) 0x3FFFF 24 ∧ accessReached tPoints (.planefit 0x3000 4 0x3FFFF) 0x3FFFF 24 := by
  refine ⟨.inl ⟨rfl, rfl⟩, .inr (.inl ⟨by decide, rfl, rfl⟩),
    .inr (.inr ⟨by decide +kernel, by decide +kernel, ?_, rfl, rfl⟩), .inl ⟨rfl, rfl⟩,
    .inr ⟨by decide +kernel, ?_, rfl, rfl⟩⟩
  · rw [← Option.isSome_iff_ne_none]; decide +kernel
  · rw [← Option.isSome_iff_ne_none]; decide +kernel

end Sys2Proof.Tests
end

