-- ==== Sys2Proof/Proofs/Scope.lean ====
section
/-! PROOFS. Proofs/Scope.lean: what a step is at a latched descriptor, and that no step changes the parameters: every
command ends in a next state that keeps the fields no command writes, and so does every event. -/

namespace Sys2Proof.Machine

/-! ### the step at a latched descriptor -/

theorem engineRun_legal {s : State} {d : Descriptor} {i : Instr} (hrun : s.running = some d) (hr : s.raced = [])
    (hlegal : legalCommand s d = some i) : engineRun s = exec i s := by
  rw [engineRun_busy hrun hr, runDescriptor_legal hlegal]

/-- Settles O7, from what a step and the engine's run are (Laws/Engine.lean): with bytes raced or not, with the engine
told to run by an event or not, and with nothing running. -/
theorem stepRunsDecodedCommand : Obligations.StepRunsDecodedCommand := by
  refine ⟨fun s d i hrun hdec hwf => ?_, fun s hidle hev => by rw [step_nil hev, engineRun_idle hidle]⟩
  have hlegal : legalCommand s d = some i := legalCommand_eq_some.2 ⟨hdec, hwf⟩
  refine ⟨fun hr hev => ?_, fun es hr hev => ?_, fun t hr hev ht => ?_⟩
  · rw [step_nil hev, engineRun_legal hrun hr hlegal]
  · rw [step_cons hev]
    exact engineRun_legal (s := { s with events := es }) hrun hr hlegal
  · have hlegal' : legalCommand (enterRace s) d = some i := hlegal
    rw [step_nil hev, engineRun_raced hrun hr (by rwa [runDescriptor_legal hlegal']), runningWrites_legal hlegal]

/-! ### what no command changes -/

/-- `t` agrees with `s` in the fields no command writes: the parameters, CMD0..CMD7 (46_system.md rule R331) and the
host's side of the boundary. -/
structure CommandFrame (s t : State) : Prop where
  params : t.params = s.params
  cmd : t.cmd = s.cmd
  events : t.events = s.events
  readData : t.readData = s.readData
  raced : t.raced = s.raced

theorem CommandFrame.refl (s : State) : CommandFrame s s := ⟨rfl, rfl, rfl, rfl, rfl⟩

/-- A fault after the frame was kept keeps it. -/
theorem CommandFrame.raiseFault {s t : State} (h : CommandFrame s t) (opc : BitVec 8) (rs : List (Nat × Nat))
    (f : Raise) : CommandFrame s (raiseFault opc rs f t) :=
  ⟨by rw [raiseFault_params, h.params], by rw [raiseFault_cmd, h.cmd], by rw [raiseFault_events, h.events],
    by rw [raiseFault_readData, h.readData], by rw [raiseFault_raced, h.raced]⟩

/-- A command that touches memory only keeps the frame, however it ends. -/
theorem MemEnding.commandFrame {opc : BitVec 8} {rs : List (Nat × Nat)} {s t : State} (h : MemEnding opc rs s t) :
    CommandFrame s t := by
  cases h with
  | status st hst => exact ⟨rfl, rfl, rfl, rfl, rfl⟩
  | fault f n =>
    refine .raiseFault ?_ opc rs f
    exact ⟨rfl, rfl, rfl, rfl, rfl⟩
  | ok m n r0 r1 r2 r3 hm => exact ⟨rfl, rfl, rfl, rfl, rfl⟩

theorem rebuild_commandFrame (opc : BitVec 8) (ns nd : Nat) (r0 r1 : Word) (s : State) :
    CommandFrame s (rebuild opc ns nd r0 r1 s) := by
  rcases rebuild_ends opc ns nd r0 r1 s with ⟨f, -, h⟩ | ⟨tables, -, h⟩ <;> rw [h]
  · refine .raiseFault ?_ opc [] f
    exact ⟨rfl, rfl, rfl, rfl, rfl⟩
  · exact ⟨rfl, rfl, rfl, rfl, rfl⟩

theorem setcfg_commandFrame (f : CalibField) (vlo vhi : Word) (s : State) : CommandFrame s (setcfg f vlo vhi s) := by
  have commit {ns nd : Nat} {r0 r1 : Word} := rebuild_commandFrame 0x04 ns nd r0 r1
    { s with calib := commitField f vlo vhi s.calib, cfgEpoch := s.cfgEpoch + 1 }
  rcases setcfg_ends f vlo vhi s with ⟨-, h⟩ | ⟨-, ⟨-, h⟩ | ⟨-, -, h⟩ | ⟨-, -, h⟩⟩ <;> rw [h]
  · exact ⟨rfl, rfl, rfl, rfl, rfl⟩
  · exact ⟨rfl, rfl, rfl, rfl, rfl⟩
  · exact ⟨commit.params, commit.cmd, commit.events, commit.readData, commit.raced⟩
  · exact ⟨commit.params, commit.cmd, commit.events, commit.readData, commit.raced⟩

theorem execS2dUpdate_commandFrame (s : State) : ∃ t, execS2dUpdate s = .next t ∧ CommandFrame s t := by
  refine ⟨_, rfl, ?_⟩
  split_ifs
  · exact rebuild_commandFrame ..
  · exact (CommandFrame.refl s).raiseFault ..

theorem frameSof_commandFrame (k : FrameKind) (c : BitVec 4) (wbase wcap line : Word) (s : State) :
    CommandFrame s (frameSof k c wbase wcap line s) := by
  rcases frameSof_ends k c wbase wcap line s with ⟨f, -, h⟩ | h <;> rw [h]
  · have := (CommandFrame.refl s).raiseFault 0x30 [] f
    exact ⟨this.params, this.cmd, this.events, this.readData, this.raced⟩
  · exact ⟨rfl, rfl, rfl, rfl, rfl⟩

theorem execFrameChunk_commandFrame (c : BitVec 4) (src offset len bufsize : Word) (s : State) :
    ∃ t, execFrameChunk c src offset len bufsize s = .next t ∧ CommandFrame s t := by
  obtain ⟨t, ht, h⟩ := execFrameChunk_ends c src offset len bufsize s
  refine ⟨t, ht, ?_⟩
  rcases h with ⟨-, rfl⟩ | ⟨-, ⟨f, rfl⟩ | ⟨m, n, y, r0, r1, r2, r3, rfl, -⟩⟩
  · exact ⟨rfl, rfl, rfl, rfl, rfl⟩
  · have := (CommandFrame.refl s).raiseFault 0x31 (chunkWrites s c) f
    exact ⟨this.params, this.cmd, this.events, this.readData, this.raced⟩
  · exact ⟨rfl, rfl, rfl, rfl, rfl⟩

theorem execFrameEof_commandFrame (c : BitVec 4) (s : State) :
    ∃ t, execFrameEof c s = .next t ∧ CommandFrame s t := by
  obtain ⟨t, ht, h⟩ := execFrameEof_ends c s
  refine ⟨t, ht, ?_⟩
  rcases h with ⟨-, rfl⟩ | ⟨-, rfl⟩ <;> exact ⟨rfl, rfl, rfl, rfl, rfl⟩

/-- Every command ends in a next state, with the frame kept. -/
theorem exec_commandFrame (i : Instr) (s : State) : ∃ t, exec i s = .next t ∧ CommandFrame s t := by
  have memory {opc : BitVec 8} {rs : List (Nat × Nat)} (h : ∃ t, exec i s = .next t ∧ MemEnding opc rs s t) :
      ∃ t, exec i s = .next t ∧ CommandFrame s t := h.imp fun _ ht => ⟨ht.1, ht.2.commandFrame⟩
  cases i with
  | nop | s2dFree | mirrorCode fmt buf len width => exact ⟨_, rfl, rfl, rfl, rfl, rfl, rfl⟩
  | s2dInit => exact ⟨_, rfl, rebuild_commandFrame ..⟩
  | s2dUpdate => exact execS2dUpdate_commandFrame s
  | setcfgZeroPlaneDistance vlo vhi | setcfgZeroPlanePixelSize vlo vhi | setcfgEmitterDistance vlo vhi
  | setcfgMaxShift vlo | setcfgMaxDepth vlo | setcfgConstShift vlo | setcfgPixelSizeFactor vlo | setcfgParamCoeff vlo
  | setcfgShiftScale vlo | setcfgMinCutoff vlo | setcfgMaxCutoff vlo | setcfgOutputFormat vlo =>
    exact ⟨_, rfl, setcfg_commandFrame ..⟩
  | s2dConvert src count dst => exact memory (execS2dConvert_ends src count dst s)
  | s2dRdtabS2d dst cap | s2dRdtabD2s dst cap => exact memory ⟨_, rfl, readTable_ends ..⟩
  | unpack12 src srclen dst dstcap => exact memory (execUnpack12_ends src srclen dst dstcap s)
  | uncompPs src srclen dst dstcap line | uncompPsLast src srclen dst dstcap line
  | uncompNew src srclen dst dstcap line | uncompNewLast src srclen dst dstcap line =>
    exact memory ⟨_, rfl, uncomp_ends ..⟩
  | mirrorGray8 buf len width | mirrorGray16 buf len width | mirrorDepth1mm buf len width
  | mirrorDepth100um buf len width | mirrorShift92 buf len width | mirrorRgb888 buf len width
  | mirrorYuv422 buf len width | mirrorYuyv buf len width => exact memory ⟨_, rfl, mirror_ends ..⟩
  | frameSofPacked12 c wbase wcap line | frameSofPs c wbase wcap line | frameSofNew c wbase wcap line =>
    exact ⟨_, rfl, frameSof_commandFrame ..⟩
  | frameChunk c src offset len bufsize => exact execFrameChunk_commandFrame c src offset len bufsize s
  | frameEof c => exact execFrameEof_commandFrame c s
  | lu3 a b x => exact memory (execLu3_ends a b x s)
  | planefit pts n out => exact memory (execPlanefit_ends pts n out s)

/-- So does the run of any descriptor, a legal command or not. -/
theorem runDescriptor_commandFrame (d : Descriptor) (s : State) :
    ∃ t, runDescriptor d s = .next t ∧ CommandFrame s t := by
  cases h : legalCommand s d with
  | none => exact ⟨_, runDescriptor_illegal h, rfl, rfl, rfl, rfl, rfl⟩
  | some i =>
    rw [runDescriptor_legal h]
    exact exec_commandFrame i s

/-! ### the parameters over a step -/

theorem engineRun_params {s t : State} (h : engineRun s = .next t) : t.params = s.params := by
  cases hrun : s.running with
  | none =>
    rw [engineRun_idle hrun] at h
    cases h
    rfl
  | some d =>
    by_cases hr : s.raced = []
    · obtain ⟨u, hu, hframe⟩ := runDescriptor_commandFrame d s
      rw [engineRun_busy hrun hr, hu] at h
      cases h
      exact hframe.params
    · obtain ⟨u, hu, hframe⟩ := runDescriptor_commandFrame d (enterRace s)
      rw [engineRun_raced hrun hr hu] at h
      cases h
      exact hframe.params

@[simp] theorem resetNow_params (s : State) : (resetNow s).params = s.params := by
  cases h : s.running with
  | none => rw [resetNow_idle h, resetBlock_params]
  | some d => rw [resetNow_busy h, resetBlock_params, havocRanges_params]

@[simp] theorem startCommand_params (s : State) : (startCommand s).params = s.params := by
  unfold startCommand
  split_ifs <;> rfl

@[simp] theorem writeControl_params (v : Word) (s : State) : (writeControl v s).params = s.params := by
  unfold writeControl
  split_ifs <;> simp

@[simp] theorem writeWindow_params (off : Nat) (v : Word) (s : State) : (writeWindow off v s).params = s.params := by
  unfold writeWindow
  split
  · exact writeControl_params v s
  · split_ifs <;> rfl
  · rfl

@[simp] theorem readWindow_params (off : Nat) (s : State) : (readWindow off s).params = s.params := by
  unfold readWindow
  split
  case h_4 => split_ifs <;> rfl
  all_goals rfl

@[simp] theorem hostMemRead_params (a : Word) (s : State) : (hostMemRead a s).params = s.params := by
  unfold hostMemRead
  split
  · rfl
  · split_ifs <;> rfl

/-- The parameters after any event that gives a next state. -/
theorem handleEvent_params {e : Event} {s t : State} (h : handleEvent e s = .next t) : t.params = s.params := by
  cases e with
  | regRead off size | regWrite off size v | memRead a | memWrite a b =>
    simp only [handleEvent] at h
    split_ifs at h
    cases h
    simp
  | resetInput =>
    cases h
    exact resetNow_params s
  | engine => exact engineRun_params h

theorem step_params {s t : State} (h : step s = .next t) : t.params = s.params := by
  cases hev : s.events with
  | nil => exact engineRun_params (step_nil hev ▸ h)
  | cons e es =>
    have : t.params = ({ s with events := es } : State).params := handleEvent_params (step_cons hev ▸ h)
    exact this

/-- Settles O19: the engine, the resets and the host's accesses each keep the parameters, and offset 0x000 is ID, which
reads BLOCK_ID while a command runs too. -/
theorem parametersNeverChange : Obligations.ParametersNeverChange :=
  ⟨fun _ _ h => step_params h, resetNow_params, fun _ _ h => step_regRead (by decide) h⟩

end Sys2Proof.Machine
end

