-- ==== Sys2Proof/Proofs/Rounding.lean ====
section
/-! PROOFS. Proofs/Rounding.lean: every binary64 operation of the model is IEEE binary64's. One lemma says that
`F64.round` rounds every magnitude its significand stands for to nearest even; the operations are read off it. -/

namespace Sys2Proof.Machine

/-! ### nearest multiples of a unit -/

/-- `q * u` is a multiple of the unit `u` nearest to `v`, with `q` even if `v` is half way between two: the clauses of
`NearestEven` for the unit `2 ^ f`. -/
def NearestMultiple (q : Nat) (u v : ℚ) : Prop :=
  |(q : ℚ) * u - v| ≤ u / 2 ∧ (|(q : ℚ) * u - v| = u / 2 → q % 2 = 0)

theorem NearestMultiple.of_eq {q : Nat} {u v : ℚ} (hu : 0 < u) (h : (q : ℚ) * u = v) : NearestMultiple q u v := by
  unfold NearestMultiple
  rw [h, sub_self, abs_zero]
  exact ⟨by linarith, fun h0 => by linarith⟩

theorem NearestMultiple.scale {q : Nat} {u v c : ℚ} (h : NearestMultiple q u v) (hc : 0 < c) :
    NearestMultiple q (u * c) (v * c) := by
  have hd : |(q : ℚ) * (u * c) - v * c| = |(q : ℚ) * u - v| * c := by
    rw [← mul_assoc, ← sub_mul, abs_mul, abs_of_pos hc]
  obtain ⟨hle, htie⟩ := h
  unfold NearestMultiple
  rw [hd, mul_div_right_comm]
  exact ⟨mul_le_mul_of_nonneg_right hle hc.le, fun he => htie (mul_right_cancel₀ hc.ne' he)⟩

/-- The integer `n` may stand for the magnitude `w` where bits below place `k` are rounded off: it is `w`, or it
compares with every multiple of half a unit at that place as `w` does. -/
def StandsForAt (k : Int) (n : Nat) (w : ℚ) : Prop :=
  w = n ∨ 0 < k ∧ ∀ j : Nat, (((j * 2 ^ (k.toNat - 1) : Nat) : ℚ) ≤ w ↔ j * 2 ^ (k.toNat - 1) ≤ n) ∧
    (w ≤ ((j * 2 ^ (k.toNat - 1) : Nat) : ℚ) ↔ n ≤ j * 2 ^ (k.toNat - 1))

theorem StandsForAt.eq {k : Int} {n : Nat} {w : ℚ} (h : StandsForAt k n w) (hk : k ≤ 0) : w = n :=
  h.resolve_right fun hp => absurd hp.1 (not_lt.2 hk)

theorem StandsForAt.compare {K n : Nat} {w : ℚ} (h : StandsForAt (K + 1 : Nat) n w) (j : Nat) :
    ((j : ℚ) * 2 ^ K ≤ w ↔ j * 2 ^ K ≤ n) ∧ (w ≤ (j : ℚ) * 2 ^ K ↔ n ≤ j * 2 ^ K) := by
  rcases h with rfl | ⟨-, hj⟩
  · constructor <;> norm_cast
  · simpa using hj j

/-! ### shiftNearest -/

theorem shiftNearest_of_nonpos {k : Int} (hk : k ≤ 0) (n : Nat) : shiftNearest n k = n * 2 ^ (-k).toNat := if_pos hk

theorem shiftNearest_succ (n K : Nat) : shiftNearest n (K + 1 : Nat) =
    if 2 ^ K < n % 2 ^ (K + 1) ∨ (n % 2 ^ (K + 1) = 2 ^ K ∧ n / 2 ^ (K + 1) % 2 = 1) then n / 2 ^ (K + 1) + 1
    else n / 2 ^ (K + 1) := if_neg (by omega)

/-- Rounding takes the quotient or the integer above it. -/
theorem shiftNearest_succ_bounds (n K : Nat) :
    n / 2 ^ (K + 1) ≤ shiftNearest n (K + 1 : Nat) ∧ shiftNearest n (K + 1 : Nat) ≤ n / 2 ^ (K + 1) + 1 := by
  rw [shiftNearest_succ]
  split_ifs <;> omega

/-- Below, at and above the middle between two multiples of the unit. -/
theorem nearestMultiple_shiftNearest_succ {n K : Nat} {w : ℚ} (h : StandsForAt (K + 1 : Nat) n w) :
    NearestMultiple (shiftNearest n (K + 1 : Nat)) (2 ^ (K + 1)) w := by
  have hdiv := Nat.div_add_mod n (2 ^ (K + 1))
  have hmod := Nat.mod_lt n (Nat.two_pow_pos (K + 1))
  have hH : (0 : ℚ) < 2 ^ K := by positivity
  rw [shiftNearest_succ]
  generalize n / 2 ^ (K + 1) = q at *
  generalize n % 2 ^ (K + 1) = r at *
  have low := (h.compare (2 * q)).1
  have mid := h.compare (2 * q + 1)
  have high := (h.compare (2 * q + 2)).1
  rw [pow_succ] at hdiv hmod ⊢
  unfold NearestMultiple
  generalize hG : (2 : ℚ) ^ K = G at *
  generalize 2 ^ K = H at *
  push_cast at low mid high
  have hlow : 2 * (q : ℚ) * G ≤ w := low.2 (by nlinarith)
  have hhigh : w < (2 * (q : ℚ) + 2) * G := not_le.1 (mt high.1 (by nlinarith))
  rcases lt_trichotomy r H with hr | rfl | hr
  · have hw : w < (2 * (q : ℚ) + 1) * G := not_le.1 (mt mid.1.1 (by nlinarith))
    rw [if_neg (by omega), abs_sub_comm, abs_of_nonneg (by linarith)]
    exact ⟨by linarith, fun he => by linarith⟩
  · have hw : w = (2 * (q : ℚ) + 1) * G := le_antisymm (mid.2.2 (by nlinarith)) (mid.1.2 (by nlinarith))
    by_cases hodd : q % 2 = 1
    · rw [if_pos (.inr ⟨rfl, hodd⟩), hw]
      push_cast
      rw [abs_of_nonneg (by linarith)]
      exact ⟨by linarith, fun _ => by omega⟩
    · rw [if_neg (by omega), hw, abs_sub_comm, abs_of_nonneg (by linarith)]
      exact ⟨by linarith, fun _ => by omega⟩
  · have hw : (2 * (q : ℚ) + 1) * G < w := not_le.1 (mt mid.2.1 (by nlinarith))
    rw [if_pos (.inl hr)]
    push_cast
    rw [abs_of_nonneg (by linarith)]
    exact ⟨by linarith, fun he => by linarith⟩

/-- `shiftNearest` rounds whatever its first argument stands for. -/
theorem nearestMultiple_shiftNearest {n : Nat} {k : Int} {w : ℚ} (h : StandsForAt k n w) :
    NearestMultiple (shiftNearest n k) (2 ^ k) w := by
  rcases le_or_gt k 0 with hk | hk
  · obtain ⟨j, rfl⟩ : ∃ j : Nat, k = -j := ⟨(-k).toNat, by omega⟩
    refine .of_eq (by positivity) ?_
    rw [shiftNearest_of_nonpos hk, h.eq hk, neg_neg, Int.toNat_natCast, zpow_neg, zpow_natCast]
    push_cast
    field_simp
  · obtain ⟨K, rfl⟩ : ∃ K : Nat, k = (K + 1 : Nat) := ⟨(k - 1).toNat, by omega⟩
    rw [zpow_natCast]
    exact nearestMultiple_shiftNearest_succ h

/-- A number below `2^b` rounds to at most `2^(b-k)`. -/
theorem shiftNearest_le {n a b : Nat} {k : Int} (hn : n < 2 ^ b) (hb : (b : Int) ≤ a + k) :
    shiftNearest n k ≤ 2 ^ a := by
  rcases le_or_gt k 0 with hk | hk
  · rw [shiftNearest_of_nonpos hk]
    calc n * 2 ^ (-k).toNat ≤ 2 ^ b * 2 ^ (-k).toNat := Nat.mul_le_mul_right _ hn.le
      _ = 2 ^ (b + (-k).toNat) := (pow_add ..).symm
      _ ≤ 2 ^ a := Nat.pow_le_pow_right two_pos (by omega)
  · obtain ⟨K, rfl⟩ : ∃ K : Nat, k = (K + 1 : Nat) := ⟨(k - 1).toNat, by omega⟩
    have hlt : n / 2 ^ (K + 1) < 2 ^ a := Nat.div_lt_of_lt_mul <|
      calc n < 2 ^ b := hn
        _ ≤ 2 ^ (K + 1 + a) := Nat.pow_le_pow_right two_pos (by omega)
        _ = 2 ^ (K + 1) * 2 ^ a := pow_add ..
    have := (shiftNearest_succ_bounds n K).2
    omega

/-- A number from `2^b` on rounds to at least `2^(b-k)`; to exactly that only down. -/
theorem le_shiftNearest {n a b : Nat} {k : Int} {w : ℚ} (hn : 2 ^ b ≤ n) (hb : (a : Int) + k ≤ b)
    (h : StandsForAt k n w) :
    2 ^ a ≤ shiftNearest n k ∧ (shiftNearest n k = 2 ^ a → (2 : ℚ) ^ a * 2 ^ k ≤ w) := by
  rcases le_or_gt k 0 with hk | hk
  · obtain ⟨j, rfl⟩ : ∃ j : Nat, k = -j := ⟨(-k).toNat, by omega⟩
    rw [shiftNearest_of_nonpos hk, neg_neg, Int.toNat_natCast]
    refine ⟨?_, fun he => ?_⟩
    · calc 2 ^ a ≤ 2 ^ (b + j) := Nat.pow_le_pow_right two_pos (by omega)
        _ = 2 ^ b * 2 ^ j := pow_add ..
        _ ≤ n * 2 ^ j := Nat.mul_le_mul_right _ hn
    · have he' : (n : ℚ) * 2 ^ j = 2 ^ a := by exact_mod_cast he
      rw [h.eq hk, ← he', zpow_neg, zpow_natCast, mul_inv_cancel_right₀ (by positivity)]
  · obtain ⟨K, rfl⟩ : ∃ K : Nat, k = (K + 1 : Nat) := ⟨(k - 1).toNat, by omega⟩
    have hle : 2 ^ a * 2 ^ (K + 1) ≤ n :=
      calc 2 ^ a * 2 ^ (K + 1) = 2 ^ (a + (K + 1)) := (pow_add ..).symm
        _ ≤ 2 ^ b := Nat.pow_le_pow_right two_pos (by omega)
        _ ≤ n := hn
    refine ⟨((Nat.le_div_iff_mul_le (Nat.two_pow_pos _)).2 hle).trans (shiftNearest_succ_bounds n K).1, fun _ => ?_⟩
    have hw := (h.compare (2 ^ a * 2)).1.2 (by rwa [mul_assoc, ← pow_succ'])
    push_cast at hw
    rwa [zpow_natCast, pow_succ', ← mul_assoc]

/-! ### F64.round -/

/-- The exponent of the last place kept when `n * 2^e` is rounded to binary64. -/
def lastPlace (n : Nat) (e : Int) : Int := max (e + (n.log2 + 1) - 53) (-1074)

theorem F64.round_zero (neg : Bool) (e : Int) : F64.round neg 0 e = .fin neg 0 (-1074) := rfl

theorem F64.round_of_ne_zero {n : Nat} (hn : n ≠ 0) (neg : Bool) (e : Int) :
    F64.round neg n e =
      if shiftNearest n (lastPlace n e - e) = 2 ^ 53 then F64.pack neg (2 ^ 52) (lastPlace n e + 1)
      else F64.pack neg (shiftNearest n (lastPlace n e - e)) (lastPlace n e) := if_neg hn

theorem nearestEven_zero (neg : Bool) : NearestEven neg 0 (.fin neg 0 (-1074)) :=
  ⟨0, -1074, rfl, by norm_num, le_rfl, .inl rfl, (NearestMultiple.of_eq (by positivity) (by simp)).1, fun _ => rfl,
    .inl rfl⟩

/-- A nearest multiple of a unit `2^f` binary64 has, packed: past the last 53-bit significand it is the first one of the
next exponent. -/
theorem nearestEven_of_nearestMultiple {neg : Bool} {q : Nat} {f : Int} {v : ℚ} (h : NearestMultiple q (2 ^ f) v)
    (hf : -1074 ≤ f) (hq : q ≤ 2 ^ 53)
    (hnormal : f = -1074 ∨ 2 ^ 52 ≤ q ∧ (q = 2 ^ 52 → (2 : ℚ) ^ 52 * 2 ^ f ≤ v)) :
    NearestEven neg v (if q = 2 ^ 53 then F64.pack neg (2 ^ 52) (f + 1) else F64.pack neg q f) := by
  obtain ⟨hle, htie⟩ := h
  have hu : (0 : ℚ) < 2 ^ f := by positivity
  split_ifs with hcarry
  · have hval : ((2 ^ 52 : Nat) : ℚ) * 2 ^ (f + 1) = (q : ℚ) * 2 ^ f := by
      rw [hcarry, zpow_add_one₀ two_ne_zero]
      push_cast
      ring
    have hunit : (2 : ℚ) ^ (f + 1) = 2 ^ f * 2 := zpow_add_one₀ two_ne_zero f
    refine ⟨2 ^ 52, f + 1, rfl, by norm_num, by omega, .inr le_rfl, ?_, fun _ => by norm_num, .inr (.inr ?_)⟩ <;>
      rw [hval, hunit]
    · linarith
    · linarith [le_abs_self ((q : ℚ) * 2 ^ f - v)]
  · refine ⟨q, f, rfl, by omega, hf, hnormal.imp_right And.left, hle, htie, ?_⟩
    rcases hnormal with hsub | ⟨-, hfirst⟩
    · exact .inl hsub
    · by_cases hq52 : q = 2 ^ 52
      · have := hfirst hq52
        subst hq52
        push_cast
        exact .inr (.inr (by linarith))
      · exact .inr (.inl hq52)

/-- `F64.round` is nearest even for every magnitude its significand stands for at the last place kept. -/
theorem nearestEven_round {neg : Bool} {n : Nat} {e : Int} {w : ℚ} (hn : n ≠ 0)
    (h : StandsForAt (lastPlace n e - e) n w) : NearestEven neg (w * 2 ^ e) (F64.round neg n e) := by
  rw [F64.round_of_ne_zero hn]
  have hplace : lastPlace n e = max (e + (n.log2 + 1) - 53) (-1074) := rfl
  have hlog : 2 ^ n.log2 ≤ n := Nat.log2_self_le hn
  refine nearestEven_of_nearestMultiple ?_ (by omega)
    (shiftNearest_le (Nat.lt_log2_self (n := n)) (by push_cast; omega)) ?_
  · have := (nearestMultiple_shiftNearest h).scale (c := 2 ^ e) (by positivity)
    rwa [← zpow_add₀ two_ne_zero, sub_add_cancel] at this
  · rcases max_choice (e + ((n.log2 : Int) + 1) - 53) (-1074) with hc | hc
    · obtain ⟨hle, hfirst⟩ := le_shiftNearest (a := 52) hlog (by push_cast; omega) h
      refine .inr ⟨hle, fun hq => ?_⟩
      have := mul_le_mul_of_nonneg_right (hfirst hq) (by positivity : (0 : ℚ) ≤ 2 ^ e)
      rwa [mul_assoc, ← zpow_add₀ two_ne_zero, sub_add_cancel] at this
    · exact .inl (hplace.trans hc)

/-- `F64.round` of an exact magnitude. -/
theorem nearestEven_round_exact (neg : Bool) (n : Nat) (e : Int) : NearestEven neg (n * 2 ^ e) (F64.round neg n e) := by
  rcases Nat.eq_zero_or_pos n with rfl | hn
  · rw [F64.round_zero, Nat.cast_zero, zero_mul]
    exact nearestEven_zero neg
  · exact nearestEven_round hn.ne' (.inl rfl)

/-! ### exact values -/

theorem abs_exactValue (s : Bool) (m : Nat) (e : Int) : |exactValue s m e| = m * 2 ^ e := by
  have h : (0 : ℚ) ≤ m * 2 ^ e := by positivity
  cases s with
  | false => exact abs_of_nonneg h
  | true => exact (abs_neg _).trans (abs_of_nonneg h)

theorem exactValue_eq_zero {s : Bool} {m : Nat} {e : Int} : exactValue s m e = 0 ↔ m = 0 := by
  rw [← abs_eq_zero, abs_exactValue, mul_eq_zero, Nat.cast_eq_zero]
  exact or_iff_left (by positivity)

theorem exactValue_not (s : Bool) (m : Nat) (e : Int) : exactValue (!s) m e = -exactValue s m e := by
  cases s with
  | false => rfl
  | true => exact (neg_neg _).symm

theorem exactValue_eq_signedShift {g e : Int} (h : g ≤ e) (s : Bool) (m : Nat) :
    exactValue s m e = signedShift s m (e - g).toNat * 2 ^ g := by
  obtain ⟨k, rfl⟩ : ∃ k : Nat, e = g + k := ⟨(e - g).toNat, by omega⟩
  rw [add_sub_cancel_left, Int.toNat_natCast]
  have hv : (m : ℚ) * 2 ^ (g + k : Int) = ((m * 2 ^ k : Nat) : ℚ) * 2 ^ g := by
    rw [zpow_add₀ two_ne_zero, zpow_natCast]
    push_cast
    ring
  cases s with
  | false => exact hv.trans (congrArg (· * 2 ^ g) (Int.cast_natCast _).symm)
  | true =>
    simp only [exactValue, signedShift, if_true]
    rw [hv, Int.cast_neg, Int.cast_natCast, neg_mul]

/-- Two values over their common exponent: their sum and their order are those of two integers. -/
theorem exactValue_add (s t : Bool) (m n : Nat) (e f : Int) : exactValue s m e + exactValue t n f =
    ((signedShift s m (e - min e f).toNat + signedShift t n (f - min e f).toNat : Int) : ℚ) * 2 ^ min e f := by
  rw [exactValue_eq_signedShift (min_le_left e f), exactValue_eq_signedShift (min_le_right e f), ← add_mul]
  push_cast
  rfl

/-! ### the operations on finite values -/

theorem nearestEven_add (s t : Bool) (m n : Nat) (e f : Int) :
    NearestEven (if exactValue s m e + exactValue t n f = 0 then s && t
        else decide (exactValue s m e + exactValue t n f < 0))
      |exactValue s m e + exactValue t n f| ((F64.fin s m e).add (.fin t n f)) := by
  have hu : (0 : ℚ) < 2 ^ min e f := by positivity
  rw [exactValue_add]
  simp only [F64.add]
  generalize signedShift s m (e - min e f).toNat + signedShift t n (f - min e f).toNat = z
  by_cases hz : z = 0
  · subst hz
    simp only [if_true, Int.cast_zero, zero_mul, abs_zero]
    exact nearestEven_zero (s && t)
  · have hne : (z : ℚ) * 2 ^ min e f ≠ 0 := mul_ne_zero (by exact_mod_cast hz) hu.ne'
    have hsign : (z : ℚ) * 2 ^ min e f < 0 ↔ z < 0 := by simp [mul_neg_iff, hu, hu.not_gt]
    have habs : |(z : ℚ) * 2 ^ min e f| = (z.natAbs : ℚ) * 2 ^ min e f := by
      rw [abs_mul, abs_of_pos hu, Nat.cast_natAbs, Int.cast_abs]
    rw [if_neg hz, if_neg hne, habs, decide_eq_decide.2 hsign]
    exact nearestEven_round_exact _ _ _

theorem nearestEven_sub (s t : Bool) (m n : Nat) (e f : Int) :
    NearestEven (if exactValue s m e - exactValue t n f = 0 then s && !t
        else decide (exactValue s m e - exactValue t n f < 0))
      |exactValue s m e - exactValue t n f| ((F64.fin s m e).sub (.fin t n f)) := by
  have h := nearestEven_add s (!t) m n e f
  rwa [exactValue_not, ← sub_eq_add_neg] at h

theorem nearestEven_mul (s t : Bool) (m n : Nat) (e f : Int) :
    NearestEven (s ^^ t) |exactValue s m e * exactValue t n f| ((F64.fin s m e).mul (.fin t n f)) := by
  have hv : |exactValue s m e * exactValue t n f| = ((m * n : Nat) : ℚ) * 2 ^ (e + f) := by
    rw [abs_mul, abs_exactValue, abs_exactValue, zpow_add₀ two_ne_zero]
    push_cast
    ring
  rw [hv]
  exact nearestEven_round_exact _ _ _

/-- The quotient `2 * a / n` cut to an odd last bit where it is not exact. -/
def stickyQuotient (a n : Nat) : Nat := 2 * (a / n) + if a % n = 0 then 0 else 1

/-- The cut quotient compares with every even integer as the quotient does. -/
theorem stickyQuotient_compare {n : Nat} (hn : 0 < n) (a j : Nat) :
    (((2 * j : Nat) : ℚ) ≤ 2 * a / n ↔ 2 * j ≤ stickyQuotient a n) ∧
      ((2 * a / n : ℚ) ≤ (2 * j : Nat) ↔ stickyQuotient a n ≤ 2 * j) := by
  have hn' : (0 : ℚ) < n := by exact_mod_cast hn
  have hle : j * n ≤ a ↔ j ≤ a / n := (Nat.le_div_iff_mul_le hn).symm
  have hdiv := Nat.div_add_mod a n
  unfold stickyQuotient
  rw [le_div_iff₀ hn', div_le_iff₀ hn']
  norm_cast
  constructor
  · rw [mul_assoc, Nat.mul_le_mul_left_iff two_pos, hle]
    split_ifs <;> omega
  · rw [mul_assoc, Nat.mul_le_mul_left_iff two_pos]
    split_ifs with hr
    · have ha : a = a / n * n := (Nat.div_mul_cancel (Nat.dvd_of_mod_eq_zero hr)).symm
      rw [add_zero, Nat.mul_le_mul_left_iff two_pos]
      exact ⟨fun h => Nat.div_le_of_le_mul (by rwa [mul_comm]), fun h => ha.trans_le (Nat.mul_le_mul_right n h)⟩
    · have ha : a ≠ j * n := fun h => hr (by rw [h, Nat.mul_mod_left])
      have hlt : a / n < j ↔ a < j * n := Nat.div_lt_iff_lt_mul hn
      omega

/-- With 64 bits to spare the cut quotient has far more than the 53 bits a rounding keeps. -/
theorem le_stickyQuotient {m n : Nat} (hm : m ≠ 0) (hn : n ≠ 0) :
    2 ^ 54 ≤ stickyQuotient (m * 2 ^ (n.log2 + 64)) n := by
  have h : 2 ^ 54 ≤ m * 2 ^ (n.log2 + 64) / n := (Nat.le_div_iff_mul_le (Nat.pos_of_ne_zero hn)).2 <|
    calc 2 ^ 54 * n ≤ 2 ^ 54 * 2 ^ (n.log2 + 1) := Nat.mul_le_mul_left _ Nat.lt_log2_self.le
      _ = 2 ^ (54 + (n.log2 + 1)) := (pow_add ..).symm
      _ ≤ 2 ^ (n.log2 + 64) := Nat.pow_le_pow_right two_pos (by omega)
      _ ≤ m * 2 ^ (n.log2 + 64) := Nat.le_mul_of_pos_left _ (Nat.pos_of_ne_zero hm)
  unfold stickyQuotient
  omega

/-- The cut loses nothing: the quotient and its cut compare alike wherever a rounding looks (log entry 22). -/
theorem stickyQuotient_standsFor {a n : Nat} (hn : 0 < n) (hlarge : 2 ^ 54 ≤ stickyQuotient a n) (e : Int) :
    StandsForAt (lastPlace (stickyQuotient a n) e - e) (stickyQuotient a n) (2 * a / n) := by
  have hlog : 54 ≤ (stickyQuotient a n).log2 := (Nat.le_log2 (by omega)).2 hlarge
  have hplace : lastPlace (stickyQuotient a n) e =
    max (e + ((stickyQuotient a n).log2 + 1) - 53) (-1074) := rfl
  obtain ⟨i, hi⟩ : ∃ i : Nat, (lastPlace (stickyQuotient a n) e - e).toNat - 1 = i + 1 :=
    ⟨(lastPlace (stickyQuotient a n) e - e).toNat - 2, by omega⟩
  refine .inr ⟨by omega, fun j => ?_⟩
  rw [hi, show j * 2 ^ (i + 1) = 2 * (j * 2 ^ i) by ring]
  exact stickyQuotient_compare hn a _

theorem F64.div_fin_fin (s t : Bool) (m : Nat) {n : Nat} (hn : n ≠ 0) (e f : Int) :
    (F64.fin s m e).div (.fin t n f) =
      F64.round (s ^^ t) (stickyQuotient (m * 2 ^ (n.log2 + 64)) n) (e - f - (n.log2 + 64 : Nat) - 1) := if_neg hn

theorem nearestEven_div (s t : Bool) (m n : Nat) (e f : Int) (hy : exactValue t n f ≠ 0) :
    NearestEven (s ^^ t) |exactValue s m e / exactValue t n f| ((F64.fin s m e).div (.fin t n f)) := by
  have hn : n ≠ 0 := fun h => hy (exactValue_eq_zero.2 h)
  rw [F64.div_fin_fin s t m hn, abs_div, abs_exactValue, abs_exactValue]
  rcases Nat.eq_zero_or_pos m with rfl | hm
  · have h0 : stickyQuotient (0 * 2 ^ (n.log2 + 64)) n = 0 := by simp [stickyQuotient]
    rw [h0, F64.round_zero, Nat.cast_zero, zero_mul, zero_div]
    exact nearestEven_zero _
  · have hlarge := le_stickyQuotient hm.ne' hn
    have hstands := stickyQuotient_standsFor (Nat.pos_of_ne_zero hn) hlarge (e - f - (n.log2 + 64 : Nat) - 1)
    generalize n.log2 + 64 = k at *
    have hv : (m : ℚ) * 2 ^ e / (n * 2 ^ f) = 2 * (m * 2 ^ k : Nat) / n * 2 ^ (e - f - k - 1) := by
      rw [zpow_sub₀ two_ne_zero, zpow_sub₀ two_ne_zero, zpow_sub₀ two_ne_zero, zpow_natCast, zpow_one]
      push_cast
      field_simp
    rw [hv]
    exact nearestEven_round (by omega) hstands

theorem F64.div_by_zero (s t : Bool) (m n : Nat) (e f : Int) (hy : exactValue t n f = 0) :
    (F64.fin s m e).div (.fin t n f) = if exactValue s m e = 0 then .nan else .inf (s ^^ t) := by
  rw [exactValue_eq_zero] at hy
  simp only [F64.div, hy, if_true, exactValue_eq_zero]

theorem F64.lt_iff_exactValue (s t : Bool) (m n : Nat) (e f : Int) :
    (F64.fin s m e).lt (.fin t n f) = true ↔ exactValue s m e < exactValue t n f := by
  rw [exactValue_eq_signedShift (min_le_left e f), exactValue_eq_signedShift (min_le_right e f),
    mul_lt_mul_iff_left₀ (by positivity), Int.cast_lt]
  exact decide_eq_true_iff

theorem F64.isZero_iff_exactValue (s : Bool) (m : Nat) (e : Int) :
    (F64.fin s m e).isZero = true ↔ exactValue s m e = 0 := by
  rw [exactValue_eq_zero]
  exact beq_iff_eq

/-! ### integers -/

theorem exactValue_ofInt (z : Int) : exactValue (decide (z < 0)) z.natAbs 0 = z := by
  unfold exactValue
  rw [zpow_zero, mul_one, Nat.cast_natAbs, Int.cast_abs]
  rcases lt_or_ge z 0 with hz | hz
  · rw [if_pos (decide_eq_true hz), abs_of_neg (by exact_mod_cast hz), neg_neg]
  · rw [if_neg (by simpa using hz), abs_of_nonneg (by exact_mod_cast hz)]

theorem exactValue_ofNat (n : Nat) : exactValue false n 0 = n := by simp [exactValue]

/-! ### NaN and the infinities -/

theorem F64.nan_operand (x : F64) : x.add .nan = .nan ∧ F64.nan.add x = .nan ∧ x.sub .nan = .nan ∧
    F64.nan.sub x = .nan ∧ x.mul .nan = .nan ∧ F64.nan.mul x = .nan ∧ x.div .nan = .nan ∧ F64.nan.div x = .nan ∧
    x.lt .nan = false ∧ F64.nan.lt x = false := by
  cases x <;> exact ⟨rfl, rfl, rfl, rfl, rfl, rfl, rfl, rfl, rfl, rfl⟩

/-! ### encodings -/

/-- An encoding by its sign bit, its exponent field and its fraction field. -/
theorem toNat_eq_fields (b : Bits64) : b.toNat =
    (if b.msb then 2 ^ 63 else 0) + (b.extractLsb' 52 11).toNat * 2 ^ 52 + (b.extractLsb' 0 52).toNat := by
  have h := b.isLt
  simp only [BitVec.msb_eq_decide, BitVec.extractLsb'_toNat, Nat.shiftRight_eq_div_pow, decide_eq_true_eq]
  split_ifs <;> omega

/-- Clearing the sign bit keeps the other two fields. -/
theorem fields_clearSign (b : Bits64) : (b &&& 0x7FFFFFFFFFFFFFFF).msb = false ∧
    (b &&& 0x7FFFFFFFFFFFFFFF).extractLsb' 52 11 = b.extractLsb' 52 11 ∧
    (b &&& 0x7FFFFFFFFFFFFFFF).extractLsb' 0 52 = b.extractLsb' 0 52 := by
  have hmod : (b &&& 0x7FFFFFFFFFFFFFFF).toNat = b.toNat % 2 ^ 63 := Nat.and_two_pow_sub_one_eq_mod b.toNat 63
  refine ⟨?_, BitVec.eq_of_toNat_eq ?_, BitVec.eq_of_toNat_eq ?_⟩
  · rw [BitVec.msb_eq_decide, hmod]
    exact decide_eq_false (by omega)
  · rw [BitVec.extractLsb'_toNat, BitVec.extractLsb'_toNat, hmod, Nat.shiftRight_eq_div_pow, Nat.shiftRight_eq_div_pow]
    omega
  · rw [BitVec.extractLsb'_toNat, BitVec.extractLsb'_toNat, hmod, Nat.shiftRight_zero, Nat.shiftRight_zero]
    omega

theorem F64.abs_ofBits (b : Bits64) : (F64.ofBits b).abs = F64.ofBits (b &&& 0x7FFFFFFFFFFFFFFF) := by
  obtain ⟨hsign, hexponent, hfraction⟩ := fields_clearSign b
  unfold F64.ofBits
  rw [hsign, hexponent, hfraction]
  simp only
  split_ifs <;> rfl

theorem F64.isZero_ofBits_iff_fields (b : Bits64) : (F64.ofBits b).isZero = true ↔
    (b.extractLsb' 52 11).toNat = 0 ∧ (b.extractLsb' 0 52).toNat = 0 := by
  unfold F64.ofBits
  simp only
  split_ifs <;> simp only [F64.isZero, beq_iff_eq, Bool.false_eq_true, false_iff] <;> omega

theorem F64.isZero_ofBits (b : Bits64) : (F64.ofBits b).isZero = true ↔ b = 0 ∨ b = 0x8000000000000000 := by
  have hfields := toNat_eq_fields b
  rw [F64.isZero_ofBits_iff_fields, ← BitVec.toNat_inj, ← BitVec.toNat_inj, show (0 : Bits64).toNat = 0 from rfl,
    show (0x8000000000000000 : Bits64).toNat = 2 ^ 63 from rfl]
  split_ifs at hfields <;> omega

/-- Settles O57: `nearestEven_round` for every magnitude a significand stands for, with the exact sum, product or
quotient of two finite values as that magnitude; NaN, infinities and encodings by their cases. -/
theorem roundingIsNearestEven : Obligations.RoundingIsNearestEven := by
  refine ⟨nearestEven_round_exact, fun z => ⟨_, _, rfl, exactValue_ofInt z⟩, fun n => ⟨n, rfl, exactValue_ofNat n⟩,
    fun s t m n e f => ⟨nearestEven_add s t m n e f, nearestEven_sub s t m n e f, nearestEven_mul s t m n e f,
      nearestEven_div s t m n e f, F64.div_by_zero s t m n e f, F64.lt_iff_exactValue s t m n e f,
      F64.isZero_iff_exactValue s m e⟩,
    F64.nan_operand, fun s t => ?_, fun s t m e => ?_, fun b => ⟨F64.abs_ofBits b, F64.isZero_ofBits b⟩⟩
  · refine ⟨rfl, ?_, rfl, rfl, rfl⟩
    cases s <;> cases t <;> rfl
  · refine ⟨rfl, rfl, rfl, rfl, rfl, ?_, rfl, ?_, rfl, rfl⟩
    · rw [Bool.xor_comm]
      rfl
    · rw [Bool.xor_comm]
      rfl

end Sys2Proof.Machine
end

