-- ==== Sys2Proof/Proofs/Endings.lean ====
section
/-! PROOFS. Proofs/Endings.lean: everything a command and a step can do to the state, said once: `ExecEnding` lists the
ways a command ends, `StepEffect` the three things a step is (an access or a start, a reset, the run of a command), and
`step_keeps` packages the induction every invariant of the registers needs. -/

namespace Sys2Proof.Machine

/-! ### the ways a command ends -/

/-- The ways command `i` can end when it starts in `s`: one that touches memory only; the table engine; S2D_SETCFG; and
the frame commands, which write their own context and the ranges they name. -/
inductive ExecEnding (s : State) (i : Instr) : State → Prop where
  | memory {t : State} (hset : isSetcfg i = false) (h : MemEnding i.opcode (writeRanges s i) s t) : ExecEnding s i t
  | free (hi : i = .s2dFree) : ExecEnding s i
      (okState { s with tablesValid := false, tblNShift := 0, tblNDepth := 0, s2d := [], d2s := [] } 0x03 0 0 0 0)
  | init (hi : i = .s2dInit) : ExecEnding s i (rebuild 0x01 (calibNS s.calib) (calibND s.calib)
      (BitVec.ofNat 32 (calibNS s.calib)) (BitVec.ofNat 32 (calibND s.calib)) s)
  | update (hi : i = .s2dUpdate) (hv : s.tablesValid = true) : ExecEnding s i
      (rebuild 0x02 s.tblNShift.toNat s.tblNDepth.toNat (s.tblNShift.setWidth 32) (s.tblNDepth.setWidth 32) s)
  | setcfg (f : CalibField) (vlo vhi : Word) (hi : i = setcfgCommand f vlo vhi) : ExecEnding s i (setcfg f vlo vhi s)
  | frame (c : BitVec 4) (y : Context) (m : Memory) (n : Nat) (r0 r1 r2 r3 : Word) (hset : isSetcfg i = false)
      (hc : i.ctx? = some c) (hy : ContextInv s.params (getContext s c) → ContextInv s.params y)
      (hm : RangesEffect s.mem m (writeRanges s i)) :
      ExecEnding s i (okState (setContext { s with mem := m, nonce := n } c y) i.opcode r0 r1 r2 r3)
  | frameFault (c : BitVec 4) (f : Raise) (hset : isSetcfg i = false) (hc : i.ctx? = some c) :
      ExecEnding s i (havocContext (raiseFault i.opcode (writeRanges s i) f s) c)

theorem exec_setcfgCommand (f : CalibField) (vlo vhi : Word) (s : State) :
    exec (setcfgCommand f vlo vhi) s = .next (setcfg f vlo vhi s) := by cases f <;> rfl

/-- A command that always ends OK and moves nothing but STATUS and the results. -/
theorem MemEnding.unchanged (opc : BitVec 8) (rs : List (Nat × Nat)) (s : State) :
    MemEnding opc rs s (okState s opc 0 0 0 0) := .ok s.mem s.nonce 0 0 0 0 (.refl s.mem rs)

theorem execS2dUpdate_ending (s : State) : ∃ t, exec .s2dUpdate s = .next t ∧ ExecEnding s .s2dUpdate t := by
  refine ⟨_, rfl, ?_⟩
  split_ifs with hv
  · exact .update rfl hv
  · exact .memory rfl (.fault ⟨.tablesNotValid, 0, 0⟩ s.nonce)

theorem frameSof_ending {i : Instr} {k : FrameKind} {c : BitVec 4} {wbase wcap line : Word} (s : State)
    (hi : i = sofCommand k c wbase wcap line) : ExecEnding s i (frameSof k c wbase wcap line s) := by
  obtain ⟨hset, hopc, hc, hw⟩ :
      isSetcfg i = false ∧ i.opcode = 0x30 ∧ i.ctx? = some c ∧ writeRanges s i = [] := by
    subst hi
    cases k <;> exact ⟨rfl, rfl, rfl, rfl⟩
  rcases frameSof_ends k c wbase wcap line s with ⟨f, -, h⟩ | h <;> rw [h]
  · rw [← hopc, ← hw]
    exact .frameFault c f hset hc
  · rw [← hopc]
    exact .frame c _ s.mem s.nonce _ 0 0 0 hset hc (fun _ => ⟨Nat.zero_le _, Nat.zero_le _⟩) (.refl _ _)

theorem execFrameChunk_ending (c : BitVec 4) (src offset len bufsize : Word) (s : State) :
    ∃ t, exec (.frameChunk c src offset len bufsize) s = .next t ∧
      ExecEnding s (.frameChunk c src offset len bufsize) t := by
  obtain ⟨t, ht, h⟩ := execFrameChunk_ends c src offset len bufsize s
  refine ⟨t, ht, ?_⟩
  rcases h with ⟨-, rfl⟩ | ⟨-, ⟨f, rfl⟩ | ⟨m, n, y, r0, r1, r2, r3, rfl, hm, hy, -⟩⟩
  · exact .memory rfl (.status .illegalState (by decide))
  · exact .frameFault c f rfl rfl
  · exact .frame c y m n r0 r1 r2 r3 rfl rfl hy hm

theorem execFrameEof_ending (c : BitVec 4) (s : State) :
    ∃ t, exec (.frameEof c) s = .next t ∧ ExecEnding s (.frameEof c) t := by
  obtain ⟨t, ht, h⟩ := execFrameEof_ends c s
  refine ⟨t, ht, ?_⟩
  rcases h with ⟨-, rfl⟩ | ⟨-, rfl⟩
  · exact .memory rfl (.status .illegalState (by decide))
  · exact .frame c _ s.mem s.nonce _ _ _ 0 rfl rfl (fun h => ⟨h.1, Nat.zero_le _⟩) (.refl _ _)

/-- Every command ends in one of the listed ways. -/
theorem exec_ending (i : Instr) (s : State) : ∃ t, exec i s = .next t ∧ ExecEnding s i t := by
  have memory (hset : isSetcfg i = false)
      (h : ∃ t, exec i s = .next t ∧ MemEnding i.opcode (writeRanges s i) s t) :
      ∃ t, exec i s = .next t ∧ ExecEnding s i t := h.imp fun _ ht => ⟨ht.1, .memory hset ht.2⟩
  have setcfg (f : CalibField) (vlo vhi : Word) (hi : i = setcfgCommand f vlo vhi) :
      ∃ t, exec i s = .next t ∧ ExecEnding s i t :=
    ⟨_, hi ▸ exec_setcfgCommand f vlo vhi s, .setcfg f vlo vhi hi⟩
  cases i with
  | nop => exact memory rfl ⟨_, rfl, .unchanged _ _ s⟩
  | s2dInit => exact ⟨_, rfl, .init rfl⟩
  | s2dUpdate => exact execS2dUpdate_ending s
  | s2dFree => exact ⟨_, rfl, .free rfl⟩
  | setcfgZeroPlaneDistance vlo vhi => exact setcfg .zeroPlaneDistance vlo vhi rfl
  | setcfgZeroPlanePixelSize vlo vhi => exact setcfg .zeroPlanePixelSize vlo vhi rfl
  | setcfgEmitterDistance vlo vhi => exact setcfg .emitterDistance vlo vhi rfl
  | setcfgMaxShift vlo => exact setcfg .maxShift vlo 0 rfl
  | setcfgMaxDepth vlo => exact setcfg .maxDepth vlo 0 rfl
  | setcfgConstShift vlo => exact setcfg .constShift vlo 0 rfl
  | setcfgPixelSizeFactor vlo => exact setcfg .pixelSizeFactor vlo 0 rfl
  | setcfgParamCoeff vlo => exact setcfg .paramCoeff vlo 0 rfl
  | setcfgShiftScale vlo => exact setcfg .shiftScale vlo 0 rfl
  | setcfgMinCutoff vlo => exact setcfg .minCutoff vlo 0 rfl
  | setcfgMaxCutoff vlo => exact setcfg .maxCutoff vlo 0 rfl
  | setcfgOutputFormat vlo => exact setcfg .outputFormat vlo 0 rfl
  | s2dConvert src count dst => exact memory rfl (execS2dConvert_ends src count dst s)
  | s2dRdtabS2d dst cap | s2dRdtabD2s dst cap => exact memory rfl ⟨_, rfl, readTable_ends ..⟩
  | unpack12 src srclen dst dstcap => exact memory rfl (execUnpack12_ends src srclen dst dstcap s)
  | uncompPs src srclen dst dstcap line | uncompPsLast src srclen dst dstcap line
  | uncompNew src srclen dst dstcap line | uncompNewLast src srclen dst dstcap line =>
    exact memory rfl ⟨_, rfl, uncomp_ends ..⟩
  | mirrorGray8 buf len width | mirrorGray16 buf len width | mirrorDepth1mm buf len width
  | mirrorDepth100um buf len width | mirrorShift92 buf len width | mirrorRgb888 buf len width
  | mirrorYuv422 buf len width | mirrorYuyv buf len width => exact memory rfl ⟨_, rfl, mirror_ends ..⟩
  | mirrorCode fmt buf len width => exact memory rfl ⟨_, rfl, .status .badFormat (by decide)⟩
  | frameSofPacked12 c wbase wcap line => exact ⟨_, rfl, frameSof_ending (k := .packed12) s rfl⟩
  | frameSofPs c wbase wcap line => exact ⟨_, rfl, frameSof_ending (k := .uncompPs) s rfl⟩
  | frameSofNew c wbase wcap line => exact ⟨_, rfl, frameSof_ending (k := .uncompNew) s rfl⟩
  | frameChunk c src offset len bufsize => exact execFrameChunk_ending c src offset len bufsize s
  | frameEof c => exact execFrameEof_ending c s
  | lu3 a b x => exact memory rfl (execLu3_ends a b x s)
  | planefit pts n out => exact memory rfl (execPlanefit_ends pts n out s)

theorem execEnding_of_next {i : Instr} {s t : State} (h : exec i s = .next t) : ExecEnding s i t := by
  obtain ⟨u, hu, hend⟩ := exec_ending i s
  cases hu.symm.trans h
  exact hend

/-- What the run of a latched descriptor is: ILLEGAL_COMMAND, or a command whose context exists. -/
theorem runDescriptor_ending {d : Descriptor} {s t : State} (h : runDescriptor d s = .next t) :
    t = statusState s (opcOf d) 0x07 ∨ ∃ i : Instr, i.wellFormed s.params.numCtx = true ∧ ExecEnding s i t := by
  cases hl : legalCommand s d with
  | none =>
    rw [runDescriptor_illegal hl] at h
    cases h
    exact .inl rfl
  | some i =>
    rw [runDescriptor_legal hl] at h
    exact .inr ⟨i, (legalCommand_eq_some.1 hl).2, execEnding_of_next h⟩

/-! ### what a step does to the registers -/

/-- The state with everything erased that a host access or the start of a command can change: CMD0..CMD7, the latched
descriptor, data memory, the host's side of the boundary and the count of free values. -/
def State.steady (s : State) : State :=
  { s with
    running := none, cmd := Vector.replicate 8 0, mem := [], events := [], readData := 0, raced := [], nonce := 0 }

section
variable {s t : State} (h : t.steady = s.steady)
include h

theorem steady_fault : t.fault = s.fault := (congrArg State.fault h :)

theorem steady_tablesValid : t.tablesValid = s.tablesValid := (congrArg State.tablesValid h :)

theorem steady_lastStatus : t.lastStatus = s.lastStatus := (congrArg State.lastStatus h :)

theorem steady_lastOpcode : t.lastOpcode = s.lastOpcode := (congrArg State.lastOpcode h :)

theorem steady_faultCause : t.faultCause = s.faultCause := (congrArg State.faultCause h :)

theorem steady_faultInfo : t.faultInfo = s.faultInfo := (congrArg State.faultInfo h :)

theorem steady_faultValue : t.faultValue = s.faultValue := (congrArg State.faultValue h :)

theorem steady_cfgEpoch : t.cfgEpoch = s.cfgEpoch := (congrArg State.cfgEpoch h :)

theorem steady_result : t.result = s.result := (congrArg State.result h :)

theorem steady_calib : t.calib = s.calib := (congrArg State.calib h :)

theorem steady_s2d : t.s2d = s.s2d := (congrArg State.s2d h :)

theorem steady_d2s : t.d2s = s.d2s := (congrArg State.d2s h :)

theorem steady_contexts : t.contexts = s.contexts := (congrArg State.contexts h :)

end

/-- An access of the host that is no reset: the steady registers stay, and a command is started only from idle. -/
def Access (s t : State) : Prop :=
  t.steady = s.steady ∧ (t.running = s.running ∨ s.running = none ∧ s.fault = false)

theorem Access.refl (s : State) : Access s s := ⟨rfl, .inl rfl⟩

/-- The two resets from outside (70_reset_and_hazards.md rules R381, R382). -/
def IsReset (e : Event) : Prop := e = .resetInput ∨ ∃ v : Word, v.getLsbD 1 = true ∧ e = .regWrite 0x008 .bits32 v

theorem resetNow_eq (s : State) : ∃ u, resetNow s = resetBlock u ∧ u.params = s.params := by
  cases h : s.running with
  | none => exact ⟨s, resetNow_idle h, rfl⟩
  | some d => exact ⟨_, resetNow_busy h, havocRanges_params _ _⟩

theorem startCommand_access (s : State) : Access s (startCommand s) := by
  by_cases h : s.running.isSome = true ∨ s.fault = true
  · rw [startCommand_ignored h]
    exact .refl s
  · have hidle : s.running = none := Option.not_isSome_iff_eq_none.1 fun hs => h (.inl hs)
    have hf : s.fault = false := Bool.eq_false_iff.2 fun hs => h (.inr hs)
    rw [startCommand_idle hidle hf]
    exact ⟨rfl, .inr ⟨hidle, hf⟩⟩

theorem writeControl_reset {v : Word} (hv : v.getLsbD 1 = true) (s : State) : writeControl v s = resetNow s := by
  rw [writeControl, if_pos hv]

theorem writeControl_access {v : Word} (hv : v.getLsbD 1 = false) (s : State) : Access s (writeControl v s) := by
  rw [writeControl, if_neg (ne_true_of_eq_false hv)]
  split_ifs
  · exact startCommand_access s
  · exact .refl s

/-- A write to the window resets the block, if it sets CONTROL's SOFT_RESET, or is a plain access. -/
theorem writeWindow_effect (off : BitVec 10) (v : Word) (s : State) :
    (off = 0x008 ∧ v.getLsbD 1 = true ∧ writeWindow off.toNat v s = resetNow s) ∨
      Access s (writeWindow off.toNat v s) := by
  unfold writeWindow
  split
  case h_1 hreg =>
    have hoff : off = 0x008 := BitVec.eq_of_toNat_eq ((regAt_acting _ hreg).1 rfl)
    cases hv : v.getLsbD 1 with
    | true => exact .inl ⟨hoff, rfl, writeControl_reset hv s⟩
    | false => exact .inr (writeControl_access hv s)
  case h_2 =>
    right
    split_ifs
    · exact .refl s
    · exact ⟨rfl, .inl rfl⟩
  case h_3 => exact .inr (.refl s)

theorem readWindow_access (off : Nat) (s : State) : Access s (readWindow off s) := by
  unfold readWindow
  split
  case h_4 => split_ifs <;> exact ⟨rfl, .inl rfl⟩
  all_goals exact ⟨rfl, .inl rfl⟩

theorem hostMemRead_access (a : Word) (s : State) : Access s (hostMemRead a s) := by
  unfold hostMemRead
  split
  · exact ⟨rfl, .inl rfl⟩
  · split_ifs <;> exact ⟨rfl, .inl rfl⟩

/-- What a step is: an access, a reset, or the run of the latched descriptor `d` to its end, from a state `u` and to a
state `v` that differ from the step's only in what a race of the host changes (20_memory.md rule R92). -/
inductive StepEffect (s t : State) : Prop where
  | access (h : Access s t)
  | reset (e : Event) (es : List Event) (hev : s.events = e :: es) (he : IsReset e) (u : State)
      (ht : t = resetBlock u) (hp : u.params = s.params)
  | run (d : Descriptor) (u v : State) (hev : s.events = [] ∨ ∃ es, s.events = .engine :: es)
      (hrun : s.running = some d) (hu : u.steady = s.steady) (hd : runDescriptor d u = .next v)
      (hv : t.steady = v.steady) (hidle : t.running = v.running)

theorem engineRun_effect {s t : State} (h : engineRun s = .next t) :
    t = s ∨ ∃ d u v, s.running = some d ∧ u.steady = s.steady ∧ runDescriptor d u = .next v ∧
      t.steady = v.steady ∧ t.running = v.running := by
  cases hrun : s.running with
  | none =>
    rw [engineRun_idle hrun] at h
    cases h
    exact .inl rfl
  | some d =>
    by_cases hr : s.raced = []
    · rw [engineRun_busy hrun hr] at h
      exact .inr ⟨d, s, t, rfl, rfl, h, rfl, rfl⟩
    · obtain ⟨v, hv, -⟩ := runDescriptor_commandFrame d (enterRace s)
      rw [engineRun_raced hrun hr hv] at h
      cases h
      exact .inr ⟨d, enterRace s, v, rfl, rfl, hv, rfl, rfl⟩

theorem resetNow_effect {s : State} {e : Event} {es : List Event} (hev : s.events = e :: es) (he : IsReset e) :
    StepEffect s (resetNow { s with events := es }) := by
  obtain ⟨u, hu, hp⟩ := resetNow_eq { s with events := es }
  exact .reset e es hev he u hu hp

theorem step_effect {s t : State} (h : step s = .next t) : StepEffect s t := by
  cases hev : s.events with
  | nil =>
    rw [step_nil hev] at h
    rcases engineRun_effect h with rfl | ⟨d, u, v, hrun, hu, hd, hv, hidle⟩
    · exact .access (.refl t)
    · exact .run d u v (.inl hev) hrun hu hd hv hidle
  | cons e es =>
    rw [step_cons hev] at h
    cases e with
    | regRead off size =>
      simp only [handleEvent] at h
      split_ifs at h
      cases h
      exact .access (readWindow_access off.toNat { s with events := es })
    | regWrite off size v =>
      simp only [handleEvent] at h
      split_ifs at h with ha
      cases h
      rcases writeWindow_effect off v { s with events := es } with ⟨rfl, hv, hw⟩ | hw
      · rw [hw]
        obtain ⟨rfl, -⟩ := alignedAccess_iff.1 ha
        exact resetNow_effect hev (.inr ⟨v, hv, rfl⟩)
      · exact .access hw
    | memRead a =>
      simp only [handleEvent] at h
      split_ifs at h
      cases h
      exact .access (hostMemRead_access a { s with events := es })
    | memWrite a b =>
      simp only [handleEvent] at h
      split_ifs at h
      cases h
      exact .access ⟨rfl, .inl rfl⟩
    | resetInput =>
      cases h
      exact resetNow_effect hev (.inl rfl)
    | engine =>
      rcases engineRun_effect h with rfl | ⟨d, u, v, hrun, hu, hd, hv, hidle⟩
      · exact .access ⟨rfl, .inl rfl⟩
      · exact .run d u v (.inr ⟨es, hev⟩) hrun hu hd hv hidle

/-- The induction of an invariant of the steady registers: it is enough that the reset block has it and that an illegal
descriptor and every command keep it. -/
theorem step_keeps {P : State → Prop} (steady : ∀ s, P s ↔ P s.steady) (reset : ∀ s, P (resetBlock s))
    (illegal : ∀ s opc, P s → P (statusState s opc 0x07))
    (command : ∀ i s t, i.wellFormed s.params.numCtx = true → P s → ExecEnding s i t → P t)
    {s t : State} (hs : P s) (h : step s = .next t) : P t := by
  have transfer {s t : State} (hst : t.steady = s.steady) (hs : P s) : P t := by
    rw [steady, hst, ← steady]
    exact hs
  cases step_effect h with
  | access h => exact transfer h.1 hs
  | reset e es hev he u ht hp => exact ht ▸ reset u
  | run d u v hev hrun hu hd hv hidle =>
    have hPu := transfer hu hs
    refine transfer hv ?_
    rcases runDescriptor_ending hd with rfl | ⟨i, hwf, hend⟩
    · exact illegal u _ hPu
    · exact command i u v hwf hPu hend

end Sys2Proof.Machine
end

