-- ==== Sys2Proof/Proofs/Invariants.lean ====
section
/-! PROOFS. Proofs/Invariants.lean: the invariants of the registers. Each holds in the reset state and is kept by every
ending of a command, so by `step_keeps` it is kept by every step; that of STATUS needs beside it that a command starts
only without a fault. -/

namespace Sys2Proof.Machine

/-! ### the calibration registers -/

/-- The tests of rule R159 keep the register invariant. -/
theorem calibInv_commitField {f : CalibField} {vlo : Word} {c : Calib} (h : CalibInv c)
    (ha : acceptsField f vlo c = true) (vhi : Word) : CalibInv (commitField f vlo vhi c) := by
  obtain ⟨hmin, hmax, hfmt⟩ := h
  cases f with
  | maxDepth =>
    simp only [acceptsField, Bool.and_eq_true, Bool.not_eq_true', Bool.or_eq_false_iff, decide_eq_false_iff_not,
      BitVec.not_lt] at ha
    exact ⟨ha.2.1, ha.2.2, hfmt⟩
  | minCutoff =>
    simp only [acceptsField, Bool.and_eq_true, Bool.not_eq_true', decide_eq_false_iff_not, BitVec.not_lt] at ha
    exact ⟨ha.2, hmax, hfmt⟩
  | maxCutoff =>
    simp only [acceptsField, Bool.and_eq_true, Bool.not_eq_true', decide_eq_false_iff_not, BitVec.not_lt] at ha
    exact ⟨hmin, ha.2, hfmt⟩
  | outputFormat =>
    simp only [acceptsField, Bool.and_eq_true, List.contains_iff_mem, List.mem_cons, List.not_mem_nil, or_false] at ha
    exact ⟨hmin, hmax, ha.2⟩
  | zeroPlaneDistance | zeroPlanePixelSize | emitterDistance | maxShift | constShift | pixelSizeFactor | paramCoeff
  | shiftScale => exact ⟨hmin, hmax, hfmt⟩

@[simp] theorem rebuild_calib (opc : BitVec 8) (ns nd : Nat) (r0 r1 : Word) (s : State) :
    (rebuild opc ns nd r0 r1 s).calib = s.calib := by
  rcases rebuild_ends opc ns nd r0 r1 s with ⟨f, -, h⟩ | ⟨tables, -, h⟩ <;> simp [h]

@[simp] theorem rebuild_cfgEpoch (opc : BitVec 8) (ns nd : Nat) (r0 r1 : Word) (s : State) :
    (rebuild opc ns nd r0 r1 s).cfgEpoch = s.cfgEpoch := by
  rcases rebuild_ends opc ns nd r0 r1 s with ⟨f, -, h⟩ | ⟨tables, -, h⟩ <;> simp [h]

@[simp] theorem rebuild_contexts (opc : BitVec 8) (ns nd : Nat) (r0 r1 : Word) (s : State) :
    (rebuild opc ns nd r0 r1 s).contexts = s.contexts := by
  rcases rebuild_ends opc ns nd r0 r1 s with ⟨f, -, h⟩ | ⟨tables, -, h⟩ <;> simp [h]

/-- S2D_SETCFG changes the calibration registers to the committed ones, and only when it accepts the value. -/
theorem setcfg_calib (f : CalibField) (vlo vhi : Word) (s : State) : (setcfg f vlo vhi s).calib =
    if acceptsField f vlo s.calib then commitField f vlo vhi s.calib else s.calib := by
  rcases setcfg_ends f vlo vhi s with ⟨ha, h⟩ | ⟨ha, ⟨-, h⟩ | ⟨-, -, h⟩ | ⟨-, -, h⟩⟩ <;> rw [h, ha] <;> simp

@[simp] theorem setcfg_contexts (f : CalibField) (vlo vhi : Word) (s : State) :
    (setcfg f vlo vhi s).contexts = s.contexts := by
  rcases setcfg_ends f vlo vhi s with ⟨-, h⟩ | ⟨-, ⟨-, h⟩ | ⟨-, -, h⟩ | ⟨-, -, h⟩⟩ <;> rw [h] <;> simp

theorem MemEnding.calib {opc : BitVec 8} {rs : List (Nat × Nat)} {s t : State} (h : MemEnding opc rs s t) :
    t.calib = s.calib ∧ t.cfgEpoch = s.cfgEpoch := by
  cases h with
  | status st hst => exact ⟨rfl, rfl⟩
  | fault f n => exact ⟨raiseFault_calib .., raiseFault_cfgEpoch ..⟩
  | ok m n r0 r1 r2 r3 hm => exact ⟨rfl, rfl⟩

theorem isSetcfg_setcfgCommand (f : CalibField) (vlo vhi : Word) : isSetcfg (setcfgCommand f vlo vhi) = true := by
  cases f <;> rfl

/-- A command leaves the calibration registers and CFG_EPOCH, or is S2D_SETCFG. -/
theorem ExecEnding.calib {s t : State} {i : Instr} (h : ExecEnding s i t) :
    (t.calib = s.calib ∧ t.cfgEpoch = s.cfgEpoch) ∨
      ∃ f vlo vhi, i = setcfgCommand f vlo vhi ∧ t = Machine.setcfg f vlo vhi s := by
  cases h with
  | memory hset h => exact .inl h.calib
  | free hi => exact .inl ⟨rfl, rfl⟩
  | init hi | update hi hv => exact .inl ⟨rebuild_calib .., rebuild_cfgEpoch ..⟩
  | setcfg f vlo vhi hi => exact .inr ⟨f, vlo, vhi, hi, rfl⟩
  | frame c y m n r0 r1 r2 r3 hset hc hy hm => exact .inl ⟨rfl, rfl⟩
  | frameFault c f hset hc =>
    exact .inl ⟨raiseFault_calib i.opcode (writeRanges s i) f s, raiseFault_cfgEpoch i.opcode (writeRanges s i) f s⟩

theorem calibInv_setcfg {s : State} (h : CalibInv s.calib) (f : CalibField) (vlo vhi : Word) :
    CalibInv (setcfg f vlo vhi s).calib := by
  rw [setcfg_calib]
  split_ifs with ha
  · exact calibInv_commitField h ha vhi
  · exact h

theorem ExecEnding.calibInv {s t : State} {i : Instr} (hs : CalibInv s.calib) (h : ExecEnding s i t) :
    CalibInv t.calib := by
  rcases h.calib with ⟨hc, -⟩ | ⟨f, vlo, vhi, -, rfl⟩
  · exact hc ▸ hs
  · exact calibInv_setcfg hs f vlo vhi

theorem calibInv_reset : CalibInv Calib.reset := by decide

/-- Settles O14: no command but S2D_SETCFG writes a calibration register, and its tests keep the invariant. -/
theorem stepKeepsCalibrationInvariant : Obligations.StepKeepsCalibrationInvariant := fun _ _ =>
  step_keeps (P := fun s => CalibInv s.calib) (fun _ => Iff.rfl) (fun _ => calibInv_reset) (fun _ _ hs => hs)
    fun _ _ _ _ hs hend => hend.calibInv hs

/-! ### the tables -/

/-- One shift index cannot run past the depth table: a kept depth is below MAX_CUTOFF, so below MAX_DEPTH + 1. -/
theorem buildStep_total {p : Params} {c : Calib} (h : c.maxCutoff ≤ c.maxDepth) (s : Nat) {b : BuildState}
    (hb : b.d2s.length = calibND c) :
    ∃ b', buildStep (buildConsts p c) (calibND c) s b = .ok b' ∧ b'.d2s.length = calibND c := by
  unfold buildStep
  simp only
  split_ifs with hkept
  · obtain ⟨hlo, hhi⟩ := keptDepth_iff.1 hkept
    obtain ⟨-, -, hbelow, hlt⟩ := F64.between hlo hhi
    rcases fillDepths_spec hlt s b.lastIndex (calibND c - b.lastDepth) b.lastDepth b.d2s (by rw [hb]) with
      ⟨hpast, -⟩ | ⟨-, d2s, hfill, -⟩
    · have hend : c.maxCutoff.toNat ≤ b.lastDepth + (calibND c - b.lastDepth) := by
        have : c.maxCutoff.toNat ≤ c.maxDepth.toNat := h
        unfold calibND
        omega
      exact absurd (hbelow.trans_le (Nat.mul_le_mul_right _ hend)) hpast.asymm
    · rw [hfill]
      exact ⟨_, rfl, (length_fillDepths hfill).trans hb⟩
  · exact ⟨b, rfl, hb⟩

/-- Under the invariant of rule R159 the build succeeds (rule R156), with tables of the sizes asked for. -/
theorem buildTables_total {p : Params} {c : Calib} (h : c.maxCutoff ≤ c.maxDepth) :
    ∃ t, buildTables p c (calibNS c) (calibND c) = .ok t ∧ t.1.length = calibNS c ∧ t.2.length = calibND c := by
  rcases buildTables_cases p c (calibNS c) (calibND c) with htables | ⟨f, hf⟩
  · exact htables
  · obtain ⟨b, hb, -⟩ := buildScan_total (k := buildConsts p c) (nd := calibND c)
      (P := fun b => b.d2s.length = calibND c) (c.maxShift.toNat - 1) 1
      (b := {
        s2d := List.replicate (calibNS c) 0, d2s := List.replicate (calibND c) 0, lastDepth := 0, lastIndex := 0 })
      List.length_replicate fun i b hb => buildStep_total h i hb
    rw [buildTables, hb] at hf
    cases hf

/-- A rebuild with the sizes of the calibration registers leaves tables in step with them. -/
theorem tablesInv_rebuild {s : State} (h : CalibInv s.calib) {ns nd : Nat} (hns : ns = calibNS s.calib)
    (hnd : nd = calibND s.calib) (opc : BitVec 8) (r0 r1 : Word) : TablesInv (rebuild opc ns nd r0 r1 s) := by
  subst hns hnd
  obtain ⟨t, ht, hs2d, hd2s⟩ := buildTables_total (p := s.params) h.2.1
  rcases rebuild_ends opc (calibNS s.calib) (calibND s.calib) r0 r1 s with ⟨f, hf, -⟩ | ⟨t', ht', hend⟩
  · cases ht.symm.trans hf
  · cases ht.symm.trans ht'
    have hshift := s.calib.maxShift.isLt
    have hdepth := s.calib.maxDepth.isLt
    rw [hend]
    refine ⟨fun _ => ⟨?_, ?_, hs2d, hd2s⟩, nofun⟩
    · exact (BitVec.toNat_ofNat _ _).trans (Nat.mod_eq_of_lt (by unfold calibNS; omega))
    · exact (BitVec.toNat_ofNat _ _).trans (Nat.mod_eq_of_lt (by unfold calibND; omega))

/-- A field that affects no size leaves the sizes the registers ask for. -/
theorem commitField_sizes {f : CalibField} (hf : sizeAffecting f = false) (vlo vhi : Word) (c : Calib) :
    calibNS (commitField f vlo vhi c) = calibNS c ∧ calibND (commitField f vlo vhi c) = calibND c := by
  cases f with
  | maxShift | maxDepth | outputFormat => cases hf
  | zeroPlaneDistance | zeroPlanePixelSize | emitterDistance | constShift | pixelSizeFactor | paramCoeff | shiftScale
  | minCutoff | maxCutoff => exact ⟨rfl, rfl⟩

theorem tablesInv_setcfg {s : State} (hc : CalibInv s.calib) (h : TablesInv s) (f : CalibField) (vlo vhi : Word) :
    TablesInv (setcfg f vlo vhi s) := by
  rcases setcfg_ends f vlo vhi s with ⟨-, hend⟩ | ⟨ha, ⟨hv, hend⟩ | ⟨-, -, hend⟩ | ⟨hv, hf, hend⟩⟩ <;> rw [hend]
  · exact h
  · exact ⟨fun hv' => absurd (hv.symm.trans hv') nofun, h.2⟩
  · exact tablesInv_rebuild (calibInv_commitField hc ha vhi) rfl rfl ..
  · obtain ⟨hns, hnd⟩ := commitField_sizes hf vlo vhi s.calib
    obtain ⟨hshift, hdepth, -⟩ := h.1 hv
    exact tablesInv_rebuild (calibInv_commitField hc ha vhi) (hshift.trans hns.symm) (hdepth.trans hnd.symm) ..

theorem MemEnding.tablesInv {opc : BitVec 8} {rs : List (Nat × Nat)} {s t : State} (hs : TablesInv s)
    (h : MemEnding opc rs s t) : TablesInv t := by
  cases h with
  | status st hst => exact hs
  | fault f n => simpa [TablesInv] using hs
  | ok m n r0 r1 r2 r3 hm => exact hs

theorem ExecEnding.tablesInv {s t : State} {i : Instr} (hc : CalibInv s.calib) (hs : TablesInv s)
    (h : ExecEnding s i t) : TablesInv t := by
  cases h with
  | memory hset h => exact h.tablesInv hs
  | free hi => exact ⟨nofun, fun _ => ⟨rfl, rfl⟩⟩
  | init hi => exact tablesInv_rebuild hc rfl rfl ..
  | update hi hv =>
    obtain ⟨hshift, hdepth, -⟩ := hs.1 hv
    exact tablesInv_rebuild hc hshift hdepth ..
  | setcfg f vlo vhi hi => exact tablesInv_setcfg hc hs f vlo vhi
  | frame c y m n r0 r1 r2 r3 hset hi hy hm => exact hs
  | frameFault c f hset hi => simpa [TablesInv] using hs

theorem tablesInv_resetBlock (s : State) : TablesInv (resetBlock s) := ⟨nofun, fun _ => ⟨rfl, rfl⟩⟩

/-- Settles O15, together with the calibration invariant: a build that cannot fault leaves the sizes asked for. -/
theorem stepKeepsTableSizes : Obligations.StepKeepsTableSizes := fun _ _ hc hs h =>
  (step_keeps (P := fun s => CalibInv s.calib ∧ TablesInv s) (fun _ => Iff.rfl)
    (fun s => ⟨calibInv_reset, tablesInv_resetBlock s⟩) (fun _ _ hs => hs)
    (fun _ _ _ _ hs hend => ⟨hend.calibInv hs.1, hend.tablesInv hs.1 hs.2⟩) ⟨hc, hs⟩ h).2

/-! ### the frame contexts -/

/-- An invariant of the contexts that depends on nothing but them and the parameters, and that the frame commands keep
on the context they name, is kept by every command. -/
theorem ExecEnding.contexts_ind {P : Params → Vector Context 16 → Prop} {s t : State} {i : Instr}
    (hs : P s.params s.contexts)
    (named : ∀ c y, i.ctx? = some c → (ContextInv s.params (getContext s c) → ContextInv s.params y) →
      P s.params (s.contexts.set c.toNat y c.isLt))
    (h : ExecEnding s i t) : P t.params t.contexts := by
  have same {t : State} (hp : t.params = s.params) (hc : t.contexts = s.contexts) : P t.params t.contexts := by
    rw [hp, hc]
    exact hs
  cases h with
  | memory hset h =>
    refine same h.commandFrame.params ?_
    cases h with
    | status | ok => rfl
    | fault f n => exact raiseFault_contexts ..
  | free hi => exact hs
  | init hi | update hi hv => exact same (rebuild_commandFrame ..).params (rebuild_contexts ..)
  | setcfg f vlo vhi hi => exact same (setcfg_commandFrame ..).params (setcfg_contexts ..)
  | frame c y m n r0 r1 r2 r3 hset hc hy hm => exact named c y hc hy
  | frameFault c f hset hc =>
    rw [havocContext_params, havocContext_contexts, raiseFault_params, raiseFault_contexts]
    exact named c _ hc fun _ => contextInv_freeContext _ _

theorem absentContextsInv_set {s : State} (hs : AbsentContextsInv s) {c : BitVec 4} (hc : c.toNat < s.params.numCtx)
    (y : Context) : AbsentContextsInv (setContext s c y) := by
  intro d hd
  have hne : c.toNat ≠ d.val := by
    rw [setContext_params] at hd
    omega
  exact (Vector.getElem_set_ne c.isLt d.isLt hne).trans (hs d hd)

theorem contexts_resetBlock (s : State) (c : Fin 16) : (resetBlock s).contexts[c] = Context.reset :=
  Vector.getElem_replicate c.isLt

theorem contextInv_reset (p : Params) : ContextInv p Context.reset := ⟨BitVec.le_refl _, Nat.zero_le _⟩

theorem contextsInv_resetBlock (s : State) : ContextsInv (resetBlock s) := fun c => by
  rw [contexts_resetBlock]
  exact contextInv_reset _

theorem wellFormed_ctx {i : Instr} {c : BitVec 4} {n : Nat} (h : i.wellFormed n = true) (hc : i.ctx? = some c) :
    c.toNat < n := by
  simp only [Instr.wellFormed, Instr.ctxOk, hc, Bool.and_eq_true, decide_eq_true_eq] at h
  exact h.1

/-- Settles O16: a frame command keeps the invariant of the context it names, a fault of one leaves a legal context,
and a command the engine runs names a context that exists. -/
theorem stepKeepsContextInvariants : Obligations.StepKeepsContextInvariants := by
  constructor
  · intro s t hs h
    refine step_keeps (P := ContextsInv) (fun _ => Iff.rfl) contextsInv_resetBlock (fun _ _ hs => hs) ?_ hs h
    intro i s t _ hs hend
    exact hend.contexts_ind (P := fun p xs => ∀ c : Fin 16, ContextInv p xs[c]) hs fun c y _ hy => hs.setContext hy
  · intro s t hs h
    refine step_keeps (P := AbsentContextsInv) (fun _ => Iff.rfl) (fun s c _ => contexts_resetBlock s c)
      (fun _ _ hs => hs) ?_ hs h
    intro i s t hwf hs hend
    exact hend.contexts_ind (P := fun p xs => ∀ c : Fin 16, p.numCtx ≤ c.val → xs[c] = Context.reset) hs
      fun c y hc _ => absentContextsInv_set hs (wellFormed_ctx hwf hc) y

/-! ### STATUS, the fault registers and the results -/

/-- What a completion says (60_exceptions.md rule R343): a status code, no running command, FAULT and its registers as
they were, and zero results unless the status is OK. -/
def Completed (s t : State) : Prop :=
  (∃ st, t.lastStatus = statusCode st) ∧ t.running = none ∧ t.fault = s.fault ∧ t.faultCause = s.faultCause ∧
    t.faultInfo = s.faultInfo ∧ t.faultValue = s.faultValue ∧ (t.lastStatus ≠ 0 → t.result = #v[0, 0, 0, 0])

/-- A command ends with a completion or in the fault state (46_system.md rule R332). -/
def Ended (s t : State) : Prop :=
  Completed s t ∨ ∃ (opc : BitVec 8) (f : Raise), Faulted t opc (causeCode f.cause) f.info f.value

/-- The end of a command that has changed nothing of STATUS, the fault registers and the results before. -/
theorem completed_okState {s u : State} (h : u.fault = s.fault ∧ u.faultCause = s.faultCause ∧
    u.faultInfo = s.faultInfo ∧ u.faultValue = s.faultValue) (opc : BitVec 8) (r0 r1 r2 r3 : Word) :
    Completed s (okState u opc r0 r1 r2 r3) :=
  ⟨⟨.ok, rfl⟩, rfl, h.1, h.2.1, h.2.2.1, h.2.2.2, fun h => absurd rfl h⟩

theorem completed_statusState (s : State) (opc : BitVec 8) (st : Status) :
    Completed s (statusState s opc (statusCode st)) := ⟨⟨st, rfl⟩, rfl, rfl, rfl, rfl, rfl, fun _ => rfl⟩

theorem ended_raiseFault (s u : State) (opc : BitVec 8) (rs : List (Nat × Nat)) (f : Raise) :
    Ended s (raiseFault opc rs f u) := .inr ⟨opc, f, faulted_raiseFault opc rs f u⟩

theorem rebuild_ended (opc : BitVec 8) (ns nd : Nat) (r0 r1 : Word) (s : State) :
    Ended s (rebuild opc ns nd r0 r1 s) := by
  rcases rebuild_ends opc ns nd r0 r1 s with ⟨f, -, h⟩ | ⟨tables, -, h⟩ <;> rw [h]
  · exact ended_raiseFault ..
  · exact .inl (completed_okState ⟨rfl, rfl, rfl, rfl⟩ ..)

theorem setcfg_ended (f : CalibField) (vlo vhi : Word) (s : State) : Ended s (setcfg f vlo vhi s) := by
  rcases setcfg_ends f vlo vhi s with ⟨-, h⟩ | ⟨-, ⟨-, h⟩ | ⟨-, -, h⟩ | ⟨-, -, h⟩⟩ <;> rw [h]
  · exact .inl (completed_statusState s 0x04 .configRejected)
  · exact .inl (completed_okState ⟨rfl, rfl, rfl, rfl⟩ ..)
  · exact rebuild_ended ..
  · exact rebuild_ended ..

theorem ExecEnding.ended {s t : State} {i : Instr} (h : ExecEnding s i t) : Ended s t := by
  cases h with
  | memory hset h =>
    cases h with
    | status st hst => exact .inl (completed_statusState s _ st)
    | fault f n => exact ended_raiseFault ..
    | ok m n r0 r1 r2 r3 hm => exact .inl (completed_okState ⟨rfl, rfl, rfl, rfl⟩ ..)
  | free hi => exact .inl (completed_okState ⟨rfl, rfl, rfl, rfl⟩ ..)
  | init hi | update hi hv => exact rebuild_ended ..
  | setcfg f vlo vhi hi => exact setcfg_ended f vlo vhi s
  | frame c y m n r0 r1 r2 r3 hset hc hy hm => exact .inl (completed_okState ⟨rfl, rfl, rfl, rfl⟩ ..)
  | frameFault c f hset hc => exact .inr ⟨i.opcode, f, faulted_raiseFault i.opcode (writeRanges s i) f s⟩

theorem runDescriptor_ended {d : Descriptor} {s t : State} (h : runDescriptor d s = .next t) : Ended s t := by
  rcases runDescriptor_ending h with rfl | ⟨i, -, hend⟩
  · exact .inl (completed_statusState s _ .illegalCommand)
  · exact hend.ended

theorem statusCode_legal (st : Status) : statusCode st ∈ legalStatusCodes ∧ statusCode st ≠ 0xFF := by
  cases st <;> decide

/-- The end of a command that started without a fault satisfies the invariant. -/
theorem Ended.statusInv {s t : State} (hf : s.fault = false)
    (hregs : s.faultCause = 0 ∧ s.faultInfo = 0 ∧ s.faultValue = 0) (h : Ended s t) : StatusInv t := by
  rcases h with ⟨⟨st, hst⟩, hidle, hfault, hcause, hinfo, hvalue, hres⟩ |
    ⟨opc, f, hfault, hcause, -, -, hres, hst, -, hidle⟩
  · have hnone : t.fault = false := hfault.trans hf
    refine ⟨hst ▸ (statusCode_legal st).1, ?_, ?_, ?_, hres⟩
    · rw [hnone, hst]
      exact iff_of_false nofun (statusCode_legal st).2
    · rw [hnone]
      nofun
    · rw [hcause, hinfo, hvalue]
      exact fun _ => hregs
  · refine ⟨by rw [hst]; decide, iff_of_true hfault hst, fun _ => ⟨hidle, ?_⟩, ?_, fun _ => hres⟩
    · rw [hcause]
      exact causeCode_bounds f.cause
    · rw [hfault]
      nofun

theorem statusInv_resetBlock (s : State) : StatusInv (resetBlock s) :=
  ⟨(statusCode_legal .ok).1, iff_of_false nofun (statusCode_legal .ok).2, nofun, fun _ => ⟨rfl, rfl, rfl⟩, fun _ => rfl⟩

/-- The invariant depends on the steady registers and, in the fault state, on no command running. -/
theorem statusInv_iff_steady (s : State) : StatusInv s ↔ StatusInv s.steady ∧ (s.fault = true → s.running = none) :=
  ⟨fun ⟨hcode, hiff, hfault, hnone, hres⟩ =>
      ⟨⟨hcode, hiff, fun h => ⟨rfl, (hfault h).2⟩, hnone, hres⟩, fun h => (hfault h).1⟩,
    fun ⟨⟨hcode, hiff, hfault, hnone, hres⟩, hidle⟩ => ⟨hcode, hiff, fun h => ⟨hidle h, (hfault h).2⟩, hnone, hres⟩⟩

theorem StatusInv.of_steady {s t : State} (ht : t.steady = s.steady) (hidle : s.fault = true → t.running = none)
    (hs : StatusInv s) : StatusInv t := by
  rw [statusInv_iff_steady, ht, steady_fault ht]
  exact ⟨((statusInv_iff_steady s).1 hs).1, hidle⟩

/-- Settles O17: an access keeps STATUS and starts no command in the fault state; a command ends in one of the two ways
of rule R332, and starts without a fault. -/
theorem stepKeepsStatusInvariant : Obligations.StepKeepsStatusInvariant := by
  intro s t hs h
  have ⟨_, _, hfault, hnone, _⟩ := hs
  cases step_effect h with
  | access h =>
    refine StatusInv.of_steady h.1 (fun hf => ?_) hs
    rcases h.2 with hrun | ⟨-, hf'⟩
    · exact hrun.trans (hfault hf).1
    · exact absurd (hf.symm.trans hf') nofun
  | reset e es hev he u ht hp => exact ht ▸ statusInv_resetBlock u
  | run d u v hev hrun hu hd hv hidle =>
    have hf : s.fault = false := Bool.eq_false_iff.2 fun hf => by
      rw [(hfault hf).1] at hrun
      cases hrun
    have hregs : u.faultCause = 0 ∧ u.faultInfo = 0 ∧ u.faultValue = 0 := by
      rw [steady_faultCause hu, steady_faultInfo hu, steady_faultValue hu]
      exact hnone hf
    have hvinv := (runDescriptor_ended hd).statusInv ((steady_fault hu).trans hf) hregs
    exact StatusInv.of_steady hv (fun hvf => hidle.trans (hvinv.2.2.1 hvf).1) hvinv

/-- Settles O18, from the reset state's own values: with no memory written, no table, and every context as reset. -/
theorem resetMeetsInvariants : Obligations.ResetMeetsInvariants :=
  have hreset : State.reset = resetBlock State.reset := rfl
  ⟨rfl, calibInv_reset, hreset ▸ tablesInv_resetBlock _, hreset ▸ contextsInv_resetBlock _,
    fun c _ => contexts_resetBlock State.reset c, hreset ▸ statusInv_resetBlock _⟩

end Sys2Proof.Machine
end

