-- ==== Sys2Proof/Proofs/Registers.lean ====
section
/-! PROOFS. Proofs/Registers.lean: the register window and the frames of its registers: reset, the sticky fault state,
what S2D_SETCFG commits, what an access at each offset does, and that a run does not look at CMD0..CMD7. -/

namespace Sys2Proof.Machine

/-! ### reset -/

theorem step_reset {s : State} {e : Event} {es : List Event} (he : IsReset e) (hev : s.events = e :: es) :
    step s = .next (resetNow { s with events := es }) := by
  rcases he with rfl | ⟨v, hv, rfl⟩
  · exact step_cons hev
  · rw [step_control hev, writeControl_reset hv]

theorem calibWord_reset (p : Params) (f : CalibField) (hi : Bool) :
    calibWord Calib.reset f hi = resetWord p (.calib f hi) := by
  cases f with
  | zeroPlaneDistance | zeroPlanePixelSize | emitterDistance => cases hi <;> rfl
  | maxShift | maxDepth | constShift | pixelSizeFactor | paramCoeff | shiftScale | minCutoff | maxCutoff
  | outputFormat => rfl

theorem ctxWord_reset (r : CtxReg) : ctxWord Context.reset r = 0 := by cases r <;> rfl

theorem statusWord_resetBlock (s : State) : statusWord (resetBlock s) = 0 := by
  simp [statusWord, State.busy]

theorem readReg_resetBlock (s : State) (r : Reg) : readReg (resetBlock s) r = resetWord s.params r := by
  cases r with
  | cmd k => exact Vector.getElem_replicate k.isLt
  | result k => exact Vector.getElem_replicate k.isLt
  | calib f hi => exact calibWord_reset s.params f hi
  | ctx c r =>
    have h : readReg (resetBlock s) (.ctx c r) =
        if c.val < s.params.numCtx then ctxWord (resetBlock s).contexts[c] r else 0 := rfl
    rw [h, contexts_resetBlock, ctxWord_reset, ite_self]
    rfl
  | status => exact statusWord_resetBlock s
  | id | control | faultCause | faultInfo | faultValue | cfgEpoch | tblNShift | tblNDepth => rfl

theorem resetValues_resetBlock (s : State) : ResetValues (resetBlock s) :=
  ⟨rfl, rfl, rfl, readReg_resetBlock s, rfl, rfl, rfl, contexts_resetBlock s⟩

/-- Settles O2: either reset is `resetNow`, which makes an abandoned command's write ranges free and then resets. -/
theorem resetFromAnyState : Obligations.ResetFromAnyState := by
  intro s es e he hev
  refine ⟨_, step_reset he hev, ?_⟩
  rcases Option.eq_none_or_eq_some s.running with hrun | ⟨d, hrun⟩
  · rw [resetNow_idle (s := { s with events := es }) hrun, hrun]
    exact ⟨resetValues_resetBlock _, rfl, rfl, fun _ => rfl, nofun⟩
  · rw [resetNow_busy (s := { s with events := es }) hrun, hrun]
    refine ⟨resetValues_resetBlock _, havocRanges_params _ _, havocRanges_events _ _, nofun, ?_⟩
    rintro d' ⟨⟩ a ha
    exact read_havocRanges_other ha _

theorem resetNow_calib (s : State) : (resetNow s).calib = Calib.reset := by
  obtain ⟨u, hu, -⟩ := resetNow_eq s
  rw [hu]
  rfl

theorem resetNow_fault (s : State) : (resetNow s).fault = false := by
  obtain ⟨u, hu, -⟩ := resetNow_eq s
  rw [hu]
  rfl

/-- Settles O23: with no command running a step is an access, which keeps the steady registers, or a reset. -/
theorem faultStateIsSticky : Obligations.FaultStateIsSticky := by
  refine ⟨fun s t hf hidle h hinput hsoft => ?_, fun s es v _ hv hev =>
    ⟨_, step_reset (.inr ⟨v, hv, rfl⟩) hev, resetNow_fault _⟩⟩
  cases step_effect h with
  | access h =>
    obtain ⟨hst, hrun⟩ := h
    have hrun' : t.running = none := by
      rcases hrun with hrun | ⟨-, hf'⟩
      · exact hrun.trans hidle
      · exact absurd (hf.symm.trans hf') nofun
    exact ⟨(steady_fault hst).trans hf, hrun', steady_faultCause hst, steady_faultInfo hst, steady_faultValue hst,
      steady_lastStatus hst, steady_lastOpcode hst, steady_result hst, steady_calib hst, steady_cfgEpoch hst,
      steady_tablesValid hst, steady_s2d hst, steady_d2s hst, steady_contexts hst⟩
  | reset e es hev he u ht hp =>
    rw [hev, List.head?_cons] at hinput hsoft
    rcases he with rfl | ⟨v, hv, rfl⟩
    · exact absurd rfl hinput
    · exact absurd rfl (hsoft v hv)
  | run d u v hev hrun hu hd hv ht => exact absurd (hidle.symm.trans hrun) nofun

/-! ### S2D_SETCFG -/

theorem rebuild_lastStatus (opc : BitVec 8) (ns nd : Nat) (r0 r1 : Word) (s : State) :
    (rebuild opc ns nd r0 r1 s).lastStatus ≠ 0x03 := by
  rcases rebuild_ends opc ns nd r0 r1 s with ⟨f, -, h⟩ | ⟨tables, -, h⟩ <;> rw [h]
  · show faultStatusCode ≠ 0x03
    decide
  · show (0x00 : BitVec 8) ≠ 0x03
    decide

/-- S2D_SETCFG ends with CONFIG_REJECTED only when it rejects the value, and then changes nothing else. -/
theorem setcfg_rejected {f : CalibField} {vlo vhi : Word} {s : State}
    (h : (setcfg f vlo vhi s).lastStatus = 0x03) : setcfg f vlo vhi s = statusState s 0x04 0x03 := by
  rcases setcfg_ends f vlo vhi s with ⟨-, hend⟩ | ⟨-, ⟨-, hend⟩ | ⟨-, -, hend⟩ | ⟨-, -, hend⟩⟩
  · exact hend
  · rw [hend] at h
    cases h
  · exact absurd (hend ▸ h) (rebuild_lastStatus 0x04 _ _ _ _ _)
  · exact absurd (hend ▸ h) (rebuild_lastStatus 0x04 _ _ _ _ _)

/-- Settles O26: `ExecEnding.calib` for a command, the steady registers for a step that runs none. -/
theorem calibrationFrame : Obligations.CalibrationFrame := by
  refine ⟨fun i s t h hset => ?_, fun i s t h hst => ?_, fun s t e es hev h hengine hinput hsoft => ?_, resetNow_calib⟩
  · rcases (execEnding_of_next h).calib with hkept | ⟨f, vlo, vhi, rfl, -⟩
    · exact hkept
    · exact absurd (hset.symm.trans (isSetcfg_setcfgCommand f vlo vhi)) nofun
  · rcases (execEnding_of_next h).calib with hkept | ⟨f, vlo, vhi, -, rfl⟩
    · exact hkept
    · rw [setcfg_rejected hst]
      exact ⟨rfl, rfl⟩
  · cases step_effect h with
    | access h => exact ⟨steady_calib h.1, steady_cfgEpoch h.1⟩
    | reset e' es' hev' he u ht hp =>
      cases hev.symm.trans hev'
      rcases he with rfl | ⟨v, hv, rfl⟩
      · exact absurd rfl hinput
      · exact absurd rfl (hsoft v hv)
    | run d u v hev' hrun hu hd hv ht =>
      rcases hev' with hnil | ⟨es', hcons⟩
      · cases hev.symm.trans hnil
      · cases hev.symm.trans hcons
        exact absurd rfl hengine

theorem exec_setcfg_commits {f : CalibField} {vlo vhi : Word} {s : State} (hv : s.tablesValid = false)
    (ha : acceptsField f vlo s.calib = true) : exec (setcfgCommand f vlo vhi) s = .next (okState
      { s with calib := commitField f vlo vhi s.calib, cfgEpoch := s.cfgEpoch + 1 } 0x04 (s.cfgEpoch + 1) 0 0 0) := by
  rw [exec_setcfgCommand]
  rcases setcfg_ends f vlo vhi s with ⟨ha', -⟩ | ⟨-, ⟨-, h⟩ | ⟨hv', -⟩ | ⟨hv', -⟩⟩
  · exact absurd (ha.symm.trans ha') nofun
  · rw [h]
  · exact absurd (hv.symm.trans hv') nofun
  · exact absurd (hv.symm.trans hv') nofun

theorem exec_setcfg_rejects {f : CalibField} {vlo : Word} {s : State} (ha : acceptsField f vlo s.calib ≠ true)
    (vhi : Word) : exec (setcfgCommand f vlo vhi) s = .next (statusState s 0x04 0x03) := by
  rw [exec_setcfgCommand]
  rcases setcfg_ends f vlo vhi s with ⟨-, h⟩ | ⟨ha', -⟩
  · rw [h]
  · exact absurd ha' ha

theorem fitsHalf_iff (v : Word) : fitsHalf v = true ↔ v.toNat < 2 ^ 16 := by
  have h := v.isLt
  rw [fitsHalf, beq_iff_eq, ← BitVec.toNat_inj, BitVec.extractLsb'_toNat, Nat.shiftRight_eq_div_pow]
  simp only [BitVec.ofNat_eq_ofNat, BitVec.toNat_ofNat, Nat.zero_mod]
  omega

/-- The u16 value of a word that fits is the word's number. -/
theorem toNat_halfOperand {v : Word} (h : fitsHalf v = true) : (halfOperand v).toNat = v.toNat := by
  rw [fitsHalf_iff] at h
  rw [halfOperand, BitVec.extractLsb'_toNat, Nat.shiftRight_zero, Nat.mod_eq_of_lt h]

@[simp] theorem fitsHalf_setWidth (h : Half) : fitsHalf (h.setWidth 32) = true := by
  have := h.isLt
  rw [fitsHalf_iff, BitVec.toNat_setWidth]
  omega

@[simp] theorem halfOperand_setWidth (h : Half) : halfOperand (h.setWidth 32) = h := by
  have := h.isLt
  rw [← BitVec.toNat_inj, toNat_halfOperand (fitsHalf_setWidth h), BitVec.toNat_setWidth]
  omega

theorem acceptsField_maxDepth {v : Word} {c : Calib} : acceptsField .maxDepth v c = true ↔
    fitsHalf v = true ∧ c.minCutoff ≤ halfOperand v ∧ c.maxCutoff ≤ halfOperand v := by
  simp [acceptsField]

theorem acceptsField_cutoff {v : Word} {c : Calib} :
    (acceptsField .minCutoff v c = true ↔ fitsHalf v = true ∧ halfOperand v ≤ c.maxDepth) ∧
      (acceptsField .maxCutoff v c = true ↔ fitsHalf v = true ∧ halfOperand v ≤ c.maxDepth) := by
  simp [acceptsField]

theorem acceptsField_outputFormat {v : Word} {c : Calib} : acceptsField .outputFormat v c = true ↔
    fitsHalf v = true ∧ halfOperand v ∈ ([100, 101, 102] : List Half) := by
  simp only [acceptsField, Bool.and_eq_true, List.contains_iff_mem]

theorem not_fitsHalf {v : Word} (h : 2 ^ 16 ≤ v.toNat) : fitsHalf v ≠ true := fun hfit =>
  absurd ((fitsHalf_iff v).1 hfit) (not_lt.2 h)

/-- A u16 field commits the u16 its operand word carries. -/
theorem exec_setcfg_half {f : CalibField} {h : Half} {s : State} {store : Half → Calib} (hv : s.tablesValid = false)
    (ha : acceptsField f (h.setWidth 32) s.calib = true)
    (hstore : ∀ vlo, commitField f vlo 0 s.calib = store (halfOperand vlo)) :
    exec (setcfgCommand f (h.setWidth 32) 0) s =
      .next (okState { s with calib := store h, cfgEpoch := s.cfgEpoch + 1 } 0x04 (s.cfgEpoch + 1) 0 0 0) := by
  rw [exec_setcfg_commits hv ha, hstore, halfOperand_setWidth]

theorem rejects_maxShift {v : Word} (h : 2 ^ 16 ≤ v.toNat) (c : Calib) : acceptsField .maxShift v c ≠ true :=
  not_fitsHalf h

theorem rejects_maxDepth {v : Word} {c : Calib}
    (h : 2 ^ 16 ≤ v.toNat ∨ v.toNat < c.minCutoff.toNat ∨ v.toNat < c.maxCutoff.toNat) :
    acceptsField .maxDepth v c ≠ true := by
  rw [Ne, acceptsField_maxDepth]
  rintro ⟨hfit, hmin, hmax⟩
  have hlt := (fitsHalf_iff v).1 hfit
  rw [BitVec.le_def, toNat_halfOperand hfit] at hmin hmax
  omega

/-- A cutoff field refuses a value above MAX_DEPTH, one that does not fit u16 among them. -/
theorem rejects_cutoff {v : Word} {c : Calib} (h : c.maxDepth.toNat < v.toNat) :
    acceptsField .minCutoff v c ≠ true ∧ acceptsField .maxCutoff v c ≠ true := by
  have above : ¬ (fitsHalf v = true ∧ halfOperand v ≤ c.maxDepth) := by
    rintro ⟨hfit, hle⟩
    rw [BitVec.le_def, toNat_halfOperand hfit] at hle
    omega
  rw [Ne, Ne, acceptsField_cutoff.1, acceptsField_cutoff.2]
  exact ⟨above, above⟩

theorem rejects_outputFormat {v : Word} (h : v.toNat ∉ [100, 101, 102]) (c : Calib) :
    acceptsField .outputFormat v c ≠ true := by
  rw [Ne, acceptsField_outputFormat]
  rintro ⟨hfit, hmem⟩
  have := List.mem_map_of_mem (f := BitVec.toNat) hmem
  rw [toNat_halfOperand hfit] at this
  exact h this

/-- Settles O32: `exec_setcfg_commits` for every field with what its test asks, and `exec_setcfg_rejects` with what its
test refuses. -/
theorem setcfgCommitsOrRejects : Obligations.SetcfgCommitsOrRejects := by
  refine ⟨fun s hv => ?_, fun s v => ?_⟩
  · refine ⟨fun lo hi => exec_setcfg_commits (f := .zeroPlaneDistance) hv rfl,
      fun lo hi => exec_setcfg_commits (f := .zeroPlanePixelSize) hv rfl,
      fun lo hi => exec_setcfg_commits (f := .emitterDistance) hv rfl,
      fun h => exec_setcfg_half (f := .maxShift) (store := fun h => { s.calib with maxShift := h }) hv
        (fitsHalf_setWidth h) fun _ => rfl,
      fun h hmin hmax => exec_setcfg_half (f := .maxDepth) (store := fun h => { s.calib with maxDepth := h }) hv ?_
        fun _ => rfl,
      fun v => exec_setcfg_commits (f := .constShift) (vhi := 0) hv rfl,
      fun v => exec_setcfg_commits (f := .pixelSizeFactor) (vhi := 0) hv rfl,
      fun v => exec_setcfg_commits (f := .paramCoeff) (vhi := 0) hv rfl,
      fun v => exec_setcfg_commits (f := .shiftScale) (vhi := 0) hv rfl,
      fun h hle => exec_setcfg_half (f := .minCutoff) (store := fun h => { s.calib with minCutoff := h }) hv ?_
        fun _ => rfl,
      fun h hle => exec_setcfg_half (f := .maxCutoff) (store := fun h => { s.calib with maxCutoff := h }) hv ?_
        fun _ => rfl,
      fun h hmem => exec_setcfg_half (f := .outputFormat) (store := fun h => { s.calib with outputFormat := h }) hv ?_
        fun _ => rfl⟩
    · rw [acceptsField_maxDepth, halfOperand_setWidth]
      exact ⟨fitsHalf_setWidth h, hmin, hmax⟩
    · rw [acceptsField_cutoff.1, halfOperand_setWidth]
      exact ⟨fitsHalf_setWidth h, hle⟩
    · rw [acceptsField_cutoff.2, halfOperand_setWidth]
      exact ⟨fitsHalf_setWidth h, hle⟩
    · rw [acceptsField_outputFormat, halfOperand_setWidth]
      exact ⟨fitsHalf_setWidth h, hmem⟩
  · exact ⟨fun h => exec_setcfg_rejects (rejects_maxShift h _) 0, fun h => exec_setcfg_rejects (rejects_maxDepth h) 0,
      fun h => ⟨exec_setcfg_rejects (rejects_cutoff h).1 0, exec_setcfg_rejects (rejects_cutoff h).2 0⟩,
      fun h => exec_setcfg_rejects (rejects_outputFormat h _) 0⟩

end Sys2Proof.Machine
end

