-- ==== Sys2Proof/Proofs/Window.lean ====
section
/-! PROOFS. Proofs/Window.lean: what an access at each offset of the register window does, and that the run of a
command does not look at CMD0..CMD7 (46_system.md rule R331). -/

namespace Sys2Proof.Machine

/-! ### the offsets -/

theorem regAt_result (k : Fin 4) : regAt (BitVec.ofNat 10 (0x060 + 4 * k.val)).toNat = some (.result k) ∧
    (BitVec.ofNat 10 (0x060 + 4 * k.val)).toNat % 4 = 0 := by
  revert k
  decide

/-- The registers of context `c` stand at 0x100 + 0x20c (10_state.md rule R46). -/
theorem regAt_ctx (c : Fin 16) {j : Nat} (hj : j < 0x20) :
    regAt (0x100 + 0x20 * c.val + j) = (ctxRegAt j).map (.ctx c) := by
  have hc := c.isLt
  unfold regAt
  iterate 11 rw [if_neg (by omega)]
  rw [if_pos (by omega), show (0x100 + 0x20 * c.val + j - 0x100) % 0x20 = j by omega,
    show (0x100 + 0x20 * c.val + j - 0x100) / 0x20 = c.val by omega, Fin.ofNat_val_eq_self]

theorem calibRegAt_reserved {off : Nat} (h : off < 0x080 ∨ 0x0BC ≤ off) : calibRegAt off = none := by
  unfold calibRegAt
  iterate 15 rw [if_neg (by omega)]

/-- The offsets 10_state.md rule R32 leaves to no register. -/
abbrev ReservedOffset (off : Nat) : Prop :=
  (0x024 ≤ off ∧ off < 0x040) ∨ (0x070 ≤ off ∧ off < 0x080) ∨ (0x0BC ≤ off ∧ off < 0x100) ∨ 0x300 ≤ off ∨
    (0x100 ≤ off ∧ off < 0x300 ∧ off % 0x20 = 0x1C)

theorem regAt_reserved {off : Nat} (h : ReservedOffset off) : regAt off = none := by
  unfold ReservedOffset at h
  unfold regAt
  iterate 11 rw [if_neg (by omega)]
  by_cases hctx : 0x100 ≤ off ∧ off < 0x300
  · rw [if_pos hctx, show (off - 0x100) % 0x20 = 0x1C by omega]
    rfl
  · rw [if_neg hctx, calibRegAt_reserved (by omega)]

/-! ### the reads -/

theorem step_regRead_idle {s : State} {es : List Event} {off : BitVec 10} {r : Reg} (hidle : s.running = none)
    (hev : s.events = .regRead off .bits32 :: es) (h4 : off.toNat % 4 = 0) (hr : regAt off.toNat = some r) :
    step s = .next { s with events := es, readData := readReg s r } := by
  rw [step_regRead h4 hev, readWindow_idle (s := { s with events := es }) hr hidle]
  cases r <;> rfl

theorem statusWord_bits (s : State) : (statusWord s).getLsbD 0 = s.running.isSome ∧
    (statusWord s).getLsbD 1 = s.fault ∧ (statusWord s).getLsbD 2 = s.tablesValid := by
  simp only [statusWord, State.busy, BitVec.getLsbD_append]
  simp

theorem statusWord_fields (s : State) : (statusWord s).extractLsb' 3 5 = 0 ∧
    (statusWord s).extractLsb' 8 8 = s.lastStatus ∧ (statusWord s).extractLsb' 16 8 = s.lastOpcode ∧
    (statusWord s).extractLsb' 24 8 = 0 := by
  simp (disch := omega) only [statusWord, BitVec.extractLsb'_append_eq_of_le,
    BitVec.extractLsb'_append_eq_of_add_le]
  simp

theorem ctxStateWord_fields (x : Context) : (ctxStateWord x).extractLsb' 0 2 = frameStateCode x.state ∧
    (ctxStateWord x).extractLsb' 2 2 = frameKindCode x.kind ∧ (ctxStateWord x).getLsbD 4 = x.corrupted ∧
    (ctxStateWord x).extractLsb' 5 27 = 0 := by
  simp (disch := omega) only [ctxStateWord, BitVec.extractLsb'_append_eq_of_le,
    BitVec.extractLsb'_append_eq_of_add_le, BitVec.getLsbD_append]
  simp

/-- Settles O4: the register at each offset, and what reads and writes do there. -/
theorem registerWindowAccess : Obligations.RegisterWindowAccess := by
  refine ⟨⟨fun s es off v hev h4 hcontrol hcmd => ?_, fun s es off hev h4 hoff => ?_,
    fun s es off size v hform hev => ?_⟩, fun s es off v hidle hev hv => ?_,
    fun s es off c j v hidle hev hoff hv => ?_, fun s => ?_, fun x => ?_⟩
  · rw [step_regWrite h4 hev, writeWindow_other hcontrol hcmd]
  · rw [step_regRead h4 hev, readWindow_reserved (regAt_reserved hoff)]
    rfl
  · have hbad : ¬ alignedAccess off size = true := by
      rw [alignedAccess_iff]
      rintro ⟨hsize, h4⟩
      exact hform.elim (· hsize) (· h4)
    rcases hev with hev | hev <;> rw [step_cons hev, handleEvent, if_neg hbad]
  · have read (r : Reg) (h4 : off.toNat % 4 = 0) (hr : regAt off.toNat = some r) :
        step s = .next { s with events := es, readData := readReg s r } := step_regRead_idle hidle hev h4 hr
    rcases hv with ⟨rfl, rfl⟩ | ⟨rfl, rfl⟩ | ⟨rfl, rfl⟩ | ⟨rfl, rfl⟩ | ⟨rfl, rfl⟩ | ⟨rfl, rfl⟩ | ⟨rfl, rfl⟩ |
      ⟨rfl, rfl⟩ | ⟨rfl, rfl⟩ | ⟨k, rfl, rfl⟩ | ⟨rfl, rfl⟩ | ⟨rfl, rfl⟩ | ⟨rfl, rfl⟩ | ⟨rfl, rfl⟩ | ⟨rfl, rfl⟩ |
      ⟨rfl, rfl⟩ | ⟨rfl, rfl⟩ | ⟨rfl, rfl⟩ | ⟨rfl, rfl⟩ | ⟨rfl, rfl⟩ | ⟨rfl, rfl⟩ | ⟨rfl, rfl⟩ | ⟨rfl, rfl⟩ |
      ⟨rfl, rfl⟩ | ⟨rfl, rfl⟩
    · exact read .id rfl rfl
    · exact read .status rfl rfl
    · exact read .control rfl rfl
    · exact read .faultCause rfl rfl
    · exact read .faultInfo rfl rfl
    · exact read .faultValue rfl rfl
    · exact read .cfgEpoch rfl rfl
    · exact read .tblNShift rfl rfl
    · exact read .tblNDepth rfl rfl
    · exact read (.result k) (regAt_result k).2 (regAt_result k).1
    · exact read (.calib .zeroPlaneDistance false) rfl rfl
    · exact read (.calib .zeroPlaneDistance true) rfl rfl
    · exact read (.calib .zeroPlanePixelSize false) rfl rfl
    · exact read (.calib .zeroPlanePixelSize true) rfl rfl
    · exact read (.calib .emitterDistance false) rfl rfl
    · exact read (.calib .emitterDistance true) rfl rfl
    · exact read (.calib .maxShift false) rfl rfl
    · exact read (.calib .maxDepth false) rfl rfl
    · exact read (.calib .constShift false) rfl rfl
    · exact read (.calib .pixelSizeFactor false) rfl rfl
    · exact read (.calib .paramCoeff false) rfl rfl
    · exact read (.calib .shiftScale false) rfl rfl
    · exact read (.calib .minCutoff false) rfl rfl
    · exact read (.calib .maxCutoff false) rfl rfl
    · exact read (.calib .outputFormat false) rfl rfl
  · have read (r : CtxReg) (hj : j < 0x20) (h4 : j % 4 = 0) (hr : ctxRegAt j = some r) :
        step s = .next { s with events := es, readData := readReg s (.ctx c r) } := by
      have hnat : off.toNat = 0x100 + 0x20 * c.val + j := by
        have := c.isLt
        rw [hoff, BitVec.toNat_ofNat, Nat.mod_eq_of_lt (by omega)]
      refine step_regRead_idle hidle hev (by omega) ?_
      rw [hnat, regAt_ctx c hj, hr]
      rfl
    rcases hv with ⟨rfl, rfl⟩ | ⟨rfl, rfl⟩ | ⟨rfl, rfl⟩ | ⟨rfl, rfl⟩ | ⟨rfl, rfl⟩ | ⟨rfl, rfl⟩ | ⟨rfl, rfl⟩
    · exact read .state (by omega) rfl rfl
    · exact read .frameId (by omega) rfl rfl
    · exact read .wbufBase (by omega) rfl rfl
    · exact read .wbufCap (by omega) rfl rfl
    · exact read .wbufSize (by omega) rfl rfl
    · exact read .contLen (by omega) rfl rfl
    · exact read .lineBytes (by omega) rfl rfl
  · obtain ⟨hbusy, hfault, hvalid⟩ := statusWord_bits s
    exact ⟨hbusy, hfault, hvalid, statusWord_fields s⟩
  · obtain ⟨hstate, hkind, hrest⟩ := ctxStateWord_fields x
    refine ⟨hstate.trans ?_, hkind.trans ?_, hrest⟩
    · cases x.state <;> rfl
    · cases x.kind <;> rfl

/-- Settles O5: STATUS and ID are read through, and any other register draws the next free value. -/
theorem busyReadsAreFree : Obligations.BusyReadsAreFree := by
  intro s es off r hbusy h4 hr hev
  rw [step_regRead h4 hev]
  refine ⟨?_, ?_, fun hstatus hid => ?_⟩
  · rintro rfl
    obtain ⟨hb, hfault, hvalid⟩ := statusWord_bits s
    obtain ⟨-, hlast, hopcode, -⟩ := statusWord_fields s
    refine ⟨statusWord s, ?_, hb.trans hbusy, hfault, hvalid, hlast, hopcode⟩
    rw [readWindow, hr]
    rfl
  · rintro rfl
    rw [readWindow, hr]
    rfl
  · rw [readWindow_busy (s := { s with events := es }) hr hbusy hstatus hid]
    rfl

/-! ### a run does not look at CMD0..CMD7 -/

/-- The state with other words in CMD0..CMD7. -/
abbrev State.withCmd (s : State) (cmd : Descriptor) : State := { s with cmd := cmd }

theorem havocRanges_withCmd (cmd : Descriptor) (rs : List (Nat × Nat)) (s : State) :
    havocRanges (s.withCmd cmd) rs = (havocRanges s rs).withCmd cmd := by
  induction rs generalizing s with
  | nil => rfl
  | cons r rs ih => exact ih (havocRange s r)

theorem raiseFault_withCmd (cmd : Descriptor) (opc : BitVec 8) (rs : List (Nat × Nat)) (f : Raise) (s : State) :
    raiseFault opc rs f (s.withCmd cmd) = (raiseFault opc rs f s).withCmd cmd := by
  unfold raiseFault
  split_ifs
  · rw [havocRanges_withCmd]
    rfl
  · rfl

theorem finish_scrambleIf_withCmd (cmd : Descriptor) (opc : BitVec 8) (overlap : Bool) (r : Nat × Nat) (s : State)
    (r0 r1 r2 r3 : Word) : finish opc .ok (scrambleIf overlap r (s.withCmd cmd)) r0 r1 r2 r3 =
      (finish opc .ok (scrambleIf overlap r s) r0 r1 r2 r3).withCmd cmd := by cases overlap <;> rfl

theorem endCommand_withCmd {cmd : Descriptor} {opc : BitVec 8} {rs : List (Nat × Nat)} {s : State}
    {body body' : Except Raise State} (h : body' = body.map (·.withCmd cmd)) :
    endCommand opc rs (s.withCmd cmd) body' = (endCommand opc rs s body).withCmd cmd := by
  subst h
  cases body with
  | ok t => rfl
  | error f => exact raiseFault_withCmd cmd opc rs f s

theorem endFrameCommand_withCmd {cmd : Descriptor} {opc : BitVec 8} {c : BitVec 4} {rs : List (Nat × Nat)} {s : State}
    {body body' : Except Raise State} (h : body' = body.map (·.withCmd cmd)) :
    endFrameCommand opc c rs (s.withCmd cmd) body' = (endFrameCommand opc c rs s body).withCmd cmd := by
  subst h
  cases body with
  | ok t => rfl
  | error f =>
    simp only [Except.map, endFrameCommand]
    rw [raiseFault_withCmd]
    rfl

theorem rebuild_withCmd (cmd : Descriptor) (opc : BitVec 8) (ns nd : Nat) (r0 r1 : Word) (s : State) :
    rebuild opc ns nd r0 r1 (s.withCmd cmd) = (rebuild opc ns nd r0 r1 s).withCmd cmd := by
  simp only [rebuild]
  split
  · exact raiseFault_withCmd cmd opc [] _ (havocTables s)
  · rfl

theorem setcfg_withCmd (cmd : Descriptor) (f : CalibField) (vlo vhi : Word) (s : State) :
    setcfg f vlo vhi (s.withCmd cmd) = (setcfg f vlo vhi s).withCmd cmd := by
  simp only [setcfg]
  split_ifs
  · exact rebuild_withCmd cmd _ _ _ _ _ { s with calib := commitField f vlo vhi s.calib, cfgEpoch := s.cfgEpoch + 1 }
  · exact rebuild_withCmd cmd _ _ _ _ _ { s with calib := commitField f vlo vhi s.calib, cfgEpoch := s.cfgEpoch + 1 }
  · rfl
  · rfl

theorem readTable_withCmd (cmd : Descriptor) (table : List Half) (n : Nat) (dst cap : Word) (s : State) :
    readTable table n dst cap (s.withCmd cmd) = (readTable table n dst cap s).withCmd cmd := by
  refine endCommand_withCmd ?_
  dsimp only
  split
  · rfl
  · split_ifs
    · rfl
    · split <;> rfl
    · rfl

theorem uncomp_withCmd (cmd : Descriptor) (opc : BitVec 8) (map : List (Fin 3)) (last : Bool)
    (src srclen dst dstcap line : Word) (s : State) :
    uncomp opc map last src srclen dst dstcap line (s.withCmd cmd) =
      (uncomp opc map last src srclen dst dstcap line s).withCmd cmd := by
  refine endCommand_withCmd ?_
  dsimp only
  split
  · rfl
  · split_ifs
    · rfl
    · split
      · rfl
      · rfl
      · rfl
      · split
        · rfl
        · rename_i m hm
          exact congrArg Except.ok (finish_scrambleIf_withCmd cmd _ _ _ { s with mem := m } _ _ _ _)

theorem mirror_withCmd (cmd : Descriptor) (layout : Layout) (buf len width : Word) (s : State) :
    mirror layout buf len width (s.withCmd cmd) = (mirror layout buf len width s).withCmd cmd := by
  refine endCommand_withCmd ?_
  dsimp only
  split
  · rfl
  · split_ifs
    · rfl
    · rfl
    · split <;> rfl

theorem solveAndStore_withCmd (cmd : Descriptor) (opc : BitVec 8) (m : Mat3) (dst : Nat) (r0 : Word) (s : State) :
    solveAndStore opc m dst r0 (s.withCmd cmd) = (solveAndStore opc m dst r0 s).map (·.withCmd cmd) := by
  simp only [solveAndStore]
  split
  · rfl
  · split <;> rfl

theorem frameSof_withCmd (cmd : Descriptor) (k : FrameKind) (c : BitVec 4) (wbase wcap line : Word) (s : State) :
    frameSof k c wbase wcap line (s.withCmd cmd) = (frameSof k c wbase wcap line s).withCmd cmd := by
  refine endFrameCommand_withCmd ?_
  split
  · rfl
  · split_ifs <;> rfl

/-- The end of a command changes with CMD0..CMD7 in those words only. -/
def IgnoresCmd (run : State → Host.Outcome State Fault Refusal) : Prop :=
  ∀ s t cmd, run s = .next t → run (s.withCmd cmd) = .next (t.withCmd cmd)

theorem IgnoresCmd.of_next {run : State → State} (h : ∀ s cmd, run (s.withCmd cmd) = (run s).withCmd cmd) :
    IgnoresCmd fun s => .next (run s) := by
  rintro s t cmd ⟨⟩
  exact congrArg _ (h s cmd)

theorem execS2dUpdate_ignoresCmd : IgnoresCmd execS2dUpdate := by
  refine .of_next fun s cmd => ?_
  split_ifs
  · exact rebuild_withCmd cmd _ _ _ _ _ s
  · exact raiseFault_withCmd cmd _ _ _ s

theorem execS2dConvert_ignoresCmd (src count dst : Word) : IgnoresCmd (execS2dConvert src count dst) := by
  refine .of_next fun s cmd => ?_
  have hstart : (if convertOverlaps src count dst then { s.withCmd cmd with nonce := s.nonce + 2 * count.toNat }
      else s.withCmd cmd) =
      (if convertOverlaps src count dst then { s with nonce := s.nonce + 2 * count.toNat } else s).withCmd cmd := by
    split_ifs <;> rfl
  simp only [hstart]
  generalize (if convertOverlaps src count dst then { s with nonce := s.nonce + 2 * count.toNat } else s) = start
  generalize (if convertOverlaps src count dst then some s.nonce else none) = scramble
  refine endCommand_withCmd ?_
  split
  · rfl
  · split_ifs
    · split <;> rfl
    · rfl

theorem execUnpack12_ignoresCmd (src srclen dst dstcap : Word) : IgnoresCmd (execUnpack12 src srclen dst dstcap) := by
  refine .of_next fun s cmd => endCommand_withCmd ?_
  dsimp only
  split
  · rfl
  · split_ifs
    · rfl
    · rfl
    · split
      · rfl
      · rename_i m hm
        exact congrArg Except.ok (finish_scrambleIf_withCmd cmd _ _ _ { s with mem := m } _ _ _ _)

theorem execFrameChunk_ignoresCmd (c : BitVec 4) (src offset len bufsize : Word) :
    IgnoresCmd (execFrameChunk c src offset len bufsize) := by
  refine .of_next fun s cmd => ?_
  have hctx : getContext (s.withCmd cmd) c = getContext s c := rfl
  have hchunk (x : Context) (buf : List Byte) (last : Bool) :
      chunkStep (s.withCmd cmd) x buf last = chunkStep s x buf last := rfl
  simp only [hctx, hchunk]
  split_ifs
  · rfl
  · refine endFrameCommand_withCmd ?_
    split
    · rfl
    · split
      · rfl
      · split
        · rfl
        · rename_i r hr
          exact congrArg Except.ok
            (finish_scrambleIf_withCmd cmd _ _ _ (setContext { s with mem := r.1 } c r.2) _ _ _ _)

theorem execFrameEof_ignoresCmd (c : BitVec 4) : IgnoresCmd (execFrameEof c) := by
  refine .of_next fun s cmd => ?_
  have hctx : getContext (s.withCmd cmd) c = getContext s c := rfl
  simp only [hctx]
  split_ifs <;> rfl

theorem execLu3_ignoresCmd (a b x : Word) : IgnoresCmd (execLu3 a b x) := by
  refine .of_next fun s cmd => endCommand_withCmd ?_
  simp only [solveAndStore_withCmd]
  split
  · rfl
  · split
    · rfl
    · split <;> rfl

theorem execPlanefit_ignoresCmd (pts n out : Word) : IgnoresCmd (execPlanefit pts n out) := by
  refine .of_next fun s cmd => endCommand_withCmd ?_
  simp only [solveAndStore_withCmd]
  split
  · rfl
  · split <;> rfl

theorem exec_ignoresCmd (i : Instr) : IgnoresCmd (exec i) := by
  cases i with
  | nop | s2dFree | mirrorCode fmt buf len width => exact .of_next fun s cmd => rfl
  | s2dInit => exact .of_next fun s cmd => rebuild_withCmd cmd _ _ _ _ _ s
  | s2dUpdate => exact execS2dUpdate_ignoresCmd
  | setcfgZeroPlaneDistance vlo vhi | setcfgZeroPlanePixelSize vlo vhi | setcfgEmitterDistance vlo vhi
  | setcfgMaxShift vlo | setcfgMaxDepth vlo | setcfgConstShift vlo | setcfgPixelSizeFactor vlo | setcfgParamCoeff vlo
  | setcfgShiftScale vlo | setcfgMinCutoff vlo | setcfgMaxCutoff vlo | setcfgOutputFormat vlo =>
    exact .of_next fun s cmd => setcfg_withCmd cmd _ _ _ s
  | s2dConvert src count dst => exact execS2dConvert_ignoresCmd src count dst
  | s2dRdtabS2d dst cap | s2dRdtabD2s dst cap => exact .of_next fun s cmd => readTable_withCmd cmd _ _ _ _ s
  | unpack12 src srclen dst dstcap => exact execUnpack12_ignoresCmd src srclen dst dstcap
  | uncompPs src srclen dst dstcap line | uncompPsLast src srclen dst dstcap line
  | uncompNew src srclen dst dstcap line | uncompNewLast src srclen dst dstcap line =>
    exact .of_next fun s cmd => uncomp_withCmd cmd _ _ _ _ _ _ _ _ s
  | mirrorGray8 buf len width | mirrorGray16 buf len width | mirrorDepth1mm buf len width
  | mirrorDepth100um buf len width | mirrorShift92 buf len width | mirrorRgb888 buf len width
  | mirrorYuv422 buf len width | mirrorYuyv buf len width =>
    exact .of_next fun s cmd => mirror_withCmd cmd _ _ _ _ s
  | frameSofPacked12 c wbase wcap line | frameSofPs c wbase wcap line | frameSofNew c wbase wcap line =>
    exact .of_next fun s cmd => frameSof_withCmd cmd _ _ _ _ _ s
  | frameChunk c src offset len bufsize => exact execFrameChunk_ignoresCmd c src offset len bufsize
  | frameEof c => exact execFrameEof_ignoresCmd c
  | lu3 a b x => exact execLu3_ignoresCmd a b x
  | planefit pts n out => exact execPlanefit_ignoresCmd pts n out

theorem runDescriptor_ignoresCmd (d : Descriptor) : IgnoresCmd (runDescriptor d) := by
  intro s t cmd h
  have hlegal : legalCommand (s.withCmd cmd) d = legalCommand s d := rfl
  cases hl : legalCommand s d with
  | none =>
    rw [runDescriptor_illegal hl] at h
    rw [runDescriptor_illegal (hlegal.trans hl)]
    cases h
    rfl
  | some i =>
    rw [runDescriptor_legal hl] at h
    rw [runDescriptor_legal (hlegal.trans hl)]
    exact exec_ignoresCmd i s t cmd h

theorem engineRun_ignoresCmd : IgnoresCmd engineRun := by
  intro s t cmd h
  cases hrun : s.running with
  | none =>
    rw [engineRun_idle hrun] at h
    rw [engineRun_idle (s := s.withCmd cmd) hrun]
    cases h
    rfl
  | some d =>
    by_cases hr : s.raced = []
    · rw [engineRun_busy hrun hr] at h
      rw [engineRun_busy (s := s.withCmd cmd) hrun hr]
      exact runDescriptor_ignoresCmd d s t cmd h
    · obtain ⟨v, hv, -⟩ := runDescriptor_commandFrame d (enterRace s)
      rw [engineRun_raced hrun hr hv] at h
      rw [engineRun_raced (s := s.withCmd cmd) hrun hr (runDescriptor_ignoresCmd d _ v cmd hv)]
      cases h
      rfl

theorem step_writeCmd {s : State} {es : List Event} {k : Fin 8} {v : Word}
    (hev : s.events = .regWrite (BitVec.ofNat 10 (0x040 + 4 * k.val)) .bits32 v :: es) :
    step s = .next (if s.busy then { s with events := es } else { s with events := es, cmd := s.cmd.set k v }) := by
  rw [step_regWrite (by rw [toNat_cmdOffset]; omega) hev, toNat_cmdOffset, writeWindow_cmd]
  rfl

/-- Settles O3: CONTROL and CMD writes by `step_control` and `step_writeCmd`, reads by `step_regRead_idle`, and the
run by `engineRun_ignoresCmd`. -/
theorem commandRegistersAndStart : Obligations.CommandRegistersAndStart := by
  refine ⟨fun s es v hev hv => ⟨fun hgo hbusy => ?_, fun hgo hidle hf => ?_, fun hgo => ?_⟩,
    fun s es k v hev => ⟨fun hidle => ?_, fun hbusy => ?_⟩, fun s es k hev hidle => ?_,
    fun p k => Vector.getElem_replicate k.isLt, fun s hidle hf => ?_, fun s d i => runDescriptor_legal,
    fun s t cmd _ hev h => ?_⟩
  · rw [step_control hev, writeControl, if_neg (ne_true_of_eq_false hv), if_pos hgo,
      startCommand_ignored (s := { s with events := es }) hbusy]
  · rw [step_control hev, writeControl, if_neg (ne_true_of_eq_false hv), if_pos hgo,
      startCommand_idle (s := { s with events := es }) hidle hf]
  · rw [step_control hev, writeControl, if_neg (ne_true_of_eq_false hv), if_neg (ne_true_of_eq_false hgo)]
  · rw [step_writeCmd hev, State.busy, hidle]
    rfl
  · rw [step_writeCmd hev, State.busy, if_pos hbusy]
  · exact step_regRead_idle (r := .cmd k) hidle hev (by rw [toNat_cmdOffset]; omega)
      (by rw [toNat_cmdOffset, regAt_cmd])
  · rw [startCommand_idle hidle hf]
  · rcases hev with hnil | hengine
    · rw [step_nil hnil] at h
      exact (step_nil (s := s.withCmd cmd) hnil).trans (engineRun_ignoresCmd s t cmd h)
    · obtain ⟨es, hcons⟩ := List.head?_eq_some_iff.1 hengine
      rw [step_cons hcons] at h
      exact (step_cons (s := s.withCmd cmd) hcons).trans (engineRun_ignoresCmd { s with events := es } t cmd h)

end Sys2Proof.Machine
end

