-- ==== Sys2Proof/Proofs/Encoding.lean ====
section
/-! PROOFS. Proofs/Encoding.lean: the binary64 encodings. An encoding is its sign, exponent and fraction put together,
`F64.ofBits` reads the three and `F64.toBits` puts them back; memory holds the eight bytes of the number. -/

namespace Sys2Proof.Machine

/-! ### the value of an encoding -/

/-- A significand of 52 fraction bits, as IEEE writes it: a sign, a fraction and a power of two. -/
theorem exactValue_fraction (neg : Bool) (m : Nat) (e : Int) :
    exactValue neg m (e - 52) = (if neg then -1 else 1) * ((m : ℚ) / 2 ^ 52) * 2 ^ e := by
  have h : (2 : ℚ) ^ (e - 52) = 2 ^ e / 2 ^ 52 := by rw [zpow_sub₀ two_ne_zero]; rfl
  cases neg with
  | false => simp only [exactValue, h, Bool.false_eq_true, if_false]; ring
  | true => simp only [exactValue, h, if_true]; ring

section
variable {b : Bits64}

theorem F64.ofBits_special (h : (b.extractLsb' 52 11).toNat = 2047) :
    F64.ofBits b = if (b.extractLsb' 0 52).toNat = 0 then .inf b.msb else .nan := if_pos h

theorem F64.ofBits_subnormal (h : (b.extractLsb' 52 11).toNat = 0) :
    F64.ofBits b = .fin b.msb (b.extractLsb' 0 52).toNat (-1074) :=
  (if_neg (h ▸ by decide)).trans (if_pos h)

theorem F64.ofBits_normal (hspecial : (b.extractLsb' 52 11).toNat ≠ 2047) (hzero : (b.extractLsb' 52 11).toNat ≠ 0) :
    F64.ofBits b =
      .fin b.msb (2 ^ 52 + (b.extractLsb' 0 52).toNat) ((b.extractLsb' 52 11).toNat - 1075) :=
  (if_neg hspecial).trans (if_neg hzero)

end

/-- The number an encoding stands for, as IEEE defines it. -/
theorem F64.ofBits_value (b : Bits64) :
    let exponent := (b.extractLsb' 52 11).toNat
    let fraction : ℚ := (b.extractLsb' 0 52).toNat / 2 ^ 52
    let sign : ℚ := if b.msb then -1 else 1
    (exponent = 0x7FF → F64.ofBits b = if fraction = 0 then .inf b.msb else .nan) ∧
    (exponent ≠ 0x7FF → ∃ m e, F64.ofBits b = .fin b.msb m e ∧
      exactValue b.msb m e = if exponent = 0 then sign * fraction * 2 ^ (-1022 : Int)
        else sign * (1 + fraction) * 2 ^ ((exponent : Int) - 1023)) := by
  intro exponent fraction sign
  refine ⟨fun h => ?_, fun hspecial => ?_⟩
  · have hfraction : fraction = 0 ↔ (b.extractLsb' 0 52).toNat = 0 := by
      rw [div_eq_zero_iff, Nat.cast_eq_zero]
      exact or_iff_left (by positivity)
    rw [F64.ofBits_special h]
    simp only [hfraction]
  · by_cases hzero : exponent = 0
    · rw [if_pos hzero]
      exact ⟨_, _, F64.ofBits_subnormal hzero, exactValue_fraction b.msb _ (-1022)⟩
    · rw [if_neg hzero]
      refine ⟨_, _, F64.ofBits_normal hspecial hzero, ?_⟩
      rw [show ((exponent : Int) - 1075) = (exponent : Int) - 1023 - 52 by ring, exactValue_fraction, Nat.cast_add,
        add_div, show ((2 ^ 52 : Nat) : ℚ) / 2 ^ 52 = 1 by norm_num]

/-! ### encoding again -/

theorem append_fields (b : Bits64) : BitVec.ofBool b.msb ++ b.extractLsb' 52 11 ++ b.extractLsb' 0 52 = b := by
  apply BitVec.eq_of_getLsbD_eq
  intro i hi
  simp only [BitVec.getLsbD_append, BitVec.getLsbD_extractLsb', BitVec.getLsbD_ofBool]
  split_ifs with h1 h2
  · simp [h1]
  · simp [show i - 52 < 11 from h2, show 52 + (i - 52) = i by omega]
  · simp [BitVec.msb_eq_getLsbD_last, show i = 63 by omega]

/-- An encoding is known by its sign and the numbers of its other two fields. -/
theorem append_eq_of_fields {b : Bits64} {e : BitVec 11} {f : BitVec 52} (he : (b.extractLsb' 52 11).toNat = e.toNat)
    (hf : (b.extractLsb' 0 52).toNat = f.toNat) : BitVec.ofBool b.msb ++ e ++ f = b := by
  rw [← BitVec.eq_of_toNat_eq he, ← BitVec.eq_of_toNat_eq hf, append_fields]

theorem F64.toBits_ofBits {b : Bits64} (hnan : F64.ofBits b ≠ .nan) (free : BitVec 52) :
    (F64.ofBits b).toBits free = b := by
  have hexponent := (b.extractLsb' 52 11).isLt
  have hfraction := (b.extractLsb' 0 52).isLt
  by_cases hspecial : (b.extractLsb' 52 11).toNat = 2047
  · rw [F64.ofBits_special hspecial] at hnan ⊢
    split_ifs at hnan ⊢ with hzero
    · exact append_eq_of_fields hspecial hzero
    · exact absurd rfl hnan
  · by_cases hzero : (b.extractLsb' 52 11).toNat = 0
    · rw [F64.ofBits_subnormal hzero, F64.toBits, if_pos hfraction]
      exact append_eq_of_fields hzero (by rw [BitVec.toNat_ofNat, Nat.mod_eq_of_lt hfraction])
    · rw [F64.ofBits_normal hspecial hzero, F64.toBits, if_neg (by omega)]
      refine append_eq_of_fields ?_ ?_
      · rw [BitVec.toNat_ofNat, Int.sub_add_cancel, Int.toNat_natCast, Nat.mod_eq_of_lt hexponent]
      · rw [BitVec.toNat_ofNat, Nat.add_mod_left, Nat.mod_eq_of_lt hfraction]

/-- A NaN is stored with an exponent of all ones and the quiet bit, whatever its free sign and payload are. -/
theorem F64.toBits_nan_quiet (free : BitVec 52) : (F64.nan.toBits free).extractLsb' 51 12 = 0xFFF := by
  have quiet : ∀ sign : BitVec 1, (sign ++ 0x7FF#11 ++ 1#1).extractLsb' 0 12 = 0xFFF := by decide
  rw [F64.toBits, BitVec.extractLsb'_append_eq_of_le le_rfl]
  exact quiet _

/-! ### the bytes in memory -/

/-- Byte `k` of the number of a byte list. -/
theorem leNat_digit (bs : List Byte) (k : Nat) : leNat bs / 256 ^ k % 256 = (bs.getD k 0).toNat := by
  induction bs generalizing k with
  | nil => simp
  | cons b bs ih =>
    have hb := b.isLt
    rw [leNat_cons]
    cases k with
    | zero =>
      rw [pow_zero, Nat.div_one, List.getD_cons_zero]
      omega
    | succ k =>
      rw [pow_succ', ← Nat.div_div_eq_div_mul, List.getD_cons_succ, ← ih k]
      congr 2
      omega

theorem extractLsb'_bits64At (bs : List Byte) {k : Nat} (hk : k < 8) (h : bs.length = 8) :
    (bits64At bs 0).extractLsb' (8 * k) 8 = bs.getD k 0 := by
  have hsplit : 2 ^ 64 = 256 ^ k * 256 ^ (8 - k) := by
    rw [← pow_add, show k + (8 - k) = 8 by omega]
    norm_num
  have hbyte : (256 : Nat) ∣ 256 ^ (8 - k) := dvd_pow_self 256 (by omega)
  apply BitVec.eq_of_toNat_eq
  rw [bits64At, Nat.mul_zero, List.drop_zero, List.take_of_length_le h.le, BitVec.extractLsb'_toNat,
    BitVec.toNat_ofNat, Nat.shiftRight_eq_div_pow, pow_mul, hsplit]
  show leNat bs % (256 ^ k * 256 ^ (8 - k)) / 256 ^ k % 256 = _
  rw [Nat.mod_mul_right_div_self, Nat.mod_mod_of_dvd _ hbyte, leNat_digit]

theorem bits64Bytes_bits64At {bs : List Byte} (h : bs.length = 8) : bits64Bytes (bits64At bs 0) = bs := by
  have hbytes : bits64Bytes (bits64At bs 0) =
      (List.range 8).map fun k => (bits64At bs 0).extractLsb' (8 * k) 8 := rfl
  rw [hbytes]
  refine List.ext_getElem (by simp [h]) fun k hk hk' => ?_
  rw [List.getElem_map, List.getElem_range, extractLsb'_bits64At bs (h ▸ hk') h, List.getD_eq_getElem _ _ hk']

/-- Settles O58: the three fields of an encoding give its value, and are what encoding the value writes. -/
theorem binaryEncodingRoundTrip : Obligations.BinaryEncodingRoundTrip :=
  ⟨F64.ofBits_value, fun _ free h => F64.toBits_ofBits h free, fun _ free h => h ▸ F64.toBits_nan_quiet free,
    fun _ => bits64Bytes_bits64At⟩

end Sys2Proof.Machine
end

