-- ==== Sys2Proof/Proofs/DataMemory.lean ====
section
/-! PROOFS. Proofs/DataMemory.lean: what a command, a step and the host's accesses do to data memory: the canonical
form, the bytes a command leaves alone, what a fault leaves, and the bytes of a race. -/

namespace Sys2Proof.Machine

/-! ### what a command does to memory -/

theorem raiseFault_effect (opc : BitVec 8) (rs : List (Nat × Nat)) (f : Raise) (s : State) :
    RangesEffect s.mem (raiseFault opc rs f s).mem rs :=
  ⟨fun h => wf_raiseFault h opc rs f, fun _ ha => read_raiseFault_other ha opc f s⟩

/-- A fault keeps memory when its cause does, and when the command writes no range. -/
theorem raiseFault_mem {rs : List (Nat × Nat)} {f : Raise} (h : causeLosesMemory f.cause = false ∨ rs = [])
    (opc : BitVec 8) (s : State) : (raiseFault opc rs f s).mem = s.mem := by
  rcases h with h | rfl
  · rw [raiseFault_of_early h, enterFault_mem]
  · unfold raiseFault
    split_ifs <;> rfl

@[simp] theorem rebuild_mem (opc : BitVec 8) (ns nd : Nat) (r0 r1 : Word) (s : State) :
    (rebuild opc ns nd r0 r1 s).mem = s.mem := by
  rcases rebuild_ends opc ns nd r0 r1 s with ⟨f, -, h⟩ | ⟨tables, -, h⟩ <;> rw [h]
  exact raiseFault_mem (.inr rfl) opc _

@[simp] theorem setcfg_mem (f : CalibField) (vlo vhi : Word) (s : State) : (setcfg f vlo vhi s).mem = s.mem := by
  rcases setcfg_ends f vlo vhi s with ⟨-, h⟩ | ⟨-, ⟨-, h⟩ | ⟨-, -, h⟩ | ⟨-, -, h⟩⟩ <;> rw [h]
  · exact rebuild_mem ..
  · exact rebuild_mem ..

@[simp] theorem frameSof_mem (k : FrameKind) (c : BitVec 4) (wbase wcap line : Word) (s : State) :
    (frameSof k c wbase wcap line s).mem = s.mem := by
  rcases frameSof_ends k c wbase wcap line s with ⟨f, -, h⟩ | h <;> rw [h]
  · rw [havocContext_mem, raiseFault_mem (.inr rfl)]
  · rfl

theorem MemEnding.rangesEffect {opc : BitVec 8} {rs : List (Nat × Nat)} {s t : State} (h : MemEnding opc rs s t) :
    RangesEffect s.mem t.mem rs := by
  cases h with
  | status st hst => exact .refl _ _
  | fault f n => exact raiseFault_effect opc rs f { s with nonce := n }
  | ok m n r0 r1 r2 r3 hm => exact hm

/-- However a command ends, it keeps the canonical form and touches only the ranges it writes. -/
theorem ExecEnding.rangesEffect {s t : State} {i : Instr} (h : ExecEnding s i t) :
    RangesEffect s.mem t.mem (writeRanges s i) := by
  have unchanged {t : State} (ht : t.mem = s.mem) : RangesEffect s.mem t.mem (writeRanges s i) := ht ▸ .refl _ _
  cases h with
  | memory hset h => exact h.rangesEffect
  | free hi => exact unchanged rfl
  | init hi | update hi hv => exact unchanged (rebuild_mem ..)
  | setcfg f vlo vhi hi => exact unchanged (setcfg_mem ..)
  | frame c y m n r0 r1 r2 r3 hset hc hy hm => exact hm
  | frameFault c f hset hc => exact raiseFault_effect i.opcode (writeRanges s i) f s

/-- A command without a write range leaves memory as the same list, in canonical form or not. -/
theorem exec_mem_of_writes_nothing {i : Instr} {s t : State} (hw : writeRanges s i = []) (h : exec i s = .next t) :
    t.mem = s.mem := by
  cases i with
  | nop | s2dFree | mirrorCode fmt buf len width => cases h; rfl
  | s2dInit => cases h; exact rebuild_mem ..
  | s2dUpdate =>
    cases h
    split_ifs
    · exact rebuild_mem ..
    · exact raiseFault_mem (.inr rfl) ..
  | setcfgZeroPlaneDistance vlo vhi | setcfgZeroPlanePixelSize vlo vhi | setcfgEmitterDistance vlo vhi
  | setcfgMaxShift vlo | setcfgMaxDepth vlo | setcfgConstShift vlo | setcfgPixelSizeFactor vlo | setcfgParamCoeff vlo
  | setcfgShiftScale vlo | setcfgMinCutoff vlo | setcfgMaxCutoff vlo | setcfgOutputFormat vlo =>
    cases h
    exact setcfg_mem ..
  | frameSofPacked12 c wbase wcap line | frameSofPs c wbase wcap line | frameSofNew c wbase wcap line =>
    cases h
    exact frameSof_mem ..
  | frameEof c =>
    obtain ⟨u, hu, hend⟩ := execFrameEof_ends c s
    cases hu.symm.trans h
    rcases hend with ⟨-, rfl⟩ | ⟨-, rfl⟩ <;> rfl
  | s2dConvert | s2dRdtabS2d | s2dRdtabD2s | unpack12 | uncompPs | uncompPsLast | uncompNew | uncompNewLast
  | mirrorGray8 | mirrorGray16 | mirrorDepth1mm | mirrorDepth100um | mirrorShift92 | mirrorRgb888 | mirrorYuv422
  | mirrorYuyv | frameChunk | lu3 | planefit => exact absurd hw (List.cons_ne_nil _ _)

/-- Settles O24: every ending of a command touches only its write ranges, and a command that has none stores nothing. -/
theorem memoryFrame : Obligations.MemoryFrame := fun _ _ _ h =>
  ⟨(execEnding_of_next h).rangesEffect.2, fun hw => exec_mem_of_writes_nothing hw h⟩

/-! ### the canonical form over a step -/

theorem runDescriptor_wf {d : Descriptor} {s t : State} (hs : s.mem.wf = true) (h : runDescriptor d s = .next t) :
    t.mem.wf = true := by
  rcases runDescriptor_ending h with rfl | ⟨i, -, hend⟩
  · exact hs
  · exact hend.rangesEffect.1 hs

theorem engineRun_wf {s t : State} (hs : s.mem.wf = true) (h : engineRun s = .next t) : t.mem.wf = true := by
  cases hrun : s.running with
  | none =>
    rw [engineRun_idle hrun] at h
    cases h
    exact hs
  | some d =>
    by_cases hr : s.raced = []
    · rw [engineRun_busy hrun hr] at h
      exact runDescriptor_wf hs h
    · obtain ⟨v, hv, -⟩ := runDescriptor_commandFrame d (enterRace s)
      rw [engineRun_raced hrun hr hv] at h
      cases h
      exact wf_settleRace (runDescriptor_wf (wf_freeAt hs _ _) hv) _ _ _

theorem resetNow_wf {s : State} (hs : s.mem.wf = true) : (resetNow s).mem.wf = true := by
  cases h : s.running with
  | none => rwa [resetNow_idle h, resetBlock_mem]
  | some d =>
    rw [resetNow_busy h, resetBlock_mem]
    exact wf_havocRanges hs _

@[simp] theorem startCommand_mem (s : State) : (startCommand s).mem = s.mem := by
  unfold startCommand
  split_ifs <;> rfl

theorem writeWindow_wf {s : State} (hs : s.mem.wf = true) (off : Nat) (v : Word) :
    (writeWindow off v s).mem.wf = true := by
  unfold writeWindow
  split
  case h_1 =>
    unfold writeControl
    split_ifs
    · exact resetNow_wf hs
    · rwa [startCommand_mem]
    · exact hs
  case h_2 => split_ifs <;> exact hs
  case h_3 => exact hs

@[simp] theorem readWindow_mem (off : Nat) (s : State) : (readWindow off s).mem = s.mem := by
  unfold readWindow
  split
  case h_4 => split_ifs <;> rfl
  all_goals rfl

@[simp] theorem hostMemRead_mem (a : Word) (s : State) : (hostMemRead a s).mem = s.mem := by
  unfold hostMemRead
  split
  · rfl
  · split_ifs <;> rfl

theorem handleEvent_wf {e : Event} {s t : State} (hs : s.mem.wf = true) (h : handleEvent e s = .next t) :
    t.mem.wf = true := by
  cases e with
  | regRead off size =>
    simp only [handleEvent] at h
    split_ifs at h
    cases h
    rwa [readWindow_mem]
  | regWrite off size v =>
    simp only [handleEvent] at h
    split_ifs at h
    cases h
    exact writeWindow_wf hs off.toNat v
  | memRead a =>
    simp only [handleEvent] at h
    split_ifs at h
    cases h
    rwa [hostMemRead_mem]
  | memWrite a b =>
    simp only [handleEvent] at h
    split_ifs at h
    cases h
    exact Memory.wf_write hs a.isLt b
  | resetInput =>
    cases h
    exact resetNow_wf hs
  | engine => exact engineRun_wf hs h

/-- Settles O13: each event and the run of the latched command keep the form. -/
theorem stepKeepsMemoryForm : Obligations.StepKeepsMemoryForm := by
  intro s t hs h
  cases hev : s.events with
  | nil => exact engineRun_wf hs (step_nil hev ▸ h)
  | cons e es => exact handleEvent_wf (s := { s with events := es }) hs (step_cons hev ▸ h)

/-! ### what a fault writes and keeps -/

/-- The registers after a fault `f` of a command, and memory when the cause keeps it. -/
def FaultsWith (s t : State) (opc : BitVec 8) (f : Raise) : Prop :=
  Faulted t opc (causeCode f.cause) f.info f.value ∧ (causeLosesMemory f.cause = false → t.mem = s.mem)

theorem faultsWith_raiseFault {s u : State} (hu : u.mem = s.mem) (opc : BitVec 8) (rs : List (Nat × Nat)) (f : Raise) :
    FaultsWith s (raiseFault opc rs f u) opc f :=
  ⟨faulted_raiseFault opc rs f u, fun h => (raiseFault_mem (.inl h) opc u).trans hu⟩

theorem rebuild_faultsWith {opc : BitVec 8} {ns nd : Nat} {r0 r1 : Word} {s : State} (hs : s.fault = false)
    (h : (rebuild opc ns nd r0 r1 s).fault = true) : ∃ f, FaultsWith s (rebuild opc ns nd r0 r1 s) opc f := by
  rcases rebuild_ends opc ns nd r0 r1 s with ⟨f, -, hend⟩ | ⟨tables, -, hend⟩ <;> rw [hend] at h ⊢
  · exact ⟨f, faultsWith_raiseFault rfl opc [] f⟩
  · exact absurd (hs.symm.trans h) nofun

theorem setcfg_faultsWith {f : CalibField} {vlo vhi : Word} {s : State} (hs : s.fault = false)
    (h : (setcfg f vlo vhi s).fault = true) : ∃ r, FaultsWith s (setcfg f vlo vhi s) 0x04 r := by
  rcases setcfg_ends f vlo vhi s with ⟨-, hend⟩ | ⟨-, ⟨-, hend⟩ | ⟨-, -, hend⟩ | ⟨-, -, hend⟩⟩ <;> rw [hend] at h ⊢
  · exact absurd (hs.symm.trans h) nofun
  · exact absurd (hs.symm.trans h) nofun
  · exact rebuild_faultsWith hs h
  · exact rebuild_faultsWith hs h

theorem opcode_setcfgCommand (f : CalibField) (vlo vhi : Word) : (setcfgCommand f vlo vhi).opcode = 0x04 := by
  cases f <;> rfl

/-- A command that ends in the fault state has written the fault's registers, and kept memory for an early cause. -/
theorem ExecEnding.faultsWith {s t : State} {i : Instr} (hs : s.fault = false) (ht : t.fault = true)
    (h : ExecEnding s i t) : ∃ f, FaultsWith s t i.opcode f := by
  have noFault {p : Prop} (hs' : s.fault = true) : p := absurd (hs.symm.trans hs') nofun
  cases h with
  | memory hset h =>
    cases h with
    | status st hst => exact noFault ht
    | fault f n => exact ⟨f, faultsWith_raiseFault (s := s) (u := { s with nonce := n }) rfl ..⟩
    | ok m n r0 r1 r2 r3 hm => exact noFault ht
  | free hi => exact noFault ht
  | init hi | update hi hv =>
    subst hi
    exact rebuild_faultsWith hs ht
  | setcfg f vlo vhi hi =>
    rw [hi, opcode_setcfgCommand]
    exact setcfg_faultsWith hs ht
  | frame c y m n r0 r1 r2 r3 hset hc hy hm => exact noFault ht
  | frameFault c f hset hc => exact ⟨f, faultsWith_raiseFault (s := s) rfl i.opcode (writeRanges s i) f⟩

/-- A command that is none of the table engine's leaves the tables alone. -/
theorem ExecEnding.tables {s t : State} {i : Instr} (hi : touchesTables i = false) (h : ExecEnding s i t) :
    t.tablesValid = s.tablesValid ∧ t.tblNShift = s.tblNShift ∧ t.tblNDepth = s.tblNDepth ∧ t.s2d = s.s2d ∧
      t.d2s = s.d2s := by
  cases h with
  | memory hset h =>
    cases h with
    | status | ok => exact ⟨rfl, rfl, rfl, rfl, rfl⟩
    | fault f n => simp
  | free hi' | init hi' | update hi' hv =>
    subst hi'
    exact absurd hi (by decide)
  | setcfg f vlo vhi hi' =>
    subst hi'
    cases f <;> exact absurd hi Bool.noConfusion
  | frame => exact ⟨rfl, rfl, rfl, rfl, rfl⟩
  | frameFault c f hset hc => simp

/-- A command leaves every context it does not name alone. -/
theorem ExecEnding.getContext_other {s t : State} {i : Instr} (h : ExecEnding s i t) {c : BitVec 4}
    (hc : i.ctx? ≠ some c) : getContext t c = getContext s c := by
  refine h.contexts_ind (P := fun _ xs => xs[c.toNat]'c.isLt = getContext s c) rfl fun d y hd _ => ?_
  exact getContext_setContext_ne (by rintro rfl; exact hc hd) s y

theorem causeLosesMemory_of_early {c : Cause}
    (h : causeCode c = 1 ∨ causeCode c = 3 ∨ causeCode c = 4 ∨ causeCode c = 6) : causeLosesMemory c = false := by
  cases c with
  | shiftIndexRange | busError => exact absurd h (by decide)
  | tablesNotValid | depthIndexRange | geometry | addressWrap => rfl

/-- Settles O22, from the ways a command ends (Proofs/Endings.lean): only a fault can set FAULT. -/
theorem faultEffects : Obligations.FaultEffects := by
  intro i s t hs h ht
  have hend := execEnding_of_next h
  obtain ⟨f, hregs, hmem⟩ := hend.faultsWith hs ht
  have ⟨_, hcause, hinfo, hvalue, _⟩ := hregs
  rw [hcause, hinfo, hvalue]
  refine ⟨(causeCode_bounds _).1, (causeCode_bounds _).2, hregs, hend.rangesEffect.2,
    fun hearly => hmem (causeLosesMemory_of_early hearly), fun _ => hend.getContext_other, fun hset => ?_,
    fun htables => hend.tables htables⟩
  rcases hend.calib with hcalib | ⟨g, vlo, vhi, rfl, -⟩
  · exact hcalib
  · rw [isSetcfg_setcfgCommand] at hset
    cases hset

/-! ### the host's accesses and races -/

theorem toNat_ne_of_notMem {a : Word} {as : List Word} (h : a ∉ as) : ∀ b ∈ as, b.toNat ≠ a.toNat :=
  fun _ hb e => h (BitVec.eq_of_toNat_eq e ▸ hb)

theorem read_freeAt_other {as : List Word} {x : Nat} (h : ∀ a ∈ as, a.toNat ≠ x) (m : Memory) (nonce : Nat) :
    (freeAt m nonce as).read x = m.read x := by
  induction as generalizing m nonce with
  | nil => rfl
  | cons a as ih =>
    rw [List.forall_mem_cons] at h
    rw [freeAt, ih h.2, Memory.read_write_other h.1.symm]

/-- A byte of the list reads as one of the free values drawn for it. -/
theorem read_freeAt {m : Memory} (hm : m.wf = true) {as : List Word} {a : Word} (ha : a ∈ as) (nonce : Nat) :
    ∃ k, k < as.length ∧ (freeAt m nonce as).read a.toNat = Config.freeByte (nonce + k) := by
  induction as generalizing m nonce with
  | nil => cases ha
  | cons b as ih =>
    by_cases hlater : a ∈ as
    · obtain ⟨k, hk, hread⟩ := ih (Memory.wf_write hm b.isLt (Config.freeByte nonce)) hlater (nonce + 1)
      exact ⟨k + 1, Nat.succ_lt_succ hk, by rw [freeAt, hread, Nat.add_right_comm, Nat.add_assoc]⟩
    · obtain rfl : a = b := (List.mem_cons.1 ha).resolve_right hlater
      refine ⟨0, Nat.succ_pos _, ?_⟩
      rw [freeAt, read_freeAt_other (toNat_ne_of_notMem hlater), Memory.read_write_same hm, Nat.add_zero]

theorem read_settleRace_other {as : List Word} {x : Nat} (h : ∀ a ∈ as, a.toNat ≠ x) (before : Memory)
    (writes : List (Nat × Nat)) (m : Memory) (nonce : Nat) :
    (settleRace before writes m nonce as).read x = m.read x := by
  induction as generalizing m nonce with
  | nil => rfl
  | cons a as ih =>
    rw [List.forall_mem_cons] at h
    rw [settleRace, ih h.2, Memory.read_write_other h.1.symm]

/-- A byte of the list outside the command's ranges gets back what memory held before the command. -/
theorem read_settleRace {m : Memory} (hm : m.wf = true) {as : List Word} {a : Word} (ha : a ∈ as)
    {writes : List (Nat × Nat)} (hw : inRanges a.toNat writes = false) (before : Memory) (nonce : Nat) :
    (settleRace before writes m nonce as).read a.toNat = before.read a.toNat := by
  induction as generalizing m nonce with
  | nil => cases ha
  | cons b as ih =>
    by_cases hlater : a ∈ as
    · exact ih (Memory.wf_write hm b.isLt _) hlater (nonce + 1)
    · obtain rfl : a = b := (List.mem_cons.1 ha).resolve_right hlater
      rw [settleRace, read_settleRace_other (toNat_ne_of_notMem hlater), Memory.read_write_same hm, hw]
      rfl

theorem step_memRead {s : State} {es : List Event} {a : Word} (ha : s.params.admits a.toNat = true)
    (hev : s.events = .memRead a :: es) : step s = .next (hostMemRead a { s with events := es }) := by
  rw [step_cons hev, handleEvent, if_pos ha]

theorem step_memWrite {s : State} {es : List Event} {a : Word} {b : Byte} (ha : s.params.admits a.toNat = true)
    (hev : s.events = .memWrite a b :: es) : step s = .next (hostMemWrite a b { s with events := es }) := by
  rw [step_cons hev, handleEvent, if_pos ha]

theorem step_hostAddress_refused {s : State} {es : List Event} {a : Word} {b : Byte}
    (ha : s.params.admits a.toNat = false) (hev : s.events = .memRead a :: es ∨ s.events = .memWrite a b :: es) :
    step s = .fault .hostAddressNotAdmitted := by
  rcases hev with hev | hev <;> rw [step_cons hev, handleEvent, if_neg (ne_true_of_eq_false ha)]

theorem hostMemRead_idle {s : State} (h : s.running = none) (a : Word) :
    hostMemRead a s = returnData ((s.mem.read a.toNat).setWidth 32) s := by
  unfold hostMemRead
  rw [h]

theorem hostMemRead_raced {s : State} {d : Descriptor} {a : Word} (h : s.running = some d)
    (ha : inRanges a.toNat (runningWrites s d) = true) :
    hostMemRead a s = { s with readData := (Config.freeByte s.nonce).setWidth 32, nonce := s.nonce + 1 } := by
  unfold hostMemRead
  rw [h]
  exact if_pos ha

theorem hostMemWrite_idle {s : State} (h : s.running = none) (a : Word) (b : Byte) :
    hostMemWrite a b s = { s with mem := s.mem.write a.toNat b } := by
  simp [hostMemWrite, State.busy, h]

theorem hostMemWrite_busy {s : State} {d : Descriptor} (h : s.running = some d) (a : Word) (b : Byte) :
    hostMemWrite a b s = { s with mem := s.mem.write a.toNat b, raced := a :: s.raced } := by
  simp [hostMemWrite, State.busy, h]

/-- Settles O27: what each host access is at the boundary, and what the memory of a race reads before and after. -/
theorem hostMemoryAccessAndRaces : Obligations.HostMemoryAccessAndRaces := by
  refine ⟨⟨?_, ?_, ?_⟩, ?_, ?_, ?_, ?_⟩
  · intro s es a b hidle hwf ha hev
    refine ⟨s.mem.write a.toNat b, ?_, Memory.read_write_same hwf _ b, fun x hx => Memory.read_write_other hx _ b⟩
    rw [step_memWrite ha hev]
    exact congrArg _ (hostMemWrite_idle (s := { s with events := es }) hidle a b)
  · intro s es a hidle ha hev
    rw [step_memRead ha hev]
    exact congrArg _ (hostMemRead_idle (s := { s with events := es }) hidle a)
  · exact fun s es a b ha hev => step_hostAddress_refused ha hev
  · intro s d es a hrun ha hw hev
    rw [step_memRead ha hev]
    exact congrArg _ (hostMemRead_raced (s := { s with events := es }) hrun hw)
  · intro s d es a b hrun ha hev
    rw [step_memWrite ha hev]
    exact congrArg _ (hostMemWrite_busy (s := { s with events := es }) hrun a b)
  · exact fun s hwf => ⟨fun a ha => read_freeAt hwf ha s.nonce, fun x hx => read_freeAt_other hx s.mem s.nonce⟩
  · exact fun s t w hwf => ⟨fun a ha hw => read_settleRace hwf ha hw s.mem t.nonce,
      fun x hx => read_settleRace_other hx s.mem w t.mem t.nonce⟩

end Sys2Proof.Machine
end

