-- ==== Sys2Proof/Proofs/Copies.lean ====
section
/-! PROOFS. Proofs/Copies.lean: S2D_CONVERT, S2D_READ_TABLE and UNPACK12 when no range is refused: the value of their
loops (Laws/Loops.lean) put through their checks. -/

namespace Sys2Proof.Machine

theorem checkRanges_one {a n : Nat} (h : InSpace a n) : checkRanges [(a, n)] = .ok () :=
  checkRanges_of_inSpace (List.forall_mem_singleton.2 h)

theorem checkRanges_two {a n b m : Nat} (h : InSpace a n) (h' : InSpace b m) :
    checkRanges [(a, n), (b, m)] = .ok () :=
  checkRanges_of_inSpace (List.forall_mem_cons.2 ⟨h, List.forall_mem_singleton.2 h'⟩)

/-! ### S2D_CONVERT -/

theorem convertOverlaps_eq_false {src count dst : Word}
    (h : src = dst ∨ Apart src.toNat (2 * count.toNat) dst.toNat (2 * count.toNat)) :
    convertOverlaps src count dst = false := by
  unfold convertOverlaps
  rcases h with rfl | h
  · simp
  · rw [rangesOverlap_eq_false.2 h, Bool.and_false]

/-- S2D_CONVERT past its checks, with equal or disjoint ranges, is its loop. -/
theorem execS2dConvert_eq {s : State} {src count dst : Word} (hv : s.tablesValid = true)
    (hs : InSpace src.toNat (2 * count.toNat)) (hd : InSpace dst.toNat (2 * count.toNat))
    (ho : src = dst ∨ Apart src.toNat (2 * count.toNat) dst.toNat (2 * count.toNat)) :
    exec (.s2dConvert src count dst) s = .next (endCommand 0x05 (convertWrites count dst) s
      ((convertLoop s.params s.s2d s.tblNShift.toNat none count.toNat 0 src.toNat dst.toNat s.mem).map fun m =>
        okState { s with mem := m } 0x05 count 0 0 0)) := by
  simp only [exec, execS2dConvert, convertOverlaps_eq_false ho, checkRanges_two hs hd, hv, Bool.false_eq_true, if_false,
    if_true]
  cases convertLoop s.params s.s2d s.tblNShift.toNat none count.toNat 0 src.toNat dst.toNat s.mem <;> rfl

/-- Settles O37, from the value of the convert loop. -/
theorem convertLooksUpEachElement : Obligations.ConvertLooksUpEachElement := by
  intro s src count dst hwf hv hs hd ho hshift
  have hov : src.toNat = dst.toNat ∨ Apart src.toNat (2 * count.toNat) dst.toNat (2 * count.toNat) :=
    ho.imp_left (congrArg _)
  obtain ⟨m, hm, hval⟩ := convertLoop_value (s2d := s.s2d) (i := 0) hwf hs hd hov hshift
  refine ⟨m, ?_, hval, fun a ha => (convertLoop_effect hm).2 a ha⟩
  rw [execS2dConvert_eq hv hs.inSpace hd.inSpace ho, hm]
  rfl

/-! ### S2D_READ_TABLE -/

/-- S2D_READ_TABLE as a command, by the table it is asked for. -/
theorem exec_readTable (which : Bool) (dst cap : Word) (s : State) :
    exec (if which then .s2dRdtabD2s dst cap else .s2dRdtabS2d dst cap) s =
      .next (readTable (if which then s.d2s else s.s2d)
        (if which then s.tblNDepth.toNat else s.tblNShift.toNat) dst cap s) := by cases which <;> rfl

/-- S2D_READ_TABLE past its checks is one checked write. -/
theorem readTable_eq {table : List Half} {n : Nat} {dst cap : Word} {s : State} (hin : InSpace dst.toNat cap.toNat)
    (hv : s.tablesValid = true) (hcap : 2 * n ≤ cap.toNat) :
    readTable table n dst cap s = endCommand 0x06 (readTableWrites dst cap) s
      ((writeChecked s.params s.mem dst.toNat ((table.takeD n 0).flatMap halfBytes)).map fun m =>
        okState { s with mem := m } 0x06 (BitVec.ofNat 32 (2 * n)) 0 0 0) := by
  simp only [readTable, checkRanges_one hin, hv, if_true, if_neg (Nat.not_lt.2 hcap)]
  cases writeChecked s.params s.mem dst.toNat ((table.takeD n 0).flatMap halfBytes) <;> rfl

theorem readTable_overflow {table : List Half} {n : Nat} {dst cap : Word} {s : State}
    (hin : InSpace dst.toNat cap.toNat) (hv : s.tablesValid = true) (hcap : cap.toNat < 2 * n) :
    readTable table n dst cap s = statusState s 0x06 0x02 := by
  simp only [readTable, checkRanges_one hin, hv, if_true, if_pos hcap]
  rfl

theorem readTable_notValid {s : State} {dst cap : Word} (hin : InSpace dst.toNat cap.toNat)
    (hv : s.tablesValid = false) (table : List Half) (n : Nat) :
    readTable table n dst cap s = faultState s 0x06 1 0 0 := by
  simp only [readTable, checkRanges_one hin, hv, Bool.false_eq_true, if_false]
  rfl

/-- A stored list of u16 reads back entry by entry. -/
theorem halfAt_writeList_flatMap {m : Memory} (hm : m.wf = true) {a : Nat} {table : List Half} {k : Nat}
    (ha : a + (table.flatMap halfBytes).length ≤ 2 ^ 32) (hk : k < table.length) :
    halfAt (m.writeList a (table.flatMap halfBytes)) (a + 2 * k) = (table.getD k 0).toNat := by
  induction table generalizing m a k with
  | nil => cases hk
  | cons h table ih =>
    rw [List.flatMap_cons, List.length_append, length_halfBytes] at ha
    have hsplit : m.writeList a ((h :: table).flatMap halfBytes) =
        (m.writeList a (halfBytes h)).writeList (a + 2) (table.flatMap halfBytes) := rfl
    rw [hsplit]
    cases k with
    | zero =>
      have hlater (x : Nat) (hx : x < a + 2) := Memory.read_writeList_other (bs := table.flatMap halfBytes) (.inl hx)
        (m.writeList a (halfBytes h))
      rw [show a + 2 * 0 = a from rfl, halfAt, hlater a (by omega), hlater (a + 1) (by omega)]
      exact halfAt_writeList hm (by omega) h
    | succ k =>
      have hwf : (m.writeList a (halfBytes h)).wf = true := Memory.wf_writeList hm (by rw [length_halfBytes]; omega)
      rw [show a + 2 * (k + 1) = a + 2 + 2 * k by omega, List.getD_cons_succ]
      exact ih hwf (by omega) (Nat.lt_of_succ_lt_succ hk)

theorem getD_takeD (table : List Half) {n k : Nat} (hk : k < n) : (table.takeD n 0).getD k 0 = table.getD k 0 := by
  induction n generalizing table k with
  | zero => cases hk
  | succ n ih =>
    cases table with
    | nil =>
      cases k with
      | zero => rfl
      | succ k => exact ih [] (Nat.lt_of_succ_lt_succ hk)
    | cons h table =>
      cases k with
      | zero => rfl
      | succ k => exact ih table (Nat.lt_of_succ_lt_succ hk)

/-- Settles O39: past the checks it is one checked write of the padded table; before it, the two early ends. -/
theorem readTableCopiesOut : Obligations.ReadTableCopiesOut := by
  intro s dst cap which i table n hin
  have hexec : exec i s = .next (readTable table n dst cap s) := exec_readTable which dst cap s
  refine ⟨fun hv hcap hadm hwf => ?_, fun hv hcap => ?_, fun hv => ?_⟩
  · have hlen : ((table.takeD n 0).flatMap halfBytes).length = 2 * n := length_takeD_flatMap table n
    have hadm' : Admitted s.params dst.toNat ((table.takeD n 0).flatMap halfBytes).length := hlen ▸ hadm
    refine ⟨s.mem.writeList dst.toNat ((table.takeD n 0).flatMap halfBytes), ?_, fun k hk => ?_, fun a ha => ?_⟩
    · rw [hexec, readTable_eq hin hv hcap, writeChecked_of_admitted hadm']
      rfl
    · rw [halfAt_writeList_flatMap hwf (hlen ▸ hadm.end_le (by omega)) (by rwa [List.takeD_length]), getD_takeD _ hk]
    · exact Memory.read_writeList_other (hlen.symm ▸ ha) s.mem
  · rw [hexec, readTable_overflow hin hv hcap]
  · rw [hexec, readTable_notValid hin hv]

/-! ### UNPACK12 -/

/-- UNPACK12 past its checks is its loop, and the scrambling of an overlap. -/
theorem execUnpack12_eq {s : State} {src srclen dst dstcap : Word} (hs : InSpace src.toNat srclen.toNat)
    (hd : InSpace dst.toNat dstcap.toNat) (hr : OutputReady s (srclen.toNat / 24))
    (hcap : 32 * (srclen.toNat / 24) ≤ dstcap.toNat) :
    exec (.unpack12 src srclen dst dstcap) s = .next (endCommand 0x10 (unpackWrites dst dstcap) s
      ((unpackLoop s.params (packedOutput s.calib s.s2d) (8 * (srclen.toNat / 24)) src.toNat dst.toNat s.mem).map
        fun m => finish 0x10 .ok
          (scrambleIf (decide (0 < srclen.toNat / 24) &&
              rangesOverlap (src.toNat, srclen.toNat) (dst.toNat, dstcap.toNat))
            (dst.toNat, dstcap.toNat) { s with mem := m })
          (BitVec.ofNat 32 (24 * (srclen.toNat / 24))) (BitVec.ofNat 32 (32 * (srclen.toNat / 24)))
          (BitVec.ofNat 32 (srclen.toNat - 24 * (srclen.toNat / 24))))) := by
  simp only [exec, execUnpack12, checkRanges_two hs hd, outputReady_check hr, Bool.false_eq_true, if_false,
    if_neg (Nat.not_lt.2 hcap)]
  cases unpackLoop s.params (packedOutput s.calib s.s2d) (8 * (srclen.toNat / 24)) src.toNat dst.toNat s.mem <;> rfl

/-- The four bytes of a group are its two values, little-endian. -/
theorem groupUnpacked_of_bytes {s : State} {b0 b1 b2 : Byte} {m : Memory} {a : Nat}
    (h : ∀ k, k < 4 → m.read (a + k) = (groupOut (packedOutput s.calib s.s2d) b0 b1 b2).getD k 0) :
    GroupUnpacked s b0 b1 b2 m a := by
  have hvalue (x : Half) (c : Nat) (h0 : m.read c = (halfBytes x).getD 0 0)
      (h1 : m.read (c + 1) = (halfBytes x).getD 1 0) : halfAt m c = x.toNat := by
    rw [halfAt, h0, h1, ← leNat_halfBytes x]
    rfl
  rw [GroupUnpacked, ← toNat_firstShift, ← toNat_secondShift, ← toNat_packedOutput, ← toNat_packedOutput]
  exact ⟨hvalue _ a (h 0 (by omega)) (h 1 (by omega)), hvalue _ (a + 2) (h 2 (by omega)) (h 3 (by omega))⟩

/-- Settles O40, from the value of the unpack loop. -/
theorem unpack12WritesEveryGroup : Obligations.Unpack12WritesEveryGroup := by
  intro s src srclen dst dstcap nElem hwf hs hd hapart hsrc hdst hcap hready
  have hapart' : Apart src.toNat (3 * (8 * nElem)) dst.toNat (4 * (8 * nElem)) := by omega
  obtain ⟨m, hm, hval⟩ := unpackLoop_value (out := packedOutput s.calib s.s2d) (n := 8 * nElem) hwf
    (hsrc.sub le_rfl (by omega)) (hdst.sub le_rfl (by omega)) hapart'
  refine ⟨m, ?_, fun g hg => groupUnpacked_of_bytes fun k hk => hval g k hg hk,
    fun a ha => (unpackLoop_effect hm).2 a (by omega)⟩
  have hleft : srclen.toNat - 24 * nElem = srclen.toNat % 24 := by omega
  rw [execUnpack12_eq hs hd hready hcap, hm, hleft]
  simp only [Except.map, endCommand_ok, scrambleIf_apart hapart, finish_ok, nElem]

end Sys2Proof.Machine
end

