-- ==== Sys2Proof/Proofs/Solve.lean ====
section
/-! PROOFS. Proofs/Solve.lean: LU_SOLVE3 and PLANE_FIT. The engine's row-by-row solver is rule R313 by index, its sums
are those of rule R314, and the f64 it reads and stores are the little-endian ones of rule R311. -/

namespace Sys2Proof.Machine

/-! ### little-endian f64 -/

theorem leNat_bits64Bytes (v : Bits64) : leNat (bits64Bytes v) = v.toNat := by
  have := v.isLt
  simp only [bits64Bytes, leNat_cons, leNat_nil, BitVec.extractLsb'_toNat, Nat.shiftRight_eq_div_pow]
  omega

theorem toNat_bits64In (m : Memory) (a : Nat) : (bits64In m a).toNat = leNat (m.readList a 8) := by
  have hcat {n : Nat} (x : BitVec n) (b : Byte) : (x ++ b).toNat = b.toNat + 256 * x.toNat := by
    rw [BitVec.toNat_append, ← Nat.shiftLeft_add_eq_or_of_lt b.isLt, Nat.shiftLeft_eq]
    omega
  rw [bits64In]
  simp only [hcat, Memory.readList, leNat_cons, leNat_nil, Nat.add_assoc, Nat.reduceAdd]
  omega

/-- Element `i` of an array read from memory. -/
theorem bits64At_readList (m : Memory) (a : Nat) {n i : Nat} (h : 8 * i + 8 ≤ n) :
    bits64At (m.readList a n) i = bits64In m (a + 8 * i) := by
  have hsplit : ((m.readList a n).drop (8 * i)).take 8 = m.readList (a + 8 * i) 8 := by
    obtain ⟨r, rfl⟩ := Nat.exists_eq_add_of_le h
    rw [Nat.add_assoc, Memory.readList_add, List.drop_left' (Memory.length_readList ..), Memory.readList_add,
      List.take_left' (Memory.length_readList ..)]
  apply BitVec.eq_of_toNat_eq
  rw [bits64At, hsplit, ← toNat_bits64In, BitVec.toNat_ofNat, Nat.mod_eq_of_lt (bits64In m (a + 8 * i)).isLt]

theorem f64At_readList (m : Memory) (a : Nat) {n i : Nat} (h : 8 * i + 8 ≤ n) :
    f64At (m.readList a n) i = f64In m (a + 8 * i) := congrArg F64.ofBits (bits64At_readList m a h)

/-- An f64 whose bytes were stored reads back. -/
theorem bits64In_of_bytes {m : Memory} {a : Nat} {v : Bits64}
    (h : ∀ k, k < 8 → m.read (a + k) = (bits64Bytes v).getD k 0) : bits64In m a = v := by
  have hbytes : m.readList a 8 = bits64Bytes v := by
    refine List.ext_getElem (Memory.length_readList ..) fun k hk hk' => ?_
    rw [Memory.length_readList] at hk
    rw [Memory.getElem_readList _ _ _ _ hk, h k hk, List.getD_eq_getElem _ _ hk']
  exact BitVec.eq_of_toNat_eq (by rw [toNat_bits64In, hbytes, leNat_bits64Bytes])

/-! ### the solver by index (rule R313) -/

/-- The matrix of the working rows. -/
def Mat3.entries (m : Mat3) : Fin 3 → Fin 3 → F64 :=
  ![![m.r0.a0, m.r0.a1, m.r0.a2], ![m.r1.a0, m.r1.a1, m.r1.a2], ![m.r2.a0, m.r2.a1, m.r2.a2]]

/-- The right-hand side of the working rows. -/
def Mat3.rhs (m : Mat3) : Fin 3 → F64 := ![m.r0.b, m.r1.b, m.r2.b]

/-- A solution as a function of its index. -/
def Vec3.entries (x : Vec3) : Fin 3 → F64 := ![x.x0, x.x1, x.x2]

/-- The rows after the first is taken off the others. -/
def Mat3.clear0 (m : Mat3) : Mat3 := { m with r1 := eliminate0 m.r0 m.r1, r2 := eliminate0 m.r0 m.r2 }

/-- The rows after the second is taken off the third. -/
def Mat3.clear1 (m : Mat3) : Mat3 := { m with r2 := eliminate1 m.r1 m.r2 }

theorem solve3_eq (m : Mat3) : solve3 m =
    if (pivot0 m).r0.a0.isZero then none
    else if (pivot1 (pivot0 m).clear0).r1.a1.isZero then none
    else if (pivot1 (pivot0 m).clear0).clear1.r2.a2.isZero then none
    else some (backSubstitute (pivot1 (pivot0 m).clear0).clear1) := rfl

/-- The rows that exchanging the pivot row into column `k` gives, as functions of their index. -/
def IsPivoted (k : Fin 3) (m m' : Mat3) : Prop :=
  swapEntries k (pivotRow m.entries k) m.entries = m'.entries ∧ swapEntries k (pivotRow m.entries k) m.rhs = m'.rhs

theorem isPivoted_pivot0 (m : Mat3) : IsPivoted 0 m (pivot0 m) := by
  have hrow : pivotRow m.entries 0 =
      if absGreater m.r2.a0 (if absGreater m.r1.a0 m.r0.a0 then m.r1.a0 else m.r0.a0) then 2
      else if absGreater m.r1.a0 m.r0.a0 then 1 else 0 := by
    simp only [pivotRow, show indicesAfter 0 = [1, 2] from rfl, List.foldl_cons, List.foldl_nil, absGreater]
    by_cases hup : m.r0.a0.abs.lt m.r1.a0.abs = true
    · simp [Mat3.entries, hup]
    · simp [Mat3.entries, hup]
  have hrows : pivot0 m =
      if absGreater m.r2.a0 (if absGreater m.r1.a0 m.r0.a0 then m.r1.a0 else m.r0.a0) then
        { r0 := m.r2, r1 := m.r1, r2 := m.r0 }
      else if absGreater m.r1.a0 m.r0.a0 then { r0 := m.r1, r1 := m.r0, r2 := m.r2 } else m := rfl
  unfold IsPivoted
  rw [hrow, hrows]
  split_ifs
  all_goals exact ⟨funext fun i => by fin_cases i <;> rfl, funext fun i => by fin_cases i <;> rfl⟩

theorem isPivoted_pivot1 (m : Mat3) : IsPivoted 1 m (pivot1 m) := by
  have hrow : pivotRow m.entries 1 = if absGreater m.r2.a1 m.r1.a1 then 2 else 1 := rfl
  unfold IsPivoted pivot1
  rw [hrow]
  split_ifs
  all_goals exact ⟨funext fun i => by fin_cases i <;> rfl, funext fun i => by fin_cases i <;> rfl⟩

/-- In the last column no later row is left to exchange. -/
theorem isPivoted_last (m : Mat3) : IsPivoted 2 m m :=
  ⟨funext fun i => by fin_cases i <;> rfl, funext fun i => by fin_cases i <;> rfl⟩

/-- Once the pivot row is in place, the body of rule R313's first loop is its elimination on the exchanged rows. -/
theorem eliminateColumn_eq {k : Fin 3} {m m' : Mat3} (h : IsPivoted k m m') :
    eliminateColumn k m.entries m.rhs =
      if (m'.entries k k).isZero then none
      else some
        (fun i j => if k < i then if k < j then (m'.entries i j).sub
              (((m'.entries i k).div (m'.entries k k)).mul (m'.entries k j))
            else if j = k then F64.zero else m'.entries i j else m'.entries i j,
          fun i => if k < i then (m'.rhs i).sub (((m'.entries i k).div (m'.entries k k)).mul (m'.rhs k))
            else m'.rhs i) := by
  have hkk : m.entries (pivotRow m.entries k) k = m'.entries k k := by
    rw [← h.1, swapEntries, if_pos rfl]
  unfold eliminateColumn
  simp only [h.1, h.2, hkk]

theorem eliminateColumn_zero (m : Mat3) : eliminateColumn 0 m.entries m.rhs =
    if (pivot0 m).r0.a0.isZero then none else some ((pivot0 m).clear0.entries, (pivot0 m).clear0.rhs) := by
  rw [eliminateColumn_eq (isPivoted_pivot0 m)]
  refine congrArg _ (congrArg some (Prod.ext ?_ ?_))
  · funext i j
    fin_cases i <;> fin_cases j <;> rfl
  · funext i
    fin_cases i <;> rfl

theorem eliminateColumn_one (m : Mat3) : eliminateColumn 1 m.entries m.rhs =
    if (pivot1 m).r1.a1.isZero then none else some ((pivot1 m).clear1.entries, (pivot1 m).clear1.rhs) := by
  rw [eliminateColumn_eq (isPivoted_pivot1 m)]
  refine congrArg _ (congrArg some (Prod.ext ?_ ?_))
  · funext i j
    fin_cases i <;> fin_cases j <;> rfl
  · funext i
    fin_cases i <;> rfl

theorem eliminateColumn_two (m : Mat3) : eliminateColumn 2 m.entries m.rhs =
    if m.r2.a2.isZero then none else some (m.entries, m.rhs) := by
  rw [eliminateColumn_eq (isPivoted_last m)]
  refine congrArg _ (congrArg some (Prod.ext ?_ ?_))
  · funext i j
    fin_cases i <;> fin_cases j <;> rfl
  · funext i
    fin_cases i <;> rfl

theorem foldl_substituteRow (m : Mat3) :
    ([2, 1, 0] : List (Fin 3)).foldl (substituteRow m.entries m.rhs) (fun _ => F64.zero) =
      (backSubstitute m).entries := by
  funext i
  fin_cases i <;> rfl

/-- The solver of the engine is rule R313 by index. -/
theorem luSolution_eq (m : Mat3) : luSolution m.entries m.rhs = (solve3 m).map Vec3.entries := by
  rw [luSolution, eliminateColumn_zero, solve3_eq]
  by_cases h0 : (pivot0 m).r0.a0.isZero
  · rw [if_pos h0, if_pos h0]
    rfl
  rw [if_neg h0, if_neg h0, Option.bind_some, eliminateColumn_one]
  by_cases h1 : (pivot1 (pivot0 m).clear0).r1.a1.isZero
  · rw [if_pos h1, if_pos h1]
    rfl
  rw [if_neg h1, if_neg h1, Option.bind_some, eliminateColumn_two]
  by_cases h2 : (pivot1 (pivot0 m).clear0).clear1.r2.a2.isZero
  · rw [if_pos h2, if_pos h2]
    rfl
  rw [if_neg h2, if_neg h2, Option.map_some, Option.map_some, foldl_substituteRow]

/-! ### storing a solution -/

/-- Element `i` of a stored solution. -/
theorem bits64In_vecBytes {m : Memory} (hm : m.wf = true) {a : Nat} (ha : a + 24 ≤ 2 ^ 32) (nonce : Nat) (x : Vec3)
    (i : Fin 3) : bits64In (m.writeList a (vecBytes nonce x)) (a + 8 * i.val) =
      (x.entries i).toBits (Config.freeNaN (nonce + i.val)) := by
  refine bits64In_of_bytes fun k hk => ?_
  have hlen := length_vecBytes nonce x
  rw [Nat.add_assoc, Memory.read_writeList hm (by omega) (by omega), ← List.getD_eq_getElem _ 0]
  have hx : vecBytes nonce x = bits64Bytes ((x.entries 0).toBits (Config.freeNaN (nonce + 0))) ++
      bits64Bytes ((x.entries 1).toBits (Config.freeNaN (nonce + 1))) ++
      bits64Bytes ((x.entries 2).toBits (Config.freeNaN (nonce + 2))) := rfl
  rw [hx]
  fin_cases i <;> interval_cases k <;> rfl

theorem solveAndStore_none {m : Mat3} (h : luSolution m.entries m.rhs = none) (opc : BitVec 8) (dst : Nat) (r0 : Word)
    (s : State) : solveAndStore opc m dst r0 s = .ok (statusState s opc 0x06) := by
  rw [luSolution_eq, Option.map_eq_none_iff] at h
  unfold solveAndStore
  rw [h]
  rfl

/-- With a solution and its 24 bytes in ADMITTED, the command ends OK with the solution stored. -/
theorem solveAndStore_some {m : Mat3} {v : Fin 3 → F64} (h : luSolution m.entries m.rhs = some v) {s : State}
    (hwf : s.mem.wf = true) {dst : Nat} (hd : Admitted s.params dst 24) (opc : BitVec 8) (r0 : Word) :
    ∃ mem, solveAndStore opc m dst r0 s = .ok (okState { s with mem := mem, nonce := s.nonce + 3 } opc r0 0 0 0) ∧
      (∀ i : Fin 3, bits64In mem (dst + 8 * i.val) = (v i).toBits (Config.freeNaN (s.nonce + i.val))) ∧
      ∀ p, (p < dst ∨ dst + 24 ≤ p) → mem.read p = s.mem.read p := by
  rw [luSolution_eq, Option.map_eq_some_iff] at h
  obtain ⟨x, hx, rfl⟩ := h
  have hlen := length_vecBytes s.nonce x
  refine ⟨s.mem.writeList dst (vecBytes s.nonce x), ?_, bits64In_vecBytes hwf (hd.end_le (by omega)) s.nonce x,
    fun p hp => Memory.read_writeList_other (by rwa [hlen]) s.mem⟩
  unfold solveAndStore
  rw [hx]
  simp only [writeChecked_of_admitted (hlen.symm ▸ hd)]
  rfl

/-! ### LU_SOLVE3 -/

theorem checkRanges_three {a n b m c k : Nat} (ha : InSpace a n) (hb : InSpace b m) (hc : InSpace c k) :
    checkRanges [(a, n), (b, m), (c, k)] = .ok () :=
  checkRanges_of_inSpace (List.forall_mem_cons.2 ⟨ha, List.forall_mem_cons.2 ⟨hb, List.forall_mem_singleton.2 hc⟩⟩)

/-- The working matrix and vector are the ones that stand in memory. -/
theorem matOfBytes_entries (m : Memory) (a b : Nat) :
    (matOfBytes (m.readList a 72) (m.readList b 24)).entries = matrixIn m a ∧
      (matOfBytes (m.readList a 72) (m.readList b 24)).rhs = vectorIn m b := by
  have hentry (i j : Fin 3) : (matOfBytes (m.readList a 72) (m.readList b 24)).entries i j =
      f64At (m.readList a 72) (3 * i.val + j.val) := by fin_cases i <;> fin_cases j <;> rfl
  have hrhs (i : Fin 3) : (matOfBytes (m.readList a 72) (m.readList b 24)).rhs i = f64At (m.readList b 24) i.val := by
    fin_cases i <;> rfl
  exact ⟨funext fun i => funext fun j => (hentry i j).trans (f64At_readList m a (by omega)),
    funext fun i => (hrhs i).trans (f64At_readList m b (by omega))⟩

/-- LU_SOLVE3 with its ranges checked and its operands read. -/
theorem execLu3_eq {s : State} {a b x : Word} (ha : Admitted s.params a.toNat 72) (hb : Admitted s.params b.toNat 24)
    (hx : InSpace x.toNat 24) :
    exec (.lu3 a b x) s = .next (endCommand 0x40 (vecWrites x) s (solveAndStore 0x40
      (matOfBytes (s.mem.readList a.toNat 72) (s.mem.readList b.toNat 24)) x.toNat 0 s)) := by
  simp only [exec, execLu3, checkRanges_three ha.inSpace hb.inSpace hx, readChecked_of_admitted ha,
    readChecked_of_admitted hb]

/-- Settles O55: the solver of the engine by index, on the matrix and vector that stand in memory. -/
theorem luSolve3Completes : Obligations.LuSolve3Completes := by
  intro s a b x ha hb hx
  obtain ⟨hmat, hvec⟩ := matOfBytes_entries s.mem a.toNat b.toNat
  rw [← hmat, ← hvec, execLu3_eq ha hb hx.inSpace]
  refine ⟨fun v hwf hv => ?_, fun hnone => by rw [solveAndStore_none hnone]; rfl⟩
  obtain ⟨m, hm, hread, hframe⟩ := solveAndStore_some hv hwf hx 0x40 0
  exact ⟨m, by rw [hm]; rfl, hread, hframe⟩

/-! ### PLANE_FIT -/

theorem sumOf_succ (n : Nat) (term : Nat → F64) : sumOf (n + 1) term = (sumOf n term).add (term n) := by
  rw [sumOf, List.range_succ, List.foldl_append]
  rfl

/-- The eight sums of rule R314 over the `n` points at `pts`. -/
def sumsOf (m : Memory) (pts n : Nat) : Sums :=
  let x (i : Nat) : F64 := f64In m (pts + 24 * i)
  let y (i : Nat) : F64 := f64In m (pts + 24 * i + 8)
  let z (i : Nat) : F64 := f64In m (pts + 24 * i + 16)
  { sxx := sumOf n fun i => (x i).mul (x i), sxy := sumOf n fun i => (x i).mul (y i),
    syy := sumOf n fun i => (y i).mul (y i), sx := sumOf n x, sy := sumOf n y,
    sxz := sumOf n fun i => (x i).mul (z i), syz := sumOf n fun i => (y i).mul (z i), sz := sumOf n z }

theorem sumsOf_succ (m : Memory) (pts n : Nat) : sumsOf m pts (n + 1) =
    addPoint (sumsOf m pts n) (f64In m (pts + 24 * n)) (f64In m (pts + 24 * n + 8)) (f64In m (pts + 24 * n + 16)) := by
  simp only [sumsOf, sumOf_succ, addPoint]

/-- The loop of rule R314 by its last point. -/
theorem sumPoints_succ_last {p : Params} {m : Memory} {n pts : Nat} {t u : Sums}
    (hn : sumPoints p m n pts t = .ok u) (ha : Admitted p (pts + 24 * n) 24) :
    sumPoints p m (n + 1) pts t = .ok (addPoint u (f64In m (pts + 24 * n)) (f64In m (pts + 24 * n + 8))
      (f64In m (pts + 24 * n + 16))) := by
  induction n generalizing pts t with
  | zero =>
    cases hn
    rw [show pts + 24 * 0 = pts from rfl] at ha ⊢
    rw [sumPoints, readChecked_of_admitted ha]
    simp only [f64At_readList m pts (n := 24) (i := 0) (by omega), f64At_readList m pts (n := 24) (i := 1) (by omega),
      f64At_readList m pts (n := 24) (i := 2) (by omega)]
    rfl
  | succ n ih =>
    rw [sumPoints] at hn ⊢
    split at hn
    · cases hn
    · rw [show pts + 24 * (n + 1) = pts + 24 + 24 * n by omega] at ha ⊢
      exact ih hn ha

theorem sumPoints_eq {p : Params} {m : Memory} {n pts : Nat} (h : Admitted p pts (24 * n)) :
    sumPoints p m n pts Sums.zero = .ok (sumsOf m pts n) := by
  induction n with
  | zero => rfl
  | succ n ih =>
    rw [sumsOf_succ]
    exact sumPoints_succ_last (ih (h.sub le_rfl (by omega))) (h.sub (by omega) (by omega))

theorem normalEquations_entries (m : Memory) (pts n : Nat) :
    (normalEquations (sumsOf m pts n) n).entries = planeMatrix m pts n ∧
      (normalEquations (sumsOf m pts n) n).rhs = planeVector m pts n := ⟨rfl, rfl⟩

/-- No points give the zero matrix (rule R315). -/
theorem luSolution_noPoints (m : Memory) (pts : Nat) :
    luSolution (planeMatrix m pts 0) (planeVector m pts 0) = none := by
  obtain ⟨hmat, hvec⟩ := normalEquations_entries m pts 0
  have hsums : sumsOf m pts 0 = Sums.zero := rfl
  rw [← hmat, ← hvec, luSolution_eq, hsums]
  rfl

/-- PLANE_FIT with its ranges checked and its points summed. -/
theorem execPlanefit_eq {s : State} {pts n out : Word} (hp : Admitted s.params pts.toNat (24 * n.toNat))
    (ho : InSpace out.toNat 24) :
    exec (.planefit pts n out) s = .next (endCommand 0x41 (vecWrites out) s (solveAndStore 0x41
      (normalEquations (sumsOf s.mem pts.toNat n.toNat) n.toNat) out.toNat n s)) := by
  simp only [exec, execPlanefit, checkRanges_two hp.inSpace ho, sumPoints_eq hp]

/-- Settles O56: the solver by index on the normal equations of the sums; with no points their matrix is zero. -/
theorem planeFitCompletes : Obligations.PlaneFitCompletes := by
  intro s pts n out hp ho solution
  obtain ⟨hmat, hvec⟩ := normalEquations_entries s.mem pts.toNat n.toNat
  have hexec := execPlanefit_eq hp ho.inSpace
  have singular (hnone : solution = none) : exec (.planefit pts n out) s = .next (statusState s 0x41 0x06) := by
    rw [hexec, solveAndStore_none (by rwa [hmat, hvec])]
    rfl
  refine ⟨fun v hwf hv => ?_, singular, fun hn => singular ?_⟩
  · obtain ⟨m, hm, hread, hframe⟩ := solveAndStore_some (by rwa [hmat, hvec]) hwf ho 0x41 n
    exact ⟨m, by rw [hexec, hm]; rfl, hread, hframe⟩
  · subst hn
    exact luSolution_noPoints s.mem pts.toNat

end Sys2Proof.Machine
end

