-- ==== Sys2Proof/Proofs/AddressWrap.lean ====
section
/-! PROOFS. Proofs/AddressWrap.lean: the range check of 20_memory.md rule R84. A range that wraps ends the command
before any memory access, and no other fault has the cause ADDRESS_WRAP. -/

namespace Sys2Proof.Machine

/-! ### a named range that wraps -/

theorem faultsWith_endCommand {s u : State} (hu : u.mem = s.mem) {body : Except Raise State} {f : Raise}
    (h : body = .error f) (opc : BitVec 8) (rs : List (Nat × Nat)) :
    FaultsWith s (endCommand opc rs u body) opc f := by
  subst h
  exact faultsWith_raiseFault hu opc rs f

theorem faultsWith_endFrameCommand {s : State} {body : Except Raise State} {f : Raise} (h : body = .error f)
    (opc : BitVec 8) (c : BitVec 4) (rs : List (Nat × Nat)) : FaultsWith s (endFrameCommand opc c rs s body) opc f := by
  subst h
  exact faultsWith_raiseFault (s := s) rfl opc rs f

section
variable {s : State} {f : Raise}

theorem uncomp_rangeFault {src srclen dst dstcap : Word}
    (h : checkRanges [(src.toNat, srclen.toNat), (dst.toNat, dstcap.toNat)] = .error f) (opc : BitVec 8)
    (map : List (Fin 3)) (last : Bool) (line : Word) :
    FaultsWith s (uncomp opc map last src srclen dst dstcap line s) opc f :=
  faultsWith_endCommand rfl (by rw [h]) ..

theorem mirror_rangeFault {buf len : Word} (h : checkRanges [(buf.toNat, len.toNat)] = .error f) (layout : Layout)
    (width : Word) : FaultsWith s (mirror layout buf len width s) 0x20 f :=
  faultsWith_endCommand rfl (by rw [h]) ..

theorem readTable_rangeFault {dst cap : Word} (h : checkRanges [(dst.toNat, cap.toNat)] = .error f)
    (table : List Half) (n : Nat) : FaultsWith s (readTable table n dst cap s) 0x06 f :=
  faultsWith_endCommand rfl (by rw [h]) ..

theorem frameSof_rangeFault {wbase wcap : Word} (h : checkRanges [(wbase.toNat, wcap.toNat)] = .error f)
    (k : FrameKind) (c : BitVec 4) (line : Word) : FaultsWith s (frameSof k c wbase wcap line s) 0x30 f :=
  faultsWith_endFrameCommand (by rw [h]) ..

end

/-- The fault of the range check is the command's, and memory is kept as the cause says. -/
theorem exec_rangeFault {i : Instr} {s : State} {f : Raise} (hready : contextReady s i)
    (h : checkRanges (namedRanges i) = .error f) : ∃ t, exec i s = .next t ∧ FaultsWith s t i.opcode f := by
  cases i with
  | nop | s2dInit | s2dUpdate | s2dFree | setcfgZeroPlaneDistance vlo vhi | setcfgZeroPlanePixelSize vlo vhi
  | setcfgEmitterDistance vlo vhi | setcfgMaxShift vlo | setcfgMaxDepth vlo | setcfgConstShift vlo
  | setcfgPixelSizeFactor vlo | setcfgParamCoeff vlo | setcfgShiftScale vlo | setcfgMinCutoff vlo
  | setcfgMaxCutoff vlo | setcfgOutputFormat vlo | mirrorCode fmt buf len width | frameEof c => cases h
  | s2dConvert src count dst =>
    rw [namedRanges] at h
    refine ⟨_, rfl, faultsWith_endCommand ?_ (by rw [h]) ..⟩
    split_ifs <;> rfl
  | s2dRdtabS2d dst cap | s2dRdtabD2s dst cap => exact ⟨_, rfl, readTable_rangeFault h ..⟩
  | unpack12 src srclen dst dstcap =>
    rw [namedRanges] at h
    exact ⟨_, rfl, faultsWith_endCommand rfl (by rw [h]) ..⟩
  | uncompPs src srclen dst dstcap line | uncompPsLast src srclen dst dstcap line
  | uncompNew src srclen dst dstcap line | uncompNewLast src srclen dst dstcap line =>
    exact ⟨_, rfl, uncomp_rangeFault h ..⟩
  | mirrorGray8 buf len width | mirrorGray16 buf len width | mirrorDepth1mm buf len width
  | mirrorDepth100um buf len width | mirrorShift92 buf len width | mirrorRgb888 buf len width
  | mirrorYuv422 buf len width | mirrorYuyv buf len width => exact ⟨_, rfl, mirror_rangeFault h ..⟩
  | frameSofPacked12 c wbase wcap line | frameSofPs c wbase wcap line | frameSofNew c wbase wcap line =>
    exact ⟨_, rfl, frameSof_rangeFault h ..⟩
  | frameChunk c src offset len bufsize =>
    rw [namedRanges] at h
    have hready' : (getContext s c).state = .accumulating := hready
    refine ⟨_, rfl, ?_⟩
    rw [if_neg (not_not.2 hready')]
    exact faultsWith_endFrameCommand (by rw [h]) ..
  | lu3 a b x | planefit pts n out =>
    rw [namedRanges] at h
    exact ⟨_, rfl, faultsWith_endCommand rfl (by rw [h]) ..⟩

/-! ### no other fault is ADDRESS_WRAP -/

/-- The state after a command that started without a fault does not report ADDRESS_WRAP. -/
structure NotWrapped (t : State) : Prop where
  cause : t.fault = true → t.faultCause ≠ 6

theorem NotWrapped.of_fault_eq {t : State} (h : t.fault = false) : NotWrapped t :=
  ⟨fun ht => absurd (h.symm.trans ht) nofun⟩

/-- What the body of a command past its range check gives: a state without a fault, or a fault of another cause. -/
def NoWrap : Except Raise State → Prop
  | .ok t => t.fault = false
  | .error f => f.cause ≠ .addressWrap

theorem causeCode_ne_six {c : Cause} (h : c ≠ .addressWrap) : causeCode c ≠ 6 := by
  cases c with
  | addressWrap => exact absurd rfl h
  | tablesNotValid | shiftIndexRange | depthIndexRange | geometry | busError => decide

theorem notWrapped_raiseFault {f : Raise} (h : f.cause ≠ .addressWrap) (opc : BitVec 8) (rs : List (Nat × Nat))
    (s : State) : NotWrapped (raiseFault opc rs f s) := ⟨fun _ => causeCode_ne_six h⟩

theorem NoWrap.endCommand {body : Except Raise State} (h : NoWrap body) (opc : BitVec 8) (rs : List (Nat × Nat))
    (s : State) : NotWrapped (endCommand opc rs s body) := by
  cases body with
  | ok t => exact .of_fault_eq h
  | error f => exact notWrapped_raiseFault h opc rs s

theorem NoWrap.endFrameCommand {body : Except Raise State} (h : NoWrap body) (opc : BitVec 8) (c : BitVec 4)
    (rs : List (Nat × Nat)) (s : State) : NotWrapped (endFrameCommand opc c rs s body) := by
  cases body with
  | ok t => exact .of_fault_eq h
  | error f => exact ⟨fun _ => causeCode_ne_six h⟩

theorem noWrap_error {f : Raise} {c : Cause} (h : f.cause = c) (hc : c ≠ .addressWrap) :
    NoWrap (.error f) := fun hf => hc (h.symm.trans hf)

theorem noWrap_busError {f : Raise} (h : f.cause = .busError) : NoWrap (.error f) := noWrap_error h nofun

theorem fault_scrambleIf (overlap : Bool) (r : Nat × Nat) (s : State) : (scrambleIf overlap r s).fault = s.fault := by
  cases overlap <;> rfl

theorem solveAndStore_noWrap {s : State} (hs : s.fault = false) (opc : BitVec 8) (m : Mat3) (dst : Nat) (r0 : Word) :
    NoWrap (solveAndStore opc m dst r0 s) := by
  unfold solveAndStore
  split
  · exact hs
  · split
    case h_1 f hf => exact noWrap_busError (writeChecked_eq_error hf).1
    case h_2 => exact hs

theorem sumPoints_error {p : Params} {m : Memory} {n pts : Nat} {t : Sums} {f : Raise}
    (h : sumPoints p m n pts t = .error f) : f.cause = .busError := by
  induction n generalizing pts t with
  | zero => cases h
  | succ n ih =>
    rw [sumPoints] at h
    split at h
    case h_1 g hg =>
      cases h
      exact (readChecked_eq_error hg).1
    case h_2 => exact ih h

theorem bufAppend_error {p : Params} {m : Memory} {x : Context} {bs : List Byte} {f : Raise}
    (h : bufAppend p m x bs = .error f) : f.cause = .busError := by
  unfold bufAppend at h
  split at h
  case h_1 g hg =>
    cases h
    exact (writeChecked_eq_error hg).1
  case h_2 => cases h

/-- A chunk faults for a missing table or a refused byte of the write buffer. -/
theorem chunkStep_error {s : State} {x : Context} {buf : List Byte} {isLast : Bool} {f : Raise}
    (h : chunkStep s x buf isLast = .error f) : f.cause = .tablesNotValid ∨ f.cause = .busError := by
  unfold chunkStep at h
  split_ifs at h
  · unfold chunkUncomp at h
    split_ifs at h
    split at h
    case h_1 g hg =>
      obtain ⟨e, he⟩ := decodeLoop_buf buf (kindMap x.kind) (2 * buf.length) (wbufFree x) x.lineBytes.toNat
        (2 * buf.length) DecodeState.start
      rw [decodeStream, he] at hg
      cases hg
    case h_2 | h_3 => cases h
    case h_4 rd bytes hd =>
      split at h
      case h_1 g hg =>
        cases h
        exact .inr (bufAppend_error hg)
      case h_2 => cases h
  · unfold chunkPacked12 at h
    simp only at h
    split_ifs at h
    · cases h
      exact .inl rfl
    · split at h
      case h_1 g hg =>
        cases h
        exact .inr (bufAppend_error hg)
      case h_2 => cases h

section
variable {s : State} (hs : s.fault = false)
include hs

theorem rebuild_notWrapped (opc : BitVec 8) (ns nd : Nat) (r0 r1 : Word) :
    NotWrapped (rebuild opc ns nd r0 r1 s) := by
  rcases rebuild_ends opc ns nd r0 r1 s with ⟨f, hf, h⟩ | ⟨tables, -, h⟩ <;> rw [h]
  · exact notWrapped_raiseFault (by rw [buildTables_error hf]; decide) ..
  · exact .of_fault_eq hs

theorem setcfg_notWrapped (f : CalibField) (vlo vhi : Word) : NotWrapped (setcfg f vlo vhi s) := by
  have commit {ns nd : Nat} {r0 r1 : Word} := rebuild_notWrapped
    (s := { s with calib := commitField f vlo vhi s.calib, cfgEpoch := s.cfgEpoch + 1 }) hs 0x04 ns nd r0 r1
  rcases setcfg_ends f vlo vhi s with ⟨-, h⟩ | ⟨-, ⟨-, h⟩ | ⟨-, -, h⟩ | ⟨-, -, h⟩⟩ <;> rw [h]
  · exact .of_fault_eq hs
  · exact .of_fault_eq hs
  · exact commit
  · exact commit

theorem execS2dConvert_notWrapped {src count dst : Word}
    (hr : ∀ r ∈ namedRanges (.s2dConvert src count dst), InSpace r.1 r.2) :
    ∃ t, exec (.s2dConvert src count dst) s = .next t ∧ NotWrapped t := by
  rw [namedRanges] at hr
  refine ⟨_, rfl, NoWrap.endCommand ?_ ..⟩
  rw [checkRanges_of_inSpace hr]
  simp only
  by_cases hv : s.tablesValid = true
  · rw [if_pos hv]
    split
    case h_1 f hf =>
      rcases convertLoop_error hf with hc | hc
      · exact noWrap_busError hc
      · exact noWrap_error hc nofun
    case h_2 =>
      refine Eq.trans ?_ hs
      show State.fault (if _ then _ else _) = s.fault
      split_ifs <;> rfl
  · rw [if_neg hv]
    exact noWrap_error rfl nofun

theorem readTable_notWrapped {dst cap : Word} (hr : ∀ r ∈ [(dst.toNat, cap.toNat)], InSpace r.1 r.2)
    (table : List Half) (n : Nat) : NotWrapped (readTable table n dst cap s) := by
  refine NoWrap.endCommand ?_ ..
  rw [checkRanges_of_inSpace hr]
  simp only
  split_ifs
  · exact hs
  · split
    case h_1 f hf => exact noWrap_busError (writeChecked_eq_error hf).1
    case h_2 => exact hs
  · exact noWrap_error rfl nofun

theorem execUnpack12_notWrapped {src srclen dst dstcap : Word}
    (hr : ∀ r ∈ namedRanges (.unpack12 src srclen dst dstcap), InSpace r.1 r.2) :
    ∃ t, exec (.unpack12 src srclen dst dstcap) s = .next t ∧ NotWrapped t := by
  rw [namedRanges] at hr
  refine ⟨_, rfl, NoWrap.endCommand ?_ ..⟩
  rw [checkRanges_of_inSpace hr]
  simp only
  split_ifs
  · exact noWrap_error rfl nofun
  · exact hs
  · split
    case h_1 f hf => exact noWrap_busError (unpackLoop_error hf)
    case h_2 => exact (fault_scrambleIf ..).trans hs

theorem uncomp_notWrapped {src srclen dst dstcap : Word}
    (hr : ∀ r ∈ [(src.toNat, srclen.toNat), (dst.toNat, dstcap.toNat)], InSpace r.1 r.2) (opc : BitVec 8)
    (map : List (Fin 3)) (last : Bool) (line : Word) :
    NotWrapped (uncomp opc map last src srclen dst dstcap line s) := by
  refine NoWrap.endCommand ?_ ..
  rw [checkRanges_of_inSpace hr]
  simp only
  split_ifs
  · exact noWrap_error rfl nofun
  · split
    case h_1 f hf => exact noWrap_busError (decodeStream_error hf)
    case h_2 | h_3 => exact hs
    case h_4 =>
      split
      case h_1 f hf => exact noWrap_busError (writeChecked_eq_error hf).1
      case h_2 => exact (fault_scrambleIf ..).trans hs

theorem mirror_notWrapped {buf len : Word} (hr : ∀ r ∈ [(buf.toNat, len.toNat)], InSpace r.1 r.2)
    (layout : Layout) (width : Word) : NotWrapped (mirror layout buf len width s) := by
  refine NoWrap.endCommand ?_ ..
  rw [checkRanges_of_inSpace hr]
  simp only
  split_ifs
  · exact hs
  · exact noWrap_error rfl nofun
  · split
    case h_1 f hf => exact noWrap_busError (mirrorLoop_error hf)
    case h_2 => exact hs

theorem frameSof_notWrapped {wbase wcap : Word} (hr : ∀ r ∈ [(wbase.toNat, wcap.toNat)], InSpace r.1 r.2)
    (k : FrameKind) (c : BitVec 4) (line : Word) : NotWrapped (frameSof k c wbase wcap line s) := by
  refine NoWrap.endFrameCommand ?_ ..
  rw [checkRanges_of_inSpace hr]
  simp only
  split_ifs
  · exact noWrap_error rfl nofun
  · exact hs

theorem execFrameChunk_notWrapped {c : BitVec 4} {src offset len bufsize : Word}
    (hr : ∀ r ∈ [(src.toNat, len.toNat)], InSpace r.1 r.2) :
    ∃ t, exec (.frameChunk c src offset len bufsize) s = .next t ∧ NotWrapped t := by
  refine ⟨_, rfl, ?_⟩
  split_ifs
  · exact .of_fault_eq hs
  · refine NoWrap.endFrameCommand ?_ ..
    rw [checkRanges_of_inSpace hr]
    simp only
    split
    case h_1 f hf => exact noWrap_busError (readChecked_eq_error hf).1
    case h_2 =>
      split
      case h_1 f hf =>
        rcases chunkStep_error hf with hc | hc
        · exact noWrap_error hc nofun
        · exact noWrap_busError hc
      case h_2 => exact (fault_scrambleIf ..).trans hs

theorem execLu3_notWrapped {a b x : Word} (hr : ∀ r ∈ namedRanges (.lu3 a b x), InSpace r.1 r.2) :
    ∃ t, exec (.lu3 a b x) s = .next t ∧ NotWrapped t := by
  rw [namedRanges] at hr
  refine ⟨_, rfl, NoWrap.endCommand ?_ ..⟩
  rw [checkRanges_of_inSpace hr]
  simp only
  split
  case h_1 f hf => exact noWrap_busError (readChecked_eq_error hf).1
  case h_2 =>
    split
    case h_1 f hf => exact noWrap_busError (readChecked_eq_error hf).1
    case h_2 => exact solveAndStore_noWrap hs ..

theorem execPlanefit_notWrapped {pts n out : Word} (hr : ∀ r ∈ namedRanges (.planefit pts n out), InSpace r.1 r.2) :
    ∃ t, exec (.planefit pts n out) s = .next t ∧ NotWrapped t := by
  rw [namedRanges] at hr
  refine ⟨_, rfl, NoWrap.endCommand ?_ ..⟩
  rw [checkRanges_of_inSpace hr]
  simp only
  split
  case h_1 f hf => exact noWrap_busError (sumPoints_error hf)
  case h_2 => exact solveAndStore_noWrap hs ..

/-- With every named range inside the address space no command faults ADDRESS_WRAP. -/
theorem exec_notWrapped {i : Instr} (hr : ∀ r ∈ namedRanges i, InSpace r.1 r.2) :
    ∃ t, exec i s = .next t ∧ NotWrapped t := by
  cases i with
  | nop | s2dFree | mirrorCode fmt buf len width => exact ⟨_, rfl, .of_fault_eq hs⟩
  | s2dInit => exact ⟨_, rfl, rebuild_notWrapped hs ..⟩
  | s2dUpdate =>
    refine ⟨_, rfl, ?_⟩
    split_ifs
    · exact rebuild_notWrapped hs ..
    · exact notWrapped_raiseFault (by decide) ..
  | setcfgZeroPlaneDistance vlo vhi | setcfgZeroPlanePixelSize vlo vhi | setcfgEmitterDistance vlo vhi
  | setcfgMaxShift vlo | setcfgMaxDepth vlo | setcfgConstShift vlo | setcfgPixelSizeFactor vlo | setcfgParamCoeff vlo
  | setcfgShiftScale vlo | setcfgMinCutoff vlo | setcfgMaxCutoff vlo | setcfgOutputFormat vlo =>
    exact ⟨_, rfl, setcfg_notWrapped hs ..⟩
  | s2dConvert src count dst => exact execS2dConvert_notWrapped hs hr
  | s2dRdtabS2d dst cap | s2dRdtabD2s dst cap =>
    exact ⟨_, rfl, readTable_notWrapped hs hr ..⟩
  | unpack12 src srclen dst dstcap => exact execUnpack12_notWrapped hs hr
  | uncompPs src srclen dst dstcap line | uncompPsLast src srclen dst dstcap line
  | uncompNew src srclen dst dstcap line | uncompNewLast src srclen dst dstcap line =>
    exact ⟨_, rfl, uncomp_notWrapped hs hr ..⟩
  | mirrorGray8 buf len width | mirrorGray16 buf len width | mirrorDepth1mm buf len width
  | mirrorDepth100um buf len width | mirrorShift92 buf len width | mirrorRgb888 buf len width
  | mirrorYuv422 buf len width | mirrorYuyv buf len width =>
    exact ⟨_, rfl, mirror_notWrapped hs hr ..⟩
  | frameSofPacked12 c wbase wcap line | frameSofPs c wbase wcap line | frameSofNew c wbase wcap line =>
    exact ⟨_, rfl, frameSof_notWrapped hs hr ..⟩
  | frameChunk c src offset len bufsize => exact execFrameChunk_notWrapped hs hr
  | frameEof c =>
    refine ⟨_, rfl, ?_⟩
    split_ifs <;> exact .of_fault_eq hs
  | lu3 a b x => exact execLu3_notWrapped hs hr
  | planefit pts n out => exact execPlanefit_notWrapped hs hr

end

/-- Settles O59: the range check reports the first range that wraps, and every fault after it has another cause. -/
theorem addressWrapFaults : Obligations.AddressWrapFaults := by
  refine ⟨fun i s before after base length hready hnamed hbefore hwrap => ?_, fun i s t hs hr h => ?_⟩
  · have hcheck := checkRanges_of_wrap (qs := after) hbefore hwrap
    rw [← hnamed] at hcheck
    obtain ⟨t, ht, hregs, hmem⟩ := exec_rangeFault hready hcheck
    exact ⟨t, ht, hregs, hmem rfl⟩
  · obtain ⟨u, hu, hnot⟩ := exec_notWrapped hs hr
    cases hu.symm.trans h
    exact hnot.cause

end Sys2Proof.Machine
end

