-- ==== Sys2Proof/Proofs/BusError.lean ====
section
/-! PROOFS. Proofs/BusError.lean: the first refused byte of a command's accesses (20_memory.md rules R85, R92). Each
loop that reaches it stops there, so the command faults BUS_ERROR at its address. -/

namespace Sys2Proof.Machine

/-! ### the first refused byte of an access -/

theorem firstRefused_add (p : Params) (a n k : Nat) :
    firstRefused p a (n + k) = (firstRefused p a n).or (firstRefused p (a + n) k) := by
  induction n generalizing a with
  | zero => rw [Nat.zero_add]; rfl
  | succ n ih =>
    rw [Nat.succ_add_eq_add_succ, Nat.add_succ, firstRefused, firstRefused]
    split_ifs
    · rw [ih, show a + 1 + n = a + (n + 1) by omega]
    · rfl

theorem readChecked_of_firstRefused {p : Params} {a n b : Nat} (h : firstRefused p a n = some b) (m : Memory) :
    readChecked p m a n = .error (busError b) := by
  unfold readChecked
  rw [h]

theorem writeChecked_of_firstRefused {p : Params} {a b : Nat} {bs : List Byte}
    (h : firstRefused p a bs.length = some b) (m : Memory) : writeChecked p m a bs = .error (busError b) := by
  unfold writeChecked
  rw [h]

theorem firstRefused_one {p : Params} {a : Nat} (h : p.admits a = false) : firstRefused p a 1 = some a := by
  rw [firstRefused, if_neg (ne_true_of_eq_false h)]

/-! ### the loops -/

/-- The convert loop stops at the first refused byte of its element `e`, read or written. -/
theorem convertLoop_refused {p : Params} {s2d : List Half} {ns n i src dst e b : Nat} {m : Memory} (he : e < n)
    (hs : Admitted p src (2 * e)) (hd : Admitted p dst (2 * e)) (ho : src = dst ∨ Apart src (2 * n) dst (2 * n))
    (hv : ∀ d, d < e → halfAt m (src + 2 * d) < ns)
    (h : firstRefused p (src + 2 * e) 2 = some b ∨
      (Admitted p (src + 2 * e) 2 ∧ halfAt m (src + 2 * e) < ns ∧ firstRefused p (dst + 2 * e) 2 = some b)) :
    convertLoop p s2d ns none n i src dst m = .error (busError b) := by
  induction e generalizing n i src dst m with
  | zero =>
    obtain ⟨n, rfl⟩ := Nat.exists_eq_add_one_of_ne_zero (Nat.ne_of_gt he)
    rw [show src + 2 * 0 = src from rfl, show dst + 2 * 0 = dst from rfl] at h
    rw [convertLoop]
    rcases h with h | ⟨hread, hlt, h⟩
    · rw [readChecked_of_firstRefused h]
    · rw [readChecked_of_admitted hread]
      have hle : ¬ ns ≤ leNat (m.readList src 2) := Nat.not_le.2 hlt
      simp only [if_neg hle, convertOut]
      rw [writeChecked_of_firstRefused (by rwa [length_halfBytes])]
  | succ e ih =>
    obtain ⟨n, rfl⟩ := Nat.exists_eq_add_one_of_ne_zero (Nat.ne_of_gt (Nat.zero_lt_of_lt he))
    have hlt : halfAt m src < ns := hv 0 (by omega)
    have hle : ¬ ns ≤ leNat (m.readList src 2) := Nat.not_le.2 hlt
    have hwrite : Admitted p dst (halfBytes (s2d.getD (halfAt m src) 0)).length :=
      hd.sub le_rfl (by rw [length_halfBytes]; omega)
    have heff := MemEffect.writeList (m := m) hwrite
    rw [length_halfBytes] at heff
    have hlater (d : Nat) (hd' : d ≤ e) :
        halfAt (m.writeList dst (halfBytes (s2d.getD (halfAt m src) 0))) (src + 2 + 2 * d) =
          halfAt m (src + 2 * (d + 1)) := by
      rw [heff.halfAt (by rcases ho with rfl | ho <;> omega), show src + 2 * (d + 1) = src + 2 + 2 * d by omega]
    rw [convertLoop, readChecked_of_admitted (hs.sub le_rfl (by omega))]
    simp only [if_neg hle, convertOut]
    rw [leNat_readList_two, writeChecked_of_admitted hwrite]
    have ho' : src + 2 = dst + 2 ∨ Apart (src + 2) (2 * n) (dst + 2) (2 * n) := by
      rcases ho with rfl | ho
      · exact .inl rfl
      · exact .inr (by omega)
    refine ih (by omega) (hs.sub (by omega) (by omega)) (hd.sub (by omega) (by omega)) ho'
      (fun d hd' => by rw [hlater d (by omega)]; exact hv (d + 1) (by omega)) ?_
    rw [hlater e le_rfl, show src + 2 + 2 * e = src + 2 * (e + 1) by omega,
      show dst + 2 + 2 * e = dst + 2 * (e + 1) by omega]
    exact h

/-- The unpack loop stops at the first refused byte of its group `g`, read or written. -/
theorem unpackLoop_refused {p : Params} {out : BitVec 12 → Half} {n src dst g b : Nat} {m : Memory} (hg : g < n)
    (hs : Admitted p src (3 * g)) (hd : Admitted p dst (4 * g))
    (h : firstRefused p (src + 3 * g) 3 = some b ∨
      (Admitted p (src + 3 * g) 3 ∧ firstRefused p (dst + 4 * g) 4 = some b)) :
    unpackLoop p out n src dst m = .error (busError b) := by
  induction g generalizing n src dst m with
  | zero =>
    obtain ⟨n, rfl⟩ := Nat.exists_eq_add_one_of_ne_zero (Nat.ne_of_gt hg)
    rw [show src + 3 * 0 = src from rfl, show dst + 4 * 0 = dst from rfl] at h
    rw [unpackLoop]
    rcases h with h | ⟨hread, h⟩
    · rw [readChecked_of_firstRefused h]
    · rw [readChecked_of_admitted hread]
      simp only [readList_three, unpackBytes_group]
      rw [writeChecked_of_firstRefused (by rwa [length_groupOut])]
  | succ g ih =>
    obtain ⟨n, rfl⟩ := Nat.exists_eq_add_one_of_ne_zero (Nat.ne_of_gt (Nat.zero_lt_of_lt hg))
    rw [unpackLoop, readChecked_of_admitted (hs.sub le_rfl (by omega))]
    simp only [readList_three, unpackBytes_group]
    rw [writeChecked_of_admitted (hd.sub le_rfl (by rw [length_groupOut]; omega))]
    refine ih (by omega) (hs.sub (by omega) (by omega)) (hd.sub (by omega) (by omega)) ?_
    rwa [show src + 3 + 3 * g = src + 3 * (g + 1) by omega, show dst + 4 + 4 * g = dst + 4 * (g + 1) by omega]

/-- The mirror loop stops at the first refused byte of its lines. -/
theorem mirrorLoop_refused {p : Params} {layout : Layout} {width lineBytes n base b : Nat} {m : Memory}
    (h : firstRefused p base (n * lineBytes) = some b) :
    mirrorLoop p layout width lineBytes n base m = .error (busError b) := by
  induction n generalizing base m with
  | zero =>
    rw [Nat.zero_mul] at h
    cases h
  | succ n ih =>
    rw [Nat.succ_mul, Nat.add_comm, firstRefused_add] at h
    rw [mirrorLoop]
    cases hline : firstRefused p base lineBytes with
    | some c =>
      rw [hline] at h
      cases h
      rw [readChecked_of_firstRefused hline]
    | none =>
      have hadm := firstRefused_eq_none.1 hline
      rw [hline] at h
      rw [readChecked_of_admitted hadm]
      simp only
      rw [writeChecked_of_admitted (by simpa using hadm)]
      exact ih h

/-- The sum loop stops at the first refused byte of its points. -/
theorem sumPoints_refused {p : Params} {m : Memory} {n pts b : Nat} {t : Sums}
    (h : firstRefused p pts (24 * n) = some b) : sumPoints p m n pts t = .error (busError b) := by
  induction n generalizing pts t with
  | zero => cases h
  | succ n ih =>
    rw [Nat.mul_succ, Nat.add_comm, firstRefused_add] at h
    rw [sumPoints]
    cases hpoint : firstRefused p pts 24 with
    | some c =>
      rw [hpoint] at h
      cases h
      rw [readChecked_of_firstRefused hpoint]
    | none =>
      rw [hpoint] at h
      rw [readChecked_of_admitted (firstRefused_eq_none.1 hpoint)]
      exact ih h

/-! ### the Uncomp decode -/

theorem memNibble_admitted {p : Params} {src k j : Nat} (h : Admitted p src k) (hj : j < 2 * k) (m : Memory) :
    memNibble p m src j = bufNibble (m.readList src k) j := by
  have hbyte : Admitted p (src + j / 2) 1 := h.sub (by omega) (by omega)
  have hget : (m.readList src k).getD (j / 2) 0 = m.read (src + j / 2) := by
    rw [List.getD_eq_getElem _ _ (by rw [Memory.length_readList]; omega), Memory.getElem_readList _ _ _ _ (by omega)]
  unfold memNibble bufNibble
  rw [readChecked_of_admitted hbyte, hget]
  rfl

/-- A sample moves on to its next nibble, or from there to the next byte. -/
theorem acceptSample_k (map : List (Fin 3)) (line : Nat) (v : Byte) (k : Nat) (st : DecodeState) :
    k ≤ (acceptSample map line v k st).k ∧ (acceptSample map line v k st).k ≤ k + k % 2 := by
  unfold acceptSample
  split_ifs
  · exact ⟨Nat.le_add_right .., le_rfl⟩
  · exact ⟨le_rfl, Nat.le_add_right ..⟩

section
variable {p : Params} {m : Memory} {src k n : Nat} {map : List (Fin 3)} (hadm : Admitted p src k)
  (href : p.admits (src + k) = false) (hkn : k < n)
include href

theorem memNibble_refused : memNibble p m src (2 * k) = .error (busError (src + k)) := by
  unfold memNibble
  rw [Nat.mul_div_cancel_left k (by omega), readChecked_of_firstRefused (firstRefused_one href)]

include hadm hkn

/-- A unit that starts before the refused byte is the one the bytes before it give, or reads on into that byte; then
the bytes before it are cut off inside a literal. -/
theorem decodeUnit_refused {st : DecodeState} (hk : st.k < 2 * k) :
    (decodeUnit (memNibble p m src) map (2 * n) st = .error (busError (src + k))) ∨
      (decodeUnit (memNibble p m src) map (2 * n) st = decodeUnit (bufNibble (m.readList src k)) map (2 * k) st ∧
        decodeUnit (bufNibble (m.readList src k)) map (2 * k) st ≠ .ok .cut) := by
  unfold decodeUnit
  rw [memNibble_admitted hadm hk]
  simp only [bufNibble]
  generalize nibbleOf st.k _ = u
  by_cases hfiller : u = 0xD
  · rw [if_pos hfiller, if_pos hfiller]
    exact .inr ⟨rfl, nofun⟩
  rw [if_neg hfiller, if_neg hfiller]
  by_cases hdelta : u ≤ 0xC
  · rw [if_pos hdelta, if_pos hdelta]
    exact .inr ⟨rfl, nofun⟩
  rw [if_neg hdelta, if_neg hdelta, if_neg (by omega : ¬ 2 * n ≤ st.k + 2)]
  by_cases hhi : st.k + 1 = 2 * k
  · rw [hhi, memNibble_refused href]
    exact .inl rfl
  rw [memNibble_admitted hadm (by omega : st.k + 1 < 2 * k)]
  by_cases hlo : st.k + 2 = 2 * k
  · rw [hlo, memNibble_refused href]
    exact .inl rfl
  rw [memNibble_admitted hadm (by omega : st.k + 2 < 2 * k), if_neg (by omega : ¬ 2 * k ≤ st.k + 2)]
  exact .inr ⟨rfl, nofun⟩

omit hadm in
theorem decodeLoop_at_refused {cap line turns : Nat} {st : DecodeState} (hk : st.k = 2 * k) :
    decodeLoop (memNibble p m src) map (2 * n) cap line (turns + 1) st = .error (busError (src + k)) := by
  rw [decodeLoop, if_pos (by omega), decodeUnit, hk, memNibble_refused href]

/-- A decode that gets past the bytes before the refused one without an output overflow stops at that byte. -/
theorem decodeLoop_refused {cap line : Nat} (turns : Nat) {turns' : Nat} {st : DecodeState} (hk : st.k ≤ 2 * k)
    (hturns : 2 * k ≤ st.k + turns) (hturns' : turns < turns')
    (hov : decodeLoop (bufNibble (m.readList src k)) map (2 * k) cap line turns st ≠ .ok .overflow) :
    decodeLoop (memNibble p m src) map (2 * n) cap line turns' st = .error (busError (src + k)) := by
  obtain ⟨turns', rfl⟩ := Nat.exists_eq_add_one_of_ne_zero (Nat.ne_of_gt (Nat.zero_lt_of_lt hturns'))
  induction turns generalizing turns' st with
  | zero => exact decodeLoop_at_refused href hkn (by omega)
  | succ turns ih =>
    by_cases hend : st.k = 2 * k
    · exact decodeLoop_at_refused href hkn hend
    obtain ⟨turns', rfl⟩ := Nat.exists_eq_add_one_of_ne_zero (Nat.ne_of_gt (Nat.lt_of_succ_lt_succ hturns').pos)
    have hlt : st.k < 2 * k := by omega
    rw [decodeLoop, if_pos hlt] at hov
    rw [decodeLoop, if_pos (by omega)]
    obtain ⟨hfiller, hsample⟩ := decodeUnit_next (nib := bufNibble (m.readList src k)) (map := map) hlt
    rcases decodeUnit_refused (m := m) (map := map) hadm href hkn hlt with hunit | ⟨hunit, hcut⟩
    · rw [hunit]
    · rw [hunit]
      obtain ⟨u, hu⟩ := decodeUnit_buf (m.readList src k) map (2 * k) st
      rw [hu] at hov hcut ⊢
      cases u with
      | cut => exact absurd rfl hcut
      | filler k' =>
        have hk' := hfiller k' hu
        exact ih (st := { st with k := k' }) (by simp only; omega) (by simp only; omega) hov turns' (by omega)
      | sample v k' =>
        obtain ⟨hk', hk''⟩ := hsample v k' hu
        obtain ⟨hle, hle'⟩ := acceptSample_k map line v k' st
        simp only at hov ⊢
        split_ifs at hov ⊢
        · exact absurd rfl hov
        · exact ih (by omega) (by omega) hov turns' (by omega)

theorem decodeStream_refused {cap line : Nat}
    (hov : decodeStream (bufNibble (m.readList src k)) map k cap line false ≠ .ok .outputOverflow) (last : Bool) :
    decodeStream (memNibble p m src) map n cap line last = .error (busError (src + k)) := by
  have hloop : decodeLoop (bufNibble (m.readList src k)) map (2 * k) cap line (2 * k) DecodeState.start ≠
      .ok .overflow := fun h => hov (by rw [decodeStream, h]; rfl)
  rw [decodeStream, decodeLoop_refused hadm href hkn (2 * k) (Nat.zero_le _) (Nat.le_add_left _ _) (by omega) hloop]

end

/-! ### the commands -/

/-- The command ends with BUS_ERROR at address `b`. -/
def FaultsAt (s : State) (i : Instr) (b : Nat) : Prop :=
  ∃ t, exec i s = .next t ∧ Faulted t i.opcode 5 (BitVec.ofNat 32 b) 0

theorem faultsAt_raiseFault {s u : State} {i : Instr} {b : Nat} {rs : List (Nat × Nat)}
    (h : exec i s = .next (raiseFault i.opcode rs (busError b) u)) : FaultsAt s i b :=
  ⟨_, h, faulted_raiseFault i.opcode rs (busError b) u⟩

theorem kindMap_uncomp {k : FrameKind} (hk : k ≠ .packed12) : kindMap k = uncompMap (decide (k = .uncompNew)) := by
  cases k with
  | packed12 => exact absurd rfl hk
  | uncompPs | uncompNew => rfl

section
variable {s : State} {base n b : Nat} (h : firstRefused s.params base n = some b)
include h

theorem execS2dConvert_refused {src count dst : Word}
    (hr : ∀ r ∈ namedRanges (.s2dConvert src count dst), InSpace r.1 r.2)
    (hreach : accessReached s (.s2dConvert src count dst) base n) : FaultsAt s (.s2dConvert src count dst) b := by
  obtain ⟨hv, ho, e, he, hsrc, hdst, hshift, rfl, hbase⟩ := hreach
  obtain ⟨hs, hd, -⟩ := List.forall_mem_cons.1 hr |>.imp_right List.forall_mem_cons.1
  have hloop := convertLoop_refused (s2d := s.s2d) (i := 0) (b := b) he hsrc hdst (ho.imp_left (congrArg _)) hshift (by
    rcases hbase with rfl | ⟨rfl, hread, hlt⟩
    · exact .inl h
    · exact .inr ⟨hread, hlt, h⟩)
  exact faultsAt_raiseFault (by rw [execS2dConvert_eq hv hs hd ho, hloop]; rfl)

theorem readTable_refused {table : List Half} {size : Nat} {dst cap : Word}
    (hr : ∀ r ∈ [(dst.toNat, cap.toNat)], InSpace r.1 r.2) (hv : s.tablesValid = true) (hbase : base = dst.toNat)
    (hn : n = 2 * size) (hcap : n ≤ cap.toNat) :
    readTable table size dst cap s = raiseFault 0x06 (readTableWrites dst cap) (busError b) s := by
  subst hbase hn
  have hin : InSpace dst.toNat cap.toNat := hr (dst.toNat, cap.toNat) (List.mem_singleton_self _)
  rw [readTable_eq hin hv hcap, writeChecked_of_firstRefused (by rwa [length_takeD_flatMap])]
  rfl

theorem execUnpack12_refused {src srclen dst dstcap : Word}
    (hr : ∀ r ∈ namedRanges (.unpack12 src srclen dst dstcap), InSpace r.1 r.2)
    (hreach : accessReached s (.unpack12 src srclen dst dstcap) base n) :
    FaultsAt s (.unpack12 src srclen dst dstcap) b := by
  obtain ⟨hready, hcap, g, hg, hsrc, hdst, hbase⟩ := hreach
  obtain ⟨hs, hd, -⟩ := List.forall_mem_cons.1 hr |>.imp_right List.forall_mem_cons.1
  have hloop := unpackLoop_refused (m := s.mem) (out := packedOutput s.calib s.s2d) (b := b) hg hsrc hdst (by
    rcases hbase with ⟨rfl, rfl⟩ | ⟨rfl, rfl, hread⟩
    · exact .inl h
    · exact .inr ⟨hread, h⟩)
  exact faultsAt_raiseFault (by rw [execUnpack12_eq hs hd hready hcap, hloop]; rfl)

theorem uncomp_refused {isNew last : Bool} {src srclen dst dstcap line : Word}
    (hr : ∀ r ∈ [(src.toNat, srclen.toNat), (dst.toNat, dstcap.toNat)], InSpace r.1 r.2)
    (hreach : uncompAccess s isNew last src srclen dst dstcap line base n) (opc : BitVec 8) :
    uncomp opc (uncompMap isNew) last src srclen dst dstcap line s =
      raiseFault opc (uncompWrites dst dstcap) (busError b) s := by
  obtain ⟨hline, ⟨k, hk, rfl, rfl, hadm, hov⟩ | ⟨rd, bytes, hadm, hdone, rfl, rfl⟩⟩ := hreach
  · obtain ⟨j, hj, rfl, href, -⟩ := firstRefused_eq_some.1 h
    obtain rfl := Nat.lt_one_iff.1 hj
    unfold uncomp
    rw [checkRanges_of_inSpace hr]
    simp only [if_neg hline]
    rw [decodeStream_refused hadm href hk hov]
    rfl
  · unfold uncomp
    rw [checkRanges_of_inSpace hr]
    simp only [if_neg hline]
    rw [decodeStream_mem hadm, hdone]
    simp only
    rw [writeChecked_of_firstRefused h]
    rfl

theorem mirror_refused {layout : Layout} {buf len width : Word} (hr : ∀ r ∈ [(buf.toNat, len.toNat)], InSpace r.1 r.2)
    (hreach : mirrorAccess s (layoutBpp layout) (if layoutPairs layout then 2 else 1) buf len width base n) :
    mirror layout buf len width s = raiseFault 0x20 (mirrorWrites buf len) (busError b) s := by
  obtain ⟨hwidth, hmax, hlines, hgroup, rfl, rfl⟩ := hreach
  have hgeom : badGeometry layout len.toNat width.toNat = false := by
    have hzero : width.toNat ≠ 0 := by omega
    rw [badGeometry, Bool.or_eq_false_iff, Bool.or_eq_false_iff]
    refine ⟨⟨decide_eq_false hzero, decide_eq_false (not_not.2 hlines)⟩, ?_⟩
    cases hpairs : layoutPairs layout with
    | false => rfl
    | true =>
      rw [hpairs] at hgroup
      exact decide_eq_false (not_not.2 hgroup)
  have hloop := mirrorLoop_refused (layout := layout) (width := width.toNat) (m := s.mem)
    (h := by rwa [Nat.div_mul_cancel (Nat.dvd_of_mod_eq_zero hlines)])
  unfold mirror
  rw [checkRanges_of_inSpace hr]
  simp only [if_neg (Nat.not_lt.2 hmax), hgeom, Bool.false_eq_true, if_false]
  rw [hloop]
  rfl

/-! ### FRAME_CHUNK -/

theorem bufAppend_refused {x : Context} {bs : List Byte} (hbase : base = x.wbufBase.toNat + x.wbufSize.toNat)
    (hn : n = bs.length) : bufAppend s.params s.mem x bs = .error (busError b) := by
  subst hbase hn
  unfold bufAppend
  rw [writeChecked_of_firstRefused h]

theorem chunkPacked12_refused {x : Context} {buf : List Byte} (hready : OutputReady s (buf.length / 24))
    (hbase : base = x.wbufBase.toNat + x.wbufSize.toNat) (hn : n = 32 * (buf.length / 24))
    (hfit : x.wbufSize.toNat + n ≤ x.wbufCap.toNat) : chunkPacked12 s x buf = .error (busError b) := by
  have hlen : (unpackBytes (packedOutput s.calib s.s2d) (buf.take (24 * (buf.length / 24)))).length = n := by
    rw [length_unpackBytes _ (8 * (buf.length / 24)) _ (by rw [List.length_take]; omega), hn]
    omega
  have hfree : ¬ wbufFree x < 32 * (buf.length / 24) := by
    unfold wbufFree
    omega
  unfold chunkPacked12
  simp only [outputReady_check hready, Bool.false_eq_true, if_false, if_neg hfree]
  rw [bufAppend_refused h hbase hlen.symm]

theorem chunkUncomp_refused {x : Context} {buf out : List Byte} {isLast : Bool} {rd : Nat} (hk : x.kind ≠ .packed12)
    (hdone : decodeStream (bufNibble buf) (uncompMap (decide (x.kind = .uncompNew))) buf.length
      (x.wbufCap.toNat - x.wbufSize.toNat) x.lineBytes.toNat isLast = .ok (.done rd out))
    (hbase : base = x.wbufBase.toNat + x.wbufSize.toNat) (hn : n = out.length) :
    chunkUncomp s x buf isLast = .error (busError b) := by
  have hempty : buf.length ≠ 0 := by
    intro h0
    have hout : out = [] := by
      rw [h0] at hdone
      cases isLast <;> cases hdone <;> rfl
    rw [hn, hout] at h
    cases h
  unfold chunkUncomp
  rw [if_neg hempty, kindMap_uncomp hk, wbufFree, hdone]
  simp only
  rw [bufAppend_refused h hbase hn]

theorem execFrameChunk_refused {c : BitVec 4} {src offset len bufsize : Word}
    (hst : (getContext s c).state = .accumulating) (hr : ∀ r ∈ [(src.toNat, len.toNat)], InSpace r.1 r.2)
    (hreach : accessReached s (.frameChunk c src offset len bufsize) base n) :
    FaultsAt s (.frameChunk c src offset len bufsize) b := by
  refine ⟨_, rfl, ?_⟩
  rw [if_neg (not_not.2 hst), checkRanges_of_inSpace hr]
  simp only
  rcases hreach with ⟨rfl, rfl⟩ | ⟨hadm, hbase, hchunk⟩
  · rw [readChecked_of_firstRefused h]
    exact faulted_raiseFault 0x31 (chunkWrites s c) (busError b) s
  · have hstep : chunkStep s (getContext s c) ((getContext s c).cont ++ s.mem.readList src.toNat len.toNat)
        (isFinalChunk offset len bufsize) = .error (busError b) := by
      unfold chunkStep
      rcases hchunk with ⟨hk, hready, hn, hfit⟩ | ⟨hk, rd, out, hdone, hn⟩
      · rw [hk]
        exact chunkPacked12_refused h hready hbase hn hfit
      · have huncomp : isUncompKind (getContext s c).kind = true := by
          cases hkind : (getContext s c).kind with
          | packed12 => exact absurd hkind hk
          | uncompPs | uncompNew => rfl
        rw [if_pos huncomp]
        exact chunkUncomp_refused h hk hdone hbase hn
    rw [readChecked_of_admitted hadm]
    simp only
    rw [hstep]
    exact faulted_raiseFault 0x31 (chunkWrites s c) (busError b) s

/-! ### the calibration math -/

theorem solveAndStore_refused {m : Mat3} (hsol : luSolution m.entries m.rhs ≠ none) (hn : n = 24) (opc : BitVec 8)
    (r0 : Word) : solveAndStore opc m base r0 s = .error (busError b) := by
  rw [luSolution_eq, ne_eq, Option.map_eq_none_iff, ← ne_eq, Option.ne_none_iff_exists'] at hsol
  obtain ⟨x, hx⟩ := hsol
  unfold solveAndStore
  rw [hx]
  simp only
  rw [writeChecked_of_firstRefused (by rwa [length_vecBytes, ← hn])]

theorem execLu3_refused {a b' x : Word} (hr : ∀ r ∈ namedRanges (.lu3 a b' x), InSpace r.1 r.2)
    (hreach : accessReached s (.lu3 a b' x) base n) : FaultsAt s (.lu3 a b' x) b := by
  rw [namedRanges] at hr
  rcases hreach with ⟨rfl, rfl⟩ | ⟨ha, rfl, rfl⟩ | ⟨ha, hb, hsol, rfl, rfl⟩
  · refine faultsAt_raiseFault (u := s) (rs := vecWrites x) ?_
    simp only [exec, execLu3, checkRanges_of_inSpace hr, readChecked_of_firstRefused h]
    rfl
  · refine faultsAt_raiseFault (u := s) (rs := vecWrites x) ?_
    simp only [exec, execLu3, checkRanges_of_inSpace hr, readChecked_of_admitted ha, readChecked_of_firstRefused h]
    rfl
  · obtain ⟨hmat, hvec⟩ := matOfBytes_entries s.mem a.toNat b'.toNat
    rw [← hmat, ← hvec] at hsol
    have hx : InSpace x.toNat 24 := hr (x.toNat, 24) (by simp)
    exact faultsAt_raiseFault (by rw [execLu3_eq ha hb hx, solveAndStore_refused h hsol rfl]; rfl)

theorem execPlanefit_refused {pts cnt out : Word} (hr : ∀ r ∈ namedRanges (.planefit pts cnt out), InSpace r.1 r.2)
    (hreach : accessReached s (.planefit pts cnt out) base n) : FaultsAt s (.planefit pts cnt out) b := by
  rw [namedRanges] at hr
  rcases hreach with ⟨rfl, rfl⟩ | ⟨hp, hsol, rfl, rfl⟩
  · refine faultsAt_raiseFault (u := s) (rs := vecWrites out) ?_
    simp only [exec, execPlanefit, checkRanges_of_inSpace hr, sumPoints_refused h]
    rfl
  · obtain ⟨hmat, hvec⟩ := normalEquations_entries s.mem pts.toNat cnt.toNat
    rw [← hmat, ← hvec] at hsol
    have ho : InSpace out.toNat 24 := hr (out.toNat, 24) (by simp)
    exact faultsAt_raiseFault (by rw [execPlanefit_eq hp ho, solveAndStore_refused h hsol rfl]; rfl)

/-- The first refused byte of an access a command gets to is where it faults. -/
theorem exec_refused {i : Instr} (hr : ∀ r ∈ namedRanges i, InSpace r.1 r.2) (hready : contextReady s i)
    (hreach : accessReached s i base n) : FaultsAt s i b := by
  cases i with
  | nop | s2dInit | s2dUpdate | s2dFree | setcfgZeroPlaneDistance | setcfgZeroPlanePixelSize | setcfgEmitterDistance
  | setcfgMaxShift | setcfgMaxDepth | setcfgConstShift | setcfgPixelSizeFactor | setcfgParamCoeff | setcfgShiftScale
  | setcfgMinCutoff | setcfgMaxCutoff | setcfgOutputFormat | mirrorCode | frameSofPacked12 | frameSofPs | frameSofNew
  | frameEof => exact False.elim hreach
  | s2dConvert src count dst => exact execS2dConvert_refused h hr hreach
  | s2dRdtabS2d dst cap | s2dRdtabD2s dst cap =>
    obtain ⟨hv, hbase, hn, hcap⟩ := hreach
    exact faultsAt_raiseFault (congrArg _ (readTable_refused h hr hv hbase hn hcap))
  | unpack12 src srclen dst dstcap => exact execUnpack12_refused h hr hreach
  | uncompPs src srclen dst dstcap line | uncompPsLast src srclen dst dstcap line
  | uncompNew src srclen dst dstcap line | uncompNewLast src srclen dst dstcap line =>
    exact faultsAt_raiseFault (congrArg _ (uncomp_refused h hr hreach _))
  | mirrorGray8 buf len width =>
    exact faultsAt_raiseFault (congrArg _ (mirror_refused (layout := .bytes1) h hr hreach))
  | mirrorGray16 buf len width | mirrorDepth1mm buf len width | mirrorDepth100um buf len width
  | mirrorShift92 buf len width =>
    exact faultsAt_raiseFault (congrArg _ (mirror_refused (layout := .bytes2) h hr hreach))
  | mirrorRgb888 buf len width =>
    exact faultsAt_raiseFault (congrArg _ (mirror_refused (layout := .bytes3) h hr hreach))
  | mirrorYuv422 buf len width =>
    exact faultsAt_raiseFault (congrArg _ (mirror_refused (layout := .yuv422) h hr hreach))
  | mirrorYuyv buf len width =>
    exact faultsAt_raiseFault (congrArg _ (mirror_refused (layout := .yuyv) h hr hreach))
  | frameChunk c src offset len bufsize => exact execFrameChunk_refused h hready hr hreach
  | lu3 a b' x => exact execLu3_refused h hr hreach
  | planefit pts cnt out => exact execPlanefit_refused h hr hreach

end

/-- Settles O60: the command stops at the first refused byte, and its write ranges bound what the fault loses. -/
theorem busErrorAtFirstRefusedByte : Obligations.BusErrorAtFirstRefusedByte := by
  intro s i base n j hr hready hreach hj hbefore href
  obtain ⟨t, ht, hregs⟩ := exec_refused (firstRefused_eq_some.2 ⟨j, hj, rfl, href, hbefore⟩) hr hready hreach
  exact ⟨t, ht, hregs, (memoryFrame i s t ht).1⟩

end Sys2Proof.Machine
end

