-- ==== Sys2Proof/Proofs/Descriptors.lean ====
section
/-! PROOFS. Proofs/Descriptors.lean: the decoder and the encoder of command descriptors. A descriptor decodes to a
command exactly when it agrees with the command's encoding in CMD0 and in the operand words the command uses; the round
trips both ways and the freedom of the unused words follow. Which descriptors are refused is read off CMD0, row by
row. -/

namespace Sys2Proof.Machine

-- One proof after the other: side by side they take this text past the memory its check allows.
set_option Elab.async false

/-! ### the rows of the opcode map (30_encoding.md rule R115) -/

/-- The word CMDk of a descriptor (rule R110). -/
abbrev word (d : Descriptor) (k : Fin 8) : Word := d[k]

section
variable {d : Descriptor}

theorem decode_nop (h : opcOf d = 0x00) : decode d = plainCommand d .nop := by
  unfold decode
  rw [h]
  rfl

theorem decode_s2dInit (h : opcOf d = 0x01) : decode d = plainCommand d .s2dInit := by
  unfold decode
  rw [h]
  rfl

theorem decode_s2dUpdate (h : opcOf d = 0x02) : decode d = plainCommand d .s2dUpdate := by
  unfold decode
  rw [h]
  rfl

theorem decode_s2dFree (h : opcOf d = 0x03) : decode d = plainCommand d .s2dFree := by
  unfold decode
  rw [h]
  rfl

theorem decode_setcfg (h : opcOf d = 0x04) : decode d = decodeSetcfg d := by
  unfold decode
  rw [h]
  rfl

theorem decode_s2dConvert (h : opcOf d = 0x05) : decode d =
    plainCommand d (.s2dConvert (word d 1) (word d 2) (word d 3)) := by
  unfold decode
  rw [h]
  rfl

theorem decode_s2dRdtab (h : opcOf d = 0x06) : decode d =
    flagCommand d (.s2dRdtabS2d (word d 1) (word d 2)) (.s2dRdtabD2s (word d 1) (word d 2)) := by
  unfold decode
  rw [h]
  rfl

theorem decode_unpack12 (h : opcOf d = 0x10) : decode d =
    plainCommand d (.unpack12 (word d 1) (word d 2) (word d 3) (word d 4)) := by
  unfold decode
  rw [h]
  rfl

theorem decode_uncompPs (h : opcOf d = 0x11) : decode d =
    flagCommand d (.uncompPs (word d 1) (word d 2) (word d 3) (word d 4) (word d 5))
      (.uncompPsLast (word d 1) (word d 2) (word d 3) (word d 4) (word d 5)) := by
  unfold decode
  rw [h]
  rfl

theorem decode_uncompNew (h : opcOf d = 0x12) : decode d =
    flagCommand d (.uncompNew (word d 1) (word d 2) (word d 3) (word d 4) (word d 5))
      (.uncompNewLast (word d 1) (word d 2) (word d 3) (word d 4) (word d 5)) := by
  unfold decode
  rw [h]
  rfl

theorem decode_mirror (h : opcOf d = 0x20) : decode d = decodeMirror d := by
  unfold decode
  rw [h]
  rfl

theorem decode_sof (h : opcOf d = 0x30) : decode d = decodeSof d := by
  unfold decode
  rw [h]
  rfl

theorem decode_frameChunk (h : opcOf d = 0x31) : decode d =
    frameCommand d (.frameChunk (ctxOf d) (word d 1) (word d 2) (word d 3) (word d 4)) := by
  unfold decode
  rw [h]
  rfl

theorem decode_frameEof (h : opcOf d = 0x32) : decode d = frameCommand d (.frameEof (ctxOf d)) := by
  unfold decode
  rw [h]
  rfl

theorem decode_lu3 (h : opcOf d = 0x40) : decode d = plainCommand d (.lu3 (word d 1) (word d 2) (word d 3)) := by
  unfold decode
  rw [h]
  rfl

theorem decode_planefit (h : opcOf d = 0x41) : decode d =
    plainCommand d (.planefit (word d 1) (word d 2) (word d 3)) := by
  unfold decode
  rw [h]
  rfl

/-- Every FMT that has no row of its own is carried by `mirrorCode`. -/
theorem decodeMirror_other (hctx : ctxOf d = 0) (hflags : flagsOf d = 0) (hother : arg16Of d ∉ mirrorFormats) :
    decodeMirror d = .ok (.mirrorCode (arg16Of d) (word d 1) (word d 2) (word d 3)) := by
  simp only [mirrorFormats, List.mem_cons, List.not_mem_nil, or_false, not_or] at hother
  obtain ⟨h100, h101, h102, h200, h201, h202, h203, h205⟩ := hother
  rw [decodeMirror, if_neg (not_or.2 ⟨not_not_intro hctx, not_not_intro hflags⟩), if_neg h202, if_neg h203, if_neg h100,
    if_neg h101, if_neg h102, if_neg h200, if_neg h201, if_neg h205]
  rfl

end

/-! ### when a descriptor decodes to a command -/

theorem formatOk_mirrorCode (fmt : Half) (buf len width : Word) :
    (Instr.mirrorCode fmt buf len width).formatOk = true ↔ fmt ∉ mirrorFormats := by
  change (!mirrorFormats.contains fmt) = true ↔ _
  simp

theorem fields_congr {d d' : Descriptor} (h : word d 0 = word d' 0) :
    opcOf d = opcOf d' ∧ ctxOf d = ctxOf d' ∧ flagsOf d = flagsOf d' ∧ arg16Of d = arg16Of d' :=
  ⟨congrArg (·.extractLsb' 0 8) h, congrArg (·.extractLsb' 8 4) h, congrArg (·.extractLsb' 12 4) h,
    congrArg (·.extractLsb' 16 16) h⟩

section
variable {d : Descriptor} {arg16 : BitVec 16} {flags ctx : BitVec 4} {opc : BitVec 8}

theorem opcOf_of_cmd0 (h : cmd0 arg16 flags ctx opc = word d 0) : opcOf d = opc :=
  (congrArg (·.extractLsb' 0 8) h.symm).trans (opcOf_cmd0 ..)

theorem ctxOf_of_cmd0 (h : cmd0 arg16 flags ctx opc = word d 0) : ctxOf d = ctx :=
  (congrArg (·.extractLsb' 8 4) h.symm).trans (ctxOf_cmd0 ..)

theorem flagsOf_of_cmd0 (h : cmd0 arg16 flags ctx opc = word d 0) : flagsOf d = flags :=
  (congrArg (·.extractLsb' 12 4) h.symm).trans (flagsOf_cmd0 ..)

theorem arg16Of_of_cmd0 (h : cmd0 arg16 flags ctx opc = word d 0) : arg16Of d = arg16 :=
  (congrArg (·.extractLsb' 16 16) h.symm).trans (arg16Of_cmd0 ..)

theorem cmd0_of_fields (hopc : opcOf d = opc) (hctx : ctxOf d = ctx) (hflags : flagsOf d = flags)
    (harg : arg16Of d = arg16) : cmd0 arg16 flags ctx opc = word d 0 := by
  rw [← hopc, ← hctx, ← hflags, ← harg]
  exact cmd0_fields _

theorem plainCommand_of_cmd0 (h : cmd0 0 0 0 opc = word d 0) (i : Instr) : plainCommand d i = .ok i :=
  if_pos ⟨ctxOf_of_cmd0 h, flagsOf_of_cmd0 h, arg16Of_of_cmd0 h⟩

theorem frameCommand_of_cmd0 (h : cmd0 0 0 ctx opc = word d 0) (i : Instr) : frameCommand d i = .ok i :=
  if_pos ⟨flagsOf_of_cmd0 h, arg16Of_of_cmd0 h⟩

theorem flagCommand_clear (h : cmd0 0 0 0 opc = word d 0) (i j : Instr) : flagCommand d i j = .ok i := by
  rw [flagCommand, ctxOf_of_cmd0 h, arg16Of_of_cmd0 h, flagsOf_of_cmd0 h]
  rfl

theorem flagCommand_set (h : cmd0 0 1 0 opc = word d 0) (i j : Instr) : flagCommand d i j = .ok j := by
  rw [flagCommand, ctxOf_of_cmd0 h, arg16Of_of_cmd0 h, flagsOf_of_cmd0 h]
  rfl

end

theorem wellFormed_mirrorCode (n : Nat) (fmt : Half) (buf len width : Word) :
    (Instr.mirrorCode fmt buf len width).wellFormed n = (Instr.mirrorCode fmt buf len width).formatOk :=
  Bool.true_and _

/-- Two descriptors have the same CMD0 and the same words up to CMDn. -/
def AgreeTo (n : Nat) (e d : Descriptor) : Prop := ∀ k : Fin 8, k.val ≤ n → word e k = word d k

theorem agreeTo_zero {e d : Descriptor} : AgreeTo 0 e d ↔ word e 0 = word d 0 :=
  ⟨fun h => h 0 (Nat.le_refl 0), fun h k hk => (Fin.ext (Nat.le_zero.1 hk) : k = 0) ▸ h⟩

theorem agreeTo_succ {n : Nat} (hn : n + 1 < 8) {e d : Descriptor} :
    AgreeTo (n + 1) e d ↔ AgreeTo n e d ∧ word e ⟨n + 1, hn⟩ = word d ⟨n + 1, hn⟩ := by
  refine ⟨fun h => ⟨fun k hk => h k (Nat.le_succ_of_le hk), h ⟨n + 1, hn⟩ (Nat.le_refl _)⟩, fun ⟨h, hlast⟩ k hk => ?_⟩
  rcases Nat.le_succ_iff.1 hk with hk | hk
  · exact h k hk
  · exact (Fin.ext hk : k = ⟨n + 1, hn⟩) ▸ hlast

/-- The descriptor agrees with the command's encoding in CMD0 and in the operand words the command uses. -/
abbrev Encodes (i : Instr) (d : Descriptor) : Prop := AgreeTo (usedWords i) (encode i) d

section
variable {i : Instr} {d : Descriptor} {c w1 w2 w3 w4 w5 : Word}

theorem encodes_zero (hused : usedWords i = 0) (hencode : encode i = descriptor c w1 w2 w3 w4 w5) :
    Encodes i d ↔ c = word d 0 := by
  rw [Encodes, hused, hencode]
  exact agreeTo_zero

theorem encodes_one (hused : usedWords i = 1) (hencode : encode i = descriptor c w1 w2 w3 w4 w5) :
    Encodes i d ↔ c = word d 0 ∧ w1 = word d 1 := by
  rw [Encodes, hused, hencode]
  exact (agreeTo_succ (by decide)).trans (and_congr_left' agreeTo_zero)

theorem encodes_two (hused : usedWords i = 2) (hencode : encode i = descriptor c w1 w2 w3 w4 w5) :
    Encodes i d ↔ (c = word d 0 ∧ w1 = word d 1) ∧ w2 = word d 2 := by
  rw [Encodes, hused, hencode, agreeTo_succ (by decide), agreeTo_succ (by decide), agreeTo_zero]
  rfl

theorem encodes_three (hused : usedWords i = 3) (hencode : encode i = descriptor c w1 w2 w3 w4 w5) :
    Encodes i d ↔ ((c = word d 0 ∧ w1 = word d 1) ∧ w2 = word d 2) ∧ w3 = word d 3 := by
  rw [Encodes, hused, hencode, agreeTo_succ (by decide), agreeTo_succ (by decide), agreeTo_succ (by decide),
    agreeTo_zero]
  rfl

theorem encodes_four (hused : usedWords i = 4) (hencode : encode i = descriptor c w1 w2 w3 w4 w5) :
    Encodes i d ↔ (((c = word d 0 ∧ w1 = word d 1) ∧ w2 = word d 2) ∧ w3 = word d 3) ∧ w4 = word d 4 := by
  rw [Encodes, hused, hencode, agreeTo_succ (by decide), agreeTo_succ (by decide), agreeTo_succ (by decide),
    agreeTo_succ (by decide), agreeTo_zero]
  rfl

theorem encodes_five (hused : usedWords i = 5) (hencode : encode i = descriptor c w1 w2 w3 w4 w5) :
    Encodes i d ↔
      ((((c = word d 0 ∧ w1 = word d 1) ∧ w2 = word d 2) ∧ w3 = word d 3) ∧ w4 = word d 4) ∧ w5 = word d 5 := by
  rw [Encodes, hused, hencode, agreeTo_succ (by decide), agreeTo_succ (by decide), agreeTo_succ (by decide),
    agreeTo_succ (by decide), agreeTo_succ (by decide), agreeTo_zero]
  rfl

end

section
variable {d : Descriptor} {c w1 w2 w3 w4 w5 : Word}

/-! Agreement with the encoding of a command of `n` operands fixes its operands, so the row of its CMD0 decides. -/

theorem decode_of_encodes_one {mk : Word → Instr}
    (hused : usedWords (mk w1) = 1) (hencode : encode (mk w1) = descriptor c w1 w2 w3 w4 w5)
    (hdecode : c = word d 0 → decode d = .ok (mk (word d 1)))
    (h : Encodes (mk w1) d) : decode d = .ok (mk w1) := by
  obtain ⟨h0, rfl⟩ := (encodes_one hused hencode).1 h
  exact hdecode h0

theorem decode_of_encodes_two {mk : Word → Word → Instr}
    (hused : usedWords (mk w1 w2) = 2) (hencode : encode (mk w1 w2) = descriptor c w1 w2 w3 w4 w5)
    (hdecode : c = word d 0 → decode d = .ok (mk (word d 1) (word d 2)))
    (h : Encodes (mk w1 w2) d) : decode d = .ok (mk w1 w2) := by
  obtain ⟨⟨h0, rfl⟩, rfl⟩ := (encodes_two hused hencode).1 h
  exact hdecode h0

theorem decode_of_encodes_three {mk : Word → Word → Word → Instr}
    (hused : usedWords (mk w1 w2 w3) = 3) (hencode : encode (mk w1 w2 w3) = descriptor c w1 w2 w3 w4 w5)
    (hdecode : c = word d 0 → decode d = .ok (mk (word d 1) (word d 2) (word d 3)))
    (h : Encodes (mk w1 w2 w3) d) : decode d = .ok (mk w1 w2 w3) := by
  obtain ⟨⟨⟨h0, rfl⟩, rfl⟩, rfl⟩ := (encodes_three hused hencode).1 h
  exact hdecode h0

theorem decode_of_encodes_four {mk : Word → Word → Word → Word → Instr}
    (hused : usedWords (mk w1 w2 w3 w4) = 4) (hencode : encode (mk w1 w2 w3 w4) = descriptor c w1 w2 w3 w4 w5)
    (hdecode : c = word d 0 → decode d = .ok (mk (word d 1) (word d 2) (word d 3) (word d 4)))
    (h : Encodes (mk w1 w2 w3 w4) d) : decode d = .ok (mk w1 w2 w3 w4) := by
  obtain ⟨⟨⟨⟨h0, rfl⟩, rfl⟩, rfl⟩, rfl⟩ := (encodes_four hused hencode).1 h
  exact hdecode h0

theorem decode_of_encodes_five {mk : Word → Word → Word → Word → Word → Instr}
    (hused : usedWords (mk w1 w2 w3 w4 w5) = 5) (hencode : encode (mk w1 w2 w3 w4 w5) = descriptor c w1 w2 w3 w4 w5)
    (hdecode : c = word d 0 → decode d = .ok (mk (word d 1) (word d 2) (word d 3) (word d 4) (word d 5)))
    (h : Encodes (mk w1 w2 w3 w4 w5) d) : decode d = .ok (mk w1 w2 w3 w4 w5) := by
  obtain ⟨⟨⟨⟨⟨h0, rfl⟩, rfl⟩, rfl⟩, rfl⟩, rfl⟩ := (encodes_five hused hencode).1 h
  exact hdecode h0

end

/-- OPC selects the command's row, the other fields of CMD0 pass the row's checks, and the row takes the operands from
the words the command uses. -/
theorem decode_of_encodes {i : Instr} {d : Descriptor} (hformat : i.formatOk = true) (h : Encodes i d) :
    decode d = .ok i := by
  cases i
  case nop =>
    have h0 := (encodes_zero rfl rfl).1 h
    exact (decode_nop (opcOf_of_cmd0 h0)).trans (plainCommand_of_cmd0 h0 _)
  case s2dInit =>
    have h0 := (encodes_zero rfl rfl).1 h
    exact (decode_s2dInit (opcOf_of_cmd0 h0)).trans (plainCommand_of_cmd0 h0 _)
  case s2dUpdate =>
    have h0 := (encodes_zero rfl rfl).1 h
    exact (decode_s2dUpdate (opcOf_of_cmd0 h0)).trans (plainCommand_of_cmd0 h0 _)
  case s2dFree =>
    have h0 := (encodes_zero rfl rfl).1 h
    exact (decode_s2dFree (opcOf_of_cmd0 h0)).trans (plainCommand_of_cmd0 h0 _)
  case s2dConvert =>
    exact decode_of_encodes_three rfl rfl (fun h0 =>
      (decode_s2dConvert (opcOf_of_cmd0 h0)).trans (plainCommand_of_cmd0 h0 _)) h
  case unpack12 =>
    exact decode_of_encodes_four rfl rfl (fun h0 =>
      (decode_unpack12 (opcOf_of_cmd0 h0)).trans (plainCommand_of_cmd0 h0 _)) h
  case lu3 =>
    exact decode_of_encodes_three rfl rfl (fun h0 =>
      (decode_lu3 (opcOf_of_cmd0 h0)).trans (plainCommand_of_cmd0 h0 _)) h
  case planefit =>
    exact decode_of_encodes_three rfl rfl (fun h0 =>
      (decode_planefit (opcOf_of_cmd0 h0)).trans (plainCommand_of_cmd0 h0 _)) h
  case s2dRdtabS2d =>
    exact decode_of_encodes_two rfl rfl (fun h0 =>
      (decode_s2dRdtab (opcOf_of_cmd0 h0)).trans (flagCommand_clear h0 ..)) h
  case s2dRdtabD2s =>
    exact decode_of_encodes_two rfl rfl (fun h0 =>
      (decode_s2dRdtab (opcOf_of_cmd0 h0)).trans (flagCommand_set h0 ..)) h
  case uncompPs =>
    exact decode_of_encodes_five rfl rfl (fun h0 =>
      (decode_uncompPs (opcOf_of_cmd0 h0)).trans (flagCommand_clear h0 ..)) h
  case uncompPsLast =>
    exact decode_of_encodes_five rfl rfl (fun h0 =>
      (decode_uncompPs (opcOf_of_cmd0 h0)).trans (flagCommand_set h0 ..)) h
  case uncompNew =>
    exact decode_of_encodes_five rfl rfl (fun h0 =>
      (decode_uncompNew (opcOf_of_cmd0 h0)).trans (flagCommand_clear h0 ..)) h
  case uncompNewLast =>
    exact decode_of_encodes_five rfl rfl (fun h0 =>
      (decode_uncompNew (opcOf_of_cmd0 h0)).trans (flagCommand_set h0 ..)) h
  case setcfgZeroPlaneDistance | setcfgZeroPlanePixelSize | setcfgEmitterDistance =>
    refine decode_of_encodes_two rfl rfl (fun h0 => ?_) h
    rw [decode_setcfg (opcOf_of_cmd0 h0), decodeSetcfg, ctxOf_of_cmd0 h0, flagsOf_of_cmd0 h0, arg16Of_of_cmd0 h0]
    rfl
  case setcfgMaxShift | setcfgMaxDepth | setcfgConstShift | setcfgPixelSizeFactor | setcfgParamCoeff | setcfgShiftScale
      | setcfgMinCutoff | setcfgMaxCutoff | setcfgOutputFormat =>
    refine decode_of_encodes_one rfl rfl (fun h0 => ?_) h
    rw [decode_setcfg (opcOf_of_cmd0 h0), decodeSetcfg, ctxOf_of_cmd0 h0, flagsOf_of_cmd0 h0, arg16Of_of_cmd0 h0]
    rfl
  case mirrorGray8 | mirrorGray16 | mirrorDepth1mm | mirrorDepth100um | mirrorShift92 | mirrorRgb888 | mirrorYuv422
      | mirrorYuyv =>
    refine decode_of_encodes_three rfl rfl (fun h0 => ?_) h
    rw [decode_mirror (opcOf_of_cmd0 h0), decodeMirror, ctxOf_of_cmd0 h0, flagsOf_of_cmd0 h0, arg16Of_of_cmd0 h0]
    rfl
  case mirrorCode fmt _ _ _ =>
    obtain ⟨⟨⟨h0, rfl⟩, rfl⟩, rfl⟩ := (encodes_three rfl rfl).1 h
    have hfmt : arg16Of d = fmt := arg16Of_of_cmd0 h0
    have hother : arg16Of d ∉ mirrorFormats := hfmt ▸ (formatOk_mirrorCode ..).1 hformat
    rw [decode_mirror (opcOf_of_cmd0 h0), decodeMirror_other (ctxOf_of_cmd0 h0) (flagsOf_of_cmd0 h0) hother, hfmt]
  case frameSofPacked12 | frameSofPs | frameSofNew =>
    refine decode_of_encodes_three rfl rfl (fun h0 => ?_) h
    rw [decode_sof (opcOf_of_cmd0 h0), decodeSof, arg16Of_of_cmd0 h0, flagsOf_of_cmd0 h0, ctxOf_of_cmd0 h0]
    rfl
  case frameChunk =>
    refine decode_of_encodes_four rfl rfl (fun h0 => ?_) h
    rw [decode_frameChunk (opcOf_of_cmd0 h0), frameCommand_of_cmd0 h0, ctxOf_of_cmd0 h0]
  case frameEof =>
    have h0 := (encodes_zero rfl rfl).1 h
    rw [decode_frameEof (opcOf_of_cmd0 h0), frameCommand_of_cmd0 h0, ctxOf_of_cmd0 h0]

section
variable {i : Instr} {d : Descriptor} {c w1 w2 w3 w4 w5 : Word}

/-! A command that takes its operands from the descriptor agrees with it when CMD0 does. -/

theorem encodes_of_cmd0_zero (hused : usedWords i = 0)
    (hencode : encode i = descriptor c w1 w2 w3 w4 w5) (h0 : c = word d 0) : Encodes i d :=
  (encodes_zero hused hencode).2 h0

theorem encodes_of_cmd0_one (hused : usedWords i = 1)
    (hencode : encode i = descriptor c (word d 1) w2 w3 w4 w5) (h0 : c = word d 0) : Encodes i d :=
  (encodes_one hused hencode).2 ⟨h0, rfl⟩

theorem encodes_of_cmd0_two (hused : usedWords i = 2)
    (hencode : encode i = descriptor c (word d 1) (word d 2) w3 w4 w5) (h0 : c = word d 0) : Encodes i d :=
  (encodes_two hused hencode).2 ⟨⟨h0, rfl⟩, rfl⟩

theorem encodes_of_cmd0_three (hused : usedWords i = 3)
    (hencode : encode i = descriptor c (word d 1) (word d 2) (word d 3) w4 w5) (h0 : c = word d 0) : Encodes i d :=
  (encodes_three hused hencode).2 ⟨⟨⟨h0, rfl⟩, rfl⟩, rfl⟩

theorem encodes_of_cmd0_four (hused : usedWords i = 4)
    (hencode : encode i = descriptor c (word d 1) (word d 2) (word d 3) (word d 4) w5) (h0 : c = word d 0) :
    Encodes i d :=
  (encodes_four hused hencode).2 ⟨⟨⟨⟨h0, rfl⟩, rfl⟩, rfl⟩, rfl⟩

theorem encodes_of_cmd0_five (hused : usedWords i = 5)
    (hencode : encode i = descriptor c (word d 1) (word d 2) (word d 3) (word d 4) (word d 5)) (h0 : c = word d 0) :
    Encodes i d :=
  (encodes_five hused hencode).2 ⟨⟨⟨⟨⟨h0, rfl⟩, rfl⟩, rfl⟩, rfl⟩, rfl⟩

end

section
variable {i j k : Instr} {d : Descriptor} {opc : BitVec 8}

theorem encodes_of_plainCommand (hopc : opcOf d = opc) (hrow : plainCommand d j = .ok i) (hj : j.formatOk = true)
    (hencodes : cmd0 0 0 0 opc = word d 0 → Encodes j d) : i.formatOk = true ∧ Encodes i d := by
  obtain ⟨⟨hctx, hflags, harg⟩, rfl⟩ := plainCommand_ok hrow
  exact ⟨hj, hencodes (cmd0_of_fields hopc hctx hflags harg)⟩

theorem encodes_of_frameCommand (hopc : opcOf d = opc) (hrow : frameCommand d j = .ok i) (hj : j.formatOk = true)
    (hencodes : cmd0 0 0 (ctxOf d) opc = word d 0 → Encodes j d) : i.formatOk = true ∧ Encodes i d := by
  obtain ⟨⟨hflags, harg⟩, rfl⟩ := frameCommand_ok hrow
  exact ⟨hj, hencodes (cmd0_of_fields hopc rfl hflags harg)⟩

theorem encodes_of_flagCommand (hopc : opcOf d = opc) (hrow : flagCommand d j k = .ok i)
    (hj : j.formatOk = true) (hk : k.formatOk = true) (hencodesj : cmd0 0 0 0 opc = word d 0 → Encodes j d)
    (hencodesk : cmd0 0 1 0 opc = word d 0 → Encodes k d) : i.formatOk = true ∧ Encodes i d := by
  obtain ⟨⟨hctx, harg⟩, ⟨hflags, rfl⟩ | ⟨hflags, rfl⟩⟩ := flagCommand_ok hrow
  · exact ⟨hj, hencodesj (cmd0_of_fields hopc hctx hflags harg)⟩
  · exact ⟨hk, hencodesk (cmd0_of_fields hopc hctx hflags harg)⟩

theorem encodes_of_fields {arg16 : Half} {flags ctx : BitVec 4} (hopc : opcOf d = opc) (hctx : ctxOf d = ctx)
    (hflags : flagsOf d = flags) (harg : arg16Of d = arg16) (hi : i = j) (hj : j.formatOk = true)
    (hencodes : cmd0 arg16 flags ctx opc = word d 0 → Encodes j d) : i.formatOk = true ∧ Encodes i d := by
  obtain rfl := hi
  exact ⟨hj, hencodes (cmd0_of_fields hopc hctx hflags harg)⟩

end

theorem encodes_of_decodeSetcfg {i : Instr} {d : Descriptor} (hopc : opcOf d = 0x04) (hrow : decodeSetcfg d = .ok i) :
    i.formatOk = true ∧ Encodes i d := by
  obtain ⟨⟨hctx, hflags⟩, hcase⟩ := decodeSetcfg_ok hrow
  iterate 3
    refine hcase.elim (fun ⟨harg, hi⟩ => ?_) fun hcase => ?_
    · exact encodes_of_fields hopc hctx hflags harg hi rfl (encodes_of_cmd0_two rfl rfl)
  iterate 8
    refine hcase.elim (fun ⟨harg, hi⟩ => ?_) fun hcase => ?_
    · exact encodes_of_fields hopc hctx hflags harg hi rfl (encodes_of_cmd0_one rfl rfl)
  obtain ⟨harg, hi⟩ := hcase
  exact encodes_of_fields hopc hctx hflags harg hi rfl (encodes_of_cmd0_one rfl rfl)

theorem encodes_of_decodeMirror {i : Instr} {d : Descriptor} (hopc : opcOf d = 0x20) (hrow : decodeMirror d = .ok i) :
    i.formatOk = true ∧ Encodes i d := by
  obtain ⟨⟨hctx, hflags⟩, hcase⟩ := decodeMirror_ok hrow
  iterate 8
    refine hcase.elim (fun ⟨harg, hi⟩ => ?_) fun hcase => ?_
    · exact encodes_of_fields hopc hctx hflags harg hi rfl (encodes_of_cmd0_three rfl rfl)
  obtain ⟨hother, hi⟩ := hcase
  have hformat := (formatOk_mirrorCode (arg16Of d) (word d 1) (word d 2) (word d 3)).2 hother
  exact encodes_of_fields hopc hctx hflags rfl hi hformat (encodes_of_cmd0_three rfl rfl)

theorem encodes_of_decodeSof {i : Instr} {d : Descriptor} (hopc : opcOf d = 0x30) (hrow : decodeSof d = .ok i) :
    i.formatOk = true ∧ Encodes i d := by
  obtain ⟨harg, ⟨hflags, hi⟩ | ⟨hflags, hi⟩ | ⟨hflags, hi⟩⟩ := decodeSof_ok hrow
  iterate 3 exact encodes_of_fields hopc rfl hflags harg hi rfl (encodes_of_cmd0_three rfl rfl)

/-- Each row of the opcode map gives a command whose encoding has the row's CMD0 and the operands where they were: what
the row's part of the decoder accepts (Laws/Encode.lean) names the command and the fields of CMD0. -/
theorem encodes_of_decode {i : Instr} {d : Descriptor} (h : decode d = .ok i) : i.formatOk = true ∧ Encodes i d := by
  rcases decode_ok h with ⟨hopc, hrow⟩ | ⟨hopc, hrow⟩ | ⟨hopc, hrow⟩ | ⟨hopc, hrow⟩ | ⟨hopc, hrow⟩ | ⟨hopc, hrow⟩ |
    ⟨hopc, hrow⟩ | ⟨hopc, hrow⟩ | ⟨hopc, hrow⟩ | ⟨hopc, hrow⟩ | ⟨hopc, hrow⟩ | ⟨hopc, hrow⟩ | ⟨hopc, hrow⟩ |
    ⟨hopc, hrow⟩ | ⟨hopc, hrow⟩ | ⟨hopc, hrow⟩
  iterate 4 exact encodes_of_plainCommand hopc hrow rfl (encodes_of_cmd0_zero rfl rfl)
  · exact encodes_of_decodeSetcfg hopc hrow
  · exact encodes_of_plainCommand hopc hrow rfl (encodes_of_cmd0_three rfl rfl)
  · exact encodes_of_flagCommand hopc hrow rfl rfl (encodes_of_cmd0_two rfl rfl) (encodes_of_cmd0_two rfl rfl)
  · exact encodes_of_plainCommand hopc hrow rfl (encodes_of_cmd0_four rfl rfl)
  iterate 2
    exact encodes_of_flagCommand hopc hrow rfl rfl (encodes_of_cmd0_five rfl rfl) (encodes_of_cmd0_five rfl rfl)
  · exact encodes_of_decodeMirror hopc hrow
  · exact encodes_of_decodeSof hopc hrow
  · exact encodes_of_frameCommand hopc hrow rfl (encodes_of_cmd0_four rfl rfl)
  · exact encodes_of_frameCommand hopc hrow rfl (encodes_of_cmd0_zero rfl rfl)
  iterate 2 exact encodes_of_plainCommand hopc hrow rfl (encodes_of_cmd0_three rfl rfl)

/-- A descriptor decodes to a command exactly when it agrees with its encoding where the command looks. -/
theorem decode_eq_ok_iff {i : Instr} {d : Descriptor} : decode d = .ok i ↔ i.formatOk = true ∧ Encodes i d :=
  ⟨encodes_of_decode, fun ⟨hformat, hencodes⟩ => decode_of_encodes hformat hencodes⟩

/-- Settles O12, by evaluating the decoder on each descriptor. -/
theorem decodeSampleWords : Obligations.DecodeSampleWords :=
  ⟨rfl, rfl, rfl, rfl, rfl, rfl, rfl, rfl, rfl, rfl⟩

/-- Settles O10: an encoding agrees with itself. -/
theorem decodeOfEncode : Obligations.DecodeOfEncode :=
  fun _ hformat => decode_eq_ok_iff.2 ⟨hformat, fun _ _ => rfl⟩

/-- Settles O11, from the rows of the opcode map. -/
theorem encodeOfDecode : Obligations.EncodeOfDecode := by
  intro d i h
  obtain ⟨hformat, hwords⟩ := decode_eq_ok_iff.1 h
  exact ⟨hformat, hwords 0 (Nat.zero_le _), hwords⟩

/-! ### which descriptors are refused -/

/-- What the decoder answered is no command that is legal on a machine with `n` contexts. -/
def Refuses (n : Nat) (r : Except DecodeError Instr) : Prop := ∀ i, r = .ok i → i.wellFormed n = false

theorem refuses_error (n : Nat) (e : DecodeError) : Refuses n (.error e) := fun _ h => nomatch h

theorem refuses_ok {n : Nat} {i : Instr} : Refuses n (.ok i) ↔ i.wellFormed n = false := by
  refine ⟨fun h => h i rfl, fun h j hj => ?_⟩
  cases hj
  exact h

theorem legalCommand_eq_none {s : State} {d : Descriptor} :
    legalCommand s d = none ↔ Refuses s.params.numCtx (decode d) := by
  refine ⟨fun h i hi => Bool.eq_false_iff.2 fun hwf => ?_, fun h => Option.eq_none_iff_forall_ne_some.2 fun i hi => ?_⟩
  · cases h.symm.trans (legalCommand_eq_some.2 ⟨hi, hwf⟩)
  · obtain ⟨hdec, hwf⟩ := legalCommand_eq_some.1 hi
    cases hwf.symm.trans (h i hdec)

/-- A context number CTX can hold is below 16, the largest NUM_CTX. -/
theorem ctxOk_sixteen (i : Instr) : i.ctxOk 16 = true := by
  unfold Instr.ctxOk
  cases i.ctx? with
  | none => rfl
  | some c => exact decide_eq_true c.isLt

theorem decodes_iff (d : Descriptor) : (∃ i, decode d = .ok i) ↔ ¬ Refuses 16 (decode d) := by
  refine ⟨fun ⟨i, h⟩ hrefuses => ?_, fun h => ?_⟩
  · have hwf : i.wellFormed 16 = true := Bool.and_eq_true_iff.2 ⟨ctxOk_sixteen i, (decode_eq_ok_iff.1 h).1⟩
    cases hwf.symm.trans (hrefuses i h)
  · by_contra hnone
    exact h fun i hi => absurd ⟨i, hi⟩ hnone

theorem toNat_ne_zero {w : Nat} {a : BitVec w} : a.toNat ≠ 0 ↔ a ≠ 0 := by
  have hzero : (0 : BitVec w).toNat = 0 := BitVec.toNat_zero
  rw [Ne, Ne, ← BitVec.toNat_inj, hzero]

/-- The values of a field from `n` on are those that are none of the first `n`. -/
theorem le_toNat_iff {w n : Nat} (hn : n ≤ 2 ^ w) (a : BitVec w) :
    n ≤ a.toNat ↔ a ∉ (List.range n).map (BitVec.ofNat w) := by
  rw [← not_lt, not_iff_not, List.mem_map]
  constructor
  · exact fun h => ⟨a.toNat, List.mem_range.2 h, BitVec.eq_of_toNat_eq (by simp)⟩
  · rintro ⟨k, hk, rfl⟩
    have := List.mem_range.1 hk
    rwa [BitVec.toNat_ofNat, Nat.mod_eq_of_lt (by omega)]

section
variable {n : Nat} {d : Descriptor} {i j : Instr} {c : Prop} [Decidable c] {r : Except DecodeError Instr}

theorem refuses_ite {r' : Except DecodeError Instr} (h : Refuses n r) (h' : Refuses n r') :
    Refuses n (if c then r else r') := by
  split
  · exact h
  · exact h'

theorem refuses_ite_iff {r' : Except DecodeError Instr} {p : Prop} (h : c → (Refuses n r ↔ p))
    (h' : ¬ c → (Refuses n r' ↔ p)) : Refuses n (if c then r else r') ↔ p := by
  split
  · exact h ‹_›
  · exact h' ‹_›

/-- A check that fails refuses the descriptor. -/
theorem refuses_check {e : DecodeError} : Refuses n (if c then .error e else r) ↔ (c ∨ Refuses n r) := by
  by_cases hc : c
  · rw [if_pos hc]
    exact iff_of_true (refuses_error _ _) (.inl hc)
  · rw [if_neg hc, or_iff_right hc]

/-- A case that gives a legal command refuses nothing. -/
theorem refuses_case (hi : i.wellFormed n = true) : Refuses n (if c then .ok i else r) ↔ (¬ c ∧ Refuses n r) := by
  by_cases hc : c
  · rw [if_pos hc, refuses_ok, hi]
    exact iff_of_false Bool.noConfusion fun h => h.1 hc
  · rw [if_neg hc, and_iff_right hc]

theorem refuses_last {e : DecodeError} (hi : i.wellFormed n = true) :
    Refuses n (if c then .ok i else .error e) ↔ ¬ c := by
  rw [refuses_case hi, and_iff_left (refuses_error _ _)]

theorem refuses_plainCommand (hi : i.wellFormed n = true) : Refuses n (plainCommand d i) ↔
    ((ctxOf d).toNat ≠ 0 ∨ (flagsOf d).toNat ≠ 0 ∨ (arg16Of d).toNat ≠ 0) := by
  rw [plainCommand, refuses_last hi, not_and_or, not_and_or, toNat_ne_zero, toNat_ne_zero, toNat_ne_zero]

theorem refuses_flagCommand (hi : i.wellFormed n = true) (hj : j.wellFormed n = true) :
    Refuses n (flagCommand d i j) ↔ ((ctxOf d).toNat ≠ 0 ∨ 2 ≤ (flagsOf d).toNat ∨ (arg16Of d).toNat ≠ 0) := by
  have hflags : 2 ≤ (flagsOf d).toNat ↔ flagsOf d ∉ [0, 1] := le_toNat_iff (by decide) _
  simp only [List.mem_cons, List.not_mem_nil, or_false, not_or] at hflags
  rw [flagCommand, refuses_check, refuses_case hi, refuses_last hj, hflags, toNat_ne_zero, toNat_ne_zero, or_assoc,
    or_comm (a := arg16Of d ≠ 0)]

theorem refuses_decodeSetcfg : Refuses n (decodeSetcfg d) ↔
    ((ctxOf d).toNat ≠ 0 ∨ (flagsOf d).toNat ≠ 0 ∨ 12 ≤ (arg16Of d).toNat) := by
  have harg : 12 ≤ (arg16Of d).toNat ↔ arg16Of d ∉ [0, 1, 2, 3, 4, 5, 6, 7, 8, 9, 10, 11] :=
    le_toNat_iff (by decide) _
  simp only [List.mem_cons, List.not_mem_nil, or_false, not_or] at harg
  rw [decodeSetcfg, refuses_check, harg, toNat_ne_zero, toNat_ne_zero, or_assoc]
  iterate 11 rw [refuses_case rfl]
  rw [refuses_last rfl]

theorem refuses_decodeMirror : Refuses n (decodeMirror d) ↔ ((ctxOf d).toNat ≠ 0 ∨ (flagsOf d).toNat ≠ 0) := by
  rw [decodeMirror, refuses_check, toNat_ne_zero, toNat_ne_zero, or_iff_left]
  iterate 8 rw [refuses_case rfl]
  rw [refuses_ok]
  rintro ⟨h202, h203, h100, h101, h102, h200, h201, h205, hwf⟩
  have hother : arg16Of d ∉ mirrorFormats := by
    simp only [mirrorFormats, List.mem_cons, List.not_mem_nil, or_false, not_or]
    exact ⟨h100, h101, h102, h200, h201, h202, h203, h205⟩
  rw [wellFormed_mirrorCode, (formatOk_mirrorCode ..).2 hother] at hwf
  cases hwf

theorem refuses_decodeSof : Refuses n (decodeSof d) ↔
    (n ≤ (ctxOf d).toNat ∨ 3 ≤ (flagsOf d).toNat ∨ (arg16Of d).toNat ≠ 0) := by
  have hflags : 3 ≤ (flagsOf d).toNat ↔ flagsOf d ∉ [0, 1, 2] := le_toNat_iff (by decide) _
  simp only [List.mem_cons, List.not_mem_nil, or_false, not_or] at hflags
  rw [decodeSof, refuses_check]
  by_cases hctx : n ≤ (ctxOf d).toNat
  · have habsent : (decide ((ctxOf d).toNat < n) && true) = false :=
      (Bool.and_true _).trans (decide_eq_false (Nat.not_lt.2 hctx))
    exact iff_of_true (.inr (refuses_ite (refuses_ok.2 habsent) (refuses_ite (refuses_ok.2 habsent)
      (refuses_ite (refuses_ok.2 habsent) (refuses_error _ _))))) (.inl hctx)
  · have hpresent : (decide ((ctxOf d).toNat < n) && true) = true :=
      (Bool.and_true _).trans (decide_eq_true (Nat.lt_of_not_le hctx))
    rw [refuses_case (i := .frameSofPacked12 ..) hpresent, refuses_case (i := .frameSofPs ..) hpresent,
      refuses_last (i := .frameSofNew ..) hpresent, or_iff_right hctx, hflags, toNat_ne_zero, or_comm]

theorem refuses_frameCommand (hi : i.wellFormed n = decide ((ctxOf d).toNat < n)) : Refuses n (frameCommand d i) ↔
    (n ≤ (ctxOf d).toNat ∨ (flagsOf d).toNat ≠ 0 ∨ (arg16Of d).toNat ≠ 0) := by
  rw [frameCommand]
  by_cases hctx : n ≤ (ctxOf d).toNat
  · have habsent : i.wellFormed n = false := hi.trans (decide_eq_false (Nat.not_lt.2 hctx))
    exact iff_of_true (refuses_ite (refuses_ok.2 habsent) (refuses_error _ _)) (.inl hctx)
  · rw [refuses_last (hi.trans (decide_eq_true (Nat.lt_of_not_le hctx))), or_iff_right hctx, not_and_or, toNat_ne_zero,
      toNat_ne_zero]

end

/-! ### the field-use table -/

/-- The opcode is reserved or CMD0 breaks the field-use table. -/
abbrev Illegal (n : Nat) (d : Descriptor) : Prop := ReservedOpcode (opcOf d).toNat ∨ FieldViolation n d

section
variable {n : Nat} {d : Descriptor}

theorem illegal_plain (h : (opcOf d).toNat ∈ [0x00, 0x01, 0x02, 0x03, 0x05, 0x10, 0x40, 0x41]) :
    Illegal n d ↔ ((ctxOf d).toNat ≠ 0 ∨ (flagsOf d).toNat ≠ 0 ∨ (arg16Of d).toNat ≠ 0) := by
  have hrest : ∀ o ∈ [0x00, 0x01, 0x02, 0x03, 0x05, 0x10, 0x40, 0x41], ¬ ReservedOpcode o ∧
      o ≠ 0x04 ∧ o ∉ [0x06, 0x11, 0x12] ∧ o ≠ 0x20 ∧ o ≠ 0x30 ∧ o ∉ [0x31, 0x32] := by decide
  obtain ⟨h0, h1, h2, h3, h4, h5⟩ := hrest _ h
  simp only [Illegal, FieldViolation, h, h0, h1, h2, h3, h4, h5, true_and, false_and, or_false, false_or]

theorem illegal_setcfg (h : (opcOf d).toNat = 0x04) :
    Illegal n d ↔ ((ctxOf d).toNat ≠ 0 ∨ (flagsOf d).toNat ≠ 0 ∨ 12 ≤ (arg16Of d).toNat) := by
  have hrest : ¬ ReservedOpcode 0x04 ∧ 0x04 ∉ [0x00, 0x01, 0x02, 0x03, 0x05, 0x10, 0x40, 0x41] ∧
      0x04 ∉ [0x06, 0x11, 0x12] ∧ 0x04 ≠ 0x20 ∧ 0x04 ≠ 0x30 ∧ 0x04 ∉ [0x31, 0x32] := by decide
  obtain ⟨h0, h1, h2, h3, h4, h5⟩ := hrest
  simp only [Illegal, FieldViolation, h, h0, h1, h2, h3, h4, h5, true_and, false_and, or_false, false_or]

theorem illegal_flag (h : (opcOf d).toNat ∈ [0x06, 0x11, 0x12]) :
    Illegal n d ↔ ((ctxOf d).toNat ≠ 0 ∨ 2 ≤ (flagsOf d).toNat ∨ (arg16Of d).toNat ≠ 0) := by
  have hrest : ∀ o ∈ [0x06, 0x11, 0x12], ¬ ReservedOpcode o ∧ o ∉ [0x00, 0x01, 0x02, 0x03, 0x05, 0x10, 0x40, 0x41] ∧
      o ≠ 0x04 ∧ o ≠ 0x20 ∧ o ≠ 0x30 ∧ o ∉ [0x31, 0x32] := by decide
  obtain ⟨h0, h1, h2, h3, h4, h5⟩ := hrest _ h
  simp only [Illegal, FieldViolation, h, h0, h1, h2, h3, h4, h5, true_and, false_and, or_false, false_or]

theorem illegal_mirror (h : (opcOf d).toNat = 0x20) :
    Illegal n d ↔ ((ctxOf d).toNat ≠ 0 ∨ (flagsOf d).toNat ≠ 0) := by
  have hrest : ¬ ReservedOpcode 0x20 ∧ 0x20 ∉ [0x00, 0x01, 0x02, 0x03, 0x05, 0x10, 0x40, 0x41] ∧
      0x20 ≠ 0x04 ∧ 0x20 ∉ [0x06, 0x11, 0x12] ∧ 0x20 ≠ 0x30 ∧ 0x20 ∉ [0x31, 0x32] := by decide
  obtain ⟨h0, h1, h2, h3, h4, h5⟩ := hrest
  simp only [Illegal, FieldViolation, h, h0, h1, h2, h3, h4, h5, true_and, false_and, or_false, false_or]

theorem illegal_sof (h : (opcOf d).toNat = 0x30) :
    Illegal n d ↔ (n ≤ (ctxOf d).toNat ∨ 3 ≤ (flagsOf d).toNat ∨ (arg16Of d).toNat ≠ 0) := by
  have hrest : ¬ ReservedOpcode 0x30 ∧ 0x30 ∉ [0x00, 0x01, 0x02, 0x03, 0x05, 0x10, 0x40, 0x41] ∧
      0x30 ≠ 0x04 ∧ 0x30 ∉ [0x06, 0x11, 0x12] ∧ 0x30 ≠ 0x20 ∧ 0x30 ∉ [0x31, 0x32] := by decide
  obtain ⟨h0, h1, h2, h3, h4, h5⟩ := hrest
  simp only [Illegal, FieldViolation, h, h0, h1, h2, h3, h4, h5, true_and, false_and, or_false, false_or]

theorem illegal_frame (h : (opcOf d).toNat ∈ [0x31, 0x32]) :
    Illegal n d ↔ (n ≤ (ctxOf d).toNat ∨ (flagsOf d).toNat ≠ 0 ∨ (arg16Of d).toNat ≠ 0) := by
  have hrest : ∀ o ∈ [0x31, 0x32], ¬ ReservedOpcode o ∧ o ∉ [0x00, 0x01, 0x02, 0x03, 0x05, 0x10, 0x40, 0x41] ∧
      o ≠ 0x04 ∧ o ∉ [0x06, 0x11, 0x12] ∧ o ≠ 0x20 ∧ o ≠ 0x30 := by decide
  obtain ⟨h0, h1, h2, h3, h4, h5⟩ := hrest _ h
  simp only [Illegal, FieldViolation, h, h0, h1, h2, h3, h4, h5, true_and, false_and, false_or]

end

section
variable {n : Nat} {d : Descriptor} {i j : Instr} {o : BitVec 8}

theorem refuses_plain_iff_illegal (h : opcOf d = o) (hi : i.wellFormed n = true)
    (ho : o.toNat ∈ [0x00, 0x01, 0x02, 0x03, 0x05, 0x10, 0x40, 0x41]) :
    Refuses n (plainCommand d i) ↔ Illegal n d := by
  rw [refuses_plainCommand hi, illegal_plain (h ▸ ho)]

theorem refuses_flag_iff_illegal (h : opcOf d = o) (hi : i.wellFormed n = true) (hj : j.wellFormed n = true)
    (ho : o.toNat ∈ [0x06, 0x11, 0x12]) : Refuses n (flagCommand d i j) ↔ Illegal n d := by
  rw [refuses_flagCommand hi hj, illegal_flag (h ▸ ho)]

theorem refuses_frame_iff_illegal (h : opcOf d = o) (hi : i.wellFormed n = decide ((ctxOf d).toNat < n))
    (ho : o.toNat ∈ [0x31, 0x32]) : Refuses n (frameCommand d i) ↔ Illegal n d := by
  rw [refuses_frameCommand hi, illegal_frame (h ▸ ho)]

end

theorem succ_le_toNat {w : Nat} {a b : BitVec w} (hne : ¬ a = b) (h : b.toNat ≤ a.toNat) : b.toNat + 1 ≤ a.toNat :=
  Nat.lt_of_le_of_ne h fun heq => hne (BitVec.eq_of_toNat_eq heq.symm)

/-- A descriptor is refused exactly when its opcode is reserved or its CMD0 breaks the field-use table. -/
theorem refuses_decode_iff (n : Nat) (d : Descriptor) : Refuses n (decode d) ↔ Illegal n d := by
  unfold decode
  refine refuses_ite_iff (fun h => refuses_plain_iff_illegal h rfl (by decide)) fun h00 => ?_
  refine refuses_ite_iff (fun h => refuses_plain_iff_illegal h rfl (by decide)) fun h01 => ?_
  refine refuses_ite_iff (fun h => refuses_plain_iff_illegal h rfl (by decide)) fun h02 => ?_
  refine refuses_ite_iff (fun h => refuses_plain_iff_illegal h rfl (by decide)) fun h03 => ?_
  refine refuses_ite_iff (fun h => refuses_decodeSetcfg.trans (illegal_setcfg (h ▸ rfl)).symm) fun h04 => ?_
  refine refuses_ite_iff (fun h => refuses_plain_iff_illegal h rfl (by decide)) fun h05 => ?_
  refine refuses_ite_iff (fun h => refuses_flag_iff_illegal h rfl rfl (by decide)) fun h06 => ?_
  refine refuses_ite_iff (fun h => refuses_plain_iff_illegal h rfl (by decide)) fun h10 => ?_
  refine refuses_ite_iff (fun h => refuses_flag_iff_illegal h rfl rfl (by decide)) fun h11 => ?_
  refine refuses_ite_iff (fun h => refuses_flag_iff_illegal h rfl rfl (by decide)) fun h12 => ?_
  refine refuses_ite_iff (fun h => refuses_decodeMirror.trans (illegal_mirror (h ▸ rfl)).symm) fun h20 => ?_
  refine refuses_ite_iff (fun h => refuses_decodeSof.trans (illegal_sof (h ▸ rfl)).symm) fun h30 => ?_
  refine refuses_ite_iff (fun h => refuses_frame_iff_illegal h (Bool.and_true _) (by decide)) fun h31 => ?_
  refine refuses_ite_iff (fun h => refuses_frame_iff_illegal h (Bool.and_true _) (by decide)) fun h32 => ?_
  refine refuses_ite_iff (fun h => refuses_plain_iff_illegal h rfl (by decide)) fun h40 => ?_
  refine refuses_ite_iff (fun h => refuses_plain_iff_illegal h rfl (by decide)) fun h41 => ?_
  -- past the last row OPC lies in a gap of the opcode map
  refine iff_of_true (refuses_error _ _) (.inl ?_)
  have h07 := succ_le_toNat h06 (succ_le_toNat h05 (succ_le_toNat h04 (succ_le_toNat h03 (succ_le_toNat h02
    (succ_le_toNat h01 (succ_le_toNat h00 (Nat.zero_le _)))))))
  rcases Nat.lt_or_ge (opcOf d).toNat 0x10 with hlt | hge
  · exact .inl ⟨h07, Nat.le_of_lt_succ hlt⟩
  have h13 := succ_le_toNat h12 (succ_le_toNat h11 (succ_le_toNat h10 hge))
  rcases Nat.lt_or_ge (opcOf d).toNat 0x20 with hlt | hge
  · exact .inr (.inl ⟨h13, Nat.le_of_lt_succ hlt⟩)
  have h21 := succ_le_toNat h20 hge
  rcases Nat.lt_or_ge (opcOf d).toNat 0x30 with hlt | hge
  · exact .inr (.inr (.inl ⟨h21, Nat.le_of_lt_succ hlt⟩))
  have h33 := succ_le_toNat h32 (succ_le_toNat h31 (succ_le_toNat h30 hge))
  rcases Nat.lt_or_ge (opcOf d).toNat 0x40 with hlt | hge
  · exact .inr (.inr (.inr (.inl ⟨h33, Nat.le_of_lt_succ hlt⟩)))
  have h42 := succ_le_toNat h41 (succ_le_toNat h40 hge)
  exact .inr (.inr (.inr (.inr ⟨h42, Nat.le_of_lt_succ (opcOf d).isLt⟩)))

theorem legalCommand_eq_none_iff (s : State) (d : Descriptor) : legalCommand s d = none ↔
    (ReservedOpcode (opcOf d).toNat ∨ FieldViolation s.params.numCtx d) :=
  legalCommand_eq_none.trans (refuses_decode_iff ..)

/-- Settles O8, row by row of the opcode map; the run of an illegal descriptor is `runDescriptor_illegal`. -/
theorem illegalCommands : Obligations.IllegalCommands := by
  refine ⟨legalCommand_eq_none_iff, fun s d hrun hraced hev hbad => ?_⟩
  rw [step_nil hev, engineRun_busy hrun hraced, runDescriptor_illegal ((legalCommand_eq_none_iff s d).2 hbad)]

/-- Settles O9: the first part is `decode_eq_ok_iff`, and the reasons to refuse a descriptor are all in CMD0. -/
theorem unusedOperandWordsIgnored : Obligations.UnusedOperandWordsIgnored := by
  refine ⟨fun d d' i h _ hwords => ?_, fun d d' hcmd0 => ?_⟩
  · obtain ⟨hformat, hencodes⟩ := decode_eq_ok_iff.1 h
    exact decode_eq_ok_iff.2 ⟨hformat, fun k hk => (hencodes k hk).trans (hwords k hk)⟩
  · obtain ⟨hopc, hctx, hflags, harg⟩ := fields_congr hcmd0
    have hillegal : Illegal 16 d ↔ Illegal 16 d' := by
      rw [Illegal, Illegal, FieldViolation, FieldViolation, hopc, hctx, hflags, harg]
    rw [decodes_iff, decodes_iff, refuses_decode_iff, refuses_decode_iff, hillegal]

end Sys2Proof.Machine
end

