-- ==== Sys2Proof/Proofs/IssueProtocol.lean ====
section
/-! PROOFS. Proofs/IssueProtocol.lean: the host's issue protocol (46_system.md rule R334): what each of its events does
to an idle block, and that the ten together run the descriptor they write. -/

namespace Sys2Proof.Machine

-- One proof after the other: side by side they take this text past the memory its check allows.
set_option Elab.async false

theorem run_succ (M : Host.Core) (k : Nat) (s : M.State) : M.run (k + 1) s = match M.step s with
    | .next s' => M.run k s'
    | .fault r => .fault r
    | .refused r => .refused r :=
  rfl

theorem run_succ_of_next {M : Host.Core} {s t : M.State} (k : Nat) (h : M.step s = .next t) :
    M.run (k + 1) s = M.run k t := by
  rw [run_succ, h]

theorem core_run_succ {s t : State} (k : Nat) (h : step s = .next t) :
    Host.Core.run Sys2Proof.core (k + 1) s = Host.Core.run Sys2Proof.core k t :=
  run_succ_of_next k h

theorem run_one (M : Host.Core) (s : M.State) : M.run 1 s = M.step s := by
  rw [run_succ]
  cases M.step s <;> rfl

/-- CMDk written over. -/
abbrev setWord (cmd : Descriptor) (k : Fin 8) (w : Word) : Descriptor := cmd.set k w

theorem step_writeCmdEvent {s : State} {d : Descriptor} {k : Fin 8} {es : List Event} (hidle : s.running = none)
    (h : s.events = writeCmdEvent d k :: es) :
    step s = .next { s with events := es, cmd := setWord s.cmd k (word d k) } := by
  have hbusy : ¬ s.busy = true := by rw [State.busy, hidle]; decide
  exact (step_writeCmd h).trans (congrArg _ (if_neg hbusy))

/-- `cmd` after the words of `d` at the positions `ks` are written over it. -/
def writtenCmd (d cmd : Descriptor) : List (Fin 8) → Descriptor
  | [] => cmd
  | k :: ks => writtenCmd d (setWord cmd k (word d k)) ks

theorem word_writtenCmd (d cmd : Descriptor) (ks : List (Fin 8)) (j : Fin 8) :
    word (writtenCmd d cmd ks) j = if j ∈ ks then word d j else word cmd j := by
  induction ks generalizing cmd with
  | nil => exact (if_neg List.not_mem_nil).symm
  | cons k ks ih =>
    refine (ih _).trans ?_
    by_cases hmem : j ∈ ks
    · rw [if_pos hmem, if_pos (List.mem_cons_of_mem k hmem)]
    rw [if_neg hmem]
    by_cases hk : j = k
    · rw [if_pos (List.mem_cons.2 (.inl hk)), hk]
      exact Vector.getElem_set_self k.isLt
    · rw [if_neg (List.not_mem_cons_of_ne_of_not_mem hk hmem)]
      exact Vector.getElem_set_ne k.isLt j.isLt fun h => hk (Fin.ext h.symm)

theorem writtenCmd_finRange (d cmd : Descriptor) : writtenCmd d cmd (List.finRange 8) = d :=
  Vector.ext fun k hk => (word_writtenCmd d cmd (List.finRange 8) ⟨k, hk⟩).trans (if_pos (List.mem_finRange _))

/-- Writes of CMD registers while idle leave nothing but the words they wrote. -/
theorem run_writeCmds {d : Descriptor} {es : List Event} (n : Nat) {ks : List (Fin 8)} {s : State}
    (hidle : s.running = none) (h : s.events = ks.map (writeCmdEvent d) ++ es) :
    Host.Core.run Sys2Proof.core (ks.length + n) s =
      Host.Core.run Sys2Proof.core n { s with events := es, cmd := writtenCmd d s.cmd ks } := by
  induction ks generalizing s with
  | nil =>
    obtain rfl : s.events = es := h
    rw [List.length_nil, Nat.zero_add]
    rfl
  | cons k ks ih =>
    rw [List.length_cons, Nat.add_right_comm, core_run_succ _ (step_writeCmdEvent hidle h)]
    exact ih hidle rfl

theorem step_start {s : State} {es : List Event} (hidle : s.running = none) (hfault : s.fault = false)
    (h : s.events = .regWrite 0x008 .bits32 1 :: es) :
    step s = .next { s with events := es, running := some s.cmd, raced := [] } := by
  rw [step_control h]
  exact congrArg _ (startCommand_idle (s := { s with events := es }) hidle hfault)

theorem run_wait {s : State} {d : Descriptor} {es : List Event} (hrun : s.running = some d) (hraced : s.raced = [])
    (h : s.events = waitEvent :: es) : Host.Core.run Sys2Proof.core 1 s = runDescriptor d { s with events := es } := by
  have hstep : step s = runDescriptor d { s with events := es } := by
    rw [step_cons h]
    exact engineRun_busy (s := { s with events := es }) hrun hraced
  exact (run_one Sys2Proof.core s).trans hstep

/-- Settles O6: the eight writes, the start, and the run of what they latched. -/
theorem issueProtocolRunsCommand : Obligations.IssueProtocolRunsCommand := by
  intro s d es hidle hfault hev
  have hlatched : Host.Core.run Sys2Proof.core 10 s = Host.Core.run Sys2Proof.core 1
      { s with events := waitEvent :: es, cmd := d, running := some d, raced := [] } := calc
    _ = Host.Core.run Sys2Proof.core 2
          { s with
            events := .regWrite 0x008 .bits32 1 :: waitEvent :: es, cmd := writtenCmd d s.cmd (List.finRange 8) } :=
        run_writeCmds (ks := List.finRange 8) 2 hidle hev
    _ = Host.Core.run Sys2Proof.core 2 { s with events := .regWrite 0x008 .bits32 1 :: waitEvent :: es, cmd := d } := by
        rw [writtenCmd_finRange]
    _ = _ := core_run_succ 1 (step_start hidle hfault rfl)
  exact hlatched.trans (run_wait rfl rfl rfl)

end Sys2Proof.Machine
end

