-- ==== Sys2Proof/Proofs/TableEngine.lean ====
section
/-! PROOFS. Proofs/TableEngine.lean: the table engine's commands: S2D_INIT, S2D_UPDATE and a cascading S2D_SETCFG are
one rebuild with the sizes of the calibration registers, which their invariant lets succeed; S2D_FREE; and the faults
and refusals of S2D_CONVERT, UNPACK12 and the Uncomp commands. -/

namespace Sys2Proof.Machine

-- One proof after the other: side by side they take this text past the memory its check allows.
set_option Elab.async false

/-! ### S2D_FREE -/

/-- Settles O31. -/
theorem s2dFreeReleases : Obligations.S2dFreeReleases := by
  refine fun s => ⟨rfl, fun t ht => ?_⟩
  cases ht
  rfl

/-! ### Build under the register invariant -/

/-- Settles O34: a kept depth is below MAX_CUTOFF, so no index passes MAX_DEPTH. -/
theorem buildNeverFaults : Obligations.BuildNeverFaults := fun p c h => by
  obtain ⟨t, ht, -⟩ := buildTables_total (p := p) h.2.1
  exact ⟨t, ht⟩

/-- Under the register invariant a rebuild with the sizes of the registers puts the tables in place. -/
theorem rebuild_total {s : State} (h : CalibInv s.calib) (opc : BitVec 8) (r0 r1 : Word) :
    ∃ t, buildTables s.params s.calib (calibNS s.calib) (calibND s.calib) = .ok t ∧
      rebuild opc (calibNS s.calib) (calibND s.calib) r0 r1 s = okState
        { s with
          s2d := t.1, d2s := t.2, tablesValid := true, tblNShift := BitVec.ofNat 17 (calibNS s.calib)
          tblNDepth := BitVec.ofNat 17 (calibND s.calib) } opc r0 r1 0 0 := by
  obtain ⟨t, ht⟩ := buildNeverFaults s.params s.calib h
  rcases rebuild_ends opc (calibNS s.calib) (calibND s.calib) r0 r1 s with ⟨f, hf, -⟩ | ⟨t', ht', hend⟩
  · exact absurd (ht.symm.trans hf) nofun
  · exact ⟨t', ht', hend⟩

/-- Settles O29. -/
theorem s2dInitBuilds : Obligations.S2dInitBuilds := fun s h => by
  obtain ⟨t, ht, hend⟩ := rebuild_total h 0x01 (BitVec.ofNat 32 (calibNS s.calib))
    (BitVec.ofNat 32 (calibND s.calib))
  exact ⟨t, ht, congrArg _ hend⟩

/-- A 17-bit register that holds the number `n` is `n` at either width. -/
theorem ofNat_of_toNat_eq {x : BitVec 17} {n : Nat} (h : x.toNat = n) :
    BitVec.ofNat 17 n = x ∧ BitVec.ofNat 32 n = x.setWidth 32 := by
  subst h
  exact ⟨(BitVec.ofNat_toNat 17 x).trans (BitVec.setWidth_eq x), BitVec.ofNat_toNat 32 x⟩

/-- Settles O30: the latched sizes are those of the registers, so the rebuild changes only the tables. -/
theorem s2dUpdateRebuilds : Obligations.S2dUpdateRebuilds := by
  refine ⟨fun s hc htables hv => ?_, fun s hv => ?_⟩
  · obtain ⟨hshift, hdepth, -⟩ := htables.1 hv
    obtain ⟨t, ht, hend⟩ := rebuild_total hc 0x02 (s.tblNShift.setWidth 32) (s.tblNDepth.setWidth 32)
    obtain ⟨hshift17, hshift32⟩ := ofNat_of_toNat_eq hshift
    obtain ⟨hdepth17, hdepth32⟩ := ofNat_of_toNat_eq hdepth
    refine ⟨t, ht, (congrArg _ (if_pos hv)).trans ?_⟩
    rw [hshift, hdepth, hend, hshift17, hdepth17, ← hv, ← hshift32, ← hdepth32]
    rfl
  · exact congrArg _ (if_neg (ne_true_of_eq_false hv))

/-- With tables built, an accepted S2D_SETCFG is its commit and a rebuild with the sizes of the new registers: those
latched are still theirs when the field affects no size. -/
theorem setcfg_cascades {f : CalibField} {vlo vhi : Word} {s : State} (htables : TablesInv s)
    (hv : s.tablesValid = true) (ha : acceptsField f vlo s.calib = true) :
    let t : State := { s with calib := commitField f vlo vhi s.calib, cfgEpoch := s.cfgEpoch + 1 }
    setcfg f vlo vhi s = rebuild 0x04 (calibNS t.calib) (calibND t.calib) t.cfgEpoch 1 t := by
  intro t
  rcases setcfg_ends f vlo vhi s with ⟨ha', -⟩ | ⟨-, ⟨hv', -⟩ | ⟨-, -, hend⟩ | ⟨-, hf, hend⟩⟩
  · exact absurd (ha.symm.trans ha') nofun
  · exact absurd (hv.symm.trans hv') nofun
  · exact hend
  · obtain ⟨hns, hnd⟩ := commitField_sizes hf vlo vhi s.calib
    obtain ⟨hshift, hdepth, -⟩ := htables.1 hv
    rw [hend, hshift.trans hns.symm, hdepth.trans hnd.symm]

/-- Settles O33: the committed registers keep the invariant, so the rebuild succeeds. -/
theorem setcfgCascades : Obligations.SetcfgCascades := fun s f lo hi hc htables hv ha => by
  obtain ⟨t, ht, hend⟩ := rebuild_total
    (s := { s with calib := commitField f lo hi s.calib, cfgEpoch := s.cfgEpoch + 1 })
    (calibInv_commitField hc ha hi) 0x04 (s.cfgEpoch + 1) 1
  exact ⟨t, ht, (exec_setcfgCommand f lo hi s).trans (congrArg _ ((setcfg_cascades htables hv ha).trans hend))⟩

/-! ### S2D_CONVERT -/

/-- One turn of the convert loop whose element is in the table and whose bytes are admitted. -/
theorem convertLoop_turn {p : Params} {s2d : List Half} {ns n i src dst : Nat} {m : Memory} (hs : Admitted p src 2)
    (hd : Admitted p dst 2) (hv : halfAt m src < ns) :
    convertLoop p s2d ns none (n + 1) i src dst m = convertLoop p s2d ns none n (i + 1) (src + 2) (dst + 2)
      (m.writeList dst (halfBytes (s2d.getD (halfAt m src) 0))) := by
  have hle : ¬ ns ≤ leNat (m.readList src 2) := Nat.not_le.2 hv
  rw [convertLoop, readChecked_of_admitted hs]
  simp only [if_neg hle, convertOut]
  rw [leNat_readList_two, writeChecked_of_admitted hd]

/-- The convert loop stops at its first element `e` past the table: what it wrote before lies behind what it reads. -/
theorem convertLoop_badShift {p : Params} {s2d : List Half} {ns n i src dst e : Nat} {m : Memory} (he : e < n)
    (hs : Admitted p src (2 * n)) (hd : Admitted p dst (2 * n)) (ho : src = dst ∨ Apart src (2 * n) dst (2 * n))
    (hv : ∀ d, d < e → halfAt m (src + 2 * d) < ns) (h : ns ≤ halfAt m (src + 2 * e)) :
    convertLoop p s2d ns none n i src dst m =
      .error ⟨.shiftIndexRange, BitVec.ofNat 32 (i + e), BitVec.ofNat 32 (halfAt m (src + 2 * e))⟩ := by
  induction e generalizing n i src dst m with
  | zero =>
    obtain ⟨n, rfl⟩ := Nat.exists_eq_add_one_of_ne_zero (Nat.ne_of_gt he)
    have hle : ns ≤ leNat (m.readList src 2) := h
    rw [convertLoop, readChecked_of_admitted (hs.sub le_rfl (by omega))]
    simp only [if_pos hle]
    rfl
  | succ e ih =>
    obtain ⟨n, rfl⟩ := Nat.exists_eq_add_one_of_ne_zero (Nat.ne_of_gt (Nat.zero_lt_of_lt he))
    have hd2 : Admitted p dst 2 := hd.sub le_rfl (by omega)
    have heff : MemEffect m (m.writeList dst (halfBytes (s2d.getD (halfAt m src) 0))) dst 2 :=
      MemEffect.writeList hd2
    have hlater (d : Nat) (hd' : d ≤ e) :
        halfAt (m.writeList dst (halfBytes (s2d.getD (halfAt m src) 0))) (src + 2 + 2 * d) =
          halfAt m (src + 2 * (d + 1)) := by
      rw [heff.halfAt (by rcases ho with rfl | ho <;> omega), show src + 2 * (d + 1) = src + 2 + 2 * d by omega]
    have ho' : src + 2 = dst + 2 ∨ Apart (src + 2) (2 * n) (dst + 2) (2 * n) := by
      rcases ho with rfl | ho
      · exact .inl rfl
      · exact .inr (by omega)
    rw [convertLoop_turn (hs.sub le_rfl (by omega)) hd2 (hv 0 (by omega)), ih (by omega)
      (hs.sub (by omega) (by omega)) (hd.sub (by omega) (by omega)) ho'
      (fun d hd' => by rw [hlater d (by omega)]; exact hv (d + 1) (by omega)) (by rwa [hlater e le_rfl]),
      hlater e le_rfl, Nat.add_right_comm, Nat.add_assoc]

/-- S2D_CONVERT without tables faults before it touches memory, whatever its ranges share. -/
theorem execS2dConvert_notValid {s : State} {src count dst : Word} (hv : s.tablesValid = false)
    (hs : InSpace src.toNat (2 * count.toNat)) (hd : InSpace dst.toNat (2 * count.toNat)) :
    ∃ n, exec (.s2dConvert src count dst) s =
      .next (raiseFault 0x05 (convertWrites count dst) ⟨.tablesNotValid, 0, 0⟩ { s with nonce := n }) := by
  simp only [exec, execS2dConvert, checkRanges_two hs hd, if_neg (ne_true_of_eq_false hv), endCommand_error]
  split_ifs
  · exact ⟨_, rfl⟩
  · exact ⟨s.nonce, rfl⟩

/-- Settles O38, from the convert loop up to its first bad shift. -/
theorem convertFaultsAtFirstBadShift : Obligations.ConvertFaultsAtFirstBadShift := by
  refine ⟨fun s src count dst i hwf hv hs hd ho hi hbefore hbad => ?_, fun s src count dst hv hs hd => ?_⟩
  · have hloop := convertLoop_badShift (s2d := s.s2d) (i := 0) hi hs hd (ho.imp_left (congrArg _)) hbefore hbad
    rw [Nat.zero_add] at hloop
    rw [execS2dConvert_eq hv hs.inSpace hd.inSpace ho, hloop]
    exact ⟨_, rfl, faulted_raiseFault _ _ _ _, fun a ha => read_raiseFault_other (inRanges_singleton.2 ha) _ _ s⟩
  · obtain ⟨n, h⟩ := execS2dConvert_notValid hv hs hd
    refine ⟨_, h, faulted_raiseFault _ _ _ _, ?_⟩
    rw [raiseFault_of_early rfl]
    rfl

/-! ### UNPACK12 -/

theorem execUnpack12_notValid {s : State} {src srclen dst dstcap : Word} (hs : InSpace src.toNat srclen.toNat)
    (hd : InSpace dst.toNat dstcap.toNat) (hv : s.tablesValid = false)
    (hfmt : s.calib.outputFormat = 100 ∨ s.calib.outputFormat = 101) (hlen : 24 ≤ srclen.toNat) :
    exec (.unpack12 src srclen dst dstcap) s = .next (faultState s 0x10 1 0 0) := by
  have hcheck : (depthFormat s.calib && decide (0 < srclen.toNat / 24) && !s.tablesValid) = true := by
    rw [hv, decide_eq_true (Nat.div_pos hlen (by decide)), depthFormat]
    simpa using hfmt
  simp only [exec, execUnpack12, checkRanges_two hs hd, hcheck, if_true]
  rfl

theorem execUnpack12_overflow {s : State} {src srclen dst dstcap : Word} (hs : InSpace src.toNat srclen.toNat)
    (hd : InSpace dst.toNat dstcap.toNat) (hr : OutputReady s (srclen.toNat / 24))
    (hcap : dstcap.toNat < 32 * (srclen.toNat / 24)) :
    exec (.unpack12 src srclen dst dstcap) s = .next (statusState s 0x10 0x02) := by
  simp only [exec, execUnpack12, checkRanges_two hs hd, outputReady_check hr, Bool.false_eq_true, if_false,
    if_pos hcap]
  rfl

/-! ### the Uncomp commands -/

theorem exec_uncompCommand (isNew last : Bool) (src srclen dst dstcap line : Word) (s : State) :
    exec (uncompCommand isNew last src srclen dst dstcap line) s =
      .next (uncomp (uncompOpcode isNew) (uncompMap isNew) last src srclen dst dstcap line s) := by
  cases isNew <;> cases last <;> rfl

section
variable {s : State} {src srclen dst dstcap : Word} (hs : InSpace src.toNat srclen.toNat)
  (hd : InSpace dst.toNat dstcap.toNat)
include hs hd

theorem uncomp_lineZero (opc : BitVec 8) (map : List (Fin 3)) (last : Bool) :
    uncomp opc map last src srclen dst dstcap 0 s = faultState s opc 4 0 srclen := by
  simp only [uncomp, checkRanges_two hs hd, if_true]
  rfl

variable {line : Word} (hline : line ≠ 0) (ha : Admitted s.params src.toNat srclen.toNat) {map : List (Fin 3)}
  {last : Bool}
include hline ha

theorem uncomp_overflow (h : decodeStream (bufNibble (s.mem.readList src.toNat srclen.toNat)) map srclen.toNat
      dstcap.toNat line.toNat last = .ok .outputOverflow) (opc : BitVec 8) :
    uncomp opc map last src srclen dst dstcap line s = statusState s opc 0x02 := by
  simp only [uncomp, checkRanges_two hs hd, if_neg hline, decodeStream_mem ha, h]
  rfl

theorem uncomp_tooSmall (h : decodeStream (bufNibble (s.mem.readList src.toNat srclen.toNat)) map srclen.toNat
      dstcap.toNat line.toNat last = .ok .inputTooSmall) (opc : BitVec 8) :
    uncomp opc map last src srclen dst dstcap line s = statusState s opc 0x01 := by
  simp only [uncomp, checkRanges_two hs hd, if_neg hline, decodeStream_mem ha, h]
  rfl

end

/-- Settles O41. -/
theorem decoderRefusals : Obligations.DecoderRefusals := by
  refine ⟨fun s src srclen dst dstcap hs hd => ⟨execUnpack12_notValid hs hd, execUnpack12_overflow hs hd⟩,
    fun s isNew last src srclen dst dstcap line hs hd => ?_⟩
  intro i result
  have hexec : exec i s = _ := exec_uncompCommand isNew last src srclen dst dstcap line s
  refine ⟨fun hzero => ?_, fun hline ha hresult => ?_, fun hline ha hresult => ?_⟩
  · subst hzero
    rw [hexec, uncomp_lineZero hs hd]
  · rw [hexec, uncomp_overflow hs hd hline ha hresult]
  · rw [hexec, uncomp_tooSmall hs hd hline ha hresult]

end Sys2Proof.Machine
end

