-- ==== Sys2Proof/Proofs/TableContents.lean ====
section
/-! PROOFS. Proofs/TableContents.lean: what Build stores (40_s2d_engine.md rule R154). The scan keeps an invariant that
gives every entry of both tables at every shift index; the tail and the closed form of the depth-to-shift table follow
from it. -/

namespace Sys2Proof.Machine

-- One proof after the other: side by side they take this text past the memory its check allows.
set_option Elab.async false

/-! ### the last kept index -/

/-- The index found is a kept one below `n`, or none is and it is 0. -/
theorem lastKeptBelow_cases (kept : Nat → Bool) (n : Nat) :
    (kept (lastKeptBelow kept n) = true ∧ lastKeptBelow kept n < n) ∨ lastKeptBelow kept n = 0 := by
  induction n with
  | zero => exact .inr rfl
  | succ n ih =>
    unfold lastKeptBelow
    split_ifs with h
    · exact .inl ⟨h, n.lt_succ_self⟩
    · exact ih.imp_left fun ⟨hk, hlt⟩ => ⟨hk, hlt.trans n.lt_succ_self⟩

theorem le_lastKeptBelow {kept : Nat → Bool} {i n : Nat} (hi : i < n) (hk : kept i = true) :
    i ≤ lastKeptBelow kept n := by
  induction n with
  | zero => exact absurd hi i.not_lt_zero
  | succ n ih =>
    unfold lastKeptBelow
    split_ifs with h
    · exact Nat.le_of_lt_succ hi
    · exact ih (lt_of_le_of_ne (Nat.le_of_lt_succ hi) fun he => h (he ▸ hk))

theorem lastKeptBelow_mono {kept kept' : Nat → Bool} (h : ∀ i, kept i = true → kept' i = true) (n : Nat) :
    lastKeptBelow kept n ≤ lastKeptBelow kept' n := by
  rcases lastKeptBelow_cases kept n with ⟨hk, hlt⟩ | h0
  · exact le_lastKeptBelow hlt (h _ hk)
  · exact h0 ▸ Nat.zero_le _

theorem lastKeptBelow_succ_of_not {kept : Nat → Bool} {n : Nat} (h : kept n = false) :
    lastKeptBelow kept (n + 1) = lastKeptBelow kept n :=
  if_neg (ne_true_of_eq_false h)

theorem lastKeptBelow_succ_of {kept : Nat → Bool} {n : Nat} (h : kept n = true) : lastKeptBelow kept (n + 1) = n :=
  if_pos h

theorem getD_set (l : List Half) {s : Nat} (hs : s < l.length) (x : Half) (i : Nat) :
    (l.set s x).getD i 0 = if s = i then x else l.getD i 0 := by
  rw [List.getD_eq_getElem?_getD, List.getD_eq_getElem?_getD, List.getElem?_set]
  split_ifs <;> rfl

theorem getElem?_of_getD {l : List Half} {i : Nat} {x : Half} (hi : i < l.length) (h : l.getD i 0 = x) :
    l[i]? = some x := by
  rw [List.getElem?_eq_getElem hi, ← h, List.getD_eq_getElem _ _ hi]

/-! ### the entries rule R154 stores -/

/-- Shift index `i` is in the scan and its depth passes the keep test. -/
def keptShift (p : Params) (c : Calib) (i : Nat) : Bool :=
  decide (1 ≤ i ∧ i < c.maxShift.toNat) && keptDepth (buildConsts p c) (shiftDepth (buildConsts p c) i)

/-- The S2D entry of shift index `i`. -/
def storedDepth (p : Params) (c : Calib) (i : Nat) : Half :=
  if keptShift p c i then (shiftDepth (buildConsts p c) i).truncHalf else 0

/-- `lastIndex` when the scan reaches `n`. -/
abbrev prevKept (p : Params) (c : Calib) (n : Nat) : Nat := lastKeptBelow (keptShift p c) n

/-- The fill of kept shift `i` writes D2S entry `j`. -/
abbrev Covers (p : Params) (c : Calib) (i j : Nat) : Prop :=
  keptShift p c i = true ∧ (storedDepth p c (prevKept p c i)).toNat ≤ j ∧
    (F64.ofNat j).lt (shiftDepth (buildConsts p c) i) = true

/-- D2S entry `j` when the scan reaches `n`: what the last fill that covers it gives. -/
def filledShift (p : Params) (c : Calib) : Nat → Nat → Half
  | 0, _ => 0
  | n + 1, j => if Covers p c n j then BitVec.ofNat 16 (prevKept p c n) else filledShift p c n j

section
variable {p : Params} {c : Calib}

theorem keptShift_iff {i : Nat} : keptShift p c i = true ↔
    1 ≤ i ∧ i < c.maxShift.toNat ∧ keptDepth (buildConsts p c) (shiftDepth (buildConsts p c) i) = true := by
  rw [keptShift, Bool.and_eq_true, decide_eq_true_iff, and_assoc]

/-- A kept shift has an S2D entry. -/
theorem lt_calibNS_of_kept {i : Nat} (h : keptShift p c i = true) : i < calibNS c :=
  (keptShift_iff.1 h).2.1.trans c.maxShift.toNat.lt_succ_self

theorem keptShift_zero : keptShift p c 0 = false := rfl

theorem keptShift_maxShift : keptShift p c c.maxShift.toNat = false :=
  eq_false_of_ne_true fun h => (keptShift_iff.1 h).2.1.false

/-- A kept depth lies strictly between the cutoffs. -/
theorem between_of_kept {i : Nat} (h : keptShift p c i = true) :
    (F64.ofNat c.minCutoff.toNat).lt (shiftDepth (buildConsts p c) i) = true ∧
      (shiftDepth (buildConsts p c) i).lt (.ofNat c.maxCutoff.toNat) = true :=
  keptDepth_iff.1 (keptShift_iff.1 h).2.2

theorem storedDepth_of_kept {i : Nat} (h : keptShift p c i = true) :
    storedDepth p c i = (shiftDepth (buildConsts p c) i).truncHalf := if_pos h

theorem storedDepth_of_not {i : Nat} (h : keptShift p c i = false) : storedDepth p c i = 0 :=
  if_neg (ne_true_of_eq_false h)

/-- The stored entry is the integer part of the depth, and below MAX_CUTOFF. -/
theorem storedDepth_toNat {i : Nat} (h : keptShift p c i = true) :
    (storedDepth p c i).toNat = (shiftDepth (buildConsts p c) i).truncNat ∧
      (storedDepth p c i).toNat < c.maxCutoff.toNat := by
  obtain ⟨htrunc, hlt⟩ := truncHalf_kept (keptShift_iff.1 h).2.2
  rw [storedDepth_of_kept h, htrunc]
  exact ⟨rfl, hlt⟩

/-- A kept depth lies within 1 above its stored entry. -/
theorem storedDepth_bounds {i : Nat} (h : keptShift p c i = true) :
    (shiftDepth (buildConsts p c) i).lt (.ofNat (storedDepth p c i).toNat) = false ∧
      (shiftDepth (buildConsts p c) i).lt (.ofNat ((storedDepth p c i).toNat + 1)) = true := by
  obtain ⟨hlo, hhi⟩ := between_of_kept h
  rw [(storedDepth_toNat h).1]
  exact F64.truncNat_bounds hlo hhi

/-- An index below the stored entry is below the depth. -/
theorem lt_shiftDepth_of_lt_stored {i j : Nat} (h : keptShift p c i = true) (hj : j < (storedDepth p c i).toNat) :
    (F64.ofNat j).lt (shiftDepth (buildConsts p c) i) = true := by
  obtain ⟨hlo, hhi⟩ := between_of_kept h
  obtain ⟨htrunc, -, -, hbelow⟩ := F64.between hlo hhi
  rw [(storedDepth_toNat h).1, htrunc] at hj
  rw [hbelow j]
  exact decide_eq_true (lt_of_not_ge fun hge => absurd (Nat.div_le_of_le_mul (by rwa [Nat.mul_comm])) (not_le.2 hj))

/-- The index found is 0 or a kept shift, and its 16-bit entry is its number. -/
theorem prevKept_cases (n : Nat) : prevKept p c n = 0 ∨ keptShift p c (prevKept p c n) = true :=
  (lastKeptBelow_cases (keptShift p c) n).symm.imp_right And.left

theorem toNat_ofNat_kept {i : Nat} (h : i = 0 ∨ keptShift p c i = true) : (BitVec.ofNat 16 i).toNat = i := by
  have hM := c.maxShift.isLt
  have hi : i < 2 ^ 16 := by
    rcases h with rfl | h
    · exact Nat.two_pow_pos 16
    · exact (keptShift_iff.1 h).2.1.trans hM
  rw [BitVec.toNat_ofNat, Nat.mod_eq_of_lt hi]

/-! ### what the last covering fill gives -/

theorem filledShift_succ_of_not {n j : Nat} (h : ¬ Covers p c n j) :
    filledShift p c (n + 1) j = filledShift p c n j := if_neg h

theorem filledShift_of_uncovered {n j : Nat} (h : ∀ i, ¬ Covers p c i j) : filledShift p c n j = 0 := by
  induction n with
  | zero => rfl
  | succ n ih => rw [filledShift_succ_of_not (h n), ih]

theorem filledShift_of_lastCover {n i j : Nat} (hi : i < n) (h : Covers p c i j)
    (hlast : ∀ k, i < k → ¬ Covers p c k j) : filledShift p c n j = BitVec.ofNat 16 (prevKept p c i) := by
  induction n with
  | zero => exact absurd hi i.not_lt_zero
  | succ n ih =>
    rcases (Nat.le_of_lt_succ hi).lt_or_eq with hlt | rfl
    · rw [filledShift_succ_of_not (hlast n hlt), ih hlt]
    · exact if_pos h

theorem filledShift_cases (n j : Nat) : filledShift p c n j = 0 ∨ keptShift p c (filledShift p c n j).toNat = true := by
  induction n with
  | zero => exact .inl rfl
  | succ n ih =>
    unfold filledShift
    split_ifs
    · rw [toNat_ofNat_kept (prevKept_cases n)]
      exact (prevKept_cases n).imp_left (congrArg (BitVec.ofNat 16))
    · exact ih

/-! ### the scan -/

/-- One shift index: nothing when it is not kept; else its entry, its fill and the new `lastDepth` and `lastIndex`. -/
theorem buildStep_eq_ok {k : BuildConsts} {nd s : Nat} {b b' : BuildState} (h : buildStep k nd s b = .ok b') :
    (keptDepth k (shiftDepth k s) = false ∧ b' = b) ∨
    (keptDepth k (shiftDepth k s) = true ∧ ∃ d2s,
      fillDepths (shiftDepth k s) s b.lastIndex (nd - b.lastDepth) b.lastDepth b.d2s = .ok d2s ∧
      b' = {
        s2d := b.s2d.set s (shiftDepth k s).truncHalf, d2s := d2s
        lastDepth := (shiftDepth k s).truncHalf.toNat, lastIndex := s }) := by
  unfold buildStep at h
  simp only at h
  split_ifs at h with hkept
  · split at h
    · cases h
    · rename_i d2s hfill
      exact .inr ⟨hkept, d2s, hfill, (Except.ok.inj h).symm⟩
  · exact .inl ⟨eq_false_of_ne_true hkept, (Except.ok.inj h).symm⟩

/-- What the inner loop leaves in D2S for a kept depth. -/
theorem fillDepths_get {i : Nat} (hkept : keptShift p c i = true) {s lastIndex start : Nat} {d2s d2s' : List Half}
    (h : fillDepths (shiftDepth (buildConsts p c) i) s lastIndex (d2s.length - start) start d2s = .ok d2s') {j : Nat}
    (hj : j < d2s.length) :
    d2s'.getD j 0 = if start ≤ j ∧ (F64.ofNat j).lt (shiftDepth (buildConsts p c) i) = true
      then BitVec.ofNat 16 lastIndex else d2s.getD j 0 := by
  obtain ⟨hlo, hhi⟩ := between_of_kept hkept
  obtain ⟨-, -, -, hbelow⟩ := F64.between hlo hhi
  rcases fillDepths_spec hbelow s lastIndex (d2s.length - start) start d2s rfl with
    ⟨-, f, hf, -⟩ | ⟨-, d, hd, hget⟩
  · cases h.symm.trans hf
  · cases h.symm.trans hd
    rw [hget j hj, hbelow j]
    simp only [decide_eq_true_iff]

/-- The tables under construction when the scan reaches shift index `n`. -/
structure ScanInv (p : Params) (c : Calib) (nd n : Nat) (b : BuildState) : Prop where
  s2d_length : b.s2d.length = calibNS c
  d2s_length : b.d2s.length = nd
  lastIndex : b.lastIndex = prevKept p c n
  lastDepth : b.lastDepth = (storedDepth p c (prevKept p c n)).toNat
  s2d : ∀ i, b.s2d.getD i 0 = if i < n then storedDepth p c i else 0
  d2s : ∀ j, j < nd → b.d2s.getD j 0 = filledShift p c n j

theorem ScanInv.start (p : Params) (c : Calib) (nd : Nat) : ScanInv p c nd 0
    { s2d := List.replicate (calibNS c) 0, d2s := List.replicate nd 0, lastDepth := 0, lastIndex := 0 } where
  s2d_length := List.length_replicate
  d2s_length := List.length_replicate
  lastIndex := rfl
  lastDepth := congrArg BitVec.toNat (storedDepth_of_not keptShift_zero).symm
  s2d i := by simp
  d2s j hj := by simp [filledShift]

theorem ScanInv.skip {nd n : Nat} {b : BuildState} (h : ScanInv p c nd n b) (hn : keptShift p c n = false) :
    ScanInv p c nd (n + 1) b where
  s2d_length := h.s2d_length
  d2s_length := h.d2s_length
  lastIndex := h.lastIndex.trans (lastKeptBelow_succ_of_not hn).symm
  lastDepth := by rw [h.lastDepth, prevKept, prevKept, lastKeptBelow_succ_of_not hn]
  s2d i := by
    rw [h.s2d i]
    rcases Nat.lt_trichotomy i n with hlt | rfl | hgt
    · rw [if_pos hlt, if_pos (by omega)]
    · rw [if_neg (lt_irrefl i), if_pos i.lt_succ_self, storedDepth_of_not hn]
    · rw [if_neg (by omega), if_neg (by omega)]
  d2s j hj := by rw [h.d2s j hj, filledShift_succ_of_not fun hcov => ne_true_of_eq_false hn hcov.1]

theorem ScanInv.fill {nd n : Nat} {b : BuildState} {d2s : List Half} (h : ScanInv p c nd n b)
    (hn : keptShift p c n = true)
    (hfill : fillDepths (shiftDepth (buildConsts p c) n) n b.lastIndex (nd - b.lastDepth) b.lastDepth b.d2s =
      .ok d2s) :
    ScanInv p c nd (n + 1) {
      s2d := b.s2d.set n (shiftDepth (buildConsts p c) n).truncHalf, d2s := d2s
      lastDepth := (shiftDepth (buildConsts p c) n).truncHalf.toNat, lastIndex := n } where
  s2d_length := List.length_set.trans h.s2d_length
  d2s_length := (length_fillDepths hfill).trans h.d2s_length
  lastIndex := (lastKeptBelow_succ_of hn).symm
  lastDepth := by rw [prevKept, lastKeptBelow_succ_of hn, storedDepth_of_kept hn]
  s2d i := by
    have hlen : n < b.s2d.length := h.s2d_length ▸ lt_calibNS_of_kept hn
    rw [getD_set b.s2d hlen, h.s2d i, ← storedDepth_of_kept hn]
    rcases Nat.lt_trichotomy i n with hlt | rfl | hgt
    · rw [if_neg (by omega), if_pos hlt, if_pos (by omega)]
    · rw [if_pos rfl, if_pos i.lt_succ_self]
    · rw [if_neg (by omega), if_neg (by omega), if_neg (by omega)]
  d2s j hj := by
    rw [← h.d2s_length] at hfill hj
    rw [fillDepths_get hn hfill hj, h.lastIndex, h.lastDepth, h.d2s j (h.d2s_length ▸ hj), filledShift]
    exact if_congr (by rw [Covers, and_iff_right hn]) rfl rfl

theorem ScanInv.step {nd n : Nat} {b b' : BuildState} (h : ScanInv p c nd n b) (hn : 1 ≤ n)
    (hM : n < c.maxShift.toNat) (hstep : buildStep (buildConsts p c) nd n b = .ok b') :
    ScanInv p c nd (n + 1) b' := by
  rcases buildStep_eq_ok hstep with ⟨hkept, rfl⟩ | ⟨hkept, d2s, hfill, rfl⟩
  · exact h.skip (by rw [keptShift, hkept, Bool.and_false])
  · exact h.fill (keptShift_iff.2 ⟨hn, hM, hkept⟩) hfill

/-- The whole scan: MAX_SHIFT itself is not kept, so the invariant stands past it. -/
theorem ScanInv.of_buildScan {nd : Nat} {b : BuildState} (h : buildScan (buildConsts p c) nd (c.maxShift.toNat - 1) 1
      { s2d := List.replicate (calibNS c) 0, d2s := List.replicate nd 0, lastDepth := 0, lastIndex := 0 } = .ok b) :
    ScanInv p c nd (c.maxShift.toNat + 1) b := by
  have hend := buildScan_ind (P := ScanInv p c nd) ((ScanInv.start p c nd).skip keptShift_zero)
    (fun i b b' hi hlt hb hstep => hb.step hi (by omega) hstep) h
  rcases Nat.eq_zero_or_pos c.maxShift.toNat with h0 | hpos
  · rwa [h0] at hend ⊢
  · rw [Nat.add_sub_cancel' hpos] at hend
    exact hend.skip keptShift_maxShift

/-! ### the tables -/

/-- Every entry of both tables: the tail is written over what the fills left. -/
theorem buildTables_get {nd : Nat} {t : List Half × List Half} (h : buildTables p c (calibNS c) nd = .ok t) :
    t.1.length = calibNS c ∧ t.2.length = nd ∧ (∀ i, t.1.getD i 0 = storedDepth p c i) ∧
      ∀ j, j < nd → t.2.getD j 0 =
        if (storedDepth p c (prevKept p c c.maxShift.toNat)).toNat ≤ j ∧ j ≤ c.maxDepth.toNat
        then BitVec.ofNat 16 (prevKept p c c.maxShift.toNat) else filledShift p c (c.maxShift.toNat + 1) j := by
  unfold buildTables at h
  split at h
  · cases h
  · rename_i b hscan
    obtain rfl := Except.ok.inj h
    have hb := ScanInv.of_buildScan hscan
    have hlast : prevKept p c (c.maxShift.toNat + 1) = prevKept p c c.maxShift.toNat :=
      lastKeptBelow_succ_of_not keptShift_maxShift
    refine ⟨hb.s2d_length, (length_fillTail ..).trans hb.d2s_length, fun i => ?_, fun j hj => ?_⟩
    · rw [hb.s2d i]
      split_ifs with hi
      · rfl
      · exact (storedDepth_of_not (eq_false_of_ne_true (mt lt_calibNS_of_kept hi))).symm
    · rw [fillTail_get _ _ _ _ _ (hb.d2s_length.symm ▸ hj), hb.d2s j hj, hb.lastIndex, hb.lastDepth, hlast]
      exact if_congr (by omega) rfl rfl

end

/-- Settles O35, from the entries of the tables. -/
theorem buildTableContents : Obligations.BuildTableContents := by
  intro p c nd t h number scale cs pps z metric depth kept prev stored covers last inTail
  obtain ⟨hlen1, hlen2, hs2d, hd2s⟩ := buildTables_get h
  have hkept : kept = keptShift p c := rfl
  have hstored (i : Nat) : stored i = (storedDepth p c i).toNat := congrArg BitVec.toNat (hs2d i)
  have hcovers (i j : Nat) : covers i j ↔ Covers p c i j := by
    show kept i = true ∧ stored (prev i) ≤ j ∧ _ ↔ _
    rw [hstored]
    rfl
  have htail (j : Nat) : inTail j ↔
      (storedDepth p c (prevKept p c c.maxShift.toNat)).toNat ≤ j ∧ j ≤ c.maxDepth.toNat := by
    show stored last ≤ j ∧ _ ↔ _
    rw [hstored]
    rfl
  have houtside (j : Nat) (hj : j < nd) (hnot : ¬ inTail j) :
      t.2.getD j 0 = filledShift p c (c.maxShift.toNat + 1) j :=
    (hd2s j hj).trans (if_neg (mt (htail j).2 hnot))
  refine ⟨hlen1, hlen2, fun i hi => ?_, fun i hi => ?_, fun j hj hin => ?_, fun i j hj hnot hcov hlast => ?_,
    fun j hj hnot hnone => ?_, fun x hx => ?_⟩
  · exact getElem?_of_getD (hlen1 ▸ Nat.lt_succ_of_le hi) (hs2d i)
  · rw [hstored]
    exact storedDepth_bounds hi
  · exact getElem?_of_getD (hlen2 ▸ hj) ((hd2s j hj).trans (if_pos ((htail j).1 hin)))
  · refine getElem?_of_getD (hlen2 ▸ hj) ((houtside j hj hnot).trans ?_)
    have hcov' := (hcovers i j).1 hcov
    exact filledShift_of_lastCover (lt_calibNS_of_kept hcov'.1) hcov' fun k hk => mt (hcovers k j).2 (hlast k hk)
  · refine getElem?_of_getD (hlen2 ▸ hj) ((houtside j hj hnot).trans ?_)
    exact filledShift_of_uncovered fun i => mt (hcovers i j).2 (hnone i)
  · obtain ⟨j, hj, rfl⟩ := List.getElem_of_mem hx
    rw [← List.getD_eq_getElem t.2 0 hj, hd2s j (hlen2 ▸ hj), hkept]
    split_ifs
    · rw [toNat_ofNat_kept (prevKept_cases _)]
      exact (prevKept_cases _).imp_left (congrArg (BitVec.ofNat 16))
    · exact filledShift_cases _ j

/-! ### the depth-to-shift table in closed form -/

/-- The greatest kept shift below `n` whose stored depth is at most `j`, or 0. -/
def shiftOfDepth (p : Params) (c : Calib) (n j : Nat) : Nat :=
  lastKeptBelow (fun i => keptShift p c i && decide ((storedDepth p c i).toNat ≤ j)) n

section
variable {p : Params} {c : Calib}

theorem shiftOfDepth_cases (n j : Nat) : shiftOfDepth p c n j = 0 ∨
    (keptShift p c (shiftOfDepth p c n j) = true ∧ (storedDepth p c (shiftOfDepth p c n j)).toNat ≤ j) := by
  rcases lastKeptBelow_cases (fun i => keptShift p c i && decide ((storedDepth p c i).toNat ≤ j)) n with ⟨h, -⟩ | h
  · rw [Bool.and_eq_true, decide_eq_true_iff] at h
    exact .inr h
  · exact .inl h

theorem le_shiftOfDepth {i n j : Nat} (hi : i < n) (hk : keptShift p c i = true)
    (hj : (storedDepth p c i).toNat ≤ j) : i ≤ shiftOfDepth p c n j :=
  le_lastKeptBelow hi (by rw [hk, decide_eq_true hj]; rfl)

theorem shiftOfDepth_mono (n : Nat) {j j' : Nat} (h : j ≤ j') : shiftOfDepth p c n j ≤ shiftOfDepth p c n j' :=
  lastKeptBelow_mono (fun i hi => by
    rw [Bool.and_eq_true, decide_eq_true_iff] at hi ⊢
    exact ⟨hi.1, hi.2.trans h⟩) n

/-- At or above the last stored depth it is the last kept shift. -/
theorem shiftOfDepth_of_le {n j : Nat} (h : (storedDepth p c (prevKept p c n)).toNat ≤ j) :
    shiftOfDepth p c n j = prevKept p c n := by
  refine le_antisymm (lastKeptBelow_mono (fun i hi => (Bool.and_eq_true_iff.1 hi).1) n) ?_
  rcases lastKeptBelow_cases (keptShift p c) n with ⟨hk, hlt⟩ | h0
  · exact le_shiftOfDepth hlt hk h
  · exact h0.le.trans (Nat.zero_le _)

theorem shiftOfDepth_succ {n j : Nat} (h : keptShift p c n = true → j < (storedDepth p c n).toNat) :
    shiftOfDepth p c (n + 1) j = shiftOfDepth p c n j := by
  refine lastKeptBelow_succ_of_not (eq_false_of_ne_true fun hn => ?_)
  rw [Bool.and_eq_true, decide_eq_true_iff] at hn
  exact absurd hn.2 (not_le.2 (h hn.1))

/-- Below the last stored depth the fills leave the closed form: an index from the stored depth before on is covered
by the newest fill, a lower one was settled when the scan stood there. -/
theorem filledShift_eq_shiftOfDepth {n j : Nat} (h : j < (storedDepth p c (prevKept p c n)).toNat) :
    filledShift p c n j = BitVec.ofNat 16 (shiftOfDepth p c n j) := by
  induction n with
  | zero => rfl
  | succ n ih =>
    cases hn : keptShift p c n with
    | false =>
      rw [prevKept, lastKeptBelow_succ_of_not hn] at h
      rw [filledShift_succ_of_not fun hcov => ne_true_of_eq_false hn hcov.1, ih h,
        shiftOfDepth_succ fun hn' => absurd (hn.symm.trans hn') nofun]
    | true =>
      rw [prevKept, lastKeptBelow_succ_of hn] at h
      rw [shiftOfDepth_succ fun _ => h]
      rcases Nat.lt_or_ge j (storedDepth p c (prevKept p c n)).toNat with hlt | hge
      · rw [filledShift_succ_of_not fun hcov => absurd hcov.2.1 (not_le.2 hlt), ih hlt]
      · rw [shiftOfDepth_of_le hge]
        exact if_pos ⟨hn, hge, lt_shiftDepth_of_lt_stored hn h⟩

/-- Every entry of the depth-to-shift table through MAX_DEPTH. -/
theorem d2s_eq_shiftOfDepth {t : List Half × List Half} (h : buildTables p c (calibNS c) (calibND c) = .ok t) {j : Nat}
    (hj : j ≤ c.maxDepth.toNat) : (t.2.getD j 0).toNat = shiftOfDepth p c c.maxShift.toNat j := by
  have hnum : (BitVec.ofNat 16 (shiftOfDepth p c c.maxShift.toNat j)).toNat = shiftOfDepth p c c.maxShift.toNat j :=
    toNat_ofNat_kept ((shiftOfDepth_cases _ j).imp_right And.left)
  obtain ⟨-, -, -, hd2s⟩ := buildTables_get h
  rw [hd2s j (Nat.lt_succ_of_le hj)]
  split_ifs with htail
  · rw [← shiftOfDepth_of_le htail.1, hnum]
  · have hM : keptShift p c c.maxShift.toNat = true → j < (storedDepth p c c.maxShift.toNat).toNat := fun hk =>
      absurd (keptShift_maxShift.symm.trans hk) nofun
    rw [filledShift_eq_shiftOfDepth, shiftOfDepth_succ hM, hnum]
    rw [prevKept, lastKeptBelow_succ_of_not keptShift_maxShift]
    exact lt_of_not_ge fun hge => htail ⟨hge, hj⟩

end

/-- Settles O36: the closed form of the depth-to-shift table grows with the depth index and is at least every kept
shift at or below it. It holds for kept depths in any order, so the premise is not used. -/
theorem depthTableInvertsShiftTable : Obligations.DepthTableInvertsShiftTable := by
  intro p c t hinv h depth kept _
  obtain ⟨-, -, hs2d, -⟩ := buildTables_get h
  refine ⟨fun i j hij hj => ?_, fun i hi => ?_⟩
  · rw [d2s_eq_shiftOfDepth h (hij.trans hj), d2s_eq_shiftOfDepth h hj]
    exact shiftOfDepth_mono _ hij
  · have hk : keptShift p c i = true := keptShift_iff.2 hi
    have hle : (storedDepth p c i).toNat ≤ c.maxDepth.toNat := (storedDepth_toNat hk).2.le.trans hinv.2.1
    show i ≤ (t.2.getD (t.1.getD i 0).toNat 0).toNat ∧
      (t.1.getD (t.2.getD (t.1.getD i 0).toNat 0).toNat 0).toNat ≤ (t.1.getD i 0).toNat
    rw [hs2d, hs2d, d2s_eq_shiftOfDepth h hle]
    refine ⟨le_shiftOfDepth hi.2.1 hk le_rfl, ?_⟩
    rcases shiftOfDepth_cases (p := p) (c := c) c.maxShift.toNat (storedDepth p c i).toNat with h0 | ⟨-, hstored⟩
    · rw [h0, storedDepth_of_not keptShift_zero]
      exact Nat.zero_le _
    · exact hstored

end Sys2Proof.Machine
end

