-- ==== Sys2Proof/Proofs/Mirror.lean ====
section
/-! PROOFS. Proofs/Mirror.lean: MIRROR (41_mirror.md). Every layout turns the order of equal units of a line around and
permutes the bytes inside a unit, so that one fact about such a map gives what each layout writes and that mirroring
twice restores memory. -/

namespace Sys2Proof.Machine

-- One proof after the other: side by side they take this text past the memory its check allows.
set_option Elab.async false

/-! ### the layouts and their commands -/

/-- The pixels a line of the layout is a multiple of (rule R205). -/
abbrev layoutGroup (layout : Layout) : Nat := if layoutPairs layout then 2 else 1

/-- The command is MIRROR in the layout. -/
def MirrorsIn (layout : Layout) (c : Word → Word → Word → Instr) : Prop :=
  ∀ buf len width s, exec (c buf len width) s = .next (mirror layout buf len width s)

theorem layoutBpp_pos (layout : Layout) : 0 < layoutBpp layout := by cases layout <;> decide

/-- Each recognised format is one layout (rule R200). -/
theorem layout_of_mem_allMirrors {q : (Word → Word → Word → Instr) × Nat × Nat} (h : q ∈ allMirrors) :
    ∃ layout, q.2 = (layoutBpp layout, layoutGroup layout) ∧ MirrorsIn layout q.1 := by
  simp only [allMirrors, List.mem_cons, List.not_mem_nil, or_false] at h
  obtain rfl | rfl | rfl | rfl | rfl | rfl | rfl | rfl := h
  · exact ⟨.bytes1, rfl, fun _ _ _ _ => rfl⟩
  · exact ⟨.bytes2, rfl, fun _ _ _ _ => rfl⟩
  · exact ⟨.bytes2, rfl, fun _ _ _ _ => rfl⟩
  · exact ⟨.bytes2, rfl, fun _ _ _ _ => rfl⟩
  · exact ⟨.bytes2, rfl, fun _ _ _ _ => rfl⟩
  · exact ⟨.bytes3, rfl, fun _ _ _ _ => rfl⟩
  · exact ⟨.yuv422, rfl, fun _ _ _ _ => rfl⟩
  · exact ⟨.yuyv, rfl, fun _ _ _ _ => rfl⟩

theorem allMirrors_eq_append : allMirrors = pixelMirrors.map (fun q => (q.1, q.2, 1)) ++
    [(.mirrorYuv422, 2, 2), (.mirrorYuyv, 2, 2)] := rfl

theorem layout_of_mem_pixelMirrors {q : (Word → Word → Word → Instr) × Nat} (h : q ∈ pixelMirrors) :
    ∃ layout, q.2 = layoutBpp layout ∧ layoutGroup layout = 1 ∧ MirrorsIn layout q.1 := by
  have hall : (q.1, q.2, 1) ∈ allMirrors := by
    rw [allMirrors_eq_append]
    exact List.mem_append_left _ (List.mem_map_of_mem h)
  obtain ⟨layout, hq, hexec⟩ := layout_of_mem_allMirrors hall
  obtain ⟨hbpp, hgroup⟩ := Prod.mk.inj hq
  exact ⟨layout, hbpp, hgroup.symm, hexec⟩

/-! ### the checks of rule R209 -/

theorem badGeometry_iff {layout : Layout} {len width : Nat} : badGeometry layout len width = true ↔
    width = 0 ∨ len % (width * layoutBpp layout) ≠ 0 ∨ width % layoutGroup layout ≠ 0 := by
  have hpairs : (layoutPairs layout && decide (width % 2 ≠ 0)) = true ↔ width % layoutGroup layout ≠ 0 := by
    cases hp : layoutPairs layout with
    | true => simp [layoutGroup, hp]
    | false => simp [layoutGroup, hp, Nat.mod_one]
  rw [badGeometry, Bool.or_eq_true, Bool.or_eq_true, hpairs, decide_eq_true_iff, decide_eq_true_iff, or_assoc]

/-- MIRROR past its checks is its loop. -/
theorem mirror_eq {layout : Layout} {buf len width : Word} {s : State} (hin : InSpace buf.toNat len.toNat)
    (hmax : width.toNat ≤ s.params.mirrorMaxLinePixels) (hgeom : badGeometry layout len.toNat width.toNat = false) :
    mirror layout buf len width s = endCommand 0x20 (mirrorWrites buf len) s
      ((mirrorLoop s.params layout width.toNat (width.toNat * layoutBpp layout)
          (len.toNat / (width.toNat * layoutBpp layout)) buf.toNat s.mem).map fun m =>
        okState { s with mem := m } 0x20 (BitVec.ofNat 32 (len.toNat / (width.toNat * layoutBpp layout))) 0 0 0) := by
  simp only [mirror, checkRanges_one hin, if_neg (Nat.not_lt.2 hmax), hgeom, Bool.false_eq_true, if_false]
  cases mirrorLoop s.params layout width.toNat (width.toNat * layoutBpp layout)
    (len.toNat / (width.toNat * layoutBpp layout)) buf.toNat s.mem <;> rfl

theorem mirror_tooWide {buf len width : Word} {s : State} (hin : InSpace buf.toNat len.toNat)
    (hmax : s.params.mirrorMaxLinePixels < width.toNat) (layout : Layout) :
    mirror layout buf len width s = statusState s 0x20 0x01 := by
  simp only [mirror, checkRanges_one hin, if_pos hmax]
  rfl

theorem mirror_badGeometry {layout : Layout} {buf len width : Word} {s : State} (hin : InSpace buf.toNat len.toNat)
    (hmax : width.toNat ≤ s.params.mirrorMaxLinePixels) (hgeom : badGeometry layout len.toNat width.toNat = true) :
    mirror layout buf len width s = faultState s 0x20 4 width len := by
  simp only [mirror, checkRanges_one hin, if_neg (Nat.not_lt.2 hmax), hgeom, if_true]
  rfl

/-- Settles O49: the width limit stands before the geometry check, and both before the loop. -/
theorem mirrorRefusals : Obligations.MirrorRefusals := by
  refine ⟨fun s fmt buf len width => rfl, fun s q buf len width hq hin => ?_⟩
  obtain ⟨layout, hq2, hexec⟩ := layout_of_mem_allMirrors hq
  rw [hexec, hq2]
  exact ⟨fun hmax => congrArg _ (mirror_tooWide hin hmax layout),
    fun hmax hbad => congrArg _ (mirror_badGeometry hin hmax (badGeometry_iff.2 hbad))⟩

/-! ### turning the units of a line around -/

/-- Where byte `j` comes from when `n` units of `b` bytes are turned around, byte `k` of a unit coming from position
`perm k` of its source unit. -/
def turnUnits (b n : Nat) (perm : Nat → Nat) (j : Nat) : Nat := (n - 1 - j / b) * b + perm (j % b)

/-- The map permutes the positions of a `b`-byte unit and is its own inverse there. -/
def SwapsWithin (b : Nat) (perm : Nat → Nat) : Prop := ∀ k, k < b → perm k < b ∧ perm (perm k) = k

theorem turnUnits_at {b k : Nat} (hk : k < b) (n : Nat) (perm : Nat → Nat) (i : Nat) :
    turnUnits b n perm (i * b + k) = (n - 1 - i) * b + perm k := by
  have hdiv : (i * b + k) / b = i := by
    rw [Nat.mul_comm, Nat.mul_add_div (by omega), Nat.div_eq_of_lt hk, Nat.add_zero]
  have hmod : (i * b + k) % b = k := by rw [Nat.mul_comm, Nat.mul_add_mod, Nat.mod_eq_of_lt hk]
  rw [turnUnits, hdiv, hmod]

theorem turnUnits_turnUnits {b n j : Nat} {perm : Nat → Nat} (hperm : SwapsWithin b perm) (hj : j < n * b) :
    turnUnits b n perm (turnUnits b n perm j) = j := by
  have hi : j / b < n := Nat.div_lt_of_lt_mul (by rwa [Nat.mul_comm])
  have hk : j % b < b := Nat.mod_lt j (Nat.pos_of_ne_zero fun hb => by simp [hb] at hj)
  obtain ⟨hlt, hinv⟩ := hperm _ hk
  calc turnUnits b n perm (turnUnits b n perm j)
      = (n - 1 - (n - 1 - j / b)) * b + perm (perm (j % b)) := turnUnits_at hlt n perm _
    _ = j / b * b + j % b := by rw [hinv, Nat.sub_sub_self (by omega)]
    _ = j := Nat.div_add_mod' j b

theorem swapsWithin_id (b : Nat) : SwapsWithin b id := fun _ hk => ⟨hk, rfl⟩

theorem swapsWithin_yuv422 : SwapsWithin 4 yuv422Source := by unfold SwapsWithin; decide

theorem swapsWithin_yuyv : SwapsWithin 4 yuyvSource := by unfold SwapsWithin; decide

/-- Rule R206: the units are the pixels, the bytes of a pixel stay in order. -/
theorem mirrorSource_pixels {layout : Layout} (h : layoutGroup layout = 1) (width : Nat) :
    mirrorSource layout width = turnUnits (layoutBpp layout) width id := by
  cases layout with
  | bytes1 | bytes2 | bytes3 => rfl
  | yuv422 | yuyv => exact absurd h (by decide)

theorem mirrorSource_yuv422 (width : Nat) :
    mirrorSource .yuv422 width = turnUnits 4 (width / 2) yuv422Source :=
  funext fun j => congrArg (· + yuv422Source (j % 4)) (Nat.mul_comm ..)

theorem mirrorSource_yuyv (width : Nat) : mirrorSource .yuyv width = turnUnits 4 (width / 2) yuyvSource :=
  funext fun j => congrArg (· + yuyvSource (j % 4)) (Nat.mul_comm ..)

/-- The 4-byte groups of a line are its 2-pixel groups (rules R207, R208). -/
theorem groups_bytes {width : Nat} (h : width % 2 = 0) : width / 2 * 4 = width * 2 := by omega

/-- Rule R210: each transform is its own inverse. -/
theorem mirrorSource_mirrorSource {layout : Layout} {width j : Nat} (hgroup : width % layoutGroup layout = 0)
    (hj : j < width * layoutBpp layout) : mirrorSource layout width (mirrorSource layout width j) = j := by
  cases layout with
  | bytes1 | bytes2 | bytes3 =>
    rw [mirrorSource_pixels rfl]
    exact turnUnits_turnUnits (swapsWithin_id _) hj
  | yuv422 =>
    rw [mirrorSource_yuv422]
    exact turnUnits_turnUnits swapsWithin_yuv422 ((groups_bytes hgroup).symm ▸ hj)
  | yuyv =>
    rw [mirrorSource_yuyv]
    exact turnUnits_turnUnits swapsWithin_yuyv ((groups_bytes hgroup).symm ▸ hj)

/-! ### a completed MIRROR -/

/-- The operands with which MIRROR completes OK (rules R204, R205, R85). -/
structure MirrorOperands (p : Params) (layout : Layout) (buf len width : Word) : Prop where
  pos : 1 ≤ width.toNat
  group : width.toNat % layoutGroup layout = 0
  max : width.toNat ≤ p.mirrorMaxLinePixels
  lines : len.toNat % (width.toNat * layoutBpp layout) = 0
  admitted : Admitted p buf.toNat len.toNat

/-- From `m` to `m'` the lines of the buffer are mirrored and nothing else changes (rules R201, R202). -/
structure LinesMirrored (layout : Layout) (buf len width : Word) (m m' : Memory) : Prop where
  effect : MemEffect m m' buf.toNat len.toNat
  line : ∀ l j, l < len.toNat / (width.toNat * layoutBpp layout) → j < width.toNat * layoutBpp layout →
    m'.read (buf.toNat + l * (width.toNat * layoutBpp layout) + j) =
      m.read (buf.toNat + l * (width.toNat * layoutBpp layout) + mirrorSource layout width.toNat j)

theorem MirrorOperands.completes {layout : Layout} {buf len width : Word} {s : State}
    (h : MirrorOperands s.params layout buf len width) (hwf : s.mem.wf = true) :
    ∃ m, mirror layout buf len width s = okState { s with mem := m } 0x20
        (BitVec.ofNat 32 (len.toNat / (width.toNat * layoutBpp layout))) 0 0 0 ∧
      LinesMirrored layout buf len width s.mem m := by
  have hlen : len.toNat / (width.toNat * layoutBpp layout) * (width.toNat * layoutBpp layout) = len.toNat :=
    Nat.div_mul_cancel (Nat.dvd_of_mod_eq_zero h.lines)
  have hgeom : badGeometry layout len.toNat width.toNat = false := by
    rw [← Bool.not_eq_true, badGeometry_iff]
    have hpos := h.pos
    exact not_or.2 ⟨by omega, not_or.2 ⟨not_not.2 h.lines, not_not.2 h.group⟩⟩
  obtain ⟨m, hm, hline⟩ := mirrorLoop_value (layout := layout) (width := width.toNat) hwf (hlen.symm ▸ h.admitted)
    fun j hj => mirrorSource_lt h.group hj
  refine ⟨m, ?_, hlen ▸ mirrorLoop_effect hm, hline⟩
  rw [mirror_eq h.admitted.inSpace h.max hgeom, hm]
  rfl

/-- Mirroring the lines of a mirrored buffer gives each byte its old value (rule R210). -/
theorem LinesMirrored.read_twice {p : Params} {layout : Layout} {buf len width : Word} {m m' m'' : Memory}
    (h : LinesMirrored layout buf len width m m') (h' : LinesMirrored layout buf len width m' m'')
    (hops : MirrorOperands p layout buf len width) (a : Nat) : m''.read a = m.read a := by
  by_cases ha : a < buf.toNat ∨ buf.toNat + len.toNat ≤ a
  · rw [h'.effect.2 a ha, h.effect.2 a ha]
  · have hl : (a - buf.toNat) / (width.toNat * layoutBpp layout) < len.toNat / (width.toNat * layoutBpp layout) :=
      Nat.div_lt_div_of_lt_of_dvd (Nat.dvd_of_mod_eq_zero hops.lines) (by omega)
    have hj : (a - buf.toNat) % (width.toNat * layoutBpp layout) < width.toNat * layoutBpp layout :=
      Nat.mod_lt _ (Nat.mul_pos hops.pos (layoutBpp_pos layout))
    have hsplit : buf.toNat + (a - buf.toNat) / (width.toNat * layoutBpp layout) * (width.toNat * layoutBpp layout) +
        (a - buf.toNat) % (width.toNat * layoutBpp layout) = a := by
      rw [Nat.add_assoc, Nat.div_add_mod', Nat.add_sub_cancel' (by omega)]
    have htwice := (h'.line _ _ hl hj).trans (h.line _ _ hl (mirrorSource_lt hops.group hj))
    rwa [mirrorSource_mirrorSource hops.group hj, hsplit] at htwice

/-- A completed MIRROR by units of a line: byte `k` of unit `i` is byte `perm k` of the unit as far from the end. -/
theorem MirrorOperands.completes_units {layout : Layout} {buf len width : Word} {s : State}
    (h : MirrorOperands s.params layout buf len width) (hwf : s.mem.wf = true) {b n : Nat} {perm : Nat → Nat}
    (hsource : mirrorSource layout width.toNat = turnUnits b n perm)
    (hbytes : n * b = width.toNat * layoutBpp layout) :
    ∃ m, mirror layout buf len width s = okState { s with mem := m } 0x20
        (BitVec.ofNat 32 (len.toNat / (width.toNat * layoutBpp layout))) 0 0 0 ∧
      (∀ l i k, l < len.toNat / (width.toNat * layoutBpp layout) → i < n → k < b →
        m.read (buf.toNat + l * (width.toNat * layoutBpp layout) + i * b + k) =
          s.mem.read (buf.toNat + l * (width.toNat * layoutBpp layout) + (n - 1 - i) * b + perm k)) ∧
      ∀ a, (a < buf.toNat ∨ buf.toNat + len.toNat ≤ a) → m.read a = s.mem.read a := by
  obtain ⟨m, hm, hmem⟩ := h.completes hwf
  refine ⟨m, hm, fun l i k hl hi hk => ?_, hmem.effect.2⟩
  have hunit : (i + 1) * b ≤ n * b := Nat.mul_le_mul_right b hi
  rw [Nat.succ_mul] at hunit
  rw [Nat.add_assoc _ (i * b), hmem.line l _ hl (by omega), hsource, turnUnits_at hk, ← Nat.add_assoc]

/-- Settles O46: the units are the pixels. -/
theorem mirrorPixelLayouts : Obligations.MirrorPixelLayouts := by
  intro s q buf len width hq lineBytes hwf hpos hmax hlines hadm
  obtain ⟨layout, hbpp, hgroup, hexec⟩ := layout_of_mem_pixelMirrors hq
  have hbytes : lineBytes = width.toNat * layoutBpp layout := congrArg _ hbpp
  rw [hbytes] at hlines ⊢
  rw [hexec, hbpp]
  obtain ⟨m, hm, hpixels⟩ := MirrorOperands.completes_units (layout := layout)
    ⟨hpos, by rw [hgroup, Nat.mod_one], hmax, hlines, hadm⟩ hwf (mirrorSource_pixels hgroup _) rfl
  exact ⟨m, congrArg _ hm, hpixels⟩

/-- Settles O47: the units are the 4-byte groups. -/
theorem mirrorYuvLayouts : Obligations.MirrorYuvLayouts := by
  intro s yuyv buf len width i lineBytes groups hwf hpos heven hmax hlines hadm
  cases yuyv with
  | true =>
    obtain ⟨m, hm, hgroups, hout⟩ := MirrorOperands.completes_units (layout := .yuyv)
      ⟨by omega, heven, hmax, hlines, hadm⟩ hwf (mirrorSource_yuyv _) (groups_bytes heven)
    refine ⟨m, congrArg _ hm, fun l g hl hg => ?_, hout⟩
    have hbyte (k : Nat) (hk : k < 4) := hgroups l g k hl hg hk
    rw [Nat.mul_comm 4, Nat.mul_comm 4]
    exact ⟨hbyte 0 (by omega), hbyte 1 (by omega), hbyte 2 (by omega), hbyte 3 (by omega)⟩
  | false =>
    obtain ⟨m, hm, hgroups, hout⟩ := MirrorOperands.completes_units (layout := .yuv422)
      ⟨by omega, heven, hmax, hlines, hadm⟩ hwf (mirrorSource_yuv422 _) (groups_bytes heven)
    refine ⟨m, congrArg _ hm, fun l g hl hg => ?_, hout⟩
    have hbyte (k : Nat) (hk : k < 4) := hgroups l g k hl hg hk
    rw [Nat.mul_comm 4, Nat.mul_comm 4]
    exact ⟨hbyte 0 (by omega), hbyte 1 (by omega), hbyte 2 (by omega), hbyte 3 (by omega)⟩

/-- Settles O48: the second MIRROR meets the operands of the first, and equal bytes are equal memories. -/
theorem mirrorTwiceRestores : Obligations.MirrorTwiceRestores := by
  intro s q buf len width hq hwf hpos hgroup hmax hlines hadm
  obtain ⟨layout, hq2, hexec⟩ := layout_of_mem_allMirrors hq
  rw [hq2] at hgroup hlines
  have hops : MirrorOperands s.params layout buf len width := ⟨hpos, hgroup, hmax, hlines, hadm⟩
  obtain ⟨m, hm, hmem⟩ := hops.completes hwf
  have hwf' : m.wf = true := hmem.effect.1 hwf
  obtain ⟨m', hm', hmem'⟩ := MirrorOperands.completes (s := mirror layout buf len width s) (by rw [hm]; exact hops)
    (by rw [hm]; exact hwf')
  rw [hm] at hmem'
  refine ⟨_, _, hexec .., hexec .., ?_⟩
  rw [hm']
  exact Memory.eq_of_read (hmem'.effect.1 hwf') hwf (hmem.read_twice hmem' hops)

end Sys2Proof.Machine
end

