-- ==== Sys2Proof/Proofs/Uncomp.lean ====
section
/-! PROOFS. Proofs/Uncomp.lean: the Uncomp commands over a byte list (42_uncomp.md): the end of their loop is the end of
the decode, which stays within its bounds, and a decode that ends OK is what the command stores and returns. -/

namespace Sys2Proof.Machine

-- One proof after the other: side by side they take this text past the memory its check allows.
set_option Elab.async false

/-! ### the end of the decode (rules R226, R227) -/

theorem decodeStream_of_loop {nib : Nat → Except Raise (BitVec 4)} {map : List (Fin 3)} {n cap line : Nat} {e : LoopEnd}
    (h : decodeLoop nib map (2 * n) cap line (2 * n) DecodeState.start = .ok e) (last : Bool) :
    decodeStream nib map n cap line last = .ok (decodeFinish n last e) := by
  rw [decodeStream, h]

theorem decodeFinish_ne_inputTooSmall (n : Nat) (e : LoopEnd) : decodeFinish n false e ≠ .inputTooSmall := by
  cases e with
  | overflow => exact DecodeResult.noConfusion
  | consumed st => exact DecodeResult.noConfusion
  | truncated st => exact DecodeResult.noConfusion

/-- Settles O44: the loop over a byte list never faults, and what a decode counts is bounded by its invariant. -/
theorem uncompDecodeBounds : Obligations.UncompDecodeBounds := by
  intro buf map cap line last
  obtain ⟨e, he⟩ := decodeLoop_buf buf map (2 * buf.length) cap line (2 * buf.length) DecodeState.start
  exact ⟨_, decodeStream_of_loop he last, fun hlast => hlast ▸ decodeFinish_ne_inputTooSmall _ e,
    fun _ _ hdone => decodeStream_bounds ((decodeStream_of_loop he last).trans (congrArg _ hdone))⟩

/-! ### a completed command (rules R226, R228, R229) -/

/-- Settles O42: a decode of the input bytes that ends OK, then one checked write of what it counts. -/
theorem uncompCompletes : Obligations.UncompCompletes := by
  intro s isNew last src srclen dst dstcap line rd bytes hline hd hadm hapart hdone hadm'
  rw [exec_uncompCommand]
  simp only [uncomp, checkRanges_two hadm.inSpace hd, if_neg hline, decodeStream_mem hadm, hdone,
    writeChecked_of_admitted hadm', scrambleIf_apart hapart]
  rfl

end Sys2Proof.Machine
end

