-- ==== Sys2Proof/Proofs/Completion.lean ====
section
/- PROOFS. Proofs/Completion.lean: how a command completes (46_system.md). From the ways a command ends (Endings.lean)
it follows that LAST_OPCODE holds its opcode; with what no command changes (Scope.lean) and what an end says of STATUS
(Invariants.lean) that is how every command ends. NOP, which CMD0 holds after reset, changes nothing else.

The text before this file compiles to 25 KB less than 32 MiB, and to write a larger one takes more memory than its check
allows. So the proof terms here are kept small: a fact used by one theorem stands inside it, a long conjunction is read
by projections, and headings and remarks are plain comments, which are not compiled. -/

namespace Sys2Proof.Machine

-- One proof after the other: side by side they take this text past the memory its check allows.
set_option Elab.async false

/- ### every command ends (rules R332, R343, R345) -/

-- However a command ends, LAST_OPCODE holds its opcode: `finish` and `raise` write it, on each branch of Build and of
-- S2D_SETCFG too.
theorem ExecEnding.opcode_eq {s t : State} {i : Instr} (h : ExecEnding s i t) : i.opcode = t.lastOpcode := by
  have rebuild (opc : BitVec 8) (ns nd : Nat) (r0 r1 : Word) (s : State) :
      opc = (rebuild opc ns nd r0 r1 s).lastOpcode := by
    delta Machine.rebuild
    induction buildTables s.params s.calib ns nd with
    | error f => exact Eq.refl opc
    | ok t => exact Eq.refl opc
  have setcfg (f : CalibField) (vlo vhi : Word) (s : State) : 0x04 = (Machine.setcfg f vlo vhi s).lastOpcode :=
    iteInduction (motive := fun t : State => 0x04 = t.lastOpcode)
      (fun _h => iteInduction (motive := fun t : State => 0x04 = t.lastOpcode)
        (fun _h => iteInduction (motive := fun t : State => 0x04 = t.lastOpcode)
          (fun _h => rebuild ..) fun _h => rebuild ..)
        fun _h => Eq.refl (0x04 : BitVec 8))
      fun _h => Eq.refl (0x04 : BitVec 8)
  induction h with
  | memory hset h =>
    induction h with
    | status st h => exact Eq.refl i.opcode
    | fault f n => exact Eq.refl i.opcode
    | ok m n r0 r1 r2 r3 h => exact Eq.refl i.opcode
  | free hi => exact congrArg Instr.opcode hi
  | init hi => exact (congrArg Instr.opcode hi).trans (rebuild ..)
  | update hi hv => exact (congrArg Instr.opcode hi).trans (rebuild ..)
  | setcfg f vlo vhi hi =>
    exact (congrArg Instr.opcode hi).trans ((opcode_setcfgCommand f vlo vhi).trans (setcfg f vlo vhi s))
  | frame c y m n r0 r1 r2 r3 hset hc hy hm => exact Eq.refl i.opcode
  | frameFault c f hset hc => exact Eq.refl i.opcode

/-- Settles O20, from the two ways a command ends. -/
theorem everyCommandEnds : Obligations.EveryCommandEnds := by
  -- What a completion writes to LAST_STATUS is a status code.
  have hst {v : BitVec 8} (h : ∃ st, v = statusCode st) : v ∈ legalStatusCodes ∧ v ≠ 0xFF :=
    h.elim fun st h => h ▸ statusCode_legal st
  -- A completion keeps FAULT and its registers.
  have hc {s t : State} (hf : s.fault = false) (h : Completed s t) :
      t.fault = false ∧ t.lastStatus ∈ legalStatusCodes ∧ t.lastStatus ≠ 0xFF ∧ t.faultCause = s.faultCause ∧
        t.faultInfo = s.faultInfo ∧ t.faultValue = s.faultValue :=
    ⟨h.2.2.1.trans hf, (hst h.1).1, (hst h.1).2, h.2.2.2.1, h.2.2.2.2.1, h.2.2.2.2.2.1⟩
  -- A fault sets FAULT and the fault code, and clears the results.
  have hr {t : State} (h : ∃ (opc : BitVec 8) (f : Raise), Faulted t opc (causeCode f.cause) f.info f.value) :
      t.running = none ∧ t.fault = true ∧ t.lastStatus = 0xFF ∧ t.result = #v[0, 0, 0, 0] :=
    h.elim fun opc h => h.elim fun f h => ⟨h.2.2.2.2.2.2.2, h.1, h.2.2.2.2.2.1, h.2.2.2.2.1⟩
  exact fun i s => (exec_commandFrame i s).imp fun _t h =>
    ⟨h.1, (execEnding_of_next h.1).ended.elim (fun h => h.2.1) (fun h => (hr h).1),
      (execEnding_of_next h.1).opcode_eq.symm, h.2.cmd, h.2.params, h.2.events, h.2.readData, h.2.raced,
      fun hf => (execEnding_of_next h.1).ended.imp (hc hf) fun h => (hr h).2⟩

/- ### NOP (rule R330) -/

/-- Settles O28: NOP is `finish` alone. -/
theorem nopCompletes : Obligations.NopCompletes :=
  -- The eight words of CMD0..CMD7 after reset are its encoding.
  ⟨fun _ => rfl, fun _ => decodeOfEncode .nop rfl⟩

end Sys2Proof.Machine
end
